-- ==== Sys2Proof/Word.lean ====
section
/-! DEFINITION. The word types of the block: bytes of MEM and of the wire, 16-bit hashes and CRCs, 32-bit registers
(00_scope R10, R12). -/

namespace Sys2Proof

/-- A byte (R10). -/
abbrev Byte := BitVec 8

/-- A 16-bit value: a CRC, a frame hash, an attempt counter (R12). -/
abbrev Half := BitVec 16

/-- A 32-bit register or command word (R18, R61). -/
abbrev Word := BitVec 32

end Sys2Proof
end

