-- ==== Sys2Proof/Syntax.lean ====
section
/-! DEFINITION. The commands of the block: one constructor per row of spec/opcode_table.json (30_encoding R66). -/

namespace Sys2Proof

/-- The index of one of the eight ring descriptors RB0..RB7 (R14). -/
abbrev RingIx := Fin 8

/-- An end of a ring: 0 = tail, 1 = head (R13). -/
inductive End where
  | tail
  | head
deriving DecidableEq, Repr

/-- DIR of RB_ROTL: 0 = left, toward the head; 1 = right, toward the tail (R64, R84). -/
inductive Dir where
  | left
  | right
deriving DecidableEq, Repr

/-- SEL of FS_MATCH: which pattern is tested (R64). -/
inductive Sel where
  | headPat
  | tailPat
deriving DecidableEq, Repr

/-- TIE of FS_MATCH: which qualifying alignment is reported (R64). -/
inductive Tie where
  | low
  | high
deriving DecidableEq, Repr

/-- The five flags of FS_SRCHADV, X[0] to X[4] in this order (R64). -/
structure AdvFlags where
  onFull : Bool
  toStart : Bool
  toStart1 : Bool
  entire : Bool
  ffwd : Bool
deriving DecidableEq, Repr

/-- The commands (R66). `ra` and `rb` are the fields RA and RB, `ea` and `eb` the ends EA and EB. -/
inductive Instr where
  | nop
  | rbInit (ra : RingIx)
  | rbPusho (ra : RingIx) (ea : End)
  | rbPushb (ra : RingIx) (ea : End)
  | rbPull (ra : RingIx) (ea : End) (discard : Bool)
  | rbRead (ra : RingIx) (ea : End)
  | rbWrite (ra : RingIx) (ea : End)
  | rbCut (ra : RingIx) (ea : End) (discard : Bool)
  /-- `ra` is the destination, `rb` the source (R69, R83). -/
  | rbMove (ra : RingIx) (ea : End) (rb : RingIx) (eb : End) (destr : Bool)
  | rbRotl (ra : RingIx) (dir : Dir)
  | rbRotp (ra : RingIx)
  | rbFull (ra : RingIx)
  | rbEmpty (ra : RingIx)
  | rbFlush (ra : RingIx)
  | fsMatch (ra : RingIx) (sel : Sel) (tie : Tie)
  | fsSearch (ra : RingIx) (rb : RingIx)
  | fsSrchadv (ra : RingIx) (rb : RingIx) (flags : AdvFlags)
  | bsStuff (ra : RingIx)
  | bsUnstuff (ra : RingIx)
  | crcSeed
  | crcByte
  | crcRun (ra : RingIx)
  | crcAppend (ra : RingIx)
  | crcCheck (ra : RingIx)
  | lpInit
  | lpSend (ra : RingIx) (ack : Bool)
  /-- `want` is the frame code waited for, the 7-bit field X (R64). -/
  | lpRecv (ra : RingIx) (want : Nat)
deriving DecidableEq, Repr

end Sys2Proof
end

