-- ==== Sys2Proof/WellFormed.lean ====
section
/-! DEFINITION. Which command terms have an encoding: every field must fit its bits (30_encoding R62, R63). The ring
indices, ends and modifiers fit by their types; the wanted code of LP_RECV is checked. -/

namespace Sys2Proof

/-- WANT fits the 7-bit field X (R62, R64). -/
def wantFits (want : Nat) : Bool := decide (want < 128)

/-- The command has an encoding (R62, R63). -/
def Instr.wellFormed : Instr → Bool
  | .lpRecv _ want => wantFits want
  | .nop => true
  | .rbInit _ => true
  | .rbPusho _ _ => true
  | .rbPushb _ _ => true
  | .rbPull _ _ _ => true
  | .rbRead _ _ => true
  | .rbWrite _ _ => true
  | .rbCut _ _ _ => true
  | .rbMove _ _ _ _ _ => true
  | .rbRotl _ _ => true
  | .rbRotp _ => true
  | .rbFull _ => true
  | .rbEmpty _ => true
  | .rbFlush _ => true
  | .fsMatch _ _ _ => true
  | .fsSearch _ _ => true
  | .fsSrchadv _ _ _ => true
  | .bsStuff _ => true
  | .bsUnstuff _ => true
  | .crcSeed => true
  | .crcByte => true
  | .crcRun _ => true
  | .crcAppend _ => true
  | .crcCheck _ => true
  | .lpInit => true
  | .lpSend _ _ => true

end Sys2Proof
end

