-- ==== Sys2Proof/Decode.lean ====
section
/-! DEFINITION. The decoder of the 32-bit command word, total, rejecting by name (30_encoding R61..R68), and after it the
encoder, written from the same field table. -/

namespace Sys2Proof

/-! ## Formats (R63) -/

/-- The eleven command formats (R63). -/
inductive Format where
  | n | r | re | red | rm | rr | fm | fs | fa | ls | lr
deriving DecidableEq, Repr

/-- The bits a format uses outside OPC: the "field bit mask" column of R63. -/
def Format.fieldMask : Format → Word
  | .n => 0x00000000#32
  | .r => 0x00000700#32
  | .re => 0x00010700#32
  | .red => 0x00050700#32
  | .rm => 0x00040700#32
  | .rr => 0x00077700#32
  | .fm => 0x000C0700#32
  | .fs => 0x00007700#32
  | .fa => 0x01F07700#32
  | .ls => 0x00040700#32
  | .lr => 0x07F00700#32

/-- The bits a format fixes, OPC among them: the "fixed-bit mask" column of R63. -/
def Format.fixedMask (f : Format) : Word := ~~~ f.fieldMask

/-! ## Fields of a command word (R62) -/

/-- OPC, bits [7:0]. -/
def fieldOpc (w : Word) : Nat := (w.extractLsb' 0 8).toNat
/-- RA, bits [10:8]. -/
def fieldRa (w : Word) : RingIx := (w.extractLsb' 8 3).toFin
/-- RB, bits [14:12]. -/
def fieldRb (w : Word) : RingIx := (w.extractLsb' 12 3).toFin
/-- EA, bit [16]. -/
def fieldEa (w : Word) : End := if w.getLsbD 16 then .head else .tail
/-- EB, bit [17]. -/
def fieldEb (w : Word) : End := if w.getLsbD 17 then .head else .tail
/-- M0, bit [18]. -/
def fieldM0 (w : Word) : Bool := w.getLsbD 18
/-- M1, bit [19]. -/
def fieldM1 (w : Word) : Bool := w.getLsbD 19
/-- X, bits [26:20]. -/
def fieldX (w : Word) : Nat := (w.extractLsb' 20 7).toNat
/-- M0 of RB_ROTL as DIR (R64). -/
def fieldDir (w : Word) : Dir := if fieldM0 w then .right else .left
/-- M0 of FS_MATCH as SEL (R64). -/
def fieldSel (w : Word) : Sel := if fieldM0 w then .tailPat else .headPat
/-- M1 of FS_MATCH as TIE (R64). -/
def fieldTie (w : Word) : Tie := if fieldM1 w then .high else .low
/-- X[4:0] of FS_SRCHADV as its five flags (R64). -/
def fieldFlags (w : Word) : AdvFlags :=
  { onFull := w.getLsbD 20, toStart := w.getLsbD 21, toStart1 := w.getLsbD 22, entire := w.getLsbD 23,
    ffwd := w.getLsbD 24 }

/-! ## The decoder -/

/-- Why a word spells no command (R67). -/
inductive DecodeError where
  /-- OPC is in no row of the opcode map (R68). -/
  | reservedOpcode (opc : Nat)
  /-- OPC is listed, and a bit its format fixes to 0 is 1 (R67). -/
  | mustBeZero (opc : Nat)
  /-- The bytes are not the four bytes of one command word (R61). -/
  | notOneWord (length : Nat)
deriving DecidableEq, Repr

/-- The opcode map: the format of an opcode and the command its fields spell (R66). -/
def opcodeRow (opc : Nat) (w : Word) : Option (Format × Instr) :=
  match opc with
  | 0x00 => some (.n, .nop)
  | 0x10 => some (.r, .rbInit (fieldRa w))
  | 0x11 => some (.re, .rbPusho (fieldRa w) (fieldEa w))
  | 0x12 => some (.re, .rbPushb (fieldRa w) (fieldEa w))
  | 0x13 => some (.red, .rbPull (fieldRa w) (fieldEa w) (fieldM0 w))
  | 0x14 => some (.re, .rbRead (fieldRa w) (fieldEa w))
  | 0x15 => some (.re, .rbWrite (fieldRa w) (fieldEa w))
  | 0x16 => some (.red, .rbCut (fieldRa w) (fieldEa w) (fieldM0 w))
  | 0x17 => some (.rr, .rbMove (fieldRa w) (fieldEa w) (fieldRb w) (fieldEb w) (fieldM0 w))
  | 0x18 => some (.rm, .rbRotl (fieldRa w) (fieldDir w))
  | 0x19 => some (.r, .rbRotp (fieldRa w))
  | 0x1A => some (.r, .rbFull (fieldRa w))
  | 0x1B => some (.r, .rbEmpty (fieldRa w))
  | 0x1C => some (.r, .rbFlush (fieldRa w))
  | 0x20 => some (.fm, .fsMatch (fieldRa w) (fieldSel w) (fieldTie w))
  | 0x21 => some (.fs, .fsSearch (fieldRa w) (fieldRb w))
  | 0x22 => some (.fa, .fsSrchadv (fieldRa w) (fieldRb w) (fieldFlags w))
  | 0x30 => some (.r, .bsStuff (fieldRa w))
  | 0x31 => some (.r, .bsUnstuff (fieldRa w))
  | 0x40 => some (.n, .crcSeed)
  | 0x41 => some (.n, .crcByte)
  | 0x42 => some (.r, .crcRun (fieldRa w))
  | 0x43 => some (.r, .crcAppend (fieldRa w))
  | 0x44 => some (.r, .crcCheck (fieldRa w))
  | 0x50 => some (.n, .lpInit)
  | 0x51 => some (.ls, .lpSend (fieldRa w) (fieldM0 w))
  | 0x52 => some (.lr, .lpRecv (fieldRa w) (fieldX w))
  | _ => none

/-- The bits OPC takes. -/
def opcMask : Word := 0x000000FF#32

/-- Decoding is total on every 32-bit word (R67). -/
def decode (w : Word) : Except DecodeError Instr :=
  match opcodeRow (fieldOpc w) w with
  | none => .error (.reservedOpcode (fieldOpc w))
  | some (f, i) =>
    if w &&& (f.fixedMask &&& ~~~ opcMask) = 0#32 then .ok i else .error (.mustBeZero (fieldOpc w))

/-- The four bytes of a command word as the register bus carries them, byte 0 in bits [7:0] (R47). -/
def decodeBytes : List Byte → Except DecodeError Instr
  | [b0, b1, b2, b3] => decode ((b3 ++ b2 ++ b1 ++ b0 : BitVec 32))
  | bs => .error (.notOneWord bs.length)

/-- The instruction the decoder reads from an opcode-table word of `nbits` bits. Every row of the table has one 32-bit
word (R61); the bits above `nbits` are 0. -/
def decodeTableWord (nbits w : Nat) : Option Instr :=
  if nbits ≤ 32 then
    match decode (BitVec.ofNat 32 (w % 2 ^ nbits)) with
    | .ok i => some i
    | .error _ => none
  else none

/-! ## The encoder (R62, R63, R66) -/

/-- One field of a command word: the value `v` from bit `pos` up. -/
def putField (pos v : Nat) : Word := BitVec.ofNat 32 v <<< pos

/-- An end as its bit (R13). -/
def End.bit : End → Nat
  | .tail => 0
  | .head => 1

/-- DIR as its bit (R64). -/
def Dir.bit : Dir → Nat
  | .left => 0
  | .right => 1

/-- SEL as its bit (R64). -/
def Sel.bit : Sel → Nat
  | .headPat => 0
  | .tailPat => 1

/-- TIE as its bit (R64). -/
def Tie.bit : Tie → Nat
  | .low => 0
  | .high => 1

/-- The flags of FS_SRCHADV as X[4:0] (R64). -/
def AdvFlags.bits (f : AdvFlags) : Nat :=
  f.onFull.toNat + 2 * f.toStart.toNat + 4 * f.toStart1.toNat + 8 * f.entire.toNat + 16 * f.ffwd.toNat

/-- OPC and RA: what every format but N begins with. -/
def putOpcRa (opc : Nat) (ra : RingIx) : Word := putField 0 opc ||| putField 8 ra.val

/-- The command word of a command (R62, R66). A code that does not fit X is cut to its field; such a command is not
well-formed. -/
def encode : Instr → Word
  | .nop => putField 0 0x00
  | .rbInit ra => putOpcRa 0x10 ra
  | .rbPusho ra ea => putOpcRa 0x11 ra ||| putField 16 ea.bit
  | .rbPushb ra ea => putOpcRa 0x12 ra ||| putField 16 ea.bit
  | .rbPull ra ea d => putOpcRa 0x13 ra ||| putField 16 ea.bit ||| putField 18 d.toNat
  | .rbRead ra ea => putOpcRa 0x14 ra ||| putField 16 ea.bit
  | .rbWrite ra ea => putOpcRa 0x15 ra ||| putField 16 ea.bit
  | .rbCut ra ea d => putOpcRa 0x16 ra ||| putField 16 ea.bit ||| putField 18 d.toNat
  | .rbMove ra ea rb eb d =>
    putOpcRa 0x17 ra ||| putField 12 rb.val ||| putField 16 ea.bit ||| putField 17 eb.bit ||| putField 18 d.toNat
  | .rbRotl ra dir => putOpcRa 0x18 ra ||| putField 18 dir.bit
  | .rbRotp ra => putOpcRa 0x19 ra
  | .rbFull ra => putOpcRa 0x1A ra
  | .rbEmpty ra => putOpcRa 0x1B ra
  | .rbFlush ra => putOpcRa 0x1C ra
  | .fsMatch ra sel tie => putOpcRa 0x20 ra ||| putField 18 sel.bit ||| putField 19 tie.bit
  | .fsSearch ra rb => putOpcRa 0x21 ra ||| putField 12 rb.val
  | .fsSrchadv ra rb f => putOpcRa 0x22 ra ||| putField 12 rb.val ||| putField 20 f.bits
  | .bsStuff ra => putOpcRa 0x30 ra
  | .bsUnstuff ra => putOpcRa 0x31 ra
  | .crcSeed => putField 0 0x40
  | .crcByte => putField 0 0x41
  | .crcRun ra => putOpcRa 0x42 ra
  | .crcAppend ra => putOpcRa 0x43 ra
  | .crcCheck ra => putOpcRa 0x44 ra
  | .lpInit => putField 0 0x50
  | .lpSend ra ack => putOpcRa 0x51 ra ||| putField 18 ack.toNat
  | .lpRecv ra want => putOpcRa 0x52 ra ||| putField 20 (want % 128)

end Sys2Proof
end

