-- ==== Sys2Proof/Config.lean ====
section
/-! DEFINITION. What an implementation of the block fixes (00_scope R8, R9) and the free values: constants with no body, so
that nothing can be proved of a value the spec leaves open. -/

namespace Sys2Proof.Config

/-! ## Protocol constants (R9) and parameters (R8) -/

/-- FLAG, the frame delimiter (R9). -/
def flag : Byte := 0x7E#8
/-- ESC, the escape byte (R9). -/
def esc : Byte := 0x7D#8
/-- ESC_XOR, the bit an escape inverts (R9). -/
def escXor : Byte := 0x20#8
/-- CRC_POLY (R9). -/
def crcPoly : Half := 0x1021#16
/-- CRC_INIT (R9). -/
def crcInit : Half := 0xFFFF#16
/-- The frame code DATA (R9). -/
def codeData : BitVec 7 := 0#7
/-- The frame code ACK (R9). -/
def codeAck : BitVec 7 := 1#7

/-- CAP_MAX, the largest ring capacity (R8). -/
def capMax : Nat := 65535
/-- PAT_MAX, the longest head or tail pattern (R8). -/
def patMax : Nat := 8
/-- PAYLOAD_MAX, the longest link payload (R8). -/
def payloadMax : Nat := 128
/-- HDR_LEN (R8). -/
def hdrLen : Nat := 3
/-- CRC_LEN (R8). -/
def crcLen : Nat := 2
/-- LINK_MINLEN: the opening flag, the header and the CRC (R8, R115). -/
def linkMinLen : Nat := 1 + hdrLen + crcLen
/-- LINK_MAXLEN: the opening flag and a fully doubled maximum content (R8, R115). -/
def linkMaxLen : Nat := 1 + 2 * (hdrLen + payloadMax + crcLen)
/-- The default of the OPEN parameter ADDR_W (R8). DESIGN CHOICE, safe for every statement: the width in use is a field of
State, and statements hold for every value of it (log 2). -/
def addrWDefault : Nat := 32
/-- The bytes of the register window (R18). -/
def windowBytes : Nat := 512

/-- The ID register (R20). -/
def idValue : Word := 0x52424331#32
/-- The VERSION register (R20). -/
def versionValue : Word := 0x00000007#32

/-! ## Free values. The first argument is always the counter `draws` of State, which moves on at every acceptance, every
host access that may draw, and every reset. -/

/-- FREE VALUE: the byte a running command that has made `k` writes reads at an address after a host write has raced with it:
arguments `draws`, `k`, the address (R56, R150; log 7). -/
opaque racedRead : Nat → Nat → Nat → Byte
/-- FREE VALUE: the byte a running command's `k`-th write leaves at an address after a host write has raced with it
(R56, R150; log 7). -/
opaque racedWrite : Nat → Nat → Nat → Byte
/-- FREE VALUE: RES`k` of a command a host write has raced with (R56, R150; log 7). -/
opaque racedResult : Nat → Nat → Word
/-- FREE VALUE: a host read, while busy, of a register whose value R37 leaves unspecified (log 10). -/
opaque busyRead : Nat → Nat → Word
/-- FREE CHOICE among the values R56 allows a host read of a byte in use to return (log 8). -/
opaque raceChoice : Nat → Nat → Nat
/-- FREE VALUE: a byte the command abandoned by a reset was writing (R146; log 9). -/
opaque abandonedByte : Nat → Nat → Byte
/-- FREE VALUE: the `k`-th byte drained from a side ring that has no storage at all (log 15). -/
opaque unboundRead : Nat → Nat → Byte

end Sys2Proof.Config
end

