-- ==== Sys2Proof/Machine/State.lean ====
section
/-! DEFINITION. The state of the block as plain data: every register of 10_state R18, the ring descriptors (R14), the
command engine (R35, R40), MEM (20_memory R42), and the environment the block is connected to (60_exceptions R137, R138). -/

namespace Sys2Proof.Machine

/-! ## Why a step can stop -/

/-- No step of this block stops the machine: every error is an outcome code in STATUS.ECODE and the machine goes on
(60_exceptions R130, R131), and every address exists (20_memory R42). So no fault has a name here: nobody raises one
(safe: nothing is stopped that the spec lets run). -/
inductive Fault
deriving DecidableEq, Repr

/-- Why a command is refused. -/
inductive Refusal where
  /-- Raised by an arm of `exec` for a command that has no meaning yet (safe: it claims nothing). No arm does. -/
  | notModelled (mnemonic : String)
deriving DecidableEq, Repr

/-! ## Registers -/

/-- One ring descriptor (R14). The counts and addresses are numbers; that they fit their registers is rule R15, which is
`Desc.Ok` of Safety.lean (log 16). -/
structure Desc where
  /-- BASE: the MEM address of physical slot 0. -/
  base : Nat
  /-- CAP: the capacity. -/
  cap : Nat
  /-- COUNT: the number of valid elements. -/
  count : Nat
  /-- START: the physical index of virtual index 0. -/
  start : Nat
deriving DecidableEq, Repr

/-- The outcome codes 0..6 of STATUS.ECODE; 7..15 are never written (60_exceptions R130). -/
inductive Ecode where
  | ok
  | illegal
  | param
  | capacity
  | transport
  | exhausted
  | corrupt
deriving DecidableEq, Repr

/-- STATUS less BUSY, which is the engine's phase (R22). -/
structure Status where
  done : Bool
  err : Bool
  ovr : Bool
  ackFail : Bool
  ecode : Ecode
deriving DecidableEq, Repr

/-- Four 32-bit registers: ARG0..ARG3 (R23) or RES0..RES3 (R24). -/
structure Quad where
  r0 : Word
  r1 : Word
  r2 : Word
  r3 : Word
deriving DecidableEq, Repr

/-- The search rule registers (R25, R26, R27). Reserved bits read 0 and are not stored. -/
structure SearchRegs where
  hpat0 : Word
  hpat1 : Word
  tpat0 : Word
  tpat1 : Word
  hlen : BitVec 4
  tlen : BitVec 4
  policy : BitVec 2
  minLen : Half
  maxLen : Half
deriving DecidableEq, Repr

/-- The ring assignment of a session: the fields of LS_CFG and LS_SESS (R29, R30). -/
structure Session where
  rx : RingIx
  scr : RingIx
  side : RingIx
  slen : RingIx
  sqe : Bool
deriving DecidableEq, Repr

/-- LS_LASTRX (R32). -/
structure LastRx where
  hash : Half
  valid : Bool
deriving DecidableEq, Repr

/-- LS_STATE.STATE 0..6; 7 is never written (R33). -/
inductive SendState where
  | idle
  | sent
  | ackWait
  | acked
  | retry
  | exhausted
  | aborted
deriving DecidableEq, Repr

/-- The line session registers (R29..R33). -/
structure LinkRegs where
  cfg : Session
  sess : Session
  sessValid : Bool
  timeout : Word
  maxRetry : Half
  txHash : Half
  lastRx : LastRx
  state : SendState
  attempts : Half
deriving DecidableEq, Repr

/-! ## The command engine (R35, R40) -/

/-- What a running LP_SEND holds (45_link_protocol R126): ackW, the hash in flight, the payload P, n, flen, t0, T, R. -/
structure SendCtx where
  ackW : Bool
  hash : Half
  payload : List Byte
  tries : Nat
  frameLen : Nat
  t0 : Word
  timeout : Word
  retries : Nat
deriving DecidableEq, Repr

/-- What a running LP_RECV holds while it tops up: its out ring and the wanted code (45_link_protocol R127). -/
structure RecvCtx where
  out : RingIx
  want : Nat
deriving DecidableEq, Repr

/-- Where the engine stands. Each constructor but the first two stands before one call of a port or of the tick input
(R36); the step that makes the call also does what follows it up to the next call (log 6). -/
inductive Phase where
  /-- BUSY = 0. -/
  | idle
  /-- The word in `cmd` is accepted and not yet executed (R35). -/
  | fetch
  /-- LP_SEND, XMIT: the next call is TX of element `v` of the scratch ring (R117). -/
  | sendTx (c : SendCtx) (v : Nat)
  /-- LP_SEND: the next call is `t0 <- NOW()` (R126). -/
  | sendT0 (c : SendCtx)
  /-- LP_SEND, TOPUP: the next call is RXP (R119). -/
  | sendRx (c : SendCtx)
  /-- LP_SEND, SENDACK inside SCAN at offset `off`: the next call is TX of element `v` of the scratch ring (R118). -/
  | sendAckTx (c : SendCtx) (off : Nat) (v : Nat)
  /-- LP_SEND: the next call is `t <- NOW()` (R126). -/
  | sendT (c : SendCtx)
  /-- LP_RECV, TOPUP: the next call is RXP (R119). -/
  | recvRx (c : RecvCtx)
  /-- LP_RECV, SENDACK: the next call is TX of element `v`; `results` are RES0..RES3 to write at completion (R127). -/
  | recvAckTx (results : Quad) (v : Nat)
deriving DecidableEq, Repr

/-! ## MEM and the environment -/

/-- MEM: the listed bytes, by strictly rising address; no entry equals what an unlisted address reads as (20_memory R42;
log 1). Its operations are in Memory.lean. -/
abbrev Memory := List Host.Cell

/-- One MEM write of the running command, with the byte that stood there before it (for R56 and R146; log 8, log 9). -/
structure WriteRec where
  addr : Nat
  old : Byte
  new : Byte
deriving DecidableEq, Repr

/-- One access of the host (10_state R19, 20_memory R50, R56). `width` is in bytes. -/
inductive HostOp where
  | read (off width : Nat)
  | write (off width : Nat) (v : Word)
  | memRead (a : Nat)
  | memWrite (a : Nat) (b : Byte)
deriving DecidableEq, Repr

/-- One move of one agent (00_scope R7; log 3). -/
inductive Event where
  /-- The command engine makes one step (R36). -/
  | engine
  /-- The host makes one access. -/
  | host (op : HostOp)
  /-- The tick input counts up by `d` (60_exceptions R138). -/
  | tick (d : Word)
  /-- The receive port has byte `b` to hand over, after those it has (60_exceptions R137). -/
  | rxByte (b : Byte)
  /-- From now on the transmit port accepts (or rejects) what it is offered (60_exceptions R137). -/
  | txReady (ok : Bool)
  /-- The reset input is asserted and released (70_reset_and_hazards R145). -/
  | reset
deriving DecidableEq, Repr

/-- What the block is connected to, and the order in which the agents move (60_exceptions R137, R138; log 3, log 4). -/
structure Env where
  /-- The tick input now. -/
  tick : Word
  /-- The bytes the receive port will hand over, first first. -/
  rxLine : List Byte
  /-- Whether the transmit port accepts a byte. -/
  txOk : Bool
  /-- The bytes the transmit port has accepted, oldest first. -/
  sent : List Byte
  /-- The moves to come; when none is left, the engine moves. -/
  agenda : List Event
deriving DecidableEq, Repr

/-! ## The state -/

/-- Everything the spec gives the machine, and the model's own bookkeeping (INVENTORY.md, State). -/
structure State where
  /-- ADDR_W, the OPEN parameter; no step changes it (00_scope R8; log 2). -/
  addrW : Nat
  /-- CTRL.IRQ_EN (R21). -/
  irqEn : Bool
  status : Status
  arg : Quad
  res : Quad
  sr : SearchRegs
  /-- CRC_ACC.ACC (R28). -/
  crcAcc : Half
  ls : LinkRegs
  /-- RB0..RB7 (R14). -/
  rbs : Vector Desc 8
  mem : Memory
  phase : Phase
  /-- The word latched at acceptance (R35). -/
  cmd : Word
  /-- The model's own: a host write has raced with the running command (20_memory R56; log 7). -/
  hazard : Bool
  /-- The model's own: the MEM writes of the current command, oldest first (log 8, log 9). -/
  wlog : List WriteRec
  /-- The model's own: how many free values were drawn (log 10). -/
  draws : Nat
  /-- The model's own: what the last host read returned (log 13). -/
  busData : Word
  env : Env
deriving DecidableEq, Repr

/-! ## Reset values (10_state R18, 70_reset_and_hazards R145) -/

/-- A descriptor after reset (R145). -/
def Desc.reset : Desc := { base := 0, cap := 0, count := 0, start := 0 }

/-- STATUS after reset: all 0, ECODE = OK (R145). -/
def Status.reset : Status := { done := false, err := false, ovr := false, ackFail := false, ecode := .ok }

/-- Four registers at 0 (R145). -/
def Quad.zero : Quad := { r0 := 0#32, r1 := 0#32, r2 := 0#32, r3 := 0#32 }

/-- The search rule registers after reset (R145). -/
def SearchRegs.reset : SearchRegs :=
  { hpat0 := 0#32, hpat1 := 0#32, tpat0 := 0#32, tpat1 := 0#32, hlen := 0#4, tlen := 0#4, policy := 0#2,
    minLen := 0#16, maxLen := 0#16 }

/-- LS_CFG and the fields of LS_SESS after reset (R145). -/
def Session.reset : Session := { rx := 0, scr := 0, side := 0, slen := 0, sqe := false }

/-- LS_LASTRX after reset and after LP_INIT (R145, 45_link_protocol R125). -/
def LastRx.none : LastRx := { hash := 0#16, valid := false }

/-- The session registers after reset (R145). -/
def LinkRegs.reset : LinkRegs :=
  { cfg := Session.reset, sess := Session.reset, sessValid := false, timeout := 0#32, maxRetry := 0#16, txHash := 0#16,
    lastRx := LastRx.none, state := .idle, attempts := 0#16 }

/-- The environment at the start. DESIGN CHOICE: the tick input at 0, nothing on the receive port, a transmit port that
accepts, nothing sent, no move planned; the block's reset affects none of them (R145; log 3, log 4). -/
def Env.reset : Env := { tick := 0#32, rxLine := [], txOk := true, sent := [], agenda := [] }

/-- The machine right after reset (R145). CRC_ACC = 0xFFFF, every other register 0, the engine idle. MEM is not part of the
block: DESIGN CHOICE, nothing is listed (log 1). ADDR_W has its default (log 2). -/
def State.reset : State :=
  { addrW := Config.addrWDefault, irqEn := false, status := Status.reset, arg := Quad.zero, res := Quad.zero,
    sr := SearchRegs.reset, crcAcc := Config.crcInit, ls := LinkRegs.reset, rbs := Vector.replicate 8 Desc.reset,
    mem := [], phase := .idle, cmd := 0#32, hazard := false, wlog := [], draws := 0, busData := 0#32, env := Env.reset }

end Sys2Proof.Machine
end

