-- ==== Sys2Proof/Machine/Memory.lean ====
section
/-! DEFINITION. MEM as a sorted list of (address, byte) pairs: reading, writing and the canonical form (20_memory R42, R48). -/

namespace Sys2Proof.Machine

/-- What an address that is not listed reads as. DESIGN CHOICE, unsafe for runs from State.reset: the spec says nothing of
MEM's contents, which reset does not touch (R42, R145; log 1). -/
def Memory.unlisted : Byte := 0#8

/-- The byte at an address (R48). -/
def Memory.read : Memory → Nat → Byte
  | [], _ => Memory.unlisted
  | (k, b) :: m, a => if a < k then Memory.unlisted else if a = k then b else Memory.read m a

/-- Puts a byte in front of a list, unless an unlisted address reads as it. -/
def Memory.entry (a : Nat) (b : Byte) (m : Memory) : Memory := if b = Memory.unlisted then m else (a, b) :: m

/-- Writes one byte, keeping the canonical form (R48). -/
def Memory.write : Memory → Nat → Byte → Memory
  | [], a, b => Memory.entry a b []
  | (k, c) :: m, a, b =>
    if a < k then Memory.entry a b ((k, c) :: m)
    else if a = k then Memory.entry a b m
    else (k, c) :: Memory.write m a b

/-- The canonical form: addresses strictly rise from `lo` on, and no entry equals what an unlisted address reads as. -/
def Memory.wfFrom : Nat → Memory → Bool
  | _, [] => true
  | lo, (k, b) :: m => decide (lo ≤ k) && decide (b ≠ Memory.unlisted) && Memory.wfFrom (k + 1) m

/-- The canonical form of a memory. -/
def Memory.wf (m : Memory) : Bool := Memory.wfFrom 0 m

/-- Every listed address lies in a space of `2 ^ w` bytes (R42). -/
def Memory.within (w : Nat) (m : Memory) : Bool := m.all (fun c => decide (c.1 < 2 ^ w))

end Sys2Proof.Machine
end

