-- ==== Sys2Proof/Machine/Ops.lean ====
section
/-! DEFINITION. The shared operations: loops, MEM accesses of the block, ring element access, pushes and drops, the
external ports, and how a command is accepted, completes and raises an error (10_state R16, R35, 60_exceptions R131, R137). -/

namespace Sys2Proof.Machine

/-! ## Loops (00_scope R11) -/

/-- `for j in lo..lo+k: body j`, in rising order. -/
def forUp {σ : Type} (body : Nat → σ → σ) : Nat → Nat → σ → σ
  | 0, _, s => s
  | k + 1, lo, s => forUp body k (lo + 1) (body lo s)

/-- `for j in lo+k-1 downto lo: body j`. -/
def forDown {σ : Type} (body : Nat → σ → σ) : Nat → Nat → σ → σ
  | 0, _, s => s
  | k + 1, lo, s => forDown body k lo (body (lo + k) s)

/-! ## MEM accesses of the block (R11, 20_memory R42, R48) -/

/-- `addr mod 2^ADDR_W` (R11, R44). -/
def State.wrap (s : State) (a : Nat) : Nat := a % 2 ^ s.addrW

/-- `MemRead(a, 1)` (R11). After a raced host write the byte is a free value (20_memory R56; log 7). -/
def State.load (s : State) (a : Nat) : Byte :=
  if s.hazard then Config.racedRead s.draws s.wlog.length (s.wrap a) else s.mem.read (s.wrap a)

/-- The byte a `MemWrite` leaves: the byte given, or a free value after a raced host write (20_memory R56; log 7). -/
def State.storedByte (s : State) (a : Nat) (b : Byte) : Byte :=
  if s.hazard then Config.racedWrite s.draws s.wlog.length a else b

/-- `MemWrite(a, 1, b)` (R11), noted in the write log. -/
def State.store (s : State) (a : Nat) (b : Byte) : State :=
  { s with
    mem := s.mem.write (s.wrap a) (s.storedByte (s.wrap a) b)
    wlog := s.wlog ++ [{ addr := s.wrap a, old := s.mem.read (s.wrap a), new := s.storedByte (s.wrap a) b }] }

/-! ## Descriptors and ring elements (10_state R14, R16) -/

/-- The descriptor RBi (R14). -/
def State.rb (s : State) (i : RingIx) : Desc := s.rbs[i]

/-- Writes the descriptor RBi. -/
def State.setRb (s : State) (i : RingIx) (d : Desc) : State := { s with rbs := s.rbs.set i d }

/-- `phys(d, v) = (d.START + v) mod d.CAP` (R16). -/
def Desc.phys (d : Desc) (v : Nat) : Nat := (d.start + v) % d.cap

/-- `free(d) = d.CAP - d.COUNT` (45_link_protocol, opening). -/
def Desc.free (d : Desc) : Nat := d.cap - d.count

/-- The MEM address of the element at virtual index `v` (R16). -/
def Desc.addr (d : Desc) (v : Nat) : Nat := d.base + d.phys v

/-- `RD(d, v)` (R16). -/
def State.rd (s : State) (i : RingIx) (v : Nat) : Byte := s.load ((s.rb i).addr v)

/-- `WR(d, v, b)` (R16). -/
def State.wr (s : State) (i : RingIx) (v : Nat) (b : Byte) : State := s.store ((s.rb i).addr v) b

/-- The bytes at the virtual indices `lo .. lo+k-1`. -/
def State.slice (s : State) (i : RingIx) (lo k : Nat) : List Byte := (List.range' lo k).map (s.rd i)

/-- `content(d) = [RD(d,0), ..., RD(d, d.COUNT-1)]` (R16). -/
def State.content (s : State) (i : RingIx) : List Byte := s.slice i 0 (s.rb i).count

/-! ## Pushes and drops -/

/-- "push b at the tail of d": `WR(d, d.COUNT, b); d.COUNT <- d.COUNT + 1`. -/
def State.pushTail (s : State) (i : RingIx) (b : Byte) : State :=
  (s.wr i (s.rb i).count b).setRb i { s.rb i with count := (s.rb i).count + 1 }

/-- START one slot back, modulo CAP. -/
def Desc.stepBack (d : Desc) : Desc := { d with start := (d.start + d.cap - 1) % d.cap }

/-- A push at the head: START goes back one slot, `WR(d, 0, b)`, COUNT grows by one (41_ring_buffer R78). -/
def State.pushHead (s : State) (i : RingIx) (b : Byte) : State :=
  ((s.setRb i (s.rb i).stepBack).wr i 0 b).setRb i { (s.rb i).stepBack with count := (s.rb i).count + 1 }

/-- "drop k at the head of d": START moves on by k modulo CAP, COUNT falls by k. No more than COUNT elements can be dropped,
as in RB_PULL (41_ring_buffer R79; log 14). -/
def Desc.dropHead (d : Desc) (k : Nat) : Desc :=
  { d with start := (d.start + min k d.count) % d.cap, count := d.count - min k d.count }

/-- Drops k elements at the head of RBi. -/
def State.dropHead (s : State) (i : RingIx) (k : Nat) : State := s.setRb i ((s.rb i).dropHead k)

/-- Drops one element at the tail of RBi. -/
def State.dropTail (s : State) (i : RingIx) : State := s.setRb i { s.rb i with count := (s.rb i).count - 1 }

/-- A flushed descriptor: COUNT and START are 0, BASE and CAP stay (41_ring_buffer R88). -/
def Desc.flush (d : Desc) : Desc := { d with count := 0, start := 0 }

/-- Flushes RBi. -/
def State.flushRb (s : State) (i : RingIx) : State := s.setRb i (s.rb i).flush

/-- Drops elements at the head of RBi until the head byte is `b` or the ring is empty; at most `fuel` of them (R99). -/
def State.dropUntil (i : RingIx) (b : Byte) : Nat → State → State
  | 0, s => s
  | fuel + 1, s =>
    if (s.rb i).count > 0 ∧ s.rd i 0 ≠ b then State.dropUntil i b fuel (s.dropHead i 1) else s

/-! ## The external ports (60_exceptions R137, R138) -/

/-- `TX(b)`: offers a byte to the transmit port; an accepted byte is sent (R137). -/
def State.tx (s : State) (b : Byte) : State × Bool :=
  if s.env.txOk then ({ s with env := { s.env with sent := s.env.sent ++ [b] } }, true) else (s, false)

/-- `RXP()`: the byte the receive port hands over, if it has one (R137). -/
def State.rxp (s : State) : State × Option Byte :=
  match s.env.rxLine with
  | [] => (s, none)
  | b :: rest => ({ s with env := { s.env with rxLine := rest } }, some b)

/-- `NOW()`: one read of the tick input (R138). -/
def State.now (s : State) : Word := s.env.tick

/-! ## Acceptance, completion and errors (10_state R22, R24, R35, 60_exceptions R130, R131) -/

/-- The acceptance of a command word: it is latched, BUSY is set, DONE, ERR and ACKFAIL are cleared, OVR and ECODE stay
(R22, R35). The model's bookkeeping of races starts anew. This is also the way on after an error (R136). -/
def State.accept (s : State) (w : Word) : State :=
  { s with
    cmd := w
    phase := .fetch
    status := { s.status with done := false, err := false, ackFail := false }
    hazard := false
    wlog := []
    draws := s.draws + 1 }

/-- STATUS at a completion: DONE is set, ERR is set when ECODE is not 0, ECODE is written (R22, R35). -/
def Status.complete (st : Status) (e : Ecode) : Status :=
  { st with done := true, err := st.err || decide (e ≠ .ok), ecode := e }

/-- The completion that leaves RES0..RES3 alone: of NOP and of an ILLEGAL word (R24, R35). -/
def State.completeKeep (s : State) (e : Ecode) : State :=
  { s with status := s.status.complete e, phase := .idle }

/-- RES0..RES3 of a command a host write has raced with: free values (20_memory R56; log 7). -/
def State.racedResults (s : State) : Quad :=
  { r0 := Config.racedResult s.draws 0, r1 := Config.racedResult s.draws 1, r2 := Config.racedResult s.draws 2,
    r3 := Config.racedResult s.draws 3 }

/-- The completion of a command with its results (R24, R35); the results are free values after a raced host write
(20_memory R56; log 7). -/
def State.complete (s : State) (e : Ecode) (r : Quad) : State :=
  { s with
    status := s.status.complete e
    phase := .idle
    res := if s.hazard then s.racedResults else r }

/-- `raise PARAM`: the checks come before any MEM access, RES0..RES3 are 0 and nothing else changes (R24, R131). -/
def State.raiseParam (s : State) : State :=
  { s with status := s.status.complete .param, phase := .idle, res := Quad.zero }

/-- `raise E` of R131, the block's one way to meet an error: the command ends at this point with the results its rule has
written, its earlier effects stay, nothing is redirected. -/
def State.raise (s : State) (e : Ecode) (r : Quad) : State := s.complete e r

/-- Four results from numbers (R24). -/
def quadOf (a b c d : Nat) : Quad :=
  { r0 := BitVec.ofNat 32 a, r1 := BitVec.ofNat 32 b, r2 := BitVec.ofNat 32 c, r3 := BitVec.ofNat 32 d }

/-- A command completes with ECODE = OK and these results (R35). -/
def State.finish (s : State) (a b c d : Nat) : State := s.complete .ok (quadOf a b c d)

/-- A word that spells no command: ECODE = ILLEGAL, and nothing but STATUS changes (30_encoding R67). -/
def State.illegal (s : State) : State := s.completeKeep .illegal

/-- The outcome of a meaning: the block always goes on (60_exceptions R131). -/
def goOn (s : State) : Host.Outcome State Fault Refusal := .next s

end Sys2Proof.Machine
end

