-- ==== Sys2Proof/Machine/Operands.lean ====
section
/-! DEFINITION. Operand assembly: the fields of ARG0..ARG3 each command reads, range addressing, and the search rule of the
SR registers (30_encoding R65, 41_ring_buffer R73, 42_frame_search R90, R91). -/

namespace Sys2Proof.Machine

/-! ## Fields of ARG0..ARG3 (R65) -/

/-- ARG0[ADDR_W-1:0], a storage base or a data address. -/
def State.argAddr (s : State) : Nat := s.arg.r0.toNat % 2 ^ s.addrW

/-- ARG1[15:0]. -/
def State.arg1 (s : State) : Nat := (s.arg.r1.extractLsb' 0 16).toNat

/-- ARG2[15:0]. -/
def State.arg2 (s : State) : Nat := (s.arg.r2.extractLsb' 0 16).toNat

/-- ARG0[7:0], the byte of CRC_BYTE. -/
def State.argByte (s : State) : Byte := s.arg.r0.extractLsb' 0 8

/-- ARG`k` as one of the four words. -/
def Quad.word (q : Quad) : Nat → Word
  | 0 => q.r0
  | 1 => q.r1
  | 2 => q.r2
  | _ => q.r3

/-- LP_RECV: code c is removable iff bit `c mod 32` of ARG`c div 32` is 1 (R65). -/
def State.removable (s : State) (c : Nat) : Bool := (s.arg.word (c / 32)).getLsbD (c % 32)

/-! ## Ranges (R73) -/

/-- `first(e, o, k)`: the first virtual index of a range of length `k` at offset `o` from end `e` of `cnt` elements. -/
def rangeFirst (e : End) (cnt o k : Nat) : Nat :=
  match e with
  | .head => o
  | .tail => cnt - o - k

/-! ## The search rule (R25, R26, R90) -/

/-- The ambiguity policy (R26). -/
inductive Policy where
  | hard
  | medium
  | soft
deriving DecidableEq, Repr

/-- A search rule: head pattern, tail pattern (empty: no tail), length bounds (maxLen 0: unbounded), policy (R90). -/
structure Rule where
  head : List Byte
  tail : List Byte
  minLen : Nat
  maxLen : Nat
  policy : Policy
deriving DecidableEq, Repr

/-- SR_CFG.POLICY, with 3 read as soft (R26). -/
def policyOf (p : BitVec 2) : Policy :=
  match p.toNat with
  | 0 => .hard
  | 1 => .medium
  | _ => .soft

/-- The eight bytes of two pattern registers, byte i of the first in bits [8i+7:8i] (R25, 20_memory R47). -/
def patternBytes (lo hi : Word) : List Byte :=
  [lo.extractLsb' 0 8, lo.extractLsb' 8 8, lo.extractLsb' 16 8, lo.extractLsb' 24 8,
   hi.extractLsb' 0 8, hi.extractLsb' 8 8, hi.extractLsb' 16 8, hi.extractLsb' 24 8]

/-- The head pattern H: the first HLEN bytes (R25). -/
def SearchRegs.head (r : SearchRegs) : List Byte := (patternBytes r.hpat0 r.hpat1).take r.hlen.toNat

/-- The tail pattern T: the first TLEN bytes (R25). -/
def SearchRegs.tail (r : SearchRegs) : List Byte := (patternBytes r.tpat0 r.tpat1).take r.tlen.toNat

/-- The rule a search command reads when it starts (R90). -/
def SearchRegs.rule (r : SearchRegs) : Rule :=
  { head := r.head, tail := r.tail, minLen := r.minLen.toNat, maxLen := r.maxLen.toNat, policy := policyOf r.policy }

/-- HLEN is 1..PAT_MAX (R27, R91). -/
def SearchRegs.headOk (r : SearchRegs) : Bool := decide (r.hlen.toNat ≠ 0) && decide (r.hlen.toNat ≤ Config.patMax)

/-- TLEN is 0..PAT_MAX (R27, R91). -/
def SearchRegs.tailOk (r : SearchRegs) : Bool := decide (r.tlen.toNat ≤ Config.patMax)

/-- The pattern FS_MATCH tests (R93). -/
def SearchRegs.pattern (r : SearchRegs) : Sel → List Byte
  | .headPat => r.head
  | .tailPat => r.tail

/-- FS_MATCH's check of the pattern it tests: not empty and not too long (R91). -/
def SearchRegs.patternOk (r : SearchRegs) : Sel → Bool
  | .headPat => r.headOk
  | .tailPat => decide (r.tlen.toNat ≠ 0) && r.tailOk

/-! ## The rings of a session (45_link_protocol R126) -/

/-- sessionRings(s): RX and SCR, and SIDE and SLEN when SQE = 1. -/
def Session.rings (g : Session) : List RingIx := if g.sqe then [g.rx, g.scr, g.side, g.slen] else [g.rx, g.scr]

end Sys2Proof.Machine
end

