-- ==== Sys2Proof/Machine/Flags.lean ====
section
/-! DEFINITION. The flags and the words software reads them as: STATUS, IRQ, and the packed registers of the map
(10_state R18, R22, 60_exceptions R130, R134). -/

namespace Sys2Proof.Machine

/-- BUSY: 1 from acceptance to completion (R22, R35). -/
def State.busy (s : State) : Bool := decide (s.phase ≠ .idle)

/-- The number of an outcome code (60_exceptions R130). -/
def Ecode.code : Ecode → Nat
  | .ok => 0
  | .illegal => 1
  | .param => 2
  | .capacity => 3
  | .transport => 4
  | .exhausted => 5
  | .corrupt => 6

/-- The number of a send state (R33). -/
def SendState.code : SendState → Nat
  | .idle => 0
  | .sent => 1
  | .ackWait => 2
  | .acked => 3
  | .retry => 4
  | .exhausted => 5
  | .aborted => 6

/-- The IRQ output: `STATUS.DONE and CTRL.IRQ_EN` (60_exceptions R134). -/
def State.irq (s : State) : Bool := s.status.done && s.irqEn

/-- STATUS as one word: BUSY [0], DONE [1], ERR [2], OVR [3], ACKFAIL [4], ECODE [11:8] (R18). -/
def State.statusWord (s : State) : Word :=
  BitVec.ofNat 32 (s.busy.toNat + 2 * s.status.done.toNat + 4 * s.status.err.toNat + 8 * s.status.ovr.toNat +
    16 * s.status.ackFail.toNat + 256 * s.status.ecode.code)

/-- A host write to STATUS: DONE, ERR, OVR and ACKFAIL are cleared where a 1 is written; the rest ignores it (R18, R19). -/
def Status.clearWritten (st : Status) (v : Word) : Status :=
  { st with
    done := st.done && !v.getLsbD 1
    err := st.err && !v.getLsbD 2
    ovr := st.ovr && !v.getLsbD 3
    ackFail := st.ackFail && !v.getLsbD 4 }

/-- SR_CFG as one word (R18). -/
def SearchRegs.cfgWord (r : SearchRegs) : Word :=
  BitVec.ofNat 32 (r.hlen.toNat + 2 ^ 8 * r.tlen.toNat + 2 ^ 16 * r.policy.toNat)

/-- The fields of LS_CFG as one word: RX [2:0], SCR [6:4], SIDE [10:8], SLEN [14:12], SQE [16] (R18). -/
def Session.bits (g : Session) : Nat :=
  g.rx.val + 2 ^ 4 * g.scr.val + 2 ^ 8 * g.side.val + 2 ^ 12 * g.slen.val + 2 ^ 16 * g.sqe.toNat

/-- The fields of a word written to LS_CFG (R18). -/
def Session.ofWord (v : Word) : Session :=
  { rx := (v.extractLsb' 0 3).toFin, scr := (v.extractLsb' 4 3).toFin, side := (v.extractLsb' 8 3).toFin,
    slen := (v.extractLsb' 12 3).toFin, sqe := v.getLsbD 16 }

/-- LS_CFG as read (R18). -/
def LinkRegs.cfgWord (l : LinkRegs) : Word := BitVec.ofNat 32 l.cfg.bits

/-- LS_SESS as read: the latched fields and VALID [31] (R18, R30). -/
def LinkRegs.sessWord (l : LinkRegs) : Word := BitVec.ofNat 32 (l.sess.bits + 2 ^ 31 * l.sessValid.toNat)

/-- LS_LASTRX as read: HASH [15:0], VALID [16] (R18, R32). -/
def LinkRegs.lastRxWord (l : LinkRegs) : Word := BitVec.ofNat 32 (l.lastRx.hash.toNat + 2 ^ 16 * l.lastRx.valid.toNat)

/-- LS_STATE as read: STATE [2:0], ATTEMPTS [31:16] (R18, R33). -/
def LinkRegs.stateWord (l : LinkRegs) : Word := BitVec.ofNat 32 (l.state.code + 2 ^ 16 * l.attempts.toNat)

/-! ## Flag and register updates the commands make -/

/-- LS_STATE.STATE <- x. -/
def State.setSend (s : State) (x : SendState) : State := { s with ls := { s.ls with state := x } }

/-- LS_STATE <- the pair of STATE and ATTEMPTS. -/
def State.setSendBoth (s : State) (x : SendState) (n : Nat) : State :=
  { s with ls := { s.ls with state := x, attempts := BitVec.ofNat 16 n } }

/-- LS_LASTRX <- VALID = 1 and HASH = h (45_link_protocol R123). -/
def State.setLastRx (s : State) (h : Half) : State :=
  { s with ls := { s.ls with lastRx := { hash := h, valid := true } } }

/-- STATUS.ACKFAIL <- 1 (R22, 60_exceptions R133). -/
def State.setAckFail (s : State) : State := { s with status := { s.status with ackFail := true } }

/-- STATUS.OVR <- 1: a host write was dropped because the block is busy (R22, R37). -/
def State.setOvr (s : State) : State := { s with status := { s.status with ovr := true } }

/-- CRC_ACC.ACC <- c (R28). -/
def State.setCrc (s : State) (c : Half) : State := { s with crcAcc := c }

/-- The engine stands before the call `p` (R36). -/
def State.await (s : State) (p : Phase) : State := { s with phase := p }

end Sys2Proof.Machine
end

