-- ==== Sys2Proof/Machine/Ring.lean ====
section
/-! DEFINITION. The ring buffer commands and NOP (41_ring_buffer R71..R88). -/

namespace Sys2Proof.Machine

/-! ## Shared by the family -/

/-- The checks `cap = 0 or n = 0` of the length commands (R71). -/
def badLen (d : Desc) (n : Nat) : Bool := decide (d.cap = 0) || decide (n = 0)

/-- The checks `cap = 0 or n = 0 or o >= cnt` of the random access commands (R71). -/
def badRange (d : Desc) (n o : Nat) : Bool := badLen d n || decide (d.count ≤ o)

/-- Copies `k` bytes of RBi from virtual index `f` up to MEM from address `a` up, in virtual order (R79, R80, R82). -/
def copyOut (i : RingIx) (a f k : Nat) (s : State) : State :=
  forUp (fun j t => t.store (a + j) (t.rd i (f + j))) k 0 s

/-- Copies `k` bytes of MEM from address `a` up into RBi from virtual index `f` up (R81). -/
def copyIn (i : RingIx) (a f k : Nat) (s : State) : State :=
  forUp (fun j t => t.wr i (f + j) (t.load (a + j))) k 0 s

/-- Pushes `k` bytes of MEM from address `a` up at the tail of RBi, in rising order (R78). -/
def pushBlockTail (i : RingIx) (a k : Nat) (s : State) : State :=
  forUp (fun j t => t.pushTail i (t.load (a + j))) k 0 s

/-- Pushes `k` bytes of MEM from address `a` up at the head of RBi, last byte first (R78). -/
def pushBlockHead (i : RingIx) (a k : Nat) (s : State) : State :=
  forDown (fun j t => t.pushHead i (t.load (a + j))) k 0 s

/-! ## NOP (R75) -/

/-- NOP: ECODE = OK, RES0..RES3 unchanged (R75). -/
def execNop (s : State) : Host.Outcome State Fault Refusal := goOn (s.completeKeep .ok)

/-! ## RB_INIT (R76) -/

/-- RB_INIT: binds storage, START = 0 (R76). -/
def execRbInit (ra : RingIx) (s : State) : Host.Outcome State Fault Refusal :=
  if s.arg2 > s.arg1 ∨ s.argAddr + s.arg1 > 2 ^ s.addrW then goOn s.raiseParam
  else goOn ((s.setRb ra { base := s.argAddr, cap := s.arg1, count := s.arg2, start := 0 }).finish 1 0 0 0)

/-! ## Edge insert and remove (R77, R78, R79) -/

/-- Before a push into a full ring one element at the head is discarded (R77, tail insert); counts it. -/
def makeRoomHead (i : RingIx) (p : State × Nat) : State × Nat :=
  if (p.1.rb i).count = (p.1.rb i).cap then (p.1.dropHead i 1, p.2 + 1) else p

/-- Before a push into a full ring one element at the tail is discarded (R77, head insert); counts it. -/
def makeRoomTail (i : RingIx) (p : State × Nat) : State × Nat :=
  if (p.1.rb i).count = (p.1.rb i).cap then (p.1.dropTail i, p.2 + 1) else p

/-- The overwriting insert of `n` bytes of MEM from `a` up at end `e`; with the number of elements discarded (R77). -/
def pushOver (i : RingIx) (e : End) (a n : Nat) (s : State) : State × Nat :=
  match e with
  | .tail =>
    forUp (fun j p => let q := makeRoomHead i p; (q.1.pushTail i (q.1.load (a + j)), q.2)) n 0 (s, 0)
  | .head =>
    forDown (fun j p => let q := makeRoomTail i p; (q.1.pushHead i (q.1.load (a + j)), q.2)) n 0 (s, 0)

/-- RB_PUSHO: overwriting insert at either end (R77). -/
def execRbPusho (ra : RingIx) (ea : End) (s : State) : Host.Outcome State Fault Refusal :=
  if badLen (s.rb ra) s.arg1 then goOn s.raiseParam
  else
    let p := pushOver ra ea s.argAddr s.arg1 s
    goOn (p.1.finish s.arg1 p.2 0 0)

/-- The number of bytes a bounded insert takes: `min(n, cap - cnt)` (R78). -/
def pushBoundedLen (d : Desc) (n : Nat) : Nat := min n d.free

/-- RB_PUSHB: bounded insert at either end (R78). -/
def execRbPushb (ra : RingIx) (ea : End) (s : State) : Host.Outcome State Fault Refusal :=
  if badLen (s.rb ra) s.arg1 then goOn s.raiseParam
  else
    let k := pushBoundedLen (s.rb ra) s.arg1
    match ea with
    | .tail => goOn ((pushBlockTail ra s.argAddr k s).finish k 0 0 0)
    | .head => goOn ((pushBlockHead ra s.argAddr k s).finish k 0 0 0)

/-- The descriptor after `k` elements are removed at end `e` (R79). -/
def Desc.pull (d : Desc) (e : End) (k : Nat) : Desc :=
  match e with
  | .head => { d with start := (d.start + k) % d.cap, count := d.count - k }
  | .tail => { d with count := d.count - k }

/-- RB_PULL: removes from one end (R79). -/
def execRbPull (ra : RingIx) (ea : End) (discard : Bool) (s : State) : Host.Outcome State Fault Refusal :=
  if badLen (s.rb ra) s.arg1 then goOn s.raiseParam
  else
    let k := min s.arg1 (s.rb ra).count
    let f := rangeFirst ea (s.rb ra).count 0 k
    let t := if discard then s else copyOut ra s.argAddr f k s
    goOn ((t.setRb ra ((s.rb ra).pull ea k)).finish k 0 0 0)

/-! ## Random access (R80, R81, R82) -/

/-- RB_READ: non-destructive random read (R80). -/
def execRbRead (ra : RingIx) (ea : End) (s : State) : Host.Outcome State Fault Refusal :=
  if badRange (s.rb ra) s.arg1 s.arg2 then goOn s.raiseParam
  else
    let k := min s.arg1 ((s.rb ra).count - s.arg2)
    let f := rangeFirst ea (s.rb ra).count s.arg2 k
    goOn ((copyOut ra s.argAddr f k s).finish k 0 0 0)

/-- RB_WRITE: random write inside the valid region (R81). -/
def execRbWrite (ra : RingIx) (ea : End) (s : State) : Host.Outcome State Fault Refusal :=
  if badRange (s.rb ra) s.arg1 s.arg2 then goOn s.raiseParam
  else
    let k := min s.arg1 ((s.rb ra).count - s.arg2)
    let f := rangeFirst ea (s.rb ra).count s.arg2 k
    goOn ((copyIn ra s.argAddr f k s).finish k 0 0 0)

/-- Removes the `k` elements of RBi from virtual index `f` up, closing the gap by moving the shorter of the two spans around
it, the head-side span on a tie (R82). -/
def cutRange (i : RingIx) (f k : Nat) (s : State) : State :=
  let d := s.rb i
  let tailSpan := d.count - f - k
  if f ≤ tailSpan then
    (forDown (fun j t => t.wr i (j + k) (t.rd i j)) f 0 s).setRb i
      { d with start := (d.start + k) % d.cap, count := d.count - k }
  else
    (forUp (fun j t => t.wr i (j - k) (t.rd i j)) tailSpan (f + k) s).setRb i { d with count := d.count - k }

/-- RB_CUT: removes a range from either end's offset (R82). -/
def execRbCut (ra : RingIx) (ea : End) (discard : Bool) (s : State) : Host.Outcome State Fault Refusal :=
  if badRange (s.rb ra) s.arg1 s.arg2 then goOn s.raiseParam
  else
    let k := min s.arg1 ((s.rb ra).count - s.arg2)
    let f := rangeFirst ea (s.rb ra).count s.arg2 k
    let t := if discard then s else copyOut ra s.argAddr f k s
    goOn ((cutRange ra f k t).finish k (min f ((s.rb ra).count - f - k)) 0 0)

/-! ## Moving between rings (R83) -/

/-- One byte arrives at end `e` of RBi (R83). -/
def State.pushEnd (s : State) (i : RingIx) (e : End) (b : Byte) : State :=
  match e with
  | .tail => s.pushTail i b
  | .head => s.pushHead i b

/-- One element leaves RBi at end `e` (R83). -/
def State.dropEnd (s : State) (i : RingIx) (e : End) : State :=
  match e with
  | .head => s.dropHead i 1
  | .tail => s.dropTail i

/-- The virtual index RB_MOVE reads next: the end element of a shrinking source, or the `i`-th from the end (R83). -/
def moveIndex (es : End) (destr : Bool) (cnt i : Nat) : Nat :=
  match es, destr with
  | .head, true => 0
  | .head, false => i
  | .tail, true => cnt - 1
  | .tail, false => cnt - 1 - i

/-- RB_MOVE has no further byte to move: the source is exhausted, or the destination full (R83). -/
def moveStops (dst src : Desc) (destr : Bool) (i : Nat) : Bool :=
  (destr && decide (src.count = 0)) || (!destr && decide (src.count ≤ i)) || decide (dst.count = dst.cap)

/-- The byte-by-byte transfer: at most `fuel` more bytes, `i` already moved; with the number moved in all (R83). -/
def moveLoop (di : RingIx) (ed : End) (si : RingIx) (es : End) (destr : Bool) : Nat → Nat → State → State × Nat
  | 0, i, s => (s, i)
  | fuel + 1, i, s =>
    if moveStops (s.rb di) (s.rb si) destr i then (s, i)
    else
      let b := s.rd si (moveIndex es destr (s.rb si).count i)
      let t := if destr then s.dropEnd si es else s
      moveLoop di ed si es destr fuel (i + 1) (t.pushEnd di ed b)

/-- RB_MOVE: transfers bytes one by one between two rings (R83). -/
def execRbMove (ra : RingIx) (ea : End) (rb : RingIx) (eb : End) (destr : Bool) (s : State) :
    Host.Outcome State Fault Refusal :=
  if ra = rb ∨ (s.rb ra).cap = 0 ∨ (s.rb rb).cap = 0 ∨ s.arg1 = 0 then goOn s.raiseParam
  else
    let p := moveLoop ra ea rb eb destr s.arg1 0 s
    goOn (p.1.finish p.2 0 0 0)

/-! ## Rotation (R84, R85) -/

/-- The left-rotation amount of RB_ROTL on `cnt > 0` elements (R84). -/
def rotAmount (dir : Dir) (p cnt : Nat) : Nat :=
  match dir with
  | .left => p % cnt
  | .right => (cnt - p % cnt) % cnt

/-- START one slot on, modulo CAP. -/
def Desc.stepOn (d : Desc) : Desc := { d with start := (d.start + 1) % d.cap }

/-- The head element goes to the tail (R84). -/
def rotHeadToTail (i : RingIx) (s : State) : State :=
  (s.setRb i (s.rb i).stepOn).wr i ((s.rb i).count - 1) (s.rd i 0)

/-- The tail element goes to the head (R84). -/
def rotTailToHead (i : RingIx) (s : State) : State :=
  (s.setRb i (s.rb i).stepBack).wr i 0 (s.rd i ((s.rb i).count - 1))

/-- RB_ROTL: rotates the valid elements, moving the shorter span (R84). -/
def execRbRotl (ra : RingIx) (dir : Dir) (s : State) : Host.Outcome State Fault Refusal :=
  let cnt := (s.rb ra).count
  if (s.rb ra).cap = 0 then goOn s.raiseParam
  else if cnt = 0 then goOn (s.finish 0 0 0 0)
  else
    let k := rotAmount dir s.arg1 cnt
    if k ≤ cnt - k then goOn ((forUp (fun _ t => rotHeadToTail ra t) k 0 s).finish k 0 0 0)
    else goOn ((forUp (fun _ t => rotTailToHead ra t) (cnt - k) 0 s).finish (cnt - k) 0 0 0)

/-- The shift RB_ROTP applies (R85). -/
def rotpShift (d : Desc) (ns : Nat) : Nat := (ns + d.cap - d.start) % d.cap

/-- Stores `bytes`, the old slots from `i` up, `sh` slots on, modulo CAP. -/
def storeSlots (d : Desc) (sh : Nat) : Nat → List Byte → State → State
  | _, [], s => s
  | i, b :: bs, s => storeSlots d sh (i + 1) bs (s.store (d.base + (i + sh) % d.cap) b)

/-- Every slot of the backing storage moves `sh` slots on, simultaneously: all are read before any is written
(R85; log 11). -/
def rotateStorage (d : Desc) (sh : Nat) (s : State) : State :=
  storeSlots d sh 0 ((List.range d.cap).map (fun i => s.load (d.base + i))) s

/-- RB_ROTP: rotates the entire backing storage so that virtual 0 lands at the requested slot (R85). -/
def execRbRotp (ra : RingIx) (s : State) : Host.Outcome State Fault Refusal :=
  let d := s.rb ra
  if d.cap = 0 ∨ s.arg1 ≥ d.cap then goOn s.raiseParam
  else
    let sh := rotpShift d s.arg1
    goOn (((rotateStorage d sh s).setRb ra { d with start := s.arg1 }).finish 1 sh 0 0)

/-! ## Queries and flush (R86, R87, R88) -/

/-- RB_FULL (R86). -/
def execRbFull (ra : RingIx) (s : State) : Host.Outcome State Fault Refusal :=
  if (s.rb ra).cap = 0 then goOn s.raiseParam
  else goOn (s.finish (if (s.rb ra).count = (s.rb ra).cap then 1 else 0) 0 0 0)

/-- RB_EMPTY (R87). -/
def execRbEmpty (ra : RingIx) (s : State) : Host.Outcome State Fault Refusal :=
  if (s.rb ra).cap = 0 then goOn s.raiseParam
  else goOn (s.finish (if (s.rb ra).count = 0 then 1 else 0) 0 0 0)

/-- RB_FLUSH (R88). -/
def execRbFlush (ra : RingIx) (s : State) : Host.Outcome State Fault Refusal :=
  if (s.rb ra).cap = 0 then goOn s.raiseParam
  else goOn ((s.flushRb ra).finish (s.rb ra).count 0 0 0)

end Sys2Proof.Machine
end

