-- ==== Sys2Proof/Machine/Crc.lean ====
section
/-! DEFINITION. The CRC-16 function and its commands (44_crc16 R105..R112). -/

namespace Sys2Proof.Machine

/-- One shift of the CRC register (R105). -/
def crcBit (c : Half) : Half := if c.getLsbD 15 then (c <<< 1) ^^^ Config.crcPoly else c <<< 1

/-- Eight shifts (R105). -/
def crcShift8 (c : Half) : Half := crcBit (crcBit (crcBit (crcBit (crcBit (crcBit (crcBit (crcBit c)))))))

/-- `crc_byte(c, b)` (R105). -/
def crcByte (c : Half) (b : Byte) : Half := crcShift8 (c ^^^ (b.setWidth 16 <<< 8))

/-- `crc(c, bytes)` (R105). -/
def crcFold (c : Half) (bytes : List Byte) : Half := bytes.foldl crcByte c

/-- `CRC16(s)` (R105). -/
def crc16 (bytes : List Byte) : Half := crcFold Config.crcInit bytes

/-- `TBL[i]` (R106). -/
def crcTable (i : Byte) : Half := crcByte 0#16 i

/-- A 16-bit value on the wire: high byte first (20_memory R45). -/
def wireBytes (x : Half) : List Byte := [x.extractLsb' 8 8, x.extractLsb' 0 8]

/-- CRC_SEED (R108). -/
def execCrcSeed (s : State) : Host.Outcome State Fault Refusal :=
  goOn ((s.setCrc Config.crcInit).finish Config.crcInit.toNat 0 0 0)

/-- CRC_BYTE (R109). -/
def execCrcByte (s : State) : Host.Outcome State Fault Refusal :=
  goOn ((s.setCrc (crcByte s.crcAcc s.argByte)).finish (crcByte s.crcAcc s.argByte).toNat 0 0 0)

/-- CRC_RUN: folds ring bytes into the accumulator (R110). -/
def execCrcRun (ra : RingIx) (s : State) : Host.Outcome State Fault Refusal :=
  if badRange (s.rb ra) s.arg1 s.arg2 then goOn s.raiseParam
  else
    let k := min s.arg1 ((s.rb ra).count - s.arg2)
    let c := crcFold s.crcAcc (s.slice ra s.arg2 k)
    goOn ((s.setCrc c).finish c.toNat k 0 0)

/-- CRC_APPEND: the accumulator, big-endian, at the tail (R111). -/
def execCrcAppend (ra : RingIx) (s : State) : Host.Outcome State Fault Refusal :=
  if (s.rb ra).cap = 0 then goOn s.raiseParam
  else if (s.rb ra).free < 2 then goOn (s.raise .capacity Quad.zero)
  else goOn (((s.pushTail ra (s.crcAcc.extractLsb' 8 8)).pushTail ra (s.crcAcc.extractLsb' 0 8)).finish 2 0 0 0)

/-- CRC_CHECK: the validity test over the whole ring (R112). -/
def execCrcCheck (ra : RingIx) (s : State) : Host.Outcome State Fault Refusal :=
  if (s.rb ra).cap = 0 ∨ (s.rb ra).count = 0 then goOn s.raiseParam
  else
    let c := crc16 (s.content ra)
    goOn ((s.setCrc c).finish (if c = 0#16 then 1 else 0) c.toNat 0 0)

end Sys2Proof.Machine
end

