-- ==== Sys2Proof/Machine/Search.lean ====
section
/-! DEFINITION. The frame search commands (42_frame_search R90..R99). The search itself is a function of the stream's bytes:
it reads the stream and writes nothing (R96). -/

namespace Sys2Proof.Machine

/-! ## The membership test (R92) -/

/-- Alignment `a` of pattern `p` qualifies at position `pos` of the stream `xs` with the window from `ws` on (R92). -/
def qualifies (p xs : List Byte) (ws pos a : Nat) : Bool :=
  decide (a + ws ≤ pos) && (List.range (a + 1)).all (fun j => xs[pos - a + j]? == p[j]?)

/-- `Q(P, m, ws, p)`: the qualifying alignments, in rising order (R92). -/
def alignments (p xs : List Byte) (ws pos : Nat) : List Nat :=
  (List.range p.length).filter (qualifies p xs ws pos)

/-- The status of a position (R92). -/
inductive Member where
  | none
  | partly
  | complete
deriving DecidableEq, Repr

/-- COMPLETE takes precedence over PARTIAL (R92). `m` is the pattern's length. -/
def memberOf (m : Nat) (q : List Nat) : Member :=
  if q.contains (m - 1) then .complete else if q.isEmpty then .none else .partly

/-- The status of position `pos` (R92). -/
def memberAt (p xs : List Byte) (ws pos : Nat) : Member := memberOf p.length (alignments p xs ws pos)

/-- A status as RES0 of FS_MATCH (R92, R93). -/
def Member.code : Member → Nat
  | .none => 0
  | .partly => 1
  | .complete => 2

/-- The alignment the tie-break reports; 0 for none (R93). -/
def tieBreak (tie : Tie) (q : List Nat) : Nat :=
  match tie with
  | .low => q.head?.getD 0
  | .high => q.getLast?.getD 0

/-- The bit mask of the alignments (R93). -/
def alignMask (q : List Nat) : Nat := (q.map (fun a => 2 ^ a)).sum

/-- FS_MATCH: the membership test as a command (R93). -/
def execFsMatch (ra : RingIx) (sel : Sel) (tie : Tie) (s : State) : Host.Outcome State Fault Refusal :=
  if (s.rb ra).cap = 0 ∨ s.sr.patternOk sel = false ∨ s.arg1 > s.arg2 ∨ s.arg2 ≥ (s.rb ra).count then goOn s.raiseParam
  else
    let p := s.sr.pattern sel
    let q := alignments p (s.content ra) s.arg1 s.arg2
    goOn (s.finish (memberOf p.length q).code (tieBreak tie q) (alignMask q) 0)

/-! ## Policy (R94) -/

/-- The interior byte at position `i` violates the policy; the interior starts at `is` (R94). -/
def violates (r : Rule) (xs : List Byte) (is i : Nat) : Bool :=
  match r.policy with
  | .hard =>
    decide (memberAt r.head xs is i ≠ .none) || (!r.tail.isEmpty && decide (memberAt r.tail xs is i ≠ .none))
  | .medium =>
    decide (memberAt r.head xs is i = .complete) || (!r.tail.isEmpty && decide (memberAt r.tail xs is i = .complete))
  | .soft => false

/-! ## The search (R95) -/

/-- Pattern `p` stands in the stream from position `i` on. -/
def occursAt (p xs : List Byte) (i : Nat) : Bool :=
  decide (i + p.length ≤ xs.length) && (xs.drop i).take p.length == p

/-- State insideCandidate: the candidate with its head at `h`, its next byte at `i`; the frame's length if it ends (R95).
`fuel` is at least the bytes left and one more. -/
def insideCandidate (r : Rule) (xs : List Byte) (h : Nat) : Nat → Nat → Option Nat
  | 0, _ => none
  | fuel + 1, i =>
    if r.maxLen ≠ 0 ∧ i - h > r.maxLen then none
    else if i - h ≥ r.minLen ∧ r.tail = [] then some (i - h)
    else if i - h ≥ r.minLen ∧ occursAt r.tail xs i = true then some (i - h + r.tail.length)
    else if i ≥ xs.length then none
    else if violates r xs (h + r.head.length) i then none
    else insideCandidate r xs h fuel (i + 1)

/-- The candidate with its head at `h`: the frame's length, if there is a head there and the candidate ends (R95). -/
def candidate (r : Rule) (xs : List Byte) (h : Nat) : Option Nat :=
  if occursAt r.head xs h then insideCandidate r xs h (xs.length + 1) (h + r.head.length) else none

/-- State waiting: the next candidate that ends, from head position `h` on (R95). `fuel` is at least the positions left. -/
def searchFrom (r : Rule) (xs : List Byte) : Nat → Nat → Option (Nat × Nat)
  | 0, _ => none
  | fuel + 1, h =>
    if h + r.head.length ≤ xs.length then
      match candidate r xs h with
      | some len => some (h, len)
      | none => searchFrom r xs fuel (h + 1)
    else none

/-- `SEARCH(S, rule, from)`: the frame's first virtual index and its length, or not found (R95). -/
def search (r : Rule) (xs : List Byte) (start : Nat) : Option (Nat × Nat) := searchFrom r xs (xs.length + 1) start

/-! ## The commands (R91, R97, R98, R99) -/

/-- The checks of FS_SEARCH and FS_SRCHADV (R91). -/
def badSearch (d : Desc) (sr : SearchRegs) : Bool := decide (d.cap = 0) || !sr.headOk || !sr.tailOk

/-- The frame view of a frame at `h` of length `len` (R97). -/
def Desc.view (d : Desc) (h len : Nat) : Desc := { d with start := (d.start + h) % d.cap, count := len }

/-- Writes the frame view into RBv, unless it is the stream itself or nothing was found (R97). -/
def writeView (i v : RingIx) (found : Option (Nat × Nat)) (s : State) : State :=
  match found with
  | some (h, len) => if v = i then s else s.setRb v ((s.rb i).view h len)
  | none => s

/-- found, h and L as numbers, 0 when nothing is found (R95). -/
def foundRes (found : Option (Nat × Nat)) : Nat × Nat × Nat :=
  match found with
  | some (h, len) => (1, h, len)
  | none => (0, 0, 0)

/-- FS_SEARCH: one search, with the view (R98). -/
def execFsSearch (ra rb : RingIx) (s : State) : Host.Outcome State Fault Refusal :=
  if badSearch (s.rb ra) s.sr then goOn s.raiseParam
  else
    let found := search s.sr.rule (s.content ra) s.arg2
    let q := foundRes found
    goOn ((writeView ra rb found s).finish q.1 q.2.1 q.2.2 0)

/-- How many bytes the flags drop at the head, fast-forward apart: the largest drop the flags ask for (R99). -/
def advanceBy (f : AdvFlags) (found : Option (Nat × Nat)) (full : Bool) : Nat :=
  match found with
  | some (h, len) =>
    max (if f.toStart then h else 0) (max (if f.toStart1 then h + 1 else 0) (if f.entire then h + len else 0))
  | none => if f.onFull && full then 1 else 0

/-- Drops `k` at the head of RBi and then, with FFWD, on to the next occurrence of the byte `b` (R99). -/
def advance (i : RingIx) (f : AdvFlags) (b : Byte) (k : Nat) (s : State) : State :=
  let t := s.dropHead i k
  if f.ffwd then State.dropUntil i b (t.rb i).count t else t

/-- FS_SRCHADV: search and advance (R99). RES3 is the number of bytes dropped. -/
def execFsSrchadv (ra rb : RingIx) (flags : AdvFlags) (s : State) : Host.Outcome State Fault Refusal :=
  if badSearch (s.rb ra) s.sr then goOn s.raiseParam
  else
    let found := search s.sr.rule (s.content ra) 0
    let k := advanceBy flags found (decide ((s.rb ra).count = (s.rb ra).cap))
    let t := advance ra flags (s.sr.head.headD 0#8) k (writeView ra rb found s)
    let q := foundRes found
    goOn (t.finish q.1 q.2.1 q.2.2 ((s.rb ra).count - (t.rb ra).count))

end Sys2Proof.Machine
end

