-- ==== Sys2Proof/Machine/Stuff.lean ====
section
/-! DEFINITION. The byte stuffing commands (43_byte_stuffing R101..R103). -/

namespace Sys2Proof.Machine

/-- A byte the stuffing escapes (R101). -/
def needsEscape (b : Byte) : Bool := b == Config.flag || b == Config.esc

/-- `stuff1(b)` (R101). -/
def stuff1 (b : Byte) : List Byte := if needsEscape b then [Config.esc, b ^^^ Config.escXor] else [b]

/-- `stuff(c)`, the concatenation of the maps of the bytes (R101). -/
def stuff (c : List Byte) : List Byte := c.flatMap stuff1

/-- One of the two valid escaped forms (R101). -/
def escapedForm (b : Byte) : Bool := b == Config.flag ^^^ Config.escXor || b == Config.esc ^^^ Config.escXor

/-- What an in-place pass over a ring ends with: the state, success, and the input bytes consumed. -/
structure PassResult where
  st : State
  ok : Bool
  used : Nat
deriving DecidableEq, Repr

/-- The loop of BS_STUFF with `left` input bytes to go and `k` consumed (R102). -/
def stuffLoop (i : RingIx) : Nat → Nat → State → PassResult
  | 0, k, s => { st := s, ok := true, used := k }
  | left + 1, k, s =>
    let b := s.rd i 0
    let t := s.dropHead i 1
    if needsEscape b then
      let u := t.pushTail i Config.esc
      if (u.rb i).count = (u.rb i).cap then { st := u, ok := false, used := k + 1 }
      else stuffLoop i left (k + 1) (u.pushTail i (b ^^^ Config.escXor))
    else stuffLoop i left (k + 1) (t.pushTail i b)

/-- Stuffs the content of RBi in place (R102). -/
def stuffRing (i : RingIx) (s : State) : PassResult := stuffLoop i (s.rb i).count 0 s

/-- The loop of BS_UNSTUFF with `left` input bytes to go and `k` consumed (R103). -/
def unstuffLoop (i : RingIx) : Nat → Nat → State → PassResult
  | 0, k, s => { st := s, ok := true, used := k }
  | left + 1, k, s =>
    let b := s.rd i 0
    let t := s.dropHead i 1
    if b = Config.flag then { st := t, ok := false, used := k + 1 }
    else if b = Config.esc then
      match left with
      | 0 => { st := t, ok := false, used := k + 1 }
      | left' + 1 =>
        let b2 := t.rd i 0
        let u := t.dropHead i 1
        if escapedForm b2 then unstuffLoop i left' (k + 2) (u.pushTail i (b2 ^^^ Config.escXor))
        else { st := u, ok := false, used := k + 2 }
    else unstuffLoop i left (k + 1) (t.pushTail i b)

/-- Unstuffs the content of RBi in place (R103). -/
def unstuffRing (i : RingIx) (s : State) : PassResult := unstuffLoop i (s.rb i).count 0 s

/-- The completion of a pass: OK, or the error `e`, with RES0 = ok, RES1 = COUNT, RES2 = bytes consumed (R102, R103). -/
def PassResult.finish (p : PassResult) (i : RingIx) (e : Ecode) : State :=
  if p.ok then p.st.finish 1 (p.st.rb i).count p.used 0
  else p.st.raise e (quadOf 0 (p.st.rb i).count p.used 0)

/-- The checks of the stuffing commands (R102, R103). -/
def badPass (d : Desc) : Bool := decide (d.cap = 0) || decide (d.count = 0)

/-- BS_STUFF (R102). -/
def execBsStuff (ra : RingIx) (s : State) : Host.Outcome State Fault Refusal :=
  if badPass (s.rb ra) then goOn s.raiseParam else goOn ((stuffRing ra s).finish ra .capacity)

/-- BS_UNSTUFF (R103). -/
def execBsUnstuff (ra : RingIx) (s : State) : Host.Outcome State Fault Refusal :=
  if badPass (s.rb ra) then goOn s.raiseParam else goOn ((unstuffRing ra s).finish ra .corrupt)

end Sys2Proof.Machine
end

