-- ==== Sys2Proof/Machine/Link.lean ====
section
/-! DEFINITION. The link protocol commands and the engine steps of a running LP_SEND and LP_RECV (45_link_protocol
R113..R128). A running link command stops before every call of a port or of the tick input (10_state R36): the meanings
below end in a state whose phase names that call, and the step functions make the call and go on to the next. -/

namespace Sys2Proof.Machine

/-! ## The rings of the session -/

/-- The index of rx (45_link_protocol, opening). -/
def State.rxIx (s : State) : RingIx := s.ls.sess.rx
/-- The index of C, the scratch ring. -/
def State.scrIx (s : State) : RingIx := s.ls.sess.scr
/-- The index of sd. -/
def State.sideIx (s : State) : RingIx := s.ls.sess.side
/-- The index of sl. -/
def State.slenIx (s : State) : RingIx := s.ls.sess.slen

/-! ## Wire format (R113, R114, R115) -/

/-- Byte 0 of the header: ackWanted in bit 7, code in bits [6:0] (R114). -/
def headerByte0 (code : BitVec 7) (ackW : Bool) : Byte := BitVec.ofBool ackW ++ code

/-- The three header bytes (R114). -/
def header (code : BitVec 7) (ackW : Bool) (hash : Half) : List Byte := headerByte0 code ackW :: wireBytes hash

/-- The content of a frame: header, payload, CRC big-endian (R113). -/
def frameContent (code : BitVec 7) (ackW : Bool) (hash : Half) (payload : List Byte) : List Byte :=
  let hp := header code ackW hash ++ payload
  hp ++ wireBytes (crc16 hp)

/-- The frame on the wire (R113). -/
def wireFrame (code : BitVec 7) (ackW : Bool) (hash : Half) (payload : List Byte) : List Byte :=
  Config.flag :: (stuff (frameContent code ackW hash payload) ++ [Config.flag])

/-- The link search rule LINK (R115). -/
def linkRule : Rule :=
  { head := [Config.flag], tail := [Config.flag], minLen := Config.linkMinLen, maxLen := Config.linkMaxLen,
    policy := .hard }

/-! ## BUILD, SENDACK, DEFRAME (R116, R118, R120) -/

/-- Pushes bytes at the tail of RBi while there is room; fails at the first that has none (R116). -/
def pushAll (i : RingIx) : List Byte → State → State × Bool
  | [], s => (s, true)
  | b :: bs, s => if (s.rb i).free = 0 then (s, false) else pushAll i bs (s.pushTail i b)

/-- "flag-wrap": the opening flag at the head, the closing flag at the tail (R116). -/
def flagWrap (i : RingIx) (s : State) : State × Bool :=
  if (s.rb i).free = 0 then (s, false)
  else
    let t := s.pushHead i Config.flag
    if (t.rb i).free = 0 then (t, false) else (t.pushTail i Config.flag, true)

/-- `BUILD(code, ackW, hash, P)` into the scratch ring (R116). -/
def build (code : BitVec 7) (ackW : Bool) (hash : Half) (payload : List Byte) (s : State) : State × Bool :=
  let c := s.scrIx
  let p := pushAll c (frameContent code ackW hash payload) (s.flushRb c)
  if p.2 then
    let q := stuffRing c p.1
    if q.ok then flagWrap c q.st else (q.st, false)
  else p

/-- The BUILD of `SENDACK(hash)` (R118). -/
def buildAck (hash : Half) (s : State) : State × Bool := build Config.codeAck false hash [] s

/-- What DEFRAME reads from a frame (R120). -/
structure Frame where
  code : BitVec 7
  ackW : Bool
  hash : Half
  plen : Nat
deriving DecidableEq, Repr

/-- The header fields of the content in the scratch ring, whose length is `k` (R120). -/
def frameOf (s : State) (k : Nat) : Frame :=
  let c := s.scrIx
  { code := (s.rd c 0).extractLsb' 0 7, ackW := (s.rd c 0).getLsbD 7, hash := s.rd c 1 ++ s.rd c 2,
    plen := k - Config.hdrLen - Config.crcLen }

/-- The checks of DEFRAME on the unstuffed content: long enough, CRC residue 0, payload not too long (R120). -/
def contentOk (s : State) : Bool :=
  let k := (s.rb s.scrIx).count
  decide (Config.hdrLen + Config.crcLen ≤ k) && decide (crc16 (s.content s.scrIx) = 0#16) &&
    decide (k - Config.hdrLen - Config.crcLen ≤ Config.payloadMax)

/-- Copies `n` elements of RBi from virtual index `lo` up to the tail of RBo (R120, R124, R127). -/
def copyToTail (i o : RingIx) (lo n : Nat) (s : State) : State :=
  forUp (fun v t => t.pushTail o (t.rd i v)) n lo s

/-- `DEFRAME(h, L)`: de-frames a candidate of rx into the scratch ring (R120). -/
def deframe (h len : Nat) (s : State) : State × Option Frame :=
  let c := s.scrIx
  let s0 := s.flushRb c
  if len - 2 > (s0.rb c).cap then (s0, none)
  else
    let q := unstuffRing c (copyToTail s.rxIx c (h + 1) (len - 2) s0)
    if q.ok && contentOk q.st then (q.st, some (frameOf q.st (q.st.rb c).count)) else (q.st, none)

/-! ## CLASSIFY (R122, R123, R124) -/

/-- Who scans: LP_RECV for a code, with its out ring, or the wait of LP_SEND for an acknowledgement (R121). -/
inductive Mode where
  | ordinary (want : Nat) (out : RingIx)
  | ackWait (hash : Half)
deriving DecidableEq, Repr

/-- A DATA frame's hash was the last delivered (R122, R123). -/
def State.dup (s : State) (hash : Half) : Bool := s.ls.lastRx.valid && decide (hash = s.ls.lastRx.hash)

/-- What becomes of a frame. The two DROP rows that may acknowledge say whether they do (R122; log 12). -/
inductive Verdict where
  | take
  | drop
  | dropAck
  | capture (ack : Bool)
  | keep
  | stop
deriving DecidableEq, Repr

/-- The ORDINARY rows of R122. -/
def classifyOrdinary (want : Nat) (out : RingIx) (d : Frame) (s : State) : Verdict :=
  if d.code.toNat = want then
    if !(decide (d.code = Config.codeData) && s.dup d.hash) && decide ((s.rb out).free < d.plen) then .stop else .take
  else if s.removable d.code.toNat then .drop
  else .keep

/-- The ACKWAIT rows of R122. -/
def classifyWait (hs : Half) (d : Frame) (s : State) : Verdict :=
  if d.code = Config.codeAck then (if d.hash = hs then .take else .drop)
  else if d.code = Config.codeData ∧ s.ls.sess.sqe = true then
    if s.dup d.hash then (if d.ackW then .dropAck else .drop)
    else if (s.rb s.sideIx).free ≥ d.plen ∧ (s.rb s.slenIx).free ≥ 1 then .capture d.ackW
    else .keep
  else .keep

/-- `CLASSIFY(mode, frame)` (R122). -/
def classify (m : Mode) (d : Frame) (s : State) : Verdict :=
  match m with
  | .ordinary want out => classifyOrdinary want out d s
  | .ackWait hs => classifyWait hs d s

/-- CAPTURE: the payload and its length go into the side queue (R124). -/
def captureFrame (d : Frame) (s : State) : State :=
  ((copyToTail s.scrIx s.sideIx Config.hdrLen d.plen s).pushTail s.slenIx (BitVec.ofNat 8 d.plen)).setLastRx d.hash

/-! ## SCAN (R121) -/

/-- How a scan ends or pauses: a frame is taken, LP_RECV must stop, no candidate is left, or an acknowledgement stands
built in the scratch ring and the scan goes on at `off` once it is sent (R118, R121). -/
inductive ScanEnd where
  | taken (d : Frame)
  | stopped
  | nothing
  | ack (off : Nat)
deriving DecidableEq, Repr

/-- The end of a scan with no candidate left: full and nothing found, and fast-forward (R121). -/
def scanRest (off : Nat) (s : State) : State :=
  if off = 0 then
    let t := if (s.rb s.rxIx).free = 0 then s.dropHead s.rxIx 1 else s
    State.dropUntil s.rxIx Config.flag (t.rb s.rxIx).count t
  else s

/-- `SCAN(mode)` from offset `off` on (R121). `fuel` is more than the bytes of rx behind `off`; each pass removes a byte or
raises `off`, so it does not run out (log 17). -/
def scan (m : Mode) : Nat → Nat → State → State × ScanEnd
  | 0, _, s => (s, .nothing)
  | fuel + 1, off, s =>
    match search linkRule (s.content s.rxIx) off with
    | none => (scanRest off s, .nothing)
    | some (h, len) =>
      match deframe h len s with
      | (t, none) =>
        if off = 0 then scan m fuel 0 (t.dropHead t.rxIx (h + 1)) else scan m fuel (h + 1) t
      | (t, some d) =>
        let u := if off = 0 then t.dropHead t.rxIx h else t
        let at_ := if off = 0 then 0 else h
        match classify m d u with
        | .take => (cutRange u.rxIx at_ len u, .taken d)
        | .drop => scan m fuel off (cutRange u.rxIx at_ len u)
        | .dropAck =>
          let b := buildAck d.hash (cutRange u.rxIx at_ len u)
          if b.2 then (b.1, .ack off) else scan m fuel off b.1.setAckFail
        | .capture ack =>
          let v := cutRange u.rxIx at_ len (captureFrame d u)
          if ack then
            let b := buildAck d.hash v
            if b.2 then (b.1, .ack off) else scan m fuel off b.1.setAckFail
          else scan m fuel off v
        | .keep => scan m fuel (at_ + 1) u
        | .stop => (u, .stopped)

/-- The whole scan from `off` on (R121). -/
def scanAll (m : Mode) (off : Nat) (s : State) : State × ScanEnd := scan m ((s.rb s.rxIx).count + 1) off s

/-! ## LP_INIT (R125) -/

/-- The checks of LP_INIT (R125). -/
def badSession (s : State) (g : Session) : Bool :=
  decide (g.rx = g.scr) || decide ((s.rb g.rx).cap = 0) || decide ((s.rb g.scr).cap = 0) ||
    (g.sqe &&
      (decide (g.side = g.rx) || decide (g.side = g.scr) || decide (g.slen = g.rx) || decide (g.slen = g.scr) ||
        decide (g.slen = g.side) || decide ((s.rb g.side).cap = 0) || decide ((s.rb g.slen).cap = 0)))

/-- A fresh session: LS_CFG latched, the hash counters and LS_STATE cleared (R125). -/
def LinkRegs.start (l : LinkRegs) : LinkRegs :=
  { l with
    sess := l.cfg, sessValid := true, txHash := 0#16, lastRx := LastRx.none, state := .idle, attempts := 0#16 }

/-- Flushes each ring of a list in turn. -/
def flushAll (l : List RingIx) (s : State) : State := l.foldl (fun t i => t.flushRb i) s

/-- LP_INIT: the session's init call (R125). -/
def execLpInit (s : State) : Host.Outcome State Fault Refusal :=
  if badSession s s.ls.cfg then goOn ({ s with ls := { s.ls with sessValid := false } } : State).raiseParam
  else goOn ((flushAll s.ls.cfg.rings { s with ls := s.ls.start }).finish 1 0 0 0)

/-! ## LP_SEND (R126, R128) -/

/-- The PARAM checks of LP_SEND and LP_RECV (R126, R127). -/
def badLink (s : State) (ra : RingIx) : Bool :=
  !s.ls.sessValid || s.ls.sess.rings.contains ra || decide ((s.rb ra).cap = 0)

/-- RES0..RES3 of an LP_SEND: the outcome, n, the hash, flen (R126). -/
def SendCtx.results (c : SendCtx) (r0 : Nat) : Quad := quadOf r0 c.tries c.hash.toNat c.frameLen

/-- The start of an attempt: BUILD, then STATE <- Sent, one more transmission, and the first TX call comes next (R126). -/
def sendAttempt (c : SendCtx) (s : State) : State :=
  let b := build Config.codeData c.ackW c.hash c.payload s
  if b.2 then
    let c' := { c with tries := c.tries + 1, frameLen := (b.1.rb b.1.scrIx).count }
    (b.1.setSendBoth .sent c'.tries).await (.sendTx c' 0)
  else (b.1.setSend .aborted).raise .capacity (quadOf 0 c.tries c.hash.toNat 0)

/-- What LP_SEND holds when its checks have passed: a fresh hash, the payload, T and R (R126; log 19). -/
def sendStart (s : State) (ra : RingIx) (ackW : Bool) : SendCtx :=
  { ackW := ackW, hash := s.ls.txHash + 1#16, payload := s.content ra, tries := 0, frameLen := 0, t0 := 0#32,
    timeout := s.ls.timeout, retries := s.ls.maxRetry.toNat }

/-- LP_SEND up to its first TX call (R126): checks, the fresh hash, the first BUILD. -/
def execLpSend (ra : RingIx) (ack : Bool) (s : State) : Host.Outcome State Fault Refusal :=
  if badLink s ra then goOn s.raiseParam
  else if (s.rb ra).count > Config.payloadMax then goOn ((s.setSendBoth .aborted 0).raise .capacity Quad.zero)
  else
    let c := sendStart s ra ack
    let s1 : State := { s with ls := { s.ls with txHash := c.hash } }
    goOn (sendAttempt c (s1.setSendBoth .idle 0))

/-- SCAN of the wait from `off` on, and what follows it: the ACK is taken, or an ACK of ours is to be sent, or the tick is
read (R121, R126). -/
def waitScan (c : SendCtx) (off : Nat) (s : State) : State :=
  match scanAll (.ackWait c.hash) off s with
  | (t, .taken _) => (t.setSend .acked).complete .ok (c.results 1)
  | (t, .ack off') => t.await (.sendAckTx c off' 0)
  | (t, .stopped) => t.await (.sendT c)
  | (t, .nothing) => t.await (.sendT c)

/-- TOPUP of the wait: RXP comes next while rx has room, else SCAN (R119, R126). -/
def waitPoll (c : SendCtx) (s : State) : State :=
  if (s.rb s.rxIx).free > 0 then s.await (.sendRx c) else waitScan c 0 s

/-- The TX call of XMIT at element `v`, and what follows it (R117, R126). -/
def sendTxStep (c : SendCtx) (v : Nat) (s : State) : State :=
  match s.tx (s.rd s.scrIx v) with
  | (t, false) => (t.setSend .aborted).raise .transport (c.results 0)
  | (t, true) =>
    if v + 1 < (t.rb t.scrIx).count then t.await (.sendTx c (v + 1))
    else if c.ackW then (t.setSend .ackWait).await (.sendT0 c)
    else t.complete .ok (c.results 1)

/-- The call `t0 <- NOW()`, and the first poll (R126). -/
def sendT0Step (c : SendCtx) (s : State) : State := waitPoll { c with t0 := s.now } s

/-- The RXP call of TOPUP in a wait, and what follows it (R119, R126). -/
def sendRxStep (c : SendCtx) (s : State) : State :=
  match s.rxp with
  | (t, none) => waitScan c 0 t
  | (t, some b) => waitPoll c (t.pushTail t.rxIx b)

/-- The TX call of a SENDACK in a wait: a rejection sets ACKFAIL, and after the last byte the scan goes on (R118, R122). -/
def sendAckTxStep (c : SendCtx) (off v : Nat) (s : State) : State :=
  match s.tx (s.rd s.scrIx v) with
  | (t, false) => waitScan c off t.setAckFail
  | (t, true) => if v + 1 < (t.rb t.scrIx).count then t.await (.sendAckTx c off (v + 1)) else waitScan c off t

/-- The wait has lasted T ticks: `(t - t0) mod 2^32 >= T` (R126). -/
def SendCtx.timedOut (c : SendCtx) (t : Word) : Bool := decide ((t - c.t0).toNat ≥ c.timeout.toNat)

/-- The call `t <- NOW()`: another poll, or the next attempt, or the retries are exhausted (R126). -/
def sendTStep (c : SendCtx) (s : State) : State :=
  if c.timedOut s.now then
    if c.tries = 1 + c.retries then (s.setSend .exhausted).raise .exhausted (c.results 0)
    else sendAttempt c (s.setSend .retry)
  else waitPoll c s

/-! ## LP_RECV (R127) -/

/-- The byte DRAIN takes from the side ring: its head element, or a free value when the side ring has no storage
(R124; log 15). -/
def drainByte (s : State) (k : Nat) : Byte :=
  if (s.rb s.sideIx).cap = 0 then Config.unboundRead s.draws k else s.rd s.sideIx 0

/-- DRAIN of an entry of `plen` bytes into RBout (R124). -/
def drain (out : RingIx) (plen : Nat) (s : State) : State :=
  forUp (fun k t => (t.pushTail out (drainByte t k)).dropHead t.sideIx 1) plen 0 (s.dropHead s.slenIx 1)

/-- RES2 of a frame taken from rx: code [6:0], ackWanted [7], duplicate [8] (R127). -/
def recvFlags (d : Frame) (dup : Bool) : Nat := d.code.toNat + 2 ^ 7 * d.ackW.toNat + 2 ^ 8 * dup.toNat

/-- RES0..RES3 of an LP_RECV that took a frame from rx (R127). -/
def recvResults (d : Frame) (dup : Bool) : Quad := quadOf (if dup then 0 else d.plen) 1 (recvFlags d dup) d.hash.toNat

/-- The delivery of a taken frame: unless it is a duplicate, its payload goes to the tail of out, and a DATA frame's hash is
remembered (R123, R127). -/
def deliver (out : RingIx) (d : Frame) (s : State) : State :=
  let t := copyToTail s.scrIx out Config.hdrLen d.plen s
  if d.code = Config.codeData then t.setLastRx d.hash else t

/-- What follows the frame LP_RECV takes: delivery, and the acknowledgement if the frame wants one (R127). -/
def recvTaken (out : RingIx) (d : Frame) (s : State) : State :=
  let isDup := decide (d.code = Config.codeData) && s.dup d.hash
  let t := if isDup then s else deliver out d s
  if d.code = Config.codeData ∧ d.ackW = true then
    let b := buildAck d.hash t
    if b.2 then b.1.await (.recvAckTx (recvResults d isDup) 0)
    else b.1.setAckFail.complete .ok (recvResults d isDup)
  else t.complete .ok (recvResults d isDup)

/-- LP_RECV after its TOPUP: drain the side queue first, else scan (R127). -/
def recvScan (c : RecvCtx) (s : State) : State :=
  if s.ls.sess.sqe = true ∧ c.want = Config.codeData.toNat ∧ (s.rb s.slenIx).count > 0 then
    let plen := (s.rd s.slenIx 0).toNat
    if (s.rb c.out).free < plen then s.raise .capacity Quad.zero
    else (drain c.out plen s).complete .ok (quadOf plen 1 (2 ^ 9) 0)
  else
    match scanAll (.ordinary c.want c.out) 0 s with
    | (t, .taken d) => recvTaken c.out d t
    | (t, .stopped) => t.raise .capacity Quad.zero
    | (t, .ack _) => t.finish 0 0 0 0
    | (t, .nothing) => t.finish 0 0 0 0

/-- TOPUP of LP_RECV: RXP comes next while rx has room, else the rest (R119, R127). -/
def recvPoll (c : RecvCtx) (s : State) : State :=
  if (s.rb s.rxIx).free > 0 then s.await (.recvRx c) else recvScan c s

/-- LP_RECV up to its first RXP call (R127). -/
def execLpRecv (ra : RingIx) (want : Nat) (s : State) : Host.Outcome State Fault Refusal :=
  if badLink s ra then goOn s.raiseParam else goOn (recvPoll { out := ra, want := want } s)

/-- The RXP call of LP_RECV's TOPUP, and what follows it (R119, R127). -/
def recvRxStep (c : RecvCtx) (s : State) : State :=
  match s.rxp with
  | (t, none) => recvScan c t
  | (t, some b) => recvPoll c (t.pushTail t.rxIx b)

/-- The TX call of LP_RECV's SENDACK: a rejection sets ACKFAIL, and either way the command then completes (R118, R127). -/
def recvAckTxStep (results : Quad) (v : Nat) (s : State) : State :=
  match s.tx (s.rd s.scrIx v) with
  | (t, false) => t.setAckFail.complete .ok results
  | (t, true) => if v + 1 < (t.rb t.scrIx).count then t.await (.recvAckTx results (v + 1)) else t.complete .ok results

end Sys2Proof.Machine
end

