-- ==== Sys2Proof/Machine/Dispatch.lean ====
section
/-! DEFINITION. Every command's meaning, one arm per constructor (30_encoding R66). -/

namespace Sys2Proof.Machine

/-- What a command does at its execution (10_state R35): the whole command, or for LP_SEND and LP_RECV the part up to the
first call of a port (R36). -/
def exec (i : Instr) (s : State) : Host.Outcome State Fault Refusal :=
  match i with
  | .nop => Sys2Proof.Machine.execNop s
  | .rbInit ra => Sys2Proof.Machine.execRbInit ra s
  | .rbPusho ra ea => Sys2Proof.Machine.execRbPusho ra ea s
  | .rbPushb ra ea => Sys2Proof.Machine.execRbPushb ra ea s
  | .rbPull ra ea discard => Sys2Proof.Machine.execRbPull ra ea discard s
  | .rbRead ra ea => Sys2Proof.Machine.execRbRead ra ea s
  | .rbWrite ra ea => Sys2Proof.Machine.execRbWrite ra ea s
  | .rbCut ra ea discard => Sys2Proof.Machine.execRbCut ra ea discard s
  | .rbMove ra ea rb eb destr => Sys2Proof.Machine.execRbMove ra ea rb eb destr s
  | .rbRotl ra dir => Sys2Proof.Machine.execRbRotl ra dir s
  | .rbRotp ra => Sys2Proof.Machine.execRbRotp ra s
  | .rbFull ra => Sys2Proof.Machine.execRbFull ra s
  | .rbEmpty ra => Sys2Proof.Machine.execRbEmpty ra s
  | .rbFlush ra => Sys2Proof.Machine.execRbFlush ra s
  | .fsMatch ra sel tie => Sys2Proof.Machine.execFsMatch ra sel tie s
  | .fsSearch ra rb => Sys2Proof.Machine.execFsSearch ra rb s
  | .fsSrchadv ra rb flags => Sys2Proof.Machine.execFsSrchadv ra rb flags s
  | .bsStuff ra => Sys2Proof.Machine.execBsStuff ra s
  | .bsUnstuff ra => Sys2Proof.Machine.execBsUnstuff ra s
  | .crcSeed => Sys2Proof.Machine.execCrcSeed s
  | .crcByte => Sys2Proof.Machine.execCrcByte s
  | .crcRun ra => Sys2Proof.Machine.execCrcRun ra s
  | .crcAppend ra => Sys2Proof.Machine.execCrcAppend ra s
  | .crcCheck ra => Sys2Proof.Machine.execCrcCheck ra s
  | .lpInit => Sys2Proof.Machine.execLpInit s
  | .lpSend ra ack => Sys2Proof.Machine.execLpSend ra ack s
  | .lpRecv ra want => Sys2Proof.Machine.execLpRecv ra want s

end Sys2Proof.Machine
end

