-- ==== Sys2Proof/Machine/Engine.lean ====
section
/-! DEFINITION. One step of the command engine: the execution of the latched command word, or the next port call of a running
link command (10_state R35, R36). -/

namespace Sys2Proof.Machine

/-- The execution of the latched word: the command it spells, or the ILLEGAL completion (30_encoding R67). -/
def executeLatched (s : State) : Host.Outcome State Fault Refusal :=
  match decode s.cmd with
  | .ok i => exec i s
  | .error _ => goOn s.illegal

/-- One engine step (R36). An idle engine does nothing (60_exceptions R144). -/
def engineStep (s : State) : Host.Outcome State Fault Refusal :=
  match s.phase with
  | .idle => goOn s
  | .fetch => executeLatched s
  | .sendTx c v => goOn (sendTxStep c v s)
  | .sendT0 c => goOn (sendT0Step c s)
  | .sendRx c => goOn (sendRxStep c s)
  | .sendAckTx c off v => goOn (sendAckTxStep c off v s)
  | .sendT c => goOn (sendTStep c s)
  | .recvRx c => goOn (recvRxStep c s)
  | .recvAckTx results v => goOn (recvAckTxStep results v s)

/-! ## What a running command touches (20_memory R56, 70_reset_and_hazards R146, R150) -/

/-- The rings whose storage a command reads or writes (R56; log 7). -/
def ringsUsed (i : Instr) (s : State) : List RingIx :=
  match i with
  | .nop | .rbInit _ | .rbFull _ | .rbEmpty _ | .rbFlush _ | .crcSeed | .crcByte | .lpInit => []
  | .rbPusho ra _ | .rbPushb ra _ | .rbPull ra _ _ | .rbRead ra _ | .rbWrite ra _ | .rbCut ra _ _ | .rbRotl ra _
  | .rbRotp ra | .fsMatch ra _ _ | .fsSearch ra _ | .fsSrchadv ra _ _ | .bsStuff ra | .bsUnstuff ra | .crcRun ra
  | .crcAppend ra | .crcCheck ra => [ra]
  | .rbMove ra _ rb _ _ => [ra, rb]
  | .lpSend ra ack => ra :: (if ack then s.ls.sess.rings else [s.ls.sess.scr])
  | .lpRecv ra _ => ra :: s.ls.sess.rings

/-- The length of the data block at ARG0: ARG1[15:0] for the transfer commands, 0 for the others (R150). -/
def dataLen (i : Instr) (s : State) : Nat :=
  match i with
  | .rbPusho _ _ | .rbPushb _ _ | .rbPull _ _ _ | .rbRead _ _ | .rbWrite _ _ | .rbCut _ _ _ => s.arg1
  | .nop | .rbInit _ | .rbMove _ _ _ _ _ | .rbRotl _ _ | .rbRotp _ | .rbFull _ | .rbEmpty _ | .rbFlush _ | .fsMatch _ _ _
  | .fsSearch _ _ | .fsSrchadv _ _ _ | .bsStuff _ | .bsUnstuff _ | .crcSeed | .crcByte | .crcRun _ | .crcAppend _
  | .crcCheck _ | .lpInit | .lpSend _ _ | .lpRecv _ _ => 0

/-- Address `a` is a storage slot of the descriptor. -/
def Desc.holds (d : Desc) (a : Nat) : Bool := decide (d.base ≤ a) && decide (a < d.base + d.cap)

/-- Address `a` lies in the block of `n` bytes from `start` up, modulo 2^ADDR_W (R44). -/
def State.inBlock (s : State) (start n a : Nat) : Bool :=
  decide ((a + 2 ^ s.addrW - start % 2 ^ s.addrW) % 2 ^ s.addrW < n)

/-- Command `i` may read or write the byte at `a`: a slot of a ring it uses, or a byte of its data block (R56, R150). -/
def inFootprint (i : Instr) (s : State) (a : Nat) : Bool :=
  (ringsUsed i s).any (fun r => (s.rb r).holds a) || s.inBlock s.argAddr (dataLen i s) a

/-- The byte at `a` is in use by the running command (R56). -/
def State.inUse (s : State) (a : Nat) : Bool :=
  s.busy &&
    match decode s.cmd with
    | .ok i => inFootprint i s a
    | .error _ => false

/-- The MEM writes the running command has made and those of its engine step under way (R56, R146; log 8, log 9). -/
def State.pendingWrites (s : State) : List WriteRec :=
  if s.busy then
    match engineStep s with
    | .next t => t.wlog
    | .fault _ => s.wlog
    | .refused _ => s.wlog
  else []

end Sys2Proof.Machine
end

