-- ==== Sys2Proof/Machine/HostPort.lean ====
section
/-! DEFINITION. The host's accesses, the reset input and the environment's moves (10_state R17..R24, R37, 20_memory R50, R56,
70_reset_and_hazards R145, R146). -/

namespace Sys2Proof.Machine

/-! ## The register window, read (R18, R19) -/

/-- The four registers of descriptor `off / 16`, at offset 0x100 + 16n (R18). -/
def descRegister (s : State) (off : Nat) : Word :=
  let d := s.rb (BitVec.ofNat 3 (off / 16)).toFin
  match off % 16 with
  | 0x0 => BitVec.ofNat 32 d.base
  | 0x4 => BitVec.ofNat 32 d.cap
  | 0x8 => BitVec.ofNat 32 d.count
  | _ => BitVec.ofNat 32 d.start

/-- The value of the register at an offset that is a multiple of 4; reserved offsets and CMD read 0 (R18, R19). -/
def registerAt (s : State) (off : Nat) : Word :=
  match off with
  | 0x000 => Config.idValue
  | 0x004 => Config.versionValue
  | 0x008 => BitVec.ofNat 32 s.irqEn.toNat
  | 0x00C => s.statusWord
  | 0x014 => s.arg.r0
  | 0x018 => s.arg.r1
  | 0x01C => s.arg.r2
  | 0x020 => s.arg.r3
  | 0x024 => s.res.r0
  | 0x028 => s.res.r1
  | 0x02C => s.res.r2
  | 0x030 => s.res.r3
  | 0x040 => s.sr.hpat0
  | 0x044 => s.sr.hpat1
  | 0x048 => s.sr.tpat0
  | 0x04C => s.sr.tpat1
  | 0x050 => s.sr.cfgWord
  | 0x054 => s.sr.minLen.setWidth 32
  | 0x058 => s.sr.maxLen.setWidth 32
  | 0x060 => s.crcAcc.setWidth 32
  | 0x070 => s.ls.cfgWord
  | 0x074 => s.ls.sessWord
  | 0x078 => s.ls.timeout
  | 0x07C => s.ls.maxRetry.setWidth 32
  | 0x080 => s.ls.txHash.setWidth 32
  | 0x084 => s.ls.lastRxWord
  | 0x088 => s.ls.stateWord
  | 0x08C => s.env.tick
  | _ => if 0x100 ≤ off ∧ off < 0x180 then descRegister s (off - 0x100) else 0#32

/-- The registers whose value a host read leaves open while busy: RES0..RES3, CRC_ACC, LS_SESS, LS_TXHASH, LS_LASTRX and the
descriptors (R37). -/
def openWhileBusy (off : Nat) : Bool :=
  [0x024, 0x028, 0x02C, 0x030, 0x060, 0x074, 0x080, 0x084].contains off || (decide (0x100 ≤ off) && decide (off < 0x180))

/-- An access the window serves: 32 bits wide, at a multiple of 4, inside the window (R18, R50). -/
def served (off width : Nat) : Bool := width == 4 && off % 4 == 0 && decide (off < Config.windowBytes)

/-- What a host read returns (R19, R37, R50). -/
def readValue (s : State) (off width : Nat) : Word :=
  if served off width then
    if s.busy && openWhileBusy off then Config.busyRead s.draws off else registerAt s off
  else 0#32

/-- A host register read changes nothing of the block (R51); the value is on the bus. -/
def hostRead (off width : Nat) (s : State) : State :=
  { s with busData := readValue s off width, draws := s.draws + 1 }

/-! ## The register window, written (R18, R19, R37) -/

/-- The registers a write to which is dropped, and sets OVR, while busy (R37). CMD is one of them. -/
def lockedWhileBusy (off : Nat) : Bool :=
  [0x010, 0x014, 0x018, 0x01C, 0x020, 0x040, 0x044, 0x048, 0x04C, 0x050, 0x054, 0x058, 0x060, 0x070, 0x078, 0x07C].contains
    off

/-- A write of `v` that takes effect; reserved and read-only offsets ignore it (R18, R19, R35). -/
def writeRegister (off : Nat) (v : Word) (s : State) : State :=
  match off with
  | 0x008 => { s with irqEn := v.getLsbD 0 }
  | 0x00C => { s with status := s.status.clearWritten v }
  | 0x010 => s.accept v
  | 0x014 => { s with arg := { s.arg with r0 := v } }
  | 0x018 => { s with arg := { s.arg with r1 := v } }
  | 0x01C => { s with arg := { s.arg with r2 := v } }
  | 0x020 => { s with arg := { s.arg with r3 := v } }
  | 0x040 => { s with sr := { s.sr with hpat0 := v } }
  | 0x044 => { s with sr := { s.sr with hpat1 := v } }
  | 0x048 => { s with sr := { s.sr with tpat0 := v } }
  | 0x04C => { s with sr := { s.sr with tpat1 := v } }
  | 0x050 =>
    { s with sr := { s.sr with hlen := v.extractLsb' 0 4, tlen := v.extractLsb' 8 4, policy := v.extractLsb' 16 2 } }
  | 0x054 => { s with sr := { s.sr with minLen := v.extractLsb' 0 16 } }
  | 0x058 => { s with sr := { s.sr with maxLen := v.extractLsb' 0 16 } }
  | 0x060 => { s with crcAcc := v.extractLsb' 0 16 }
  | 0x070 => { s with ls := { s.ls with cfg := Session.ofWord v } }
  | 0x078 => { s with ls := { s.ls with timeout := v } }
  | 0x07C => { s with ls := { s.ls with maxRetry := v.extractLsb' 0 16 } }
  | _ => s

/-- A host register write (R19, R37, R50). -/
def hostWrite (off width : Nat) (v : Word) (s : State) : State :=
  if served off width then
    if s.busy && lockedWhileBusy off then s.setOvr else writeRegister off v s
  else s

/-! ## MEM, from the host (20_memory R42, R51, R56) -/

/-- The values R56 allows a host read of the byte at `a` to return: the byte there now, and for a byte the running command
writes, the byte before each write and after it. -/
def readChoices (s : State) (a : Nat) : List Byte :=
  s.mem.read a :: ((s.pendingWrites.filter (fun w => w.addr == a)).flatMap (fun w => [w.old, w.new]))

/-- A host read of one byte of MEM (R51, R56). -/
def hostMemRead (a : Nat) (s : State) : State :=
  let l := readChoices s (s.wrap a)
  { s with
    busData := (l.getD (Config.raceChoice s.draws (s.wrap a) % l.length) (s.mem.read (s.wrap a))).setWidth 32
    draws := s.draws + 1 }

/-- A host write of one byte of MEM; to a byte the running command uses it is a hazard (R56, R150). -/
def hostMemWrite (a : Nat) (b : Byte) (s : State) : State :=
  { s with
    mem := s.mem.write (s.wrap a) b
    hazard := s.hazard || s.inUse (s.wrap a)
    draws := s.draws + (s.inUse (s.wrap a)).toNat }

/-- One host access. -/
def hostStep (op : HostOp) (s : State) : State :=
  match op with
  | .read off width => hostRead off width s
  | .write off width v => hostWrite off width v s
  | .memRead a => hostMemRead a s
  | .memWrite a b => hostMemWrite a b s

/-! ## Reset (70_reset_and_hazards R145, R146) -/

/-- Leaves a free value at every address of a write list (R146; log 9). -/
def scramble (n : Nat) : List WriteRec → Memory → Memory
  | [], m => m
  | w :: ws, m => scramble n ws (m.write w.addr (Config.abandonedByte n w.addr))

/-- The reset input: every register takes its reset value, the engine is idle; MEM stays but for the bytes an abandoned
command was writing, and the environment goes on (R145, R146). -/
def hardReset (s : State) : State :=
  { State.reset with
    addrW := s.addrW
    mem := scramble s.draws s.pendingWrites s.mem
    draws := s.draws + 1
    busData := s.busData
    env := s.env }

/-! ## The environment's own moves (60_exceptions R137, R138) -/

/-- The tick input counts up by `d`, modulo 2^32 (R138). -/
def tickOn (d : Word) (s : State) : State := { s with env := { s.env with tick := s.env.tick + d } }

/-- The receive port gets one more byte to hand over (R137). -/
def lineByte (b : Byte) (s : State) : State := { s with env := { s.env with rxLine := s.env.rxLine ++ [b] } }

/-- The transmit port accepts or rejects from now on (R137). -/
def portReady (ok : Bool) (s : State) : State := { s with env := { s.env with txOk := ok } }

/-- The move of one agent (00_scope R7). -/
def eventStep (e : Event) (s : State) : Host.Outcome State Fault Refusal :=
  match e with
  | .engine => engineStep s
  | .host op => goOn (hostStep op s)
  | .tick d => goOn (tickOn d s)
  | .rxByte b => goOn (lineByte b s)
  | .txReady ok => goOn (portReady ok s)
  | .reset => goOn (hardReset s)

/-- The moves to come, less the first. -/
def State.nextMove (s : State) : State := { s with env := { s.env with agenda := s.env.agenda.tail } }

/-- The state in which command word `w` has just been accepted and the engine moves next (R35). -/
def State.placeCommand (s : State) (w : Word) : State :=
  { s.accept w with env := { s.env with agenda := .engine :: s.env.agenda } }

end Sys2Proof.Machine
end

