-- ==== Sys2Proof/Machine/Step.lean ====
section
/-! DEFINITION. The step of the whole machine: the next move of the agenda, or a step of the engine (00_scope R7). -/

namespace Sys2Proof.Machine

/-- One step: the agent whose move is next moves; with no move planned, the engine does (log 3). -/
def step (s : State) : Host.Outcome State Fault Refusal :=
  match s.env.agenda with
  | [] => engineStep s
  | e :: _ => eventStep e s.nextMove

/-- `s` with the command word `w` latched, as the host's CMD write leaves it, and the engine to move next: the very next
step executes it (10_state R35; log 3). Every row of the table has one 32-bit word, so `nbits` changes nothing but the bits
above it, which are 0. -/
def State.withFetchWord (s : State) (nbits w : Nat) : State := s.placeCommand (BitVec.ofNat 32 (w % 2 ^ nbits))

end Sys2Proof.Machine
end

