-- ==== Sys2Proof/Safety.lean ====
section
/-! DEFINITION. What a sound state is, and the words the statements use: rule R15 of the descriptors, the invariant of the
whole machine, completion, and what a command leaves alone. -/

namespace Sys2Proof.Machine

/-! ## Rule R15 and the invariant -/

/-- R15: COUNT fits CAP, START is a slot, an unbound descriptor is all 0, the storage does not wrap, CAP fits 16 bits. -/
abbrev Desc.Ok (w : Nat) (d : Desc) : Prop :=
  d.count ≤ d.cap ∧ (0 < d.cap → d.start < d.cap) ∧ (d.cap = 0 → d.start = 0) ∧ d.base + d.cap ≤ 2 ^ w ∧
    d.cap ≤ Config.capMax

/-- The rings of a session are distinct (R125). -/
abbrev Session.Distinct (g : Session) : Prop :=
  g.rx ≠ g.scr ∧
    (g.sqe = true → g.side ≠ g.rx ∧ g.side ≠ g.scr ∧ g.slen ≠ g.rx ∧ g.slen ≠ g.scr ∧ g.slen ≠ g.side)

/-- The engine stands inside LP_SEND or LP_RECV (R36). -/
def Phase.linkRunning : Phase → Bool
  | .idle => false
  | .fetch => false
  | .sendTx _ _ => true
  | .sendT0 _ => true
  | .sendRx _ => true
  | .sendAckTx _ _ _ => true
  | .sendT _ => true
  | .recvRx _ => true
  | .recvAckTx _ _ => true

/-- The engine stands inside TOPUP, before a call of RXP (R119). -/
def Phase.toppingUp : Phase → Bool
  | .sendRx _ => true
  | .recvRx _ => true
  | .idle => false
  | .fetch => false
  | .sendTx _ _ => false
  | .sendT0 _ => false
  | .sendAckTx _ _ _ => false
  | .sendT _ => false
  | .recvAckTx _ _ => false

/-- The out ring of a running LP_RECV (R127). -/
def Phase.outRing : Phase → Option RingIx
  | .recvRx c => some c.out
  | .idle => none
  | .fetch => none
  | .sendTx _ _ => none
  | .sendT0 _ => none
  | .sendRx _ => none
  | .sendAckTx _ _ _ => none
  | .sendT _ => none
  | .recvAckTx _ _ => none

/-- What a running LP_SEND holds (R126). -/
def Phase.sendCtx : Phase → Option SendCtx
  | .sendTx c _ => some c
  | .sendT0 c => some c
  | .sendRx c => some c
  | .sendAckTx c _ _ => some c
  | .sendT c => some c
  | .idle => none
  | .fetch => none
  | .recvRx _ => none
  | .recvAckTx _ _ => none

/-- R15 of every descriptor. -/
abbrev RingsOk (s : State) : Prop := ∀ i : RingIx, (s.rb i).Ok s.addrW

/-- MEM is in its canonical form and lies in its address space (R42). -/
abbrev MemOk (s : State) : Prop := s.mem.wf = true ∧ s.mem.within s.addrW = true

/-- The session latched is one LP_INIT accepts, and a link command runs only in a valid session, tops up only a ring with
room, and delivers to no session ring (R119, R125, R126, R127). -/
abbrev LinkOk (s : State) : Prop :=
  (s.ls.sessValid = true → s.ls.sess.Distinct) ∧ (s.phase.linkRunning = true → s.ls.sessValid = true) ∧
    (s.phase.toppingUp = true → 0 < (s.rb s.rxIx).free) ∧
    ∀ o ∈ s.phase.outRing, s.ls.sess.rings.contains o = false

/-- The write log names addresses of MEM only (R42; the log is the model's own, log 8). -/
abbrev LogOk (s : State) : Prop := ∀ w ∈ s.wlog, w.addr < 2 ^ s.addrW

/-- The invariant every step keeps. -/
abbrev Inv (s : State) : Prop := RingsOk s ∧ MemOk s ∧ LogOk s ∧ LinkOk s

/-- LP_SEND is in XMIT of its frame (R117, R126). -/
def Phase.transmitting : Phase → Bool
  | .sendTx _ _ => true
  | .idle => false
  | .fetch => false
  | .sendT0 _ => false
  | .sendRx _ => false
  | .sendAckTx _ _ _ => false
  | .sendT _ => false
  | .recvRx _ => false
  | .recvAckTx _ _ => false

/-- A running LP_SEND has started between one and `1 + maxRetries` transmissions, ATTEMPTS shows their number, and STATE is
the live state: Sent while the frame goes out, AckWait after it, which only an acknowledged send reaches (R33, R126,
R128). -/
abbrev SendOk (s : State) : Prop :=
  ∀ c ∈ s.phase.sendCtx,
    1 ≤ c.tries ∧ c.tries ≤ 1 + c.retries ∧ c.retries < 2 ^ 16 ∧ s.ls.attempts = BitVec.ofNat 16 c.tries ∧
      (s.phase.transmitting = true → s.ls.state = .sent) ∧
      (s.phase.transmitting = false → s.ls.state = .ackWait ∧ c.ackW = true)

/-! ## Completion and frames -/

/-- The command that was executing in `s` has completed in `t` with this outcome code and these results (R22, R24, R35):
BUSY is 0, DONE is 1, ERR is set if the code is not OK, OVR and ACKFAIL stay. -/
abbrev Completed (s t : State) (e : Ecode) (r : Quad) : Prop :=
  t.phase = .idle ∧ t.res = r ∧ t.status.done = true ∧ t.status.ecode = e ∧
    t.status.err = (s.status.err || decide (e ≠ .ok)) ∧ t.status.ovr = s.status.ovr ∧
    t.status.ackFail = s.status.ackFail

/-- What no command writes: the host's registers (R21, R23, R25, R29, R31), OVR (R22), the latched word, ADDR_W, the tick
input and the transmit port's answer, and the model's own fields but the write log. -/
abbrev HostKept (s t : State) : Prop :=
  t.addrW = s.addrW ∧ t.irqEn = s.irqEn ∧ t.arg = s.arg ∧ t.sr = s.sr ∧ t.ls.cfg = s.ls.cfg ∧
    t.ls.timeout = s.ls.timeout ∧ t.ls.maxRetry = s.ls.maxRetry ∧ t.cmd = s.cmd ∧ t.hazard = s.hazard ∧
    t.draws = s.draws ∧ t.busData = s.busData ∧ t.status.ovr = s.status.ovr ∧ t.env.tick = s.env.tick ∧
    t.env.txOk = s.env.txOk ∧ t.env.agenda = s.env.agenda

/-- Every descriptor obeys R15, MEM is canonical, and no host write has raced with the command (R56): then the bytes of MEM
and the results are what the rules say. -/
abbrev Ready (s : State) : Prop := RingsOk s ∧ MemOk s ∧ s.hazard = false

/-- Nothing of the link session, of the ports and of ACKFAIL changes. -/
abbrev LinkKept (s t : State) : Prop := t.ls = s.ls ∧ t.env = s.env ∧ t.status.ackFail = s.status.ackFail

/-- A command that works on the descriptors of `l` alone: every other descriptor, the host's registers, the session, the
ports and CRC_ACC are unchanged. -/
abbrev OnlyRings (l : List RingIx) (s t : State) : Prop :=
  HostKept s t ∧ LinkKept s t ∧ t.crcAcc = s.crcAcc ∧ ∀ j : RingIx, l.contains j = false → t.rb j = s.rb j

/-- Every byte of MEM reads as before. -/
def MemKept (s t : State) : Prop := ∀ a, t.mem.read a = s.mem.read a

/-- Every byte of MEM outside the storage of RBi reads as before. -/
def MemKeptOutsideRing (i : RingIx) (s t : State) : Prop :=
  ∀ a, (s.rb i).holds a = false → t.mem.read a = s.mem.read a

/-- The `n` bytes of MEM from `a` up, modulo 2^ADDR_W (R44). -/
def State.block (s : State) (a n : Nat) : List Byte := (List.range n).map (fun j => s.mem.read (s.wrap (a + j)))

/-- No byte of the block of `n` bytes at `a` is a storage slot of RBi, and the block does not overlap itself (R44, R54). -/
abbrev BlockApart (s : State) (a n : Nat) (i : RingIx) : Prop :=
  n ≤ 2 ^ s.addrW ∧ ∀ j, j < n → (s.rb i).holds (s.wrap (a + j)) = false

/-- The storages of two rings do not overlap (R54, R154). -/
abbrev StorageApart (s : State) (i j : RingIx) : Prop :=
  (s.rb i).base + (s.rb i).cap ≤ (s.rb j).base ∨ (s.rb j).base + (s.rb j).cap ≤ (s.rb i).base

/-- The storages of the rings of a list are apart, two by two (R154). -/
abbrev AllApart (s : State) (l : List RingIx) : Prop := ∀ i ∈ l, ∀ j ∈ l, i ≠ j → StorageApart s i j

/-- STATUS after a completion with this outcome code, acceptance having cleared ERR or not (R22, R35). -/
def Status.after (st : Status) (e : Ecode) (err : Bool) : Status := { st with done := true, err := err, ecode := e }

/-- The PARAM completion: STATUS and RES0..RES3 = 0 are written and nothing else (R24, R131). -/
def State.paramDone (s : State) : State :=
  { s with phase := .idle, status := s.status.after .param true, res := Quad.zero }

/-- A completion with OK that writes these results, STATUS and nothing else (R24, R35). -/
def State.okDone (s : State) (r : Quad) : State :=
  { s with phase := .idle, status := s.status.after .ok s.status.err, res := r }

/-- Bytes of MEM that only a write to one of the addresses `f 0 .. f (k-1)` can have changed. -/
def MemKeptBut (f : Nat → Nat) (k : Nat) (s t : State) : Prop :=
  ∀ x, (∀ j, j < k → x ≠ f j) → t.mem.read x = s.mem.read x

/-! ## Pushed elements (R77, R78, R83, R84) -/

/-- A descriptor after START has gone back `k` slots, modulo CAP. -/
def Desc.back (d : Desc) (k : Nat) : Desc := { d with start := (d.start + k * (d.cap - 1)) % d.cap }

/-- The descriptor after `k` pushes at end `e`, none of which discards anything. -/
def Desc.grown (d : Desc) (e : End) (k : Nat) : Desc :=
  match e with
  | .tail => { d with count := d.count + k }
  | .head => { d.back k with count := d.count + k }

/-- The address of the `j`-th of the `k` slots that pushes at end `e` fill: behind the tail, or before the head. -/
def Desc.newSlot (d : Desc) (e : End) (k j : Nat) : Nat :=
  match e with
  | .tail => d.addr (d.count + j)
  | .head => (d.back k).addr j

/-! ## The register window, field by field from the table of R18 -/

/-- The registers of class RW, each with the bits that are not reserved (R18). -/
def rwRegisters : List (Nat × Word) :=
  [(0x008, 0x00000001#32), (0x014, 0xFFFFFFFF#32), (0x018, 0xFFFFFFFF#32), (0x01C, 0xFFFFFFFF#32),
   (0x020, 0xFFFFFFFF#32), (0x040, 0xFFFFFFFF#32), (0x044, 0xFFFFFFFF#32), (0x048, 0xFFFFFFFF#32)] ++
  [(0x04C, 0xFFFFFFFF#32), (0x050, 0x00030F0F#32), (0x054, 0x0000FFFF#32), (0x058, 0x0000FFFF#32),
   (0x060, 0x0000FFFF#32), (0x070, 0x00017777#32), (0x078, 0xFFFFFFFF#32), (0x07C, 0x0000FFFF#32)]

/-- The registers whose current value a read returns while busy too (R37). -/
def readableWhileBusy : List Nat :=
  [0x000, 0x004, 0x008, 0x00C, 0x014, 0x018, 0x01C, 0x020, 0x040, 0x044, 0x048, 0x04C, 0x050, 0x054, 0x058, 0x070] ++
  [0x078, 0x07C, 0x088, 0x08C]

/-- The fields of LS_CFG and LS_SESS from bit 16 down: SQE, SLEN, SIDE, SCR, RX, a reserved bit between two (R18). -/
def Session.fields (g : Session) : BitVec 17 :=
  BitVec.ofBool g.sqe ++ 0#1 ++ BitVec.ofNat 3 g.slen.val ++ 0#1 ++ BitVec.ofNat 3 g.side.val ++ 0#1 ++ BitVec.ofNat 3 g.scr.val ++ 0#1 ++
    BitVec.ofNat 3 g.rx.val

/-- The register at each offset that a read shows, its fields from bit 31 down, reserved ones 0; CMD and the reserved offsets
are not listed (R18). -/
def windowWords (s : State) : List (Nat × Word) :=
  [(0x000, 0x52424331#32), (0x004, 0x00000007#32), (0x008, 0#31 ++ BitVec.ofBool s.irqEn),
   (0x00C, 0#20 ++ BitVec.ofNat 4 s.status.ecode.code ++ 0#3 ++ BitVec.ofBool s.status.ackFail ++
     BitVec.ofBool s.status.ovr ++ BitVec.ofBool s.status.err ++ BitVec.ofBool s.status.done ++
     BitVec.ofBool (decide (s.phase ≠ .idle))),
   (0x014, s.arg.r0), (0x018, s.arg.r1), (0x01C, s.arg.r2), (0x020, s.arg.r3),
   (0x024, s.res.r0), (0x028, s.res.r1), (0x02C, s.res.r2), (0x030, s.res.r3)] ++
  [(0x040, s.sr.hpat0), (0x044, s.sr.hpat1), (0x048, s.sr.tpat0), (0x04C, s.sr.tpat1),
   (0x050, 0#14 ++ s.sr.policy ++ 0#4 ++ s.sr.tlen ++ 0#4 ++ s.sr.hlen),
   (0x054, 0#16 ++ s.sr.minLen), (0x058, 0#16 ++ s.sr.maxLen), (0x060, 0#16 ++ s.crcAcc),
   (0x070, 0#15 ++ s.ls.cfg.fields), (0x074, BitVec.ofBool s.ls.sessValid ++ 0#14 ++ s.ls.sess.fields),
   (0x078, s.ls.timeout), (0x07C, 0#16 ++ s.ls.maxRetry), (0x080, 0#16 ++ s.ls.txHash),
   (0x084, 0#15 ++ BitVec.ofBool s.ls.lastRx.valid ++ s.ls.lastRx.hash),
   (0x088, s.ls.attempts ++ 0#13 ++ BitVec.ofNat 3 s.ls.state.code), (0x08C, s.env.tick)] ++
  (List.finRange 8).flatMap (fun n =>
    [(0x100 + 16 * n.val, BitVec.ofNat 32 (s.rb n).base), (0x104 + 16 * n.val, BitVec.ofNat 32 (s.rb n).cap),
     (0x108 + 16 * n.val, BitVec.ofNat 32 (s.rb n).count), (0x10C + 16 * n.val, BitVec.ofNat 32 (s.rb n).start)])

/-- What a host read of the 32-bit register at an offset returns. -/
def State.shows (s : State) (off : Nat) : Word := (hostStep (.read off 4) s).busData

/-! ## The search rule the registers spell (R25, R26, 20_memory R47) -/

/-- Byte `i` of a pattern: byte lane `i` of the first pattern register, or byte lane `i - 4` of the second (R25, R47). -/
def patternByte (lo hi : Word) (i : Nat) : Byte :=
  if i < 4 then lo.extractLsb' (8 * i) 8 else hi.extractLsb' (8 * (i - 4)) 8

/-- The rule that the SR registers hold: HLEN and TLEN bytes of their pattern registers, no tail for TLEN = 0, MINLEN, MAXLEN,
and the policy, with 3 read as soft (R25, R26). -/
def SearchRegs.spelled (r : SearchRegs) : Rule :=
  { head := (List.range r.hlen.toNat).map (patternByte r.hpat0 r.hpat1)
    tail := (List.range r.tlen.toNat).map (patternByte r.tpat0 r.tpat1)
    minLen := r.minLen.toNat
    maxLen := r.maxLen.toNat
    policy := if r.policy = 0#2 then .hard else if r.policy = 1#2 then .medium else .soft }

/-! ## When a command completes with PARAM -/

/-- The PARAM checks of the commands as their rules list them (R71, R76..R88, R91, R93, R102, R103, R110..R112, R126, R127);
LP_INIT, whose PARAM completion also clears VALID, and the commands without such a check have no case here. -/
def paramCase (i : Instr) (s : State) : Prop :=
  match i with
  | .rbInit _ => s.arg2 > s.arg1 ∨ s.argAddr + s.arg1 > 2 ^ s.addrW
  | .rbPusho ra _ | .rbPushb ra _ | .rbPull ra _ _ => (s.rb ra).cap = 0 ∨ s.arg1 = 0
  | .rbRead ra _ | .rbWrite ra _ | .rbCut ra _ _ | .crcRun ra =>
    (s.rb ra).cap = 0 ∨ s.arg1 = 0 ∨ s.arg2 ≥ (s.rb ra).count
  | .rbMove ra _ rb _ _ => ra = rb ∨ (s.rb ra).cap = 0 ∨ (s.rb rb).cap = 0 ∨ s.arg1 = 0
  | .rbRotl ra _ | .rbFull ra | .rbEmpty ra | .rbFlush ra | .crcAppend ra => (s.rb ra).cap = 0
  | .rbRotp ra => (s.rb ra).cap = 0 ∨ s.arg1 ≥ (s.rb ra).cap
  | .fsMatch ra .headPat _ =>
    (s.rb ra).cap = 0 ∨ s.sr.hlen.toNat = 0 ∨ s.sr.hlen.toNat > Config.patMax ∨ s.arg1 > s.arg2 ∨
      s.arg2 ≥ (s.rb ra).count
  | .fsMatch ra .tailPat _ =>
    (s.rb ra).cap = 0 ∨ s.sr.tlen.toNat = 0 ∨ s.sr.tlen.toNat > Config.patMax ∨ s.arg1 > s.arg2 ∨
      s.arg2 ≥ (s.rb ra).count
  | .fsSearch ra _ | .fsSrchadv ra _ _ =>
    (s.rb ra).cap = 0 ∨ s.sr.hlen.toNat = 0 ∨ s.sr.hlen.toNat > Config.patMax ∨ s.sr.tlen.toNat > Config.patMax
  | .bsStuff ra | .bsUnstuff ra | .crcCheck ra => (s.rb ra).cap = 0 ∨ (s.rb ra).count = 0
  | .lpSend ra _ | .lpRecv ra _ => s.ls.sessValid = false ∨ ra ∈ s.ls.sess.rings ∨ (s.rb ra).cap = 0
  | .nop | .crcSeed | .crcByte | .lpInit => False

/-! ## Frames in a stream, without an algorithm (R92, R94, R95) -/

/-- Alignment `a` of pattern `p` qualifies at position `pos` of the bytes `xs`, with the window from `ws` on (R92). -/
def Qualifies (p xs : List Byte) (ws pos a : Nat) : Prop :=
  a < p.length ∧ a ≤ pos - ws ∧ ∀ j, j ≤ a → xs[pos - a + j]? = p[j]?

/-- Pattern `p` stands in `xs` from position `i` on. -/
def Occurs (p xs : List Byte) (i : Nat) : Prop := ∀ j, j < p.length → xs[i + j]? = p[j]?

/-- A candidate with its head at `h` may end before position `e`: the bounds admit its current length, and the tail, if there
is one, stands at `e` (R95). -/
def MayEnd (r : Rule) (xs : List Byte) (h e : Nat) : Prop := r.minLen ≤ e - h ∧ (r.tail = [] ∨ Occurs r.tail xs e)

/-- The interior byte at `i` breaks the policy (R94): hard, it qualifies as any part of a pattern; medium, it ends one. -/
def Breaks (r : Rule) (xs : List Byte) (start i : Nat) : Prop :=
  (r.policy = .hard ∧ ∃ p ∈ [r.head, r.tail], ∃ a, Qualifies p xs start i a) ∨
    (r.policy = .medium ∧ ∃ p ∈ [r.head, r.tail], p ≠ [] ∧ Qualifies p xs start i (p.length - 1))

/-- A frame of length `len` stands at `h`: the head is there, the candidate may end at the end of the frame's interior and
nowhere before, no interior byte breaks the policy, and the current length stays within the bound (R95). -/
def FrameAt (r : Rule) (xs : List Byte) (h len : Nat) : Prop :=
  Occurs r.head xs h ∧ ∃ e, h + r.head.length ≤ e ∧ len = e - h + r.tail.length ∧ MayEnd r xs h e ∧
    (r.maxLen = 0 ∨ e - h ≤ r.maxLen) ∧
    ∀ i, h + r.head.length ≤ i → i < e → i < xs.length ∧ ¬ MayEnd r xs h i ∧ ¬ Breaks r xs (h + r.head.length) i

/-- `bad`, with `rest` behind it, is what BS_UNSTUFF takes for corruption: a FLAG, an ESC at the end, or an ESC before a byte
that is none of the two escaped forms (R103). -/
def CorruptAt (bad rest : List Byte) : Prop :=
  bad = [0x7E#8] ∨ (bad = [0x7D#8] ∧ rest = []) ∨ ∃ b, bad = [0x7D#8, b] ∧ b ≠ 0x5E#8 ∧ b ≠ 0x5D#8

/-! ## Bytes of a receive ring that hold no frame (R120, R121) -/

/-- `x`, between two flags, is what DEFRAME accepts: the stuffing of 5 to 133 bytes, header and CRC among them, with CRC residue
0 (R120). -/
def Deframes (x : List Byte) : Prop := ∃ y, x = stuff y ∧ 5 ≤ y.length ∧ y.length ≤ 133 ∧ crc16 y = 0#16

/-- Noise without a FLAG, and then any number of FLAGs, each followed by bytes without FLAG that DEFRAME does not accept: too
short or too long, badly stuffed, or with a wrong CRC (R115, R120). -/
def Junk (xs : List Byte) : Prop :=
  ∃ (noise : List Byte) (bodies : List (List Byte)), (0x7E#8 : Byte) ∉ noise ∧
    (∀ x ∈ bodies, (0x7E#8 : Byte) ∉ x ∧ ¬ Deframes x) ∧ xs = noise ++ bodies.flatMap (fun x => 0x7E#8 :: x)

/-! ## The opcode map as data (R63, R66) -/

/-- match and mask of every row of the opcode map, in its order. -/
def opcodeMap : List (Word × Word) :=
  [(0x00000000#32, 0xFFFFFFFF#32), (0x00000010#32, 0xFFFFF8FF#32), (0x00000011#32, 0xFFFEF8FF#32),
   (0x00000012#32, 0xFFFEF8FF#32), (0x00000013#32, 0xFFFAF8FF#32), (0x00000014#32, 0xFFFEF8FF#32),
   (0x00000015#32, 0xFFFEF8FF#32), (0x00000016#32, 0xFFFAF8FF#32), (0x00000017#32, 0xFFF888FF#32)] ++
  [(0x00000018#32, 0xFFFBF8FF#32), (0x00000019#32, 0xFFFFF8FF#32), (0x0000001A#32, 0xFFFFF8FF#32),
   (0x0000001B#32, 0xFFFFF8FF#32), (0x0000001C#32, 0xFFFFF8FF#32), (0x00000020#32, 0xFFF3F8FF#32),
   (0x00000021#32, 0xFFFF88FF#32), (0x00000022#32, 0xFE0F88FF#32), (0x00000030#32, 0xFFFFF8FF#32)] ++
  [(0x00000031#32, 0xFFFFF8FF#32), (0x00000040#32, 0xFFFFFFFF#32), (0x00000041#32, 0xFFFFFFFF#32),
   (0x00000042#32, 0xFFFFF8FF#32), (0x00000043#32, 0xFFFFF8FF#32), (0x00000044#32, 0xFFFFF8FF#32),
   (0x00000050#32, 0xFFFFFFFF#32), (0x00000051#32, 0xFFFBF8FF#32), (0x00000052#32, 0xF80FF8FF#32)]

end Sys2Proof.Machine
end

