-- ==== Sys2Proof/Certificates/Slice0/Obligations.lean ====
section
/-! DEFINITION. What is stated of the model for the provers: decoding, the command engine and the host, the ring commands,
search, stuffing, CRC and the link protocol, each from the numbered rules of spec/. -/

open Sys2Proof Sys2Proof.Machine

/-! ## Decoding and encoding (30_encoding) -/

/-- O1. Every command with an encoding decodes to itself, every operand kept (R62, R63, R66). -/
def Obligations.DecodeInvertsEncode : Prop := ∀ i : Instr, i.wellFormed = true → decode (encode i) = .ok i

/-- O2. A word that decodes is the encoding of the command it decodes to, so each command has one word (R62, R67). -/
def Obligations.EncodeInvertsDecode : Prop :=
  ∀ (w : Word) (i : Instr), decode w = .ok i → encode i = w ∧ i.wellFormed = true

/-- O3. A word spells a command iff it matches a row of the opcode map in the row's fixed bits (R63, R66, R67). -/
def Obligations.DecodeAcceptsOpcodeMap : Prop :=
  ∀ w : Word, (∃ i, decode w = .ok i) ↔ ∃ r ∈ opcodeMap, w &&& r.2 = r.1

/-- O4. The words R69 and the rules' examples spell out. -/
def Obligations.SpecWordsDecode : Prop :=
  decode 0x00000012#32 = .ok (.rbPushb 0 .tail) ∧ decode 0x00050313#32 = .ok (.rbPull 3 .head true) ∧
    decode 0x00060117#32 = .ok (.rbMove 1 .tail 0 .head true) ∧
    decode 0x01401022#32 =
      .ok (.fsSrchadv 0 1 { onFull := false, toStart := false, toStart1 := true, entire := false, ffwd := true }) ∧
    decode 0x00000252#32 = .ok (.lpRecv 2 0) ∧ decode 0x00000018#32 = .ok (.rbRotl 0 .left)

/-! ## The engine, the host and reset (10_state, 20_memory, 60_exceptions, 70_reset_and_hazards) -/

/-- O5. A step of the engine with a command latched is the command's meaning (R35), whether the engine's move is planned or
nothing is planned; and the word a host write has just placed runs in the very next step. That acceptance and execution are
steps of their own, that the engine moves when nothing is planned, and that a placed word runs next are the model's choices
(log 3, log 4, log 6). -/
def Obligations.StepRunsLatchedCommand : Prop :=
  ∀ (s : State) (i : Instr),
    (s.phase = .fetch → decode s.cmd = .ok i →
      (s.env.agenda = [] → step s = exec i s) ∧
      ∀ rest, s.env.agenda = .engine :: rest → step s = exec i s.nextMove) ∧
    ∀ w, decode w = .ok i → step (s.placeCommand w) = exec i (s.accept w)

/-- O6. A word that spells no command completes with ILLEGAL, DONE and ERR set, and nothing else changes (R67). -/
def Obligations.IllegalWordChangesOnlyStatus : Prop :=
  ∀ (s : State) (e : DecodeError), s.phase = .fetch → s.env.agenda = [] → decode s.cmd = .error e →
    step s = .next { s with phase := .idle, status := s.status.after .illegal true }

/-- O7. A CMD write while idle is accepted: the word is latched, BUSY is set, DONE, ERR and ACKFAIL are cleared, OVR and ECODE
stay, and no other register and no byte of MEM changes (R22, R35). -/
def Obligations.CommandAcceptance : Prop :=
  ∀ (s : State) (w : Word) (rest : List Event), s.phase = .idle → s.env.agenda = .host (.write 0x010 4 w) :: rest →
    ∃ t, step s = .next t ∧ t.busy = true ∧ t.phase = .fetch ∧ t.cmd = w ∧
      t.status = { s.status with done := false, err := false, ackFail := false } ∧ t.irq = false ∧
      t.irqEn = s.irqEn ∧ t.arg = s.arg ∧ t.res = s.res ∧ t.sr = s.sr ∧ t.crcAcc = s.crcAcc ∧ t.ls = s.ls ∧
      t.rbs = s.rbs ∧ t.mem = s.mem ∧ t.env = s.nextMove.env

/-- O8. While busy, a write to CMD, ARG0..ARG3, an SR register, CRC_ACC, LS_CFG, LS_TIMEOUT or LS_MAXRETRY does nothing but
set OVR; a write to CTRL takes effect (R37). -/
def Obligations.BusyWritesAreDropped : Prop :=
  ∀ (s : State) (off : Nat) (v : Word) (rest : List Event), s.phase ≠ .idle → s.env.agenda = .host (.write off 4 v) :: rest →
    (off ∈ [0x010, 0x014, 0x018, 0x01C, 0x020, 0x040, 0x044, 0x048, 0x04C, 0x050, 0x054, 0x058, 0x060, 0x070, 0x078, 0x07C] →
      step s = .next { s.nextMove with status := { s.status with ovr := true } }) ∧
    (off = 0x008 → step s = .next { s.nextMove with irqEn := v.getLsbD 0 })

/-- O9. A host access never writes a descriptor, a result register, the latched session or what the engine is doing but
through CMD; a register read or a read of MEM changes only what is on the bus, and only a write to MEM changes MEM, at its one
byte (R17, R19, R51). A read of MEM returns the byte that stands there, or, while a command runs, the value before or after
one of the command's writes to that byte, and nothing else (R51, R55, R56). That an access beyond the address space reaches
the byte modulo 2^ADDR_W, and which writes a running command has under way, are the model's choices (log 20, log 8). -/
def Obligations.HostAccessFrame : Prop :=
  (∀ (op : HostOp) (s : State), s.mem.wf = true →
    (hostStep op s).rbs = s.rbs ∧ (hostStep op s).res = s.res ∧ (hostStep op s).addrW = s.addrW ∧
      (hostStep op s).env = s.env ∧ (hostStep op s).ls = { s.ls with
        cfg := (hostStep op s).ls.cfg, timeout := (hostStep op s).ls.timeout, maxRetry := (hostStep op s).ls.maxRetry } ∧
      ((∀ w, op ≠ .write 0x010 4 w) → (hostStep op s).phase = s.phase ∧ (hostStep op s).cmd = s.cmd) ∧
      ((∃ off width, op = .read off width) ∨ (∃ a, op = .memRead a) →
        hostStep op s = { s with busData := (hostStep op s).busData, draws := s.draws + 1 }) ∧
      ((∀ a b, op ≠ .memWrite a b) → (hostStep op s).mem = s.mem) ∧
      ∀ a b, op = .memWrite a b →
        (hostStep op s).mem.read (s.wrap a) = b ∧ ∀ x, x ≠ s.wrap a → (hostStep op s).mem.read x = s.mem.read x) ∧
  ∀ (s : State) (a : Nat),
    (s.phase = .idle → (hostStep (.memRead a) s).busData = (s.mem.read (s.wrap a)).setWidth 32) ∧
    ∃ b : Byte, (hostStep (.memRead a) s).busData = b.setWidth 32 ∧
      (b = s.mem.read (s.wrap a) ∨ ∃ w ∈ s.pendingWrites, w.addr = s.wrap a ∧ (b = w.old ∨ b = w.new))

/-- O10. The register window. ID reads 0x52424331 and VERSION reads 7 in every state (R20). An access of another width or at
another alignment is ignored if a write, returns 0 if a read, and does not set OVR (R50). A read returns the register's
fields, reserved ones 0, and 0 at CMD and at a reserved offset; a write to a register of class RO or to a reserved offset is
ignored; an RW register reads back what was written, reserved bits 0, or its reset value, and no other register changes;
STATUS is cleared where a 1 is written to a W1C bit (R19; R18 gives the fields; while busy, R37 says which reads are
open). What a read returns stands in `busData`, the model's own field (log 13). -/
def Obligations.HostAccessBasics : Prop :=
  (∀ s : State, s.shows 0x000 = 0x52424331#32 ∧ s.shows 0x004 = 0x00000007#32) ∧
  (∀ (s : State) (off width : Nat) (v : Word), width ≠ 4 ∨ off % 4 ≠ 0 →
    hostStep (.write off width v) s = s ∧ (hostStep (.read off width) s).busData = 0#32 ∧
      (hostStep (.read off width) s).status = s.status) ∧
  (∀ s : State, ∀ p ∈ windowWords s, s.phase = .idle ∨ p.1 ∈ readableWhileBusy → s.shows p.1 = p.2) ∧
  (∀ (s : State) (off : Nat), off < 512 → off % 4 = 0 → off ∉ (windowWords s).map Prod.fst → s.shows off = 0#32) ∧
  (∀ (s : State) (off : Nat) (v : Word), s.phase = .idle → off ∉ rwRegisters.map Prod.fst → off ≠ 0x00C → off ≠ 0x010 →
    hostStep (.write off 4 v) s = s) ∧
  (∀ s : State, ∀ p ∈ rwRegisters, ∀ v : Word, s.phase = .idle →
    (hostStep (.write p.1 4 v) s).shows p.1 = v &&& p.2 ∧
      ∀ off, off ≠ p.1 → (hostStep (.write p.1 4 v) s).shows off = s.shows off) ∧
  (∀ (s : State) (v : Word), (hostStep (.write 0x00C 4 v) s).shows 0x00C = s.shows 0x00C &&& ~~~(v &&& 0x0000001E#32) ∧
    (s.phase = .idle → ∀ off, off ≠ 0x00C → (hostStep (.write 0x00C 4 v) s).shows off = s.shows off)) ∧
  ∀ p ∈ rwRegisters, State.reset.shows p.1 = if p.1 = 0x060 then 0x0000FFFF#32 else 0#32

/-- O11. A write to STATUS clears exactly DONE, ERR, OVR and ACKFAIL where a 1 is written, busy or not; IRQ is DONE and IRQ_EN,
so it falls when DONE or IRQ_EN is cleared and a completion raises it if IRQ_EN is set (R19, R134). -/
def Obligations.StatusClearAndIrq : Prop :=
  (∀ (s : State) (v : Word) (rest : List Event), s.env.agenda = .host (.write 0x00C 4 v) :: rest →
    ∃ t, step s = .next t ∧
      t = { s.nextMove with status := { s.status with
        done := s.status.done && !v.getLsbD 1, err := s.status.err && !v.getLsbD 2,
        ovr := s.status.ovr && !v.getLsbD 3, ackFail := s.status.ackFail && !v.getLsbD 4 } } ∧
      (v.getLsbD 1 = true → t.irq = false)) ∧
  (∀ (s : State) (v : Word), (hostStep (.write 0x008 4 v) s).irq = (s.status.done && v.getLsbD 0)) ∧
  ∀ (s t : State) (e : Ecode) (r : Quad), Completed s t e r → t.irq = t.irqEn

/-- O12. A host write to a byte of MEM stores it, and is a hazard for the running command iff the command uses the byte; between
commands it is none (R56, R150). Which bytes a command uses, and that an address beyond the space means the byte modulo
2^ADDR_W, are the model's choices (log 7, log 20). -/
def Obligations.HostWriteToUsedByte : Prop :=
  ∀ (s : State) (a : Nat) (b : Byte),
    (s.phase = .idle → hostStep (.memWrite a b) s = { s with mem := s.mem.write (s.wrap a) b }) ∧
    ∀ i, s.phase ≠ .idle → decode s.cmd = .ok i →
      ((hostStep (.memWrite a b) s).hazard = true ↔ s.hazard = true ∨ inFootprint i s (s.wrap a) = true)

/-- O13. Reset gives every register its reset value and makes the engine idle, whatever it was doing; MEM and the environment
stay, but for bytes a command abandoned by the reset was writing (R145, R146; which bytes those are is log 9's). -/
def Obligations.ResetLeavesResetValues : Prop :=
  ∀ (s : State) (rest : List Event), s.mem.wf = true → s.env.agenda = .reset :: rest →
    ∃ t, step s = .next t ∧ t.irqEn = false ∧
      t.status = { done := false, err := false, ovr := false, ackFail := false, ecode := .ok } ∧
      t.arg = { r0 := 0#32, r1 := 0#32, r2 := 0#32, r3 := 0#32 } ∧
      t.res = { r0 := 0#32, r1 := 0#32, r2 := 0#32, r3 := 0#32 } ∧
      (t.sr.hpat0 = 0#32 ∧ t.sr.hpat1 = 0#32 ∧ t.sr.tpat0 = 0#32 ∧ t.sr.tpat1 = 0#32 ∧ t.sr.hlen = 0#4 ∧
        t.sr.tlen = 0#4 ∧ t.sr.policy = 0#2 ∧ t.sr.minLen = 0#16 ∧ t.sr.maxLen = 0#16) ∧
      t.crcAcc = 0xFFFF#16 ∧ t.ls.cfgWord = 0#32 ∧ t.ls.sessWord = 0#32 ∧ t.ls.timeout = 0#32 ∧ t.ls.maxRetry = 0#16 ∧
      t.ls.txHash = 0#16 ∧ t.ls.lastRxWord = 0#32 ∧ t.ls.stateWord = 0#32 ∧
      (∀ i : RingIx, t.rb i = { base := 0, cap := 0, count := 0, start := 0 }) ∧
      t.phase = .idle ∧ t.irq = false ∧ t.addrW = s.addrW ∧ t.env = s.nextMove.env ∧
      (s.phase = .idle → t.mem = s.mem) ∧
      ∀ x, (∀ w ∈ s.nextMove.pendingWrites, w.addr ≠ x) → t.mem.read x = s.mem.read x

/-- O14. No step stops the machine: an error ends a command and never the block (R131). -/
def Obligations.EveryStepGoesOn : Prop := ∀ s : State, ∃ t, step s = .next t

/-- O15. The machine right after reset meets the invariants (R15, R145; MEM listing nothing is log 1's). -/
def Obligations.ResetIsSound : Prop := Inv State.reset ∧ SendOk State.reset

/-- O16. Every step keeps the invariant: R15 of every descriptor, MEM in its form and space, a latched session with distinct
rings, and a link command running only in a valid session (R15, R42, R119, R125, R126, R127). -/
def Obligations.StepKeepsInvariant : Prop := ∀ s t : State, Inv s → step s = .next t → Inv t

/-- O17. Every step keeps the law of a running LP_SEND: between 1 and 1 + R transmissions, ATTEMPTS is their number, STATE is
Sent while the frame goes out and AckWait after it (R33, R126, R128). -/
def Obligations.StepKeepsSendLaw : Prop := ∀ s t : State, SendOk s → step s = .next t → SendOk t

/-- O18. No engine step writes CTRL, ARG0..ARG3, the SR registers, LS_CFG, LS_TIMEOUT, LS_MAXRETRY or OVR, nor the latched word,
the tick input or the plan of moves (R22, R23, R37). -/
def Obligations.EngineLeavesHostRegisters : Prop := ∀ s t : State, engineStep s = .next t → HostKept s t

/-- O19. A command changes only bytes of its footprint: slots of the rings it uses and its data block; a running link command
only slots of the session's rings and of its out ring (R42, R44, R56; the footprint is log 7's). -/
def Obligations.CommandsStayInFootprint : Prop :=
  (∀ (s t : State) (i : Instr), Inv s → exec i s = .next t →
    ∀ a, inFootprint i s a = false → t.mem.read a = s.mem.read a) ∧
  ∀ s t : State, Inv s → s.phase.linkRunning = true → engineStep s = .next t →
    ∀ a, (∀ r ∈ s.ls.sess.rings ++ s.phase.outRing.toList, (s.rb r).holds a = false) → t.mem.read a = s.mem.read a

/-- O20. The link protocol neither reads nor writes CRC_ACC and the SR registers: with other values there, a link command's
steps are the same and leave those values (R28, R115). -/
def Obligations.LinkIgnoresCrcAndSearchRegs : Prop :=
  ∀ (s t : State) (c : Half) (r : SearchRegs),
    (s.phase.linkRunning = true → engineStep s = .next t →
      engineStep { s with crcAcc := c, sr := r } = .next { t with crcAcc := c, sr := r }) ∧
    ∀ i, (i = .lpInit ∨ (∃ ra ack, i = .lpSend ra ack) ∨ ∃ ra want, i = .lpRecv ra want) → exec i s = .next t →
      exec i { s with crcAcc := c, sr := r } = .next { t with crcAcc := c, sr := r }

/-- O21. Every parameter error is a no-op: where the command's rule lists a check that fails, the command completes with PARAM
and RES0..RES3 = 0, and nothing else changes (R24, R71, R91, R131; LP_INIT, whose failure also clears VALID, has a statement
of its own). That the results are 0 after a raced host write too, where R56, R150 and I7 leave them open, is the model's
choice (log 7). -/
def Obligations.ParamErrorsChangeNothing : Prop := ∀ (i : Instr) (s : State), paramCase i s → exec i s = .next s.paramDone

/-! ## Ring buffer commands (41_ring_buffer). Where a content is stated of storage that the data block or the other ring may
overlap, it is stated for blocks and storage apart; the rest holds in every case (R54). -/

/-- O22. NOP completes with OK, leaves RES0..RES3, and changes nothing else; 0x00 with another bit set is no NOP but ILLEGAL
(R68, R75). -/
def Obligations.NopChangesOnlyStatus : Prop :=
  (∀ s : State, exec .nop s = .next { s with phase := .idle, status := s.status.after .ok s.status.err }) ∧
    decode 0x00000000#32 = .ok .nop ∧ ∀ w : Word, w.extractLsb' 0 8 = 0x00#8 → w ≠ 0#32 → ∃ e, decode w = .error e

/-- O23. RB_INIT binds the storage its operands name and returns 1, or is a PARAM no-op when initialCount exceeds the capacity
or the storage passes the top of MEM (R76). -/
def Obligations.RbInitBindsStorage : Prop :=
  ∀ (s : State) (ra : RingIx), s.hazard = false →
    (s.arg2 > s.arg1 ∨ s.argAddr + s.arg1 > 2 ^ s.addrW → exec (.rbInit ra) s = .next s.paramDone) ∧
    (s.arg2 ≤ s.arg1 → s.argAddr + s.arg1 ≤ 2 ^ s.addrW →
      exec (.rbInit ra) s = .next ((s.setRb ra
        { base := s.arg.r0.toNat % 2 ^ s.addrW, cap := (s.arg.r1.extractLsb' 0 16).toNat,
          count := (s.arg.r2.extractLsb' 0 16).toNat, start := 0 }).okDone (quadOf 1 0 0 0)))

/-- O24. RB_PUSHO inserts all n bytes and discards what no longer fits at the opposite end: at the tail the content ends as
the last CAP bytes of content ++ data, at the head as the first CAP bytes of data ++ content (R77). -/
def Obligations.RbPushoKeepsNewest : Prop :=
  ∀ (s : State) (ra : RingIx) (ea : End), Ready s → 0 < (s.rb ra).cap → 0 < s.arg1 →
    ∃ t, exec (.rbPusho ra ea) s = .next t ∧
      Completed s t .ok (quadOf s.arg1 ((s.rb ra).count + s.arg1 - (s.rb ra).cap) 0 0) ∧ OnlyRings [ra] s t ∧
      MemKeptBut ((s.rb ra).newSlot ea s.arg1) s.arg1 s t ∧
      match ea with
      | .tail =>
        t.rb ra = { s.rb ra with
          count := min ((s.rb ra).count + s.arg1) (s.rb ra).cap
          start := ((s.rb ra).start + ((s.rb ra).count + s.arg1 - (s.rb ra).cap)) % (s.rb ra).cap } ∧
        (BlockApart s s.argAddr s.arg1 ra →
          t.content ra = (s.content ra ++ s.block s.argAddr s.arg1).drop ((s.rb ra).count + s.arg1 - (s.rb ra).cap))
      | .head =>
        t.rb ra = { s.rb ra with
          count := min ((s.rb ra).count + s.arg1) (s.rb ra).cap
          start := ((s.rb ra).start + s.arg1 * ((s.rb ra).cap - 1)) % (s.rb ra).cap } ∧
        (BlockApart s s.argAddr s.arg1 ra →
          t.content ra = (s.block s.argAddr s.arg1 ++ s.content ra).take (s.rb ra).cap)

/-- O25. RB_PUSHB inserts the first k = min(n, free) bytes at its end, in virtual order, and touches no element that was
there (R72, R78). -/
def Obligations.RbPushbInsertsPrefix : Prop :=
  ∀ (s : State) (ra : RingIx) (ea : End), Ready s → 0 < (s.rb ra).cap → 0 < s.arg1 →
    ∀ k, k = min s.arg1 ((s.rb ra).cap - (s.rb ra).count) →
    ∃ t, exec (.rbPushb ra ea) s = .next t ∧ Completed s t .ok (quadOf k 0 0 0) ∧ OnlyRings [ra] s t ∧
      t.rb ra = (s.rb ra).grown ea k ∧ MemKeptBut ((s.rb ra).newSlot ea k) k s t ∧
      (BlockApart s s.argAddr k ra →
        t.content ra = match ea with
          | .tail => s.content ra ++ s.block s.argAddr k
          | .head => s.block s.argAddr k ++ s.content ra)

/-- O26. RB_PULL removes k = min(n, COUNT) elements at its end and, without DISCARD, stores them at ARG0 in virtual order
(R72, R79). -/
def Obligations.RbPullRemovesEnd : Prop :=
  ∀ (s : State) (ra : RingIx) (ea : End) (discard : Bool), Ready s → 0 < (s.rb ra).cap → 0 < s.arg1 →
    ∀ k, k = min s.arg1 (s.rb ra).count →
    ∃ t, exec (.rbPull ra ea discard) s = .next t ∧ Completed s t .ok (quadOf k 0 0 0) ∧ OnlyRings [ra] s t ∧
      t.rb ra = (match ea with
        | .head => { s.rb ra with count := (s.rb ra).count - k, start := ((s.rb ra).start + k) % (s.rb ra).cap }
        | .tail => { s.rb ra with count := (s.rb ra).count - k }) ∧
      MemKeptBut (fun j => s.wrap (s.argAddr + j)) (if discard then 0 else k) s t ∧
      (discard = true ∨ BlockApart s s.argAddr k ra →
        t.content ra = match ea with
          | .head => (s.content ra).drop k
          | .tail => (s.content ra).take ((s.rb ra).count - k)) ∧
      (discard = false → BlockApart s s.argAddr k ra →
        t.block s.argAddr k = match ea with
          | .head => (s.content ra).take k
          | .tail => (s.content ra).drop ((s.rb ra).count - k))

/-- O27. RB_READ stores the k = min(n, COUNT - o) elements at offset o from its end at ARG0, in virtual order, and leaves every
descriptor (R73, R80). -/
def Obligations.RbReadCopiesRange : Prop :=
  ∀ (s : State) (ra : RingIx) (ea : End), Ready s → 0 < (s.rb ra).cap → 0 < s.arg1 → s.arg2 < (s.rb ra).count →
    ∀ k f, k = min s.arg1 ((s.rb ra).count - s.arg2) →
      f = (match ea with | .head => s.arg2 | .tail => (s.rb ra).count - s.arg2 - k) →
    ∃ t, exec (.rbRead ra ea) s = .next t ∧ Completed s t .ok (quadOf k 0 0 0) ∧ OnlyRings [] s t ∧
      MemKeptBut (fun j => s.wrap (s.argAddr + j)) k s t ∧
      (BlockApart s s.argAddr k ra →
        t.content ra = s.content ra ∧ t.block s.argAddr k = ((s.content ra).drop f).take k)

/-- O28. RB_WRITE overwrites the k = min(n, COUNT - o) elements at offset o from its end with the block at ARG0, and changes
no descriptor and no other byte (R73, R81). -/
def Obligations.RbWriteReplacesRange : Prop :=
  ∀ (s : State) (ra : RingIx) (ea : End), Ready s → 0 < (s.rb ra).cap → 0 < s.arg1 → s.arg2 < (s.rb ra).count →
    ∀ k f, k = min s.arg1 ((s.rb ra).count - s.arg2) →
      f = (match ea with | .head => s.arg2 | .tail => (s.rb ra).count - s.arg2 - k) →
    ∃ t, exec (.rbWrite ra ea) s = .next t ∧ Completed s t .ok (quadOf k 0 0 0) ∧ OnlyRings [] s t ∧
      MemKeptBut (fun j => (s.rb ra).addr (f + j)) k s t ∧
      (BlockApart s s.argAddr k ra →
        t.content ra = (s.content ra).take f ++ s.block s.argAddr k ++ (s.content ra).drop (f + k))

/-- O29. RB_CUT removes the k elements at offset o from its end, moving the shorter of the two spans around them (the head-side
one on a tie), and stores them at ARG0 unless DISCARD is set; the slots it writes are those the moved span lands on (R73,
R74, R82). -/
def Obligations.RbCutRemovesRange : Prop :=
  ∀ (s : State) (ra : RingIx) (ea : End) (discard : Bool), Ready s → 0 < (s.rb ra).cap → 0 < s.arg1 →
    s.arg2 < (s.rb ra).count →
    ∀ k f, k = min s.arg1 ((s.rb ra).count - s.arg2) →
      f = (match ea with | .head => s.arg2 | .tail => (s.rb ra).count - s.arg2 - k) →
    ∃ t, exec (.rbCut ra ea discard) s = .next t ∧
      Completed s t .ok (quadOf k (min f ((s.rb ra).count - f - k)) 0 0) ∧ OnlyRings [ra] s t ∧
      t.rb ra = (if f ≤ (s.rb ra).count - f - k then
          { s.rb ra with count := (s.rb ra).count - k, start := ((s.rb ra).start + k) % (s.rb ra).cap }
        else { s.rb ra with count := (s.rb ra).count - k }) ∧
      (∀ x, (discard = true ∨ ∀ j, j < k → x ≠ s.wrap (s.argAddr + j)) →
        (∀ j, j < min f ((s.rb ra).count - f - k) →
          x ≠ (s.rb ra).addr (if f ≤ (s.rb ra).count - f - k then k + j else f + j)) →
        t.mem.read x = s.mem.read x) ∧
      (discard = true ∨ BlockApart s s.argAddr k ra →
        t.content ra = (s.content ra).take f ++ (s.content ra).drop (f + k)) ∧
      (discard = false → BlockApart s s.argAddr k ra → t.block s.argAddr k = ((s.content ra).drop f).take k)

/-- O30. RB_MOVE transfers m = min(n, COUNT of the source, free of the destination) bytes from the source's end to the
destination's; without DESTR the source stays; equal kinds of end reverse the bytes (R72, R83). -/
def Obligations.RbMoveTransfers : Prop :=
  ∀ (s : State) (ra rb : RingIx) (ea eb : End) (destr : Bool), Ready s → ra ≠ rb → 0 < (s.rb ra).cap → 0 < (s.rb rb).cap →
    0 < s.arg1 → ∀ m, m = min s.arg1 (min (s.rb rb).count ((s.rb ra).cap - (s.rb ra).count)) →
    ∃ t, exec (.rbMove ra ea rb eb destr) s = .next t ∧ Completed s t .ok (quadOf m 0 0 0) ∧ OnlyRings [ra, rb] s t ∧
      t.rb ra = (s.rb ra).grown ea m ∧
      t.rb rb = (match destr, eb with
        | true, .head => { s.rb rb with count := (s.rb rb).count - m, start := ((s.rb rb).start + m) % (s.rb rb).cap }
        | true, .tail => { s.rb rb with count := (s.rb rb).count - m }
        | false, _ => s.rb rb) ∧
      MemKeptBut ((s.rb ra).newSlot ea m) m s t ∧
      (StorageApart s ra rb → ∀ moved, moved = (match eb with
          | .head => (s.content rb).take m
          | .tail => (s.content rb).reverse.take m) →
        t.content ra = (match ea with
          | .tail => s.content ra ++ moved
          | .head => moved.reverse ++ s.content ra) ∧
        t.content rb = (match destr, eb with
          | true, .head => (s.content rb).drop m
          | true, .tail => (s.content rb).take ((s.rb rb).count - m)
          | false, _ => s.content rb))

/-- O31. RB_ROTL rotates the content: left by p brings the element at virtual p to virtual 0, right by p undoes that; it moves
min(k, COUNT - k) elements for the left-rotation amount k, and an empty ring stays as it is (R84). -/
def Obligations.RbRotlRotatesContent : Prop :=
  ∀ (s : State) (ra : RingIx) (dir : Dir), Ready s → 0 < (s.rb ra).cap →
    ((s.rb ra).count = 0 → exec (.rbRotl ra dir) s = .next (s.okDone (quadOf 0 0 0 0))) ∧
    (0 < (s.rb ra).count → ∀ k, k = (match dir with
        | .left => s.arg1 % (s.rb ra).count
        | .right => ((s.rb ra).count - s.arg1 % (s.rb ra).count) % (s.rb ra).count) →
      ∃ t, exec (.rbRotl ra dir) s = .next t ∧ Completed s t .ok (quadOf (min k ((s.rb ra).count - k)) 0 0 0) ∧
        OnlyRings [ra] s t ∧
        (dir = .left → t.content ra = (s.content ra).rotate s.arg1) ∧
        (dir = .right → (t.content ra).rotate s.arg1 = s.content ra) ∧
        if k ≤ (s.rb ra).count - k then
          t.rb ra = { s.rb ra with start := ((s.rb ra).start + k) % (s.rb ra).cap } ∧
            MemKeptBut ((s.rb ra).newSlot .tail k) k s t
        else
          t.rb ra = (s.rb ra).back ((s.rb ra).count - k) ∧
            MemKeptBut ((s.rb ra).newSlot .head ((s.rb ra).count - k)) ((s.rb ra).count - k) s t)

/-- O32. RB_ROTP moves every slot of the storage sh slots on, modulo CAP, puts virtual 0 at the requested slot and leaves the
content as it was (R85). -/
def Obligations.RbRotpMovesWholeStorage : Prop :=
  ∀ (s : State) (ra : RingIx), Ready s → 0 < (s.rb ra).cap → s.arg1 < (s.rb ra).cap →
    ∀ sh, sh = (s.arg1 + (s.rb ra).cap - (s.rb ra).start) % (s.rb ra).cap →
    ∃ t, exec (.rbRotp ra) s = .next t ∧ Completed s t .ok (quadOf 1 sh 0 0) ∧ OnlyRings [ra] s t ∧
      t.rb ra = { s.rb ra with start := s.arg1 } ∧ t.content ra = s.content ra ∧ MemKeptOutsideRing ra s t ∧
      ∀ i, i < (s.rb ra).cap →
        t.mem.read ((s.rb ra).base + (i + sh) % (s.rb ra).cap) = s.mem.read ((s.rb ra).base + i)

/-- O33. The round trips of R89: RB_ROTP to a slot and then back to the first START restores every slot and the descriptors
(d); RB_WRITE and then RB_READ with the same end, length and offset gives back the bytes written (b). -/
def Obligations.RingRoundTrips : Prop :=
  (∀ (s t : State) (ra : RingIx), Ready s → 0 < (s.rb ra).cap → s.arg1 < (s.rb ra).cap → exec (.rbRotp ra) s = .next t →
    ∃ u, exec (.rbRotp ra) { t with arg := { t.arg with r1 := BitVec.ofNat 32 (s.rb ra).start } } = .next u ∧
      u.rbs = s.rbs ∧ MemKept s u ∧ u.status.ecode = .ok) ∧
  ∀ (s t : State) (ra : RingIx) (ea : End) (a : Word), Ready s → 0 < (s.rb ra).cap → 0 < s.arg1 →
    s.arg2 < (s.rb ra).count → exec (.rbWrite ra ea) s = .next t →
    ∀ k, k = min s.arg1 ((s.rb ra).count - s.arg2) → BlockApart s s.argAddr k ra →
    BlockApart s (a.toNat % 2 ^ s.addrW) k ra →
    ∃ u, exec (.rbRead ra ea) { t with arg := { t.arg with r0 := a } } = .next u ∧
      u.block (a.toNat % 2 ^ s.addrW) k = s.block s.argAddr k

/-- O34. RB_FULL answers whether COUNT is CAP, RB_EMPTY whether it is 0; RB_FLUSH sets COUNT and START to 0, keeps BASE and CAP,
writes no byte of MEM and returns the old COUNT; a descriptor with CAP = 0 gives PARAM (R86, R87, R88). -/
def Obligations.QueriesAndFlush : Prop :=
  ∀ (s : State) (ra : RingIx), s.hazard = false →
    exec (.rbFull ra) s = .next (if (s.rb ra).cap = 0 then s.paramDone
      else s.okDone (quadOf (if (s.rb ra).count = (s.rb ra).cap then 1 else 0) 0 0 0)) ∧
    exec (.rbEmpty ra) s = .next (if (s.rb ra).cap = 0 then s.paramDone
      else s.okDone (quadOf (if (s.rb ra).count = 0 then 1 else 0) 0 0 0)) ∧
    exec (.rbFlush ra) s = .next (if (s.rb ra).cap = 0 then s.paramDone
      else (s.setRb ra { s.rb ra with count := 0, start := 0 }).okDone (quadOf (s.rb ra).count 0 0 0))

/-! ## Frame search (42_frame_search) -/

/-- O35. FS_MATCH reports, of the qualifying alignments of the chosen pattern at the position, the status, the lowest or
highest, and the bit mask (R92, R93); the pattern is the bytes of its two registers (R25, R47). -/
def Obligations.FsMatchReportsAlignments : Prop :=
  ∀ (s : State) (ra : RingIx) (sel : Sel) (tie : Tie) (p : List Byte), Ready s → 0 < (s.rb ra).cap →
    p = (match sel with | .headPat => s.sr.spelled.head | .tailPat => s.sr.spelled.tail) → p.length ∈ List.range' 1 8 →
    s.arg1 ≤ s.arg2 → s.arg2 < (s.rb ra).count →
    ∃ r : Quad, exec (.fsMatch ra sel tie) s = .next (s.okDone r) ∧ r.r3 = 0#32 ∧
      (∀ a, a < 32 → (r.r2.getLsbD a = true ↔ Qualifies p (s.content ra) s.arg1 s.arg2 a)) ∧
      (Qualifies p (s.content ra) s.arg1 s.arg2 (p.length - 1) → r.r0 = 2#32) ∧
      (¬ Qualifies p (s.content ra) s.arg1 s.arg2 (p.length - 1) →
        ((∃ a, Qualifies p (s.content ra) s.arg1 s.arg2 a) → r.r0 = 1#32 ) ∧
        ((∀ a, ¬ Qualifies p (s.content ra) s.arg1 s.arg2 a) → r.r0 = 0#32 ∧ r.r1 = 0#32)) ∧
      ((∃ a, Qualifies p (s.content ra) s.arg1 s.arg2 a) → Qualifies p (s.content ra) s.arg1 s.arg2 r.r1.toNat) ∧
      ∀ a, Qualifies p (s.content ra) s.arg1 s.arg2 a →
        (tie = .low → r.r1.toNat ≤ a) ∧ (tie = .high → a ≤ r.r1.toNat)

/-- O36. The search finds, from its start on, the lowest position at which a frame stands, with that frame's length; it finds
nothing iff none stands (R95, R96 (b)). -/
def Obligations.SearchFindsLowestFrame : Prop :=
  ∀ (r : Rule) (xs : List Byte) (start : Nat), r.head ≠ [] →
    (∀ h len, search r xs start = some (h, len) ↔
      start ≤ h ∧ FrameAt r xs h len ∧ ∀ h', start ≤ h' → h' < h → ∀ len', ¬ FrameAt r xs h' len') ∧
    (search r xs start = none ↔ ∀ h, start ≤ h → ∀ len, ¬ FrameAt r xs h len)

/-- O37. Hard search on a stream of frames, each a FLAG pair around bytes without FLAG, finds exactly the next frame, started
at its opening flag or at the closing flag before it, when the bounds admit every frame and minLen is at least 2 (R100). -/
def Obligations.HardSearchFindsIntendedFrame : Prop :=
  ∀ (before after : List (List Byte)) (x : List Byte) (r : Rule),
    r.head = [0x7E#8] → r.tail = [0x7E#8] → r.policy = .hard → 2 ≤ r.minLen →
    (∀ y ∈ before ++ x :: after, (0x7E#8 : Byte) ∉ y ∧ r.minLen ≤ 1 + y.length ∧ (r.maxLen = 0 ∨ 1 + y.length ≤ r.maxLen)) →
    ∀ stream pos, stream = (before ++ x :: after).flatMap (fun y => 0x7E#8 :: (y ++ [0x7E#8])) →
      pos = (before.flatMap (fun y => 0x7E#8 :: (y ++ [0x7E#8]))).length →
      search r stream pos = some (pos, x.length + 2) ∧
        (before ≠ [] → search r stream (pos - 1) = some (pos, x.length + 2))

/-- O38. FS_SEARCH searches the content from ARG2 on for the rule that the SR registers spell (R25, R26, R47), returns found,
position and length, and writes the view into the second descriptor if that is another one; nothing else changes (R97,
R98). The whole rule that the model reads off the registers is that one. -/
def Obligations.FsSearchWritesView : Prop :=
  (∀ r : SearchRegs, r.hlen.toNat ≤ 8 → r.tlen.toNat ≤ 8 → r.rule = r.spelled) ∧
  ∀ (s : State) (ra rb : RingIx), s.hazard = false → 0 < (s.rb ra).cap → s.sr.hlen.toNat ∈ List.range' 1 8 →
    s.sr.tlen.toNat ≤ 8 →
    (search s.sr.spelled (s.content ra) s.arg2 = none →
      exec (.fsSearch ra rb) s = .next (s.okDone (quadOf 0 0 0 0))) ∧
    ∀ h len, search s.sr.spelled (s.content ra) s.arg2 = some (h, len) →
      exec (.fsSearch ra rb) s = .next ((if rb = ra then s else s.setRb rb
        { base := (s.rb ra).base, cap := (s.rb ra).cap, start := ((s.rb ra).start + h) % (s.rb ra).cap,
          count := len }).okDone (quadOf 1 h len 0))

/-- O39. FS_SRCHADV searches from the head, writes the view, and drops the most its flags ask for: up to, just past or through
a found frame, one byte of a full ring if nothing is found, and then with FFWD on to the next byte equal to the head
pattern's first; RES3 counts them and no byte of MEM changes (R99; the rule is the one the SR registers spell, R25, R26). -/
def Obligations.FsSrchadvAdvances : Prop :=
  ∀ (s : State) (ra rb : RingIx) (f : AdvFlags), Ready s → 0 < (s.rb ra).cap → s.sr.hlen.toNat ∈ List.range' 1 8 →
    s.sr.tlen.toNat ≤ 8 →
    ∀ found k rest b, found = search s.sr.spelled (s.content ra) 0 →
      b = s.sr.hpat0.extractLsb' 0 8 →
      k = (match found with
        | some (h, len) =>
          max (if f.toStart then h else 0) (max (if f.toStart1 then h + 1 else 0) (if f.entire then h + len else 0))
        | none => if f.onFull = true ∧ (s.rb ra).count = (s.rb ra).cap then 1 else 0) →
      rest = (if f.ffwd then ((s.content ra).drop k).dropWhile (fun x => x != b) else (s.content ra).drop k) →
    ∃ t, exec (.fsSrchadv ra rb f) s = .next t ∧
      Completed s t .ok (match found with
        | some (h, len) => quadOf 1 h len ((s.rb ra).count - rest.length)
        | none => quadOf 0 0 0 ((s.rb ra).count - rest.length)) ∧
      OnlyRings [ra, rb] s t ∧ t.mem = s.mem ∧ t.content ra = rest ∧
      t.rb ra = { s.rb ra with
        count := rest.length, start := ((s.rb ra).start + ((s.rb ra).count - rest.length)) % (s.rb ra).cap } ∧
      (rb ≠ ra → t.rb rb = match found with
        | some (h, len) =>
          { base := (s.rb ra).base, cap := (s.rb ra).cap, start := ((s.rb ra).start + h) % (s.rb ra).cap, count := len }
        | none => s.rb rb)

/-! ## Byte stuffing (43_byte_stuffing) -/

/-- O40. BS_STUFF with room for the stuffing replaces the content by it, with START moved on by the old COUNT (R101, R102). -/
def Obligations.BsStuffReplacesContent : Prop :=
  ∀ (s : State) (ra : RingIx) (d : Desc) (c : List Byte), Ready s → d = s.rb ra → 0 < d.count → c = stuff (s.content ra) →
    c.length ≤ d.cap →
    ∃ t, exec (.bsStuff ra) s = .next t ∧ Completed s t .ok (quadOf 1 c.length d.count 0) ∧ OnlyRings [ra] s t ∧
      t.content ra = c ∧ t.rb ra = { d with count := c.length, start := (d.start + d.count) % d.cap } ∧
      MemKeptBut (fun j => d.addr (d.count + j)) c.length s t

/-- O41. BS_STUFF without room ends with CAPACITY at the k-th byte, the first escaped one whose second byte finds no slot, and
leaves old[k..] ++ stuff(old[0..k-1)) ++ [ESC], with that byte lost (R102, R152). -/
def Obligations.BsStuffWithoutRoom : Prop :=
  ∀ (s : State) (ra : RingIx) (d : Desc), Ready s → d = s.rb ra → 0 < d.count → d.cap < (stuff (s.content ra)).length →
    ∃ t k, exec (.bsStuff ra) s = .next t ∧ 1 ≤ k ∧ k ≤ d.count ∧ Completed s t .capacity (quadOf 0 d.cap k 0) ∧
      OnlyRings [ra] s t ∧ (((s.content ra)[k - 1]?).any needsEscape = true) ∧
      ((s.content ra).take (k - 1)).countP needsEscape = d.cap - d.count ∧
      t.content ra = (s.content ra).drop k ++ stuff ((s.content ra).take (k - 1)) ++ [0x7D#8] ∧
      t.rb ra = { d with count := d.cap, start := (d.start + k) % d.cap } ∧
      MemKeptBut (fun j => d.addr (d.count + j)) ((stuff ((s.content ra).take (k - 1))).length + 1) s t

/-- O42. Every content is a stuffing, or a stuffing, then a FLAG, a last ESC or an ESC with a wrong byte, and a rest. BS_UNSTUFF
undoes the first kind; on the second it ends with CORRUPT and leaves the rest followed by what it has unstuffed (R103,
R152). -/
def Obligations.BsUnstuffInvertsOrStops : Prop :=
  (∀ c : List Byte, (∃ xs, c = stuff xs) ∨ ∃ xs bad rest, CorruptAt bad rest ∧ c = stuff xs ++ bad ++ rest) ∧
  ∀ (s : State) (ra : RingIx) (d : Desc) (xs : List Byte), Ready s → d = s.rb ra → 0 < d.count →
    (s.content ra = stuff xs →
      ∃ t, exec (.bsUnstuff ra) s = .next t ∧ Completed s t .ok (quadOf 1 xs.length d.count 0) ∧ OnlyRings [ra] s t ∧
        t.content ra = xs ∧ t.rb ra = { d with count := xs.length, start := (d.start + d.count) % d.cap } ∧
        MemKeptBut (fun j => d.addr (d.count + j)) xs.length s t) ∧
    ∀ bad rest, CorruptAt bad rest → s.content ra = stuff xs ++ bad ++ rest →
      ∃ t, exec (.bsUnstuff ra) s = .next t ∧
        Completed s t .corrupt (quadOf 0 (rest.length + xs.length) ((stuff xs).length + bad.length) 0) ∧
        OnlyRings [ra] s t ∧ t.content ra = rest ++ xs ∧
        t.rb ra = { d with
          count := rest.length + xs.length, start := (d.start + ((stuff xs).length + bad.length)) % d.cap } ∧
        MemKeptBut (fun j => d.addr (d.count + j)) xs.length s t

/-- O43. BS_STUFF and then BS_UNSTUFF, with room for the stuffing, leaves the content and OK for both, and no stuffing holds a
FLAG (R104). -/
def Obligations.StuffThenUnstuff : Prop :=
  (∀ c : List Byte, (0x7E#8 : Byte) ∉ stuff c) ∧
  ∀ (s : State) (ra : RingIx), Ready s → 0 < (s.rb ra).count → (stuff (s.content ra)).length ≤ (s.rb ra).cap →
    ∃ t u, exec (.bsStuff ra) s = .next t ∧ t.status.ecode = .ok ∧ exec (.bsUnstuff ra) t = .next u ∧
      u.status.ecode = .ok ∧ u.content ra = s.content ra

/-! ## CRC-16 (44_crc16) -/

/-- O44. The byte step is the lookup in the 256-entry table (R106). -/
def Obligations.CrcByteByTable : Prop :=
  (∀ (c : Half) (b : Byte), crcByte c b = (c <<< 8) ^^^ crcTable ((c >>> 8).setWidth 8 ^^^ b)) ∧
    crcTable 0x00#8 = 0x0000#16 ∧ crcTable 0x01#8 = 0x1021#16 ∧ crcTable 0x02#8 = 0x2042#16 ∧
    crcTable 0x80#8 = 0x9188#16 ∧ crcTable 0xFF#8 = 0x1EF0#16

/-- O45. The CRC of any bytes followed by their CRC, high byte first, is 0, and no single-bit change of them leaves it 0
(R107). -/
def Obligations.CrcResidueLaw : Prop :=
  (∀ xs : List Byte, crc16 (xs ++ [(crc16 xs).extractLsb' 8 8, (crc16 xs).extractLsb' 0 8]) = 0#16) ∧
  ∀ (xs ys : List Byte) (i k : Nat) (h : i < ys.length), ys = xs ++ [(crc16 xs).extractLsb' 8 8, (crc16 xs).extractLsb' 0 8] →
    k < 8 → crc16 (ys.set i (ys[i] ^^^ (1#8 <<< k))) ≠ 0#16

/-- O46. CRC_SEED sets the accumulator to 0xFFFF and returns it (R108); CRC_BYTE folds ARG0[7:0] into the accumulator and
returns it (R109). -/
def Obligations.CrcSeedAndByte : Prop :=
  ∀ s : State, s.hazard = false →
    exec .crcSeed s = .next (({ s with crcAcc := 0xFFFF#16 } : State).okDone (quadOf 0xFFFF 0 0 0)) ∧
    ∀ c, c = crcByte s.crcAcc (s.arg.r0.extractLsb' 0 8) →
      exec .crcByte s = .next (({ s with crcAcc := c } : State).okDone (quadOf c.toNat 0 0 0))

/-- O47. CRC_RUN folds k = min(n, COUNT - o) bytes of the content from offset o into the accumulator (R110); CRC_CHECK sets the
accumulator to the CRC of the whole content and answers whether it is 0 (R112); CRC_APPEND puts the accumulator at the
tail, high byte first, or with fewer than two free slots ends with CAPACITY and nothing written (R111). -/
def Obligations.CrcRingCommands : Prop :=
  ∀ (s : State) (ra : RingIx) (d : Desc), Ready s → d = s.rb ra →
    ((d.cap = 0 ∨ s.arg1 = 0 ∨ d.count ≤ s.arg2 → exec (.crcRun ra) s = .next s.paramDone) ∧
      (0 < d.cap → 0 < s.arg1 → s.arg2 < d.count →
        ∀ k c, k = min s.arg1 (d.count - s.arg2) → c = (((s.content ra).drop s.arg2).take k).foldl crcByte s.crcAcc →
          exec (.crcRun ra) s = .next (({ s with crcAcc := c } : State).okDone (quadOf c.toNat k 0 0)))) ∧
    ((d.cap = 0 ∨ d.count = 0 → exec (.crcCheck ra) s = .next s.paramDone) ∧
      (0 < d.cap → 0 < d.count → ∀ c, c = (s.content ra).foldl crcByte 0xFFFF#16 →
        exec (.crcCheck ra) s =
          .next (({ s with crcAcc := c } : State).okDone (quadOf (if c = 0#16 then 1 else 0) c.toNat 0 0)))) ∧
    (d.cap = 0 → exec (.crcAppend ra) s = .next s.paramDone) ∧
    (0 < d.cap → d.cap - d.count < 2 →
      exec (.crcAppend ra) s = .next { s with phase := .idle, status := s.status.after .capacity true, res := Quad.zero }) ∧
    (2 ≤ d.cap - d.count →
      ∃ t, exec (.crcAppend ra) s = .next t ∧ Completed s t .ok (quadOf 2 0 0 0) ∧ OnlyRings [ra] s t ∧
        t.content ra = s.content ra ++ [s.crcAcc.extractLsb' 8 8, s.crcAcc.extractLsb' 0 8] ∧
        t.rb ra = { d with count := d.count + 2 } ∧ MemKeptBut (fun j => d.addr (d.count + j)) 2 s t)

/-! ## Link protocol (45_link_protocol). A running LP_SEND or LP_RECV is a sequence of engine steps, so what it does is stated
of single steps and of runs of `Sys2Proof.core`. -/

/-- O48. LP_INIT latches LS_CFG, makes the session valid, flushes its rings and clears the counters, or, when the rings it
names are not distinct or not bound, makes the session invalid and ends with PARAM (R125). -/
def Obligations.LpInitStartsSession : Prop :=
  ∀ (s : State) (g : Session), s.hazard = false → g = s.ls.cfg →
    ∀ bad : Prop, (bad ↔ g.rx = g.scr ∨ (s.rb g.rx).cap = 0 ∨ (s.rb g.scr).cap = 0 ∨
      (g.sqe = true ∧ (g.side = g.rx ∨ g.side = g.scr ∨ g.slen = g.rx ∨ g.slen = g.scr ∨ g.slen = g.side ∨
        (s.rb g.side).cap = 0 ∨ (s.rb g.slen).cap = 0))) →
    (bad → exec .lpInit s = .next ({ s with ls := { s.ls with sessValid := false } } : State).paramDone) ∧
    (¬ bad → ∃ t, exec .lpInit s = .next t ∧ Completed s t .ok (quadOf 1 0 0 0) ∧ HostKept s t ∧ t.env = s.env ∧
      t.mem = s.mem ∧ t.crcAcc = s.crcAcc ∧
      t.ls = { s.ls with
        sess := g, sessValid := true, txHash := 0#16, lastRx := { hash := 0#16, valid := false }, state := .idle,
        attempts := 0#16 } ∧
      ∀ i : RingIx, t.rb i = if i = g.rx ∨ i = g.scr ∨ (g.sqe = true ∧ (i = g.side ∨ i = g.slen))
        then { s.rb i with count := 0, start := 0 } else s.rb i)

/-- O49. The frame on the wire is a FLAG, the stuffing of header, payload and CRC, and a FLAG; it is 7 to 268 bytes long, and
no byte between the two flags is a FLAG (R104, R113, R114). -/
def Obligations.WireFrameShape : Prop :=
  ∀ (code : BitVec 7) (ackW : Bool) (hash : Half) (p : List Byte), p.length ≤ 128 →
    ∀ hdr c, hdr = [BitVec.ofBool ackW ++ code, hash.extractLsb' 8 8, hash.extractLsb' 0 8] → c = crc16 (hdr ++ p) →
    wireFrame code ackW hash p =
      [0x7E#8] ++ stuff (hdr ++ p ++ [c.extractLsb' 8 8, c.extractLsb' 0 8]) ++ [0x7E#8] ∧
    7 ≤ (wireFrame code ackW hash p).length ∧ (wireFrame code ackW hash p).length ≤ 268 ∧
    (0x7E#8 : Byte) ∉ stuff (hdr ++ p ++ [c.extractLsb' 8 8, c.extractLsb' 0 8]) ∧
    crc16 (hdr ++ p ++ [c.extractLsb' 8 8, c.extractLsb' 0 8]) = 0#16

/-- O50. LP_SEND in a valid session, with a payload of at most 128 bytes and a scratch ring that holds the frame, takes the next
hash, builds the frame in the scratch ring, and stands before its first TX call in state Sent with one attempt (R116,
R126, R128). That this first step makes no call and ends before the first TX is the model's choice (log 6). -/
def Obligations.LpSendBuildsFrame : Prop :=
  ∀ (s : State) (ra : RingIx) (ack : Bool) (w : List Byte), Ready s → s.ls.sessValid = true → ra ∉ s.ls.sess.rings →
    0 < (s.rb ra).cap → (s.rb ra).count ≤ 128 → w = wireFrame 0#7 ack (s.ls.txHash + 1#16) (s.content ra) →
    w.length ≤ (s.rb s.scrIx).cap →
    ∃ t, exec (.lpSend ra ack) s = .next t ∧
      t.phase = .sendTx {
        ackW := ack, hash := s.ls.txHash + 1#16, payload := s.content ra, tries := 1, frameLen := w.length, t0 := 0#32,
        timeout := s.ls.timeout, retries := s.ls.maxRetry.toNat } 0 ∧
      t.content s.scrIx = w ∧
      t.ls = { s.ls with txHash := s.ls.txHash + 1#16, state := .sent, attempts := 1#16 } ∧
      HostKept s t ∧ t.status = s.status ∧ t.res = s.res ∧ t.env = s.env ∧ t.crcAcc = s.crcAcc ∧
      (∀ j : RingIx, j ≠ s.scrIx → t.rb j = s.rb j) ∧ MemKeptOutsideRing s.scrIx s t

/-- O51. LP_SEND ends with CAPACITY and state Aborted, before any byte is transmitted: at once when the payload is longer than
128 bytes, and with its fresh hash spent when the frame does not fit the scratch ring (R116, R126, R132). -/
def Obligations.LpSendCapacity : Prop :=
  ∀ (s : State) (ra : RingIx) (ack : Bool), Ready s → s.ls.sessValid = true → ra ∉ s.ls.sess.rings → 0 < (s.rb ra).cap →
    (128 < (s.rb ra).count →
      exec (.lpSend ra ack) s = .next { s with
        phase := .idle, status := s.status.after .capacity true, res := Quad.zero,
        ls := { s.ls with state := .aborted, attempts := 0#16 } }) ∧
    ((s.rb ra).count ≤ 128 →
      (s.rb s.scrIx).cap < (wireFrame 0#7 ack (s.ls.txHash + 1#16) (s.content ra)).length →
      ∃ t, exec (.lpSend ra ack) s = .next t ∧
        Completed s t .capacity (quadOf 0 0 (s.ls.txHash + 1#16).toNat 0) ∧
        t.ls = { s.ls with txHash := s.ls.txHash + 1#16, state := .aborted, attempts := 0#16 } ∧
        HostKept s t ∧ t.env = s.env ∧ t.crcAcc = s.crcAcc ∧ (∀ j : RingIx, j ≠ s.scrIx → t.rb j = s.rb j) ∧
        MemKeptOutsideRing s.scrIx s t)

/-- O52. A TX call of XMIT: a rejection ends LP_SEND with TRANSPORT and state Aborted; an accepted byte goes out, and after
the last one an unacknowledged send is done and an acknowledged one waits (R117, R126, R137). A TX call of an
acknowledgement, in LP_RECV and in the wait of an LP_SEND: an accepted byte goes out and the next follows; after the last
one, and after a rejection, which sets ACKFAIL and is no error, LP_RECV completes with its results and the wait's scan goes
on from where it stood (R118, R133). What one step takes in after its call is log 6's. -/
def Obligations.TransmitSteps : Prop :=
  (∀ (s : State) (c : SendCtx) (v : Nat), s.hazard = false → s.phase = .sendTx c v →
    (s.env.txOk = false → engineStep s = .next { s with
      phase := .idle, status := s.status.after .transport true, res := quadOf 0 c.tries c.hash.toNat c.frameLen,
      ls := { s.ls with state := .aborted } }) ∧
    (s.env.txOk = true → ∀ e : Env, e = { s.env with sent := s.env.sent ++ [s.rd s.scrIx v] } →
      (v + 1 < (s.rb s.scrIx).count → engineStep s = .next { s with phase := .sendTx c (v + 1), env := e }) ∧
      ((s.rb s.scrIx).count ≤ v + 1 → c.ackW = false →
        engineStep s = .next (({ s with env := e } : State).okDone (quadOf 1 c.tries c.hash.toNat c.frameLen))) ∧
      ((s.rb s.scrIx).count ≤ v + 1 → c.ackW = true →
        engineStep s = .next { s with phase := .sendT0 c, env := e, ls := { s.ls with state := .ackWait } }))) ∧
  (∀ (s : State) (r : Quad) (v : Nat), s.hazard = false → s.phase = .recvAckTx r v →
    (s.env.txOk = false → engineStep s = .next { s with
      phase := .idle, res := r, status := { (s.status.after .ok s.status.err) with ackFail := true } }) ∧
    (s.env.txOk = true → ∀ e : Env, e = { s.env with sent := s.env.sent ++ [s.rd s.scrIx v] } →
      (v + 1 < (s.rb s.scrIx).count → engineStep s = .next { s with phase := .recvAckTx r (v + 1), env := e }) ∧
      ((s.rb s.scrIx).count ≤ v + 1 → engineStep s = .next (({ s with env := e } : State).okDone r)))) ∧
  ∀ (s : State) (c : SendCtx) (off v : Nat), s.phase = .sendAckTx c off v →
    (s.env.txOk = false → ∃ t, engineStep s = .next t ∧
      t = waitScan c off { s with status := { s.status with ackFail := true } } ∧
      t.status.ackFail = true ∧ t.status.err = s.status.err ∧ t.env = s.env) ∧
    (s.env.txOk = true → ∀ e : Env, e = { s.env with sent := s.env.sent ++ [s.rd s.scrIx v] } →
      (v + 1 < (s.rb s.scrIx).count → engineStep s = .next { s with phase := .sendAckTx c off (v + 1), env := e }) ∧
      ((s.rb s.scrIx).count ≤ v + 1 → ∃ t, engineStep s = .next t ∧ t = waitScan c off { s with env := e } ∧
        t.status.err = s.status.err ∧ t.env = e))

/-- O53. An unacknowledged LP_SEND from the host's CMD write to its completion: on a transmit port that accepts, the bytes that
go out are the frame of a DATA header with the next hash, the payload and its CRC, each once and in order (R35, R113, R117,
R126). The number of steps is the model's choice (log 3, log 6). -/
def Obligations.UnackedSendTransmitsFrame : Prop :=
  ∀ (s : State) (ra : RingIx) (w : List Byte) (cmd : Word), RingsOk s → MemOk s → s.phase = .idle →
    cmd = encode (.lpSend ra false) → s.env.agenda = [.host (.write 0x010 4 cmd)] → s.env.txOk = true →
    s.ls.sessValid = true → ra ∉ s.ls.sess.rings → 0 < (s.rb ra).cap → (s.rb ra).count ≤ 128 →
    w = wireFrame 0#7 false (s.ls.txHash + 1#16) ((s.accept cmd).content ra) → w.length ≤ (s.rb s.scrIx).cap →
    ∃ t : State, Host.Core.run Sys2Proof.core (2 + w.length) s = .next t ∧
      Completed (s.accept cmd) t .ok (quadOf 1 1 (s.ls.txHash + 1#16).toNat w.length) ∧
      t.env = { s.env with agenda := [], sent := s.env.sent ++ w } ∧ t.ls.state = .sent ∧ t.ls.attempts = 1#16 ∧
      t.ls.txHash = s.ls.txHash + 1#16

/-- O54. The wait of an acknowledged LP_SEND: it starts with one read of the tick input and polls; at a later read, before
LS_TIMEOUT ticks have passed it polls again; after that it ends with EXHAUSTED if 1 + R frames were started, and else builds
the frame with the same hash again, or ends with CAPACITY and state Aborted if it does not fit the scratch ring. A poll
calls RXP while the receive ring has room, and scans a full one at once (R116, R119, R126, R128). That the retry's payload
is the one latched at the start, whatever storage overlaps (R154, I11), is the model's choice (log 19); what one step takes
in is log 6's. -/
def Obligations.AckWaitTimeout : Prop :=
  ∀ (s : State) (c : SendCtx), Ready s →
    (s.phase = .sendT0 c →
      (0 < (s.rb s.rxIx).cap - (s.rb s.rxIx).count →
        engineStep s = .next { s with phase := .sendRx { c with t0 := s.env.tick } }) ∧
      ((s.rb s.rxIx).count = (s.rb s.rxIx).cap → engineStep s = .next (waitScan { c with t0 := s.env.tick } 0 s))) ∧
    (s.phase = .sendT c →
      ((s.env.tick - c.t0).toNat < c.timeout.toNat →
        (0 < (s.rb s.rxIx).cap - (s.rb s.rxIx).count → engineStep s = .next { s with phase := .sendRx c }) ∧
        ((s.rb s.rxIx).count = (s.rb s.rxIx).cap → engineStep s = .next (waitScan c 0 s))) ∧
      (c.timeout.toNat ≤ (s.env.tick - c.t0).toNat → c.tries = 1 + c.retries →
        engineStep s = .next { s with
          phase := .idle, status := s.status.after .exhausted true, res := quadOf 0 c.tries c.hash.toNat c.frameLen,
          ls := { s.ls with state := .exhausted } }) ∧
      (c.timeout.toNat ≤ (s.env.tick - c.t0).toNat → c.tries ≠ 1 + c.retries →
        ∀ w, w = wireFrame 0#7 c.ackW c.hash c.payload →
        ∃ t, engineStep s = .next t ∧ t.env = s.env ∧ (∀ j : RingIx, j ≠ s.scrIx → t.rb j = s.rb j) ∧
          MemKeptOutsideRing s.scrIx s t ∧
          (w.length ≤ (s.rb s.scrIx).cap →
            t.phase = .sendTx { c with tries := c.tries + 1, frameLen := w.length } 0 ∧ t.content s.scrIx = w ∧
              t.ls = { s.ls with state := .sent, attempts := BitVec.ofNat 16 (c.tries + 1) } ∧ t.status = s.status) ∧
          ((s.rb s.scrIx).cap < w.length →
            Completed s t .capacity (quadOf 0 c.tries c.hash.toNat 0) ∧ t.ls = { s.ls with state := .aborted })))

/-- O55. A poll that finds in the receive ring, behind bytes without FLAG, an acknowledgement with the hash in flight ends LP_SEND
with OK and state Acked; the frame and the bytes before it are taken out, those behind it stay (R121, R122, R126). -/
def Obligations.MatchingAckEndsSend : Prop :=
  ∀ (s : State) (c : SendCtx) (pre post p w : List Byte) (aw : Bool), Inv s → s.hazard = false → s.phase = .sendRx c →
    s.env.rxLine = [] → AllApart s [s.rxIx, s.scrIx] → p.length ≤ 128 → w = wireFrame 1#7 aw c.hash p →
    (0x7E#8 : Byte) ∉ pre → s.content s.rxIx = pre ++ w ++ post → w.length ≤ (s.rb s.scrIx).cap + 2 →
    ∃ t, engineStep s = .next t ∧ Completed s t .ok (quadOf 1 c.tries c.hash.toNat c.frameLen) ∧
      t.ls = { s.ls with state := .acked } ∧ t.content s.rxIx = post ∧ t.env = s.env ∧ t.crcAcc = s.crcAcc ∧
      (∀ j : RingIx, j ≠ s.rxIx → j ≠ s.scrIx → t.rb j = s.rb j) ∧ MemKeptOutsideRing s.scrIx s t

/-- O56. LP_RECV in a valid session stands before its first RXP call, nothing else changed, while the receive ring has room, and
scans a full one at once. In TOPUP, of LP_RECV and of a wait, a byte the port hands over goes to the tail of the receive
ring; RXP is called again while there is room, and SCAN follows the byte that fills the ring, or an RXP that hands over
nothing (R119, R126, R127, R137). That LP_RECV's first step makes no call, and that SCAN belongs to the step of the RXP
before it, are the model's choices (log 6). -/
def Obligations.TopUpTakesBytes : Prop :=
  (∀ (s : State) (ra : RingIx) (want : Nat), s.ls.sessValid = true → ra ∉ s.ls.sess.rings → 0 < (s.rb ra).cap →
    (0 < (s.rb s.rxIx).cap - (s.rb s.rxIx).count →
      exec (.lpRecv ra want) s = .next { s with phase := .recvRx { out := ra, want := want } }) ∧
    ((s.rb s.rxIx).cap - (s.rb s.rxIx).count = 0 →
      exec (.lpRecv ra want) s = .next (recvScan { out := ra, want := want } s))) ∧
  (∀ s : State, s.env.rxLine = [] →
    (∀ c, s.phase = .recvRx c → engineStep s = .next (recvScan c s)) ∧
    ∀ c, s.phase = .sendRx c → engineStep s = .next (waitScan c 0 s)) ∧
  ∀ (s : State) (b : Byte) (line : List Byte) (d : Desc), Ready s →
    ((∃ c, s.phase = .recvRx c) ∨ ∃ c, s.phase = .sendRx c) → s.env.rxLine = b :: line → d = s.rb s.rxIx →
    d.count < d.cap →
    ∃ u : State, u.phase = s.phase ∧ u.env = { s.env with rxLine := line } ∧
      u.content s.rxIx = s.content s.rxIx ++ [b] ∧ u.rb s.rxIx = { d with count := d.count + 1 } ∧
      (∀ j : RingIx, j ≠ s.rxIx → u.rb j = s.rb j) ∧ u.status = s.status ∧ u.res = s.res ∧ u.ls = s.ls ∧
      u.crcAcc = s.crcAcc ∧ HostKept s u ∧ MemKeptBut (fun _ => d.addr d.count) 1 s u ∧
      (d.count + 1 < d.cap → engineStep s = .next u) ∧
      (d.count + 1 = d.cap →
        (∀ c, s.phase = .recvRx c → engineStep s = .next (recvScan c u)) ∧
        ∀ c, s.phase = .sendRx c → engineStep s = .next (waitScan c 0 u))

/-- O57. A whole LP_RECV, from its execution on, whose receive ring holds, behind noise and candidates that DEFRAME does not
accept, a frame of the wanted code: the bad candidates are discarded and nothing reports them; the frame and the bytes
before it leave the receive ring; the payload goes to the tail of the out ring and a DATA frame's hash is remembered, unless
the frame is a duplicate, which delivers nothing; a DATA frame that wants it is acknowledged with an ACK of its hash, whose
bytes go out on a transmit port that accepts before LP_RECV completes, and any other completes at once (R117, R118, R120,
R121, R122, R123, R127). The number of steps is the model's choice (log 6). -/
def Obligations.LpRecvDelivers : Prop :=
  ∀ (s : State) (out : RingIx) (code : BitVec 7) (aw dup : Bool) (hash : Half) (pre post p w : List Byte) (r : Quad),
    Inv s → s.hazard = false → s.phase = .fetch → decode s.cmd = .ok (.lpRecv out code.toNat) → s.env.agenda = [] →
    s.env.rxLine = [] → s.ls.sessValid = true → out ∉ s.ls.sess.rings → 0 < (s.rb out).cap →
    (s.ls.sess.sqe = false ∨ code ≠ 0#7 ∨ (s.rb s.slenIx).count = 0) → AllApart s [s.rxIx, s.scrIx, out] →
    p.length ≤ 128 → w = wireFrame code aw hash p → Junk pre → s.content s.rxIx = pre ++ w ++ post →
    w.length ≤ (s.rb s.scrIx).cap + 2 →
    dup = (decide (code = 0#7) && s.ls.lastRx.valid && decide (hash = s.ls.lastRx.hash)) →
    (dup = true ∨ p.length ≤ (s.rb out).cap - (s.rb out).count) →
    r = quadOf (if dup then 0 else p.length) 1 (code.toNat + 128 * aw.toNat + 256 * dup.toNat) hash.toNat →
    ∃ t : State, Host.Core.run Sys2Proof.core (if (s.rb s.rxIx).count = (s.rb s.rxIx).cap then 1 else 2) s = .next t ∧
      t.content s.rxIx = post ∧ t.content out = s.content out ++ (if dup then [] else p) ∧
      t.ls = { s.ls with lastRx := if code = 0#7 ∧ dup = false then { hash := hash, valid := true } else s.ls.lastRx } ∧
      t.env = s.env ∧ t.crcAcc = s.crcAcc ∧
      (∀ j : RingIx, j ≠ s.rxIx → j ≠ s.scrIx → j ≠ out → t.rb j = s.rb j) ∧
      (∀ a, (s.rb s.scrIx).holds a = false → (s.rb out).holds a = false → t.mem.read a = s.mem.read a) ∧
      (code ≠ 0#7 ∨ aw = false → Completed s t .ok r) ∧
      (code = 0#7 → aw = true → (wireFrame 1#7 false hash []).length ≤ (s.rb s.scrIx).cap →
        t.phase = .recvAckTx r 0 ∧ t.content s.scrIx = wireFrame 1#7 false hash [] ∧ t.status = s.status ∧
          (s.env.txOk = true → Host.Core.run Sys2Proof.core (wireFrame 1#7 false hash []).length t = .next
            (({ t with env := { t.env with sent := t.env.sent ++ wireFrame 1#7 false hash [] } } : State).okDone r))) ∧
      (code = 0#7 → aw = true → (s.rb s.scrIx).cap < (wireFrame 1#7 false hash []).length →
        t.phase = .idle ∧ t.res = r ∧
          t.status = { s.status with done := true, err := s.status.err, ackFail := true, ecode := .ok })

/-- O58. A whole LP_RECV whose receive ring holds, behind noise and candidates that DEFRAME does not accept, which are
discarded and reported by nothing, a frame it does not deliver: a frame of another code is dropped if its code is in the
removable set and else stays, and nothing is reported; a frame of the wanted code that the out ring has no room for stays,
and the command ends with CAPACITY (R120, R121, R122, R127). The number of steps is the model's choice (log 6). -/
def Obligations.LpRecvLeavesOtherFrames : Prop :=
  ∀ (s : State) (out : RingIx) (want : Nat) (code : BitVec 7) (aw : Bool) (hash : Half) (pre post p w : List Byte),
    Inv s → s.hazard = false → s.phase = .fetch → decode s.cmd = .ok (.lpRecv out want) → s.env.agenda = [] →
    s.env.rxLine = [] → s.ls.sessValid = true → out ∉ s.ls.sess.rings → 0 < (s.rb out).cap →
    (s.ls.sess.sqe = false ∨ want ≠ 0 ∨ (s.rb s.slenIx).count = 0) → AllApart s [s.rxIx, s.scrIx] → p.length ≤ 128 →
    w = wireFrame code aw hash p → Junk pre → (0x7E#8 : Byte) ∉ post →
    s.content s.rxIx = pre ++ w ++ post → w.length ≤ (s.rb s.scrIx).cap + 2 →
    (code.toNat = want → ¬ (code = 0#7 ∧ s.ls.lastRx.valid = true ∧ hash = s.ls.lastRx.hash) ∧
      (s.rb out).cap - (s.rb out).count < p.length) →
    ∃ t : State, Host.Core.run Sys2Proof.core (if (s.rb s.rxIx).count = (s.rb s.rxIx).cap then 1 else 2) s = .next t ∧
      t.ls = s.ls ∧ t.env = s.env ∧ t.crcAcc = s.crcAcc ∧
      (∀ j : RingIx, j ≠ s.rxIx → j ≠ s.scrIx → t.rb j = s.rb j) ∧ MemKeptOutsideRing s.scrIx s t ∧
      (code.toNat ≠ want → s.removable code.toNat = true → Completed s t .ok (quadOf 0 0 0 0) ∧ t.content s.rxIx = []) ∧
      (code.toNat ≠ want → s.removable code.toNat = false →
        Completed s t .ok (quadOf 0 0 0 0) ∧ t.content s.rxIx = w ++ post) ∧
      (code.toNat = want → Completed s t .capacity (quadOf 0 0 0 0) ∧ t.content s.rxIx = w ++ post)

/-- O59. LP_RECV for DATA drains the side queue first: the oldest entry's bytes move from the side ring to the out ring, or the
command ends with CAPACITY and nothing moved when the out ring has no room for them (R124, R127, R156). -/
def Obligations.LpRecvDrainsSideQueue : Prop :=
  ∀ (s : State) (c : RecvCtx) (n : Nat), Inv s → s.hazard = false → s.phase = .recvRx c → c.want = 0 → s.env.rxLine = [] →
    s.ls.sess.sqe = true → (s.content s.slenIx).head? = some (BitVec.ofNat 8 n) → n < 256 →
    ((s.rb c.out).cap - (s.rb c.out).count < n → engineStep s = .next { s with
      phase := .idle, status := s.status.after .capacity true, res := Quad.zero }) ∧
    (n ≤ (s.rb c.out).cap - (s.rb c.out).count → n ≤ (s.rb s.sideIx).count → AllApart s [c.out, s.sideIx, s.slenIx] →
      ∃ t, engineStep s = .next t ∧ Completed s t .ok (quadOf n 1 512 0) ∧
        t.content c.out = s.content c.out ++ (s.content s.sideIx).take n ∧
        t.content s.sideIx = (s.content s.sideIx).drop n ∧ t.content s.slenIx = (s.content s.slenIx).drop 1 ∧
        t.ls = s.ls ∧ t.env = s.env ∧ t.crcAcc = s.crcAcc ∧
        (∀ j : RingIx, j ≠ c.out → j ≠ s.sideIx → j ≠ s.slenIx → t.rb j = s.rb j) ∧
        MemKeptBut (fun j => (s.rb c.out).addr ((s.rb c.out).count + j)) n s t)

/-- O60. A frame that is not the acknowledgement in flight, met in the wait of an acknowledged send. A stale acknowledgement is
dropped. With the side queue, a duplicate DATA frame is dropped; another, with room in the queue, is captured: its payload
goes to the side ring, its length to the side length ring, its hash is remembered, and it leaves the receive ring. Any other
frame is kept (R121, R122, R123, R124). A duplicate that wants an acknowledgement gets one with its hash: it is built, its
bytes go out on a transmit port that accepts, and the scan goes on; one that does not fit the scratch ring sets ACKFAIL (R117,
R118). A captured frame is acknowledged in the same way: R129 (d) says so and the row of R122 does not; the model's choice is
log 12. What one step takes in, and the number of steps, are the model's choices (log 6). -/
def Obligations.WaitCapturesData : Prop :=
  ∀ (s : State) (c : SendCtx) (code : BitVec 7) (hash : Half) (aw : Bool) (pre post p w ack : List Byte), Inv s →
    s.hazard = false → s.phase = .sendRx c → s.env.rxLine = [] → AllApart s s.ls.sess.rings → p.length ≤ 128 →
    w = wireFrame code aw hash p → ack = wireFrame 1#7 false hash [] → (0x7E#8 : Byte) ∉ pre → (0x7E#8 : Byte) ∉ post →
    s.content s.rxIx = pre ++ w ++ post → w.length ≤ (s.rb s.scrIx).cap + 2 → ¬ (code = 1#7 ∧ hash = c.hash) →
    ∀ queued dup room : Prop, (queued ↔ code = 0#7 ∧ s.ls.sess.sqe = true) →
    (dup ↔ s.ls.lastRx.valid = true ∧ hash = s.ls.lastRx.hash) →
    (room ↔ p.length ≤ (s.rb s.sideIx).cap - (s.rb s.sideIx).count ∧ (s.rb s.slenIx).count < (s.rb s.slenIx).cap) →
    ∃ t, engineStep s = .next t ∧ t.env = s.env ∧ t.crcAcc = s.crcAcc ∧ t.res = s.res ∧
      (queued ∧ ¬ dup ∧ room →
        t.content s.sideIx = s.content s.sideIx ++ p ∧
        t.content s.slenIx = s.content s.slenIx ++ [BitVec.ofNat 8 p.length] ∧
        t.ls = { s.ls with lastRx := { hash := hash, valid := true } } ∧
        (∀ j : RingIx, j ≠ s.rxIx → j ≠ s.scrIx → j ≠ s.sideIx → j ≠ s.slenIx → t.rb j = s.rb j) ∧
        ∀ a, (∀ i ∈ [s.scrIx, s.sideIx, s.slenIx], (s.rb i).holds a = false) → t.mem.read a = s.mem.read a) ∧
      (¬ (queued ∧ ¬ dup ∧ room) →
        t.ls = s.ls ∧ (∀ j : RingIx, j ≠ s.rxIx → j ≠ s.scrIx → t.rb j = s.rb j) ∧ MemKeptOutsideRing s.scrIx s t) ∧
      (code = 1#7 ∨ (queued ∧ (dup ∨ room) ∧ aw = false) →
        t.phase = .sendT c ∧ t.content s.rxIx = [] ∧ t.status = s.status) ∧
      (code ≠ 1#7 → ¬ (queued ∧ (dup ∨ room)) →
        t.phase = .sendT c ∧ t.content s.rxIx = w ++ post ∧ t.status = s.status) ∧
      (queued ∧ (dup ∨ room) ∧ aw = true → ack.length ≤ (s.rb s.scrIx).cap →
        t.phase = .sendAckTx c 0 0 ∧ t.content s.rxIx = post ∧ t.content s.scrIx = ack ∧ t.status = s.status ∧
          (s.env.txOk = true → s.env.agenda = [] →
            ∃ u : State, Host.Core.run Sys2Proof.core ack.length t = .next u ∧ u.phase = .sendT c ∧
              u.env = { s.env with sent := s.env.sent ++ ack } ∧ u.content s.rxIx = [] ∧ u.status = s.status ∧
              u.ls = t.ls ∧ u.crcAcc = s.crcAcc ∧ (∀ j : RingIx, j ≠ s.rxIx → u.rb j = t.rb j) ∧ MemKept t u)) ∧
      (queued ∧ (dup ∨ room) ∧ aw = true → (s.rb s.scrIx).cap < ack.length →
        t.phase = .sendT c ∧ t.content s.rxIx = [] ∧ t.status = { s.status with ackFail := true })
end

