-- ==== Sys2Proof/Laws/Memory.lean ====
section
/-! SUPPORT. The laws of MEM: a read after a write, and the canonical form is kept. -/

namespace Sys2Proof.Machine

theorem Memory.read_entry (a : Nat) (b : Byte) (m : Memory) (x : Nat)
    (hm : Memory.wfFrom (a + 1) m = true) :
    (Memory.entry a b m).read x = if x = a then b else m.read x := by
  unfold Memory.entry
  have hlow : ∀ (m : Memory) (lo : Nat), Memory.wfFrom lo m = true → ∀ y, y < lo → m.read y = Memory.unlisted := by
    intro m lo h y hy
    cases m with
    | nil => rfl
    | cons c m =>
      obtain ⟨k, c⟩ := c
      simp [Memory.wfFrom] at h
      simp [Memory.read, show y < k by omega]
  by_cases hb : b = Memory.unlisted
  · subst hb
    by_cases hx : x = a
    · subst hx; simp [hlow m (x + 1) hm x (by omega)]
    · simp [hx]
  · simp only [hb, if_false, Memory.read]
    by_cases h1 : x < a
    · have : x ≠ a := by omega
      simp [h1, this, hlow m (a + 1) hm x (by omega)]
    · simp [h1]

theorem Memory.wfFrom_mono {lo lo' : Nat} {m : Memory} (h : lo ≤ lo') (hm : Memory.wfFrom lo' m = true) :
    Memory.wfFrom lo m = true := by
  cases m with
  | nil => rfl
  | cons c m =>
    obtain ⟨k, c⟩ := c
    simp [Memory.wfFrom] at hm ⊢
    exact ⟨⟨by omega, hm.1.2⟩, hm.2⟩

theorem Memory.wfFrom_entry {lo a : Nat} {b : Byte} {m : Memory} (h : lo ≤ a)
    (hm : Memory.wfFrom (a + 1) m = true) : Memory.wfFrom lo (Memory.entry a b m) = true := by
  unfold Memory.entry
  split
  · exact Memory.wfFrom_mono (by omega) hm
  · simp_all [Memory.wfFrom]

theorem Memory.wfFrom_write {lo a : Nat} {b : Byte} {m : Memory} (h : lo ≤ a) (hm : Memory.wfFrom lo m = true) :
    Memory.wfFrom lo (m.write a b) = true := by
  induction m generalizing lo with
  | nil => exact Memory.wfFrom_entry h rfl
  | cons c m ih =>
    obtain ⟨k, c⟩ := c
    simp [Memory.wfFrom] at hm
    unfold Memory.write
    split
    · refine Memory.wfFrom_entry h ?_
      simp [Memory.wfFrom, hm]; omega
    · split
      · subst a; exact Memory.wfFrom_entry h hm.2
      · simp only [Memory.wfFrom, Bool.and_eq_true, decide_eq_true_eq]
        exact ⟨⟨hm.1.1, hm.1.2⟩, ih (by omega) hm.2⟩

theorem Memory.read_write_from (m : Memory) (lo a : Nat) (b : Byte) (x : Nat) (hm : Memory.wfFrom lo m = true) :
    (m.write a b).read x = if x = a then b else m.read x := by
  induction m generalizing lo with
  | nil => exact Memory.read_entry a b [] x rfl
  | cons c m ih =>
    obtain ⟨k, c⟩ := c
    simp [Memory.wfFrom] at hm
    unfold Memory.write
    split
    · refine Memory.read_entry a b _ x ?_
      simp [Memory.wfFrom, hm]; omega
    · rename_i hak
      split
      · subst a
        rw [Memory.read_entry k b m x hm.2]
        simp only [Memory.read]
        by_cases hx : x = k
        · simp [hx]
        · by_cases hlt : x < k
          · simp only [hx, hlt, if_true, if_false]
            have := Memory.read_entry k Memory.unlisted m x hm.2
            simp [Memory.entry, hx] at this
            cases m with
            | nil => rfl
            | cons c' m =>
              obtain ⟨k', c'⟩ := c'
              simp [Memory.wfFrom] at hm
              simp [Memory.read, show x < k' by omega]
          · simp [hx, hlt]
      · rename_i hne
        have ih' := ih (lo := k + 1) hm.2
        simp only [Memory.read]
        by_cases hlt : x < k
        · have : x ≠ a := by omega
          simp [hlt, this]
        · simp only [hlt, if_false]
          by_cases hx : x = k
          · have : x ≠ a := by omega
            simp [hx]; omega
          · simp [hx, ih']

/-- A read after a write gives the byte written at its address and the old byte everywhere else. -/
theorem Memory.read_write (m : Memory) (a : Nat) (b : Byte) (x : Nat) (hm : m.wf = true) :
    (m.write a b).read x = if x = a then b else m.read x := Memory.read_write_from m 0 a b x hm

@[simp] theorem Memory.read_write_same (m : Memory) (a : Nat) (b : Byte) (hm : m.wf = true) :
    (m.write a b).read a = b := by simp [Memory.read_write m a b a hm]

theorem Memory.read_write_ne (m : Memory) (a : Nat) (b : Byte) (x : Nat) (hm : m.wf = true) (h : x ≠ a) :
    (m.write a b).read x = m.read x := by simp [Memory.read_write m a b x hm, h]

/-- A write keeps the canonical form. -/
theorem Memory.wf_write (m : Memory) (a : Nat) (b : Byte) (hm : m.wf = true) : (m.write a b).wf = true :=
  Memory.wfFrom_write (Nat.zero_le a) hm

theorem Memory.within_entry (w a : Nat) (b : Byte) (m : Memory) (ha : a < 2 ^ w) (hm : m.within w = true) :
    (Memory.entry a b m).within w = true := by
  unfold Memory.entry
  split
  · exact hm
  · exact Bool.and_eq_true_iff.mpr ⟨decide_eq_true ha, hm⟩

/-- A write inside the address space keeps every listed address inside it. -/
theorem Memory.within_write (w : Nat) (m : Memory) (a : Nat) (b : Byte) (ha : a < 2 ^ w) (hm : m.within w = true) :
    (m.write a b).within w = true := by
  induction m with
  | nil => exact Memory.within_entry w a b [] ha hm
  | cons c m ih =>
    obtain ⟨k, c⟩ := c
    have hm' : decide (k < 2 ^ w) = true ∧ Memory.within w m = true := Bool.and_eq_true_iff.mp hm
    unfold Memory.write
    split
    · exact Memory.within_entry w a b _ ha hm
    · split
      · exact Memory.within_entry w a b m ha hm'.2
      · exact Bool.and_eq_true_iff.mpr ⟨hm'.1, ih hm'.2⟩

/-- Equal memories are equal data: two canonical memories that read alike are the same list. -/
theorem Memory.ext_of_wf {m n : Memory} {lo : Nat} (hm : Memory.wfFrom lo m = true) (hn : Memory.wfFrom lo n = true)
    (h : ∀ x, m.read x = n.read x) : m = n := by
  induction m generalizing n lo with
  | nil =>
    cases n with
    | nil => rfl
    | cons c n =>
      obtain ⟨k, c⟩ := c
      have := h k
      simp_all [Memory.wfFrom, Memory.read]
  | cons c m ih =>
    obtain ⟨k, c⟩ := c
    cases n with
    | nil =>
      have := h k
      simp_all [Memory.wfFrom, Memory.read]
    | cons d n =>
      obtain ⟨j, d⟩ := d
      simp [Memory.wfFrom] at hm hn
      have hk := h k
      have hj := h j
      simp only [Memory.read] at hk hj
      have hkj : k = j := by
        rcases Nat.lt_trichotomy k j with hlt | heq | hgt
        · simp [hlt] at hk; exact absurd hk hm.1.2
        · exact heq
        · simp [hgt] at hj; exact absurd hj.symm hn.1.2
      subst hkj
      have hcd : c = d := by simpa using hk
      subst hcd
      congr 1
      refine ih (lo := k + 1) hm.2 hn.2 (fun x => ?_)
      have hx := h x
      simp only [Memory.read] at hx
      by_cases h1 : x < k + 1
      · have low : ∀ (l : Memory), Memory.wfFrom (k + 1) l = true → l.read x = Memory.unlisted := by
          intro l hl
          cases l with
          | nil => rfl
          | cons e l =>
            obtain ⟨q, e⟩ := e
            simp [Memory.wfFrom] at hl
            simp [Memory.read, show x < q by omega]
        rw [low m hm.2, low n hn.2]
      · have h2 : ¬ x < k := by omega
        have h3 : x ≠ k := by omega
        simpa [h2, h3] using hx

end Sys2Proof.Machine
end

