-- ==== Sys2Proof/Laws/State.lean ====
section
/-! SUPPORT. One lemma per field per update of the state, true by unfolding, so that no later proof opens a record update;
then the lemmas of reading and writing descriptors. -/

namespace Sys2Proof.Machine

/-! ## store -/

@[simp] theorem State.store_addrW (s : State) (a : Nat) (b : Byte) : (s.store a b).addrW = s.addrW := rfl
@[simp] theorem State.store_irqEn (s : State) (a : Nat) (b : Byte) : (s.store a b).irqEn = s.irqEn := rfl
@[simp] theorem State.store_status (s : State) (a : Nat) (b : Byte) : (s.store a b).status = s.status := rfl
@[simp] theorem State.store_arg (s : State) (a : Nat) (b : Byte) : (s.store a b).arg = s.arg := rfl
@[simp] theorem State.store_res (s : State) (a : Nat) (b : Byte) : (s.store a b).res = s.res := rfl
@[simp] theorem State.store_sr (s : State) (a : Nat) (b : Byte) : (s.store a b).sr = s.sr := rfl
@[simp] theorem State.store_crcAcc (s : State) (a : Nat) (b : Byte) : (s.store a b).crcAcc = s.crcAcc := rfl
@[simp] theorem State.store_ls (s : State) (a : Nat) (b : Byte) : (s.store a b).ls = s.ls := rfl
@[simp] theorem State.store_rbs (s : State) (a : Nat) (b : Byte) : (s.store a b).rbs = s.rbs := rfl
@[simp] theorem State.store_phase (s : State) (a : Nat) (b : Byte) : (s.store a b).phase = s.phase := rfl
@[simp] theorem State.store_cmd (s : State) (a : Nat) (b : Byte) : (s.store a b).cmd = s.cmd := rfl
@[simp] theorem State.store_hazard (s : State) (a : Nat) (b : Byte) : (s.store a b).hazard = s.hazard := rfl
@[simp] theorem State.store_draws (s : State) (a : Nat) (b : Byte) : (s.store a b).draws = s.draws := rfl
@[simp] theorem State.store_busData (s : State) (a : Nat) (b : Byte) : (s.store a b).busData = s.busData := rfl
@[simp] theorem State.store_env (s : State) (a : Nat) (b : Byte) : (s.store a b).env = s.env := rfl
@[simp] theorem State.store_rb (s : State) (a : Nat) (b : Byte) (j : RingIx) : (s.store a b).rb j = s.rb j := rfl
@[simp] theorem State.store_wrap (s : State) (a : Nat) (b : Byte) (x : Nat) : (s.store a b).wrap x = s.wrap x := rfl
@[simp] theorem State.store_rxIx (s : State) (a : Nat) (b : Byte) : (s.store a b).rxIx = s.rxIx := rfl
@[simp] theorem State.store_scrIx (s : State) (a : Nat) (b : Byte) : (s.store a b).scrIx = s.scrIx := rfl
@[simp] theorem State.store_sideIx (s : State) (a : Nat) (b : Byte) : (s.store a b).sideIx = s.sideIx := rfl
@[simp] theorem State.store_slenIx (s : State) (a : Nat) (b : Byte) : (s.store a b).slenIx = s.slenIx := rfl

/-! ## wr -/

@[simp] theorem State.wr_addrW (s : State) (i : RingIx) (v : Nat) (b : Byte) : (s.wr i v b).addrW = s.addrW := rfl
@[simp] theorem State.wr_irqEn (s : State) (i : RingIx) (v : Nat) (b : Byte) : (s.wr i v b).irqEn = s.irqEn := rfl
@[simp] theorem State.wr_status (s : State) (i : RingIx) (v : Nat) (b : Byte) : (s.wr i v b).status = s.status := rfl
@[simp] theorem State.wr_arg (s : State) (i : RingIx) (v : Nat) (b : Byte) : (s.wr i v b).arg = s.arg := rfl
@[simp] theorem State.wr_res (s : State) (i : RingIx) (v : Nat) (b : Byte) : (s.wr i v b).res = s.res := rfl
@[simp] theorem State.wr_sr (s : State) (i : RingIx) (v : Nat) (b : Byte) : (s.wr i v b).sr = s.sr := rfl
@[simp] theorem State.wr_crcAcc (s : State) (i : RingIx) (v : Nat) (b : Byte) : (s.wr i v b).crcAcc = s.crcAcc := rfl
@[simp] theorem State.wr_ls (s : State) (i : RingIx) (v : Nat) (b : Byte) : (s.wr i v b).ls = s.ls := rfl
@[simp] theorem State.wr_rbs (s : State) (i : RingIx) (v : Nat) (b : Byte) : (s.wr i v b).rbs = s.rbs := rfl
@[simp] theorem State.wr_phase (s : State) (i : RingIx) (v : Nat) (b : Byte) : (s.wr i v b).phase = s.phase := rfl
@[simp] theorem State.wr_cmd (s : State) (i : RingIx) (v : Nat) (b : Byte) : (s.wr i v b).cmd = s.cmd := rfl
@[simp] theorem State.wr_hazard (s : State) (i : RingIx) (v : Nat) (b : Byte) : (s.wr i v b).hazard = s.hazard := rfl
@[simp] theorem State.wr_draws (s : State) (i : RingIx) (v : Nat) (b : Byte) : (s.wr i v b).draws = s.draws := rfl
@[simp] theorem State.wr_busData (s : State) (i : RingIx) (v : Nat) (b : Byte) : (s.wr i v b).busData = s.busData := rfl
@[simp] theorem State.wr_env (s : State) (i : RingIx) (v : Nat) (b : Byte) : (s.wr i v b).env = s.env := rfl
@[simp] theorem State.wr_rb (s : State) (i : RingIx) (v : Nat) (b : Byte) (j : RingIx) : (s.wr i v b).rb j = s.rb j := rfl
@[simp] theorem State.wr_wrap (s : State) (i : RingIx) (v : Nat) (b : Byte) (x : Nat) : (s.wr i v b).wrap x = s.wrap x := rfl
@[simp] theorem State.wr_rxIx (s : State) (i : RingIx) (v : Nat) (b : Byte) : (s.wr i v b).rxIx = s.rxIx := rfl
@[simp] theorem State.wr_scrIx (s : State) (i : RingIx) (v : Nat) (b : Byte) : (s.wr i v b).scrIx = s.scrIx := rfl
@[simp] theorem State.wr_sideIx (s : State) (i : RingIx) (v : Nat) (b : Byte) : (s.wr i v b).sideIx = s.sideIx := rfl
@[simp] theorem State.wr_slenIx (s : State) (i : RingIx) (v : Nat) (b : Byte) : (s.wr i v b).slenIx = s.slenIx := rfl

/-! ## setRb -/

@[simp] theorem State.setRb_addrW (s : State) (i : RingIx) (d : Desc) : (s.setRb i d).addrW = s.addrW := rfl
@[simp] theorem State.setRb_irqEn (s : State) (i : RingIx) (d : Desc) : (s.setRb i d).irqEn = s.irqEn := rfl
@[simp] theorem State.setRb_status (s : State) (i : RingIx) (d : Desc) : (s.setRb i d).status = s.status := rfl
@[simp] theorem State.setRb_arg (s : State) (i : RingIx) (d : Desc) : (s.setRb i d).arg = s.arg := rfl
@[simp] theorem State.setRb_res (s : State) (i : RingIx) (d : Desc) : (s.setRb i d).res = s.res := rfl
@[simp] theorem State.setRb_sr (s : State) (i : RingIx) (d : Desc) : (s.setRb i d).sr = s.sr := rfl
@[simp] theorem State.setRb_crcAcc (s : State) (i : RingIx) (d : Desc) : (s.setRb i d).crcAcc = s.crcAcc := rfl
@[simp] theorem State.setRb_ls (s : State) (i : RingIx) (d : Desc) : (s.setRb i d).ls = s.ls := rfl
@[simp] theorem State.setRb_mem (s : State) (i : RingIx) (d : Desc) : (s.setRb i d).mem = s.mem := rfl
@[simp] theorem State.setRb_phase (s : State) (i : RingIx) (d : Desc) : (s.setRb i d).phase = s.phase := rfl
@[simp] theorem State.setRb_cmd (s : State) (i : RingIx) (d : Desc) : (s.setRb i d).cmd = s.cmd := rfl
@[simp] theorem State.setRb_hazard (s : State) (i : RingIx) (d : Desc) : (s.setRb i d).hazard = s.hazard := rfl
@[simp] theorem State.setRb_wlog (s : State) (i : RingIx) (d : Desc) : (s.setRb i d).wlog = s.wlog := rfl
@[simp] theorem State.setRb_draws (s : State) (i : RingIx) (d : Desc) : (s.setRb i d).draws = s.draws := rfl
@[simp] theorem State.setRb_busData (s : State) (i : RingIx) (d : Desc) : (s.setRb i d).busData = s.busData := rfl
@[simp] theorem State.setRb_env (s : State) (i : RingIx) (d : Desc) : (s.setRb i d).env = s.env := rfl
@[simp] theorem State.setRb_load (s : State) (i : RingIx) (d : Desc) (x : Nat) : (s.setRb i d).load x = s.load x := rfl
@[simp] theorem State.setRb_wrap (s : State) (i : RingIx) (d : Desc) (x : Nat) : (s.setRb i d).wrap x = s.wrap x := rfl
@[simp] theorem State.setRb_rxIx (s : State) (i : RingIx) (d : Desc) : (s.setRb i d).rxIx = s.rxIx := rfl
@[simp] theorem State.setRb_scrIx (s : State) (i : RingIx) (d : Desc) : (s.setRb i d).scrIx = s.scrIx := rfl
@[simp] theorem State.setRb_sideIx (s : State) (i : RingIx) (d : Desc) : (s.setRb i d).sideIx = s.sideIx := rfl
@[simp] theorem State.setRb_slenIx (s : State) (i : RingIx) (d : Desc) : (s.setRb i d).slenIx = s.slenIx := rfl

/-! ## pushTail -/

@[simp] theorem State.pushTail_addrW (s : State) (i : RingIx) (b : Byte) : (s.pushTail i b).addrW = s.addrW := rfl
@[simp] theorem State.pushTail_irqEn (s : State) (i : RingIx) (b : Byte) : (s.pushTail i b).irqEn = s.irqEn := rfl
@[simp] theorem State.pushTail_status (s : State) (i : RingIx) (b : Byte) : (s.pushTail i b).status = s.status := rfl
@[simp] theorem State.pushTail_arg (s : State) (i : RingIx) (b : Byte) : (s.pushTail i b).arg = s.arg := rfl
@[simp] theorem State.pushTail_res (s : State) (i : RingIx) (b : Byte) : (s.pushTail i b).res = s.res := rfl
@[simp] theorem State.pushTail_sr (s : State) (i : RingIx) (b : Byte) : (s.pushTail i b).sr = s.sr := rfl
@[simp] theorem State.pushTail_crcAcc (s : State) (i : RingIx) (b : Byte) : (s.pushTail i b).crcAcc = s.crcAcc := rfl
@[simp] theorem State.pushTail_ls (s : State) (i : RingIx) (b : Byte) : (s.pushTail i b).ls = s.ls := rfl
@[simp] theorem State.pushTail_phase (s : State) (i : RingIx) (b : Byte) : (s.pushTail i b).phase = s.phase := rfl
@[simp] theorem State.pushTail_cmd (s : State) (i : RingIx) (b : Byte) : (s.pushTail i b).cmd = s.cmd := rfl
@[simp] theorem State.pushTail_hazard (s : State) (i : RingIx) (b : Byte) : (s.pushTail i b).hazard = s.hazard := rfl
@[simp] theorem State.pushTail_draws (s : State) (i : RingIx) (b : Byte) : (s.pushTail i b).draws = s.draws := rfl
@[simp] theorem State.pushTail_busData (s : State) (i : RingIx) (b : Byte) : (s.pushTail i b).busData = s.busData := rfl
@[simp] theorem State.pushTail_env (s : State) (i : RingIx) (b : Byte) : (s.pushTail i b).env = s.env := rfl
@[simp] theorem State.pushTail_wrap (s : State) (i : RingIx) (b : Byte) (x : Nat) : (s.pushTail i b).wrap x = s.wrap x := rfl
@[simp] theorem State.pushTail_rxIx (s : State) (i : RingIx) (b : Byte) : (s.pushTail i b).rxIx = s.rxIx := rfl
@[simp] theorem State.pushTail_scrIx (s : State) (i : RingIx) (b : Byte) : (s.pushTail i b).scrIx = s.scrIx := rfl
@[simp] theorem State.pushTail_sideIx (s : State) (i : RingIx) (b : Byte) : (s.pushTail i b).sideIx = s.sideIx := rfl
@[simp] theorem State.pushTail_slenIx (s : State) (i : RingIx) (b : Byte) : (s.pushTail i b).slenIx = s.slenIx := rfl

/-! ## pushHead -/

@[simp] theorem State.pushHead_addrW (s : State) (i : RingIx) (b : Byte) : (s.pushHead i b).addrW = s.addrW := rfl
@[simp] theorem State.pushHead_irqEn (s : State) (i : RingIx) (b : Byte) : (s.pushHead i b).irqEn = s.irqEn := rfl
@[simp] theorem State.pushHead_status (s : State) (i : RingIx) (b : Byte) : (s.pushHead i b).status = s.status := rfl
@[simp] theorem State.pushHead_arg (s : State) (i : RingIx) (b : Byte) : (s.pushHead i b).arg = s.arg := rfl
@[simp] theorem State.pushHead_res (s : State) (i : RingIx) (b : Byte) : (s.pushHead i b).res = s.res := rfl
@[simp] theorem State.pushHead_sr (s : State) (i : RingIx) (b : Byte) : (s.pushHead i b).sr = s.sr := rfl
@[simp] theorem State.pushHead_crcAcc (s : State) (i : RingIx) (b : Byte) : (s.pushHead i b).crcAcc = s.crcAcc := rfl
@[simp] theorem State.pushHead_ls (s : State) (i : RingIx) (b : Byte) : (s.pushHead i b).ls = s.ls := rfl
@[simp] theorem State.pushHead_phase (s : State) (i : RingIx) (b : Byte) : (s.pushHead i b).phase = s.phase := rfl
@[simp] theorem State.pushHead_cmd (s : State) (i : RingIx) (b : Byte) : (s.pushHead i b).cmd = s.cmd := rfl
@[simp] theorem State.pushHead_hazard (s : State) (i : RingIx) (b : Byte) : (s.pushHead i b).hazard = s.hazard := rfl
@[simp] theorem State.pushHead_draws (s : State) (i : RingIx) (b : Byte) : (s.pushHead i b).draws = s.draws := rfl
@[simp] theorem State.pushHead_busData (s : State) (i : RingIx) (b : Byte) : (s.pushHead i b).busData = s.busData := rfl
@[simp] theorem State.pushHead_env (s : State) (i : RingIx) (b : Byte) : (s.pushHead i b).env = s.env := rfl
@[simp] theorem State.pushHead_wrap (s : State) (i : RingIx) (b : Byte) (x : Nat) : (s.pushHead i b).wrap x = s.wrap x := rfl
@[simp] theorem State.pushHead_rxIx (s : State) (i : RingIx) (b : Byte) : (s.pushHead i b).rxIx = s.rxIx := rfl
@[simp] theorem State.pushHead_scrIx (s : State) (i : RingIx) (b : Byte) : (s.pushHead i b).scrIx = s.scrIx := rfl
@[simp] theorem State.pushHead_sideIx (s : State) (i : RingIx) (b : Byte) : (s.pushHead i b).sideIx = s.sideIx := rfl
@[simp] theorem State.pushHead_slenIx (s : State) (i : RingIx) (b : Byte) : (s.pushHead i b).slenIx = s.slenIx := rfl

/-! ## dropHead -/

@[simp] theorem State.dropHead_addrW (s : State) (i : RingIx) (k : Nat) : (s.dropHead i k).addrW = s.addrW := rfl
@[simp] theorem State.dropHead_irqEn (s : State) (i : RingIx) (k : Nat) : (s.dropHead i k).irqEn = s.irqEn := rfl
@[simp] theorem State.dropHead_status (s : State) (i : RingIx) (k : Nat) : (s.dropHead i k).status = s.status := rfl
@[simp] theorem State.dropHead_arg (s : State) (i : RingIx) (k : Nat) : (s.dropHead i k).arg = s.arg := rfl
@[simp] theorem State.dropHead_res (s : State) (i : RingIx) (k : Nat) : (s.dropHead i k).res = s.res := rfl
@[simp] theorem State.dropHead_sr (s : State) (i : RingIx) (k : Nat) : (s.dropHead i k).sr = s.sr := rfl
@[simp] theorem State.dropHead_crcAcc (s : State) (i : RingIx) (k : Nat) : (s.dropHead i k).crcAcc = s.crcAcc := rfl
@[simp] theorem State.dropHead_ls (s : State) (i : RingIx) (k : Nat) : (s.dropHead i k).ls = s.ls := rfl
@[simp] theorem State.dropHead_mem (s : State) (i : RingIx) (k : Nat) : (s.dropHead i k).mem = s.mem := rfl
@[simp] theorem State.dropHead_phase (s : State) (i : RingIx) (k : Nat) : (s.dropHead i k).phase = s.phase := rfl
@[simp] theorem State.dropHead_cmd (s : State) (i : RingIx) (k : Nat) : (s.dropHead i k).cmd = s.cmd := rfl
@[simp] theorem State.dropHead_hazard (s : State) (i : RingIx) (k : Nat) : (s.dropHead i k).hazard = s.hazard := rfl
@[simp] theorem State.dropHead_wlog (s : State) (i : RingIx) (k : Nat) : (s.dropHead i k).wlog = s.wlog := rfl
@[simp] theorem State.dropHead_draws (s : State) (i : RingIx) (k : Nat) : (s.dropHead i k).draws = s.draws := rfl
@[simp] theorem State.dropHead_busData (s : State) (i : RingIx) (k : Nat) : (s.dropHead i k).busData = s.busData := rfl
@[simp] theorem State.dropHead_env (s : State) (i : RingIx) (k : Nat) : (s.dropHead i k).env = s.env := rfl
@[simp] theorem State.dropHead_load (s : State) (i : RingIx) (k : Nat) (x : Nat) : (s.dropHead i k).load x = s.load x := rfl
@[simp] theorem State.dropHead_wrap (s : State) (i : RingIx) (k : Nat) (x : Nat) : (s.dropHead i k).wrap x = s.wrap x := rfl
@[simp] theorem State.dropHead_rxIx (s : State) (i : RingIx) (k : Nat) : (s.dropHead i k).rxIx = s.rxIx := rfl
@[simp] theorem State.dropHead_scrIx (s : State) (i : RingIx) (k : Nat) : (s.dropHead i k).scrIx = s.scrIx := rfl
@[simp] theorem State.dropHead_sideIx (s : State) (i : RingIx) (k : Nat) : (s.dropHead i k).sideIx = s.sideIx := rfl
@[simp] theorem State.dropHead_slenIx (s : State) (i : RingIx) (k : Nat) : (s.dropHead i k).slenIx = s.slenIx := rfl

/-! ## dropTail -/

@[simp] theorem State.dropTail_addrW (s : State) (i : RingIx) : (s.dropTail i).addrW = s.addrW := rfl
@[simp] theorem State.dropTail_irqEn (s : State) (i : RingIx) : (s.dropTail i).irqEn = s.irqEn := rfl
@[simp] theorem State.dropTail_status (s : State) (i : RingIx) : (s.dropTail i).status = s.status := rfl
@[simp] theorem State.dropTail_arg (s : State) (i : RingIx) : (s.dropTail i).arg = s.arg := rfl
@[simp] theorem State.dropTail_res (s : State) (i : RingIx) : (s.dropTail i).res = s.res := rfl
@[simp] theorem State.dropTail_sr (s : State) (i : RingIx) : (s.dropTail i).sr = s.sr := rfl
@[simp] theorem State.dropTail_crcAcc (s : State) (i : RingIx) : (s.dropTail i).crcAcc = s.crcAcc := rfl
@[simp] theorem State.dropTail_ls (s : State) (i : RingIx) : (s.dropTail i).ls = s.ls := rfl
@[simp] theorem State.dropTail_mem (s : State) (i : RingIx) : (s.dropTail i).mem = s.mem := rfl
@[simp] theorem State.dropTail_phase (s : State) (i : RingIx) : (s.dropTail i).phase = s.phase := rfl
@[simp] theorem State.dropTail_cmd (s : State) (i : RingIx) : (s.dropTail i).cmd = s.cmd := rfl
@[simp] theorem State.dropTail_hazard (s : State) (i : RingIx) : (s.dropTail i).hazard = s.hazard := rfl
@[simp] theorem State.dropTail_wlog (s : State) (i : RingIx) : (s.dropTail i).wlog = s.wlog := rfl
@[simp] theorem State.dropTail_draws (s : State) (i : RingIx) : (s.dropTail i).draws = s.draws := rfl
@[simp] theorem State.dropTail_busData (s : State) (i : RingIx) : (s.dropTail i).busData = s.busData := rfl
@[simp] theorem State.dropTail_env (s : State) (i : RingIx) : (s.dropTail i).env = s.env := rfl
@[simp] theorem State.dropTail_load (s : State) (i : RingIx) (x : Nat) : (s.dropTail i).load x = s.load x := rfl
@[simp] theorem State.dropTail_wrap (s : State) (i : RingIx) (x : Nat) : (s.dropTail i).wrap x = s.wrap x := rfl
@[simp] theorem State.dropTail_rxIx (s : State) (i : RingIx) : (s.dropTail i).rxIx = s.rxIx := rfl
@[simp] theorem State.dropTail_scrIx (s : State) (i : RingIx) : (s.dropTail i).scrIx = s.scrIx := rfl
@[simp] theorem State.dropTail_sideIx (s : State) (i : RingIx) : (s.dropTail i).sideIx = s.sideIx := rfl
@[simp] theorem State.dropTail_slenIx (s : State) (i : RingIx) : (s.dropTail i).slenIx = s.slenIx := rfl

/-! ## flushRb -/

@[simp] theorem State.flushRb_addrW (s : State) (i : RingIx) : (s.flushRb i).addrW = s.addrW := rfl
@[simp] theorem State.flushRb_irqEn (s : State) (i : RingIx) : (s.flushRb i).irqEn = s.irqEn := rfl
@[simp] theorem State.flushRb_status (s : State) (i : RingIx) : (s.flushRb i).status = s.status := rfl
@[simp] theorem State.flushRb_arg (s : State) (i : RingIx) : (s.flushRb i).arg = s.arg := rfl
@[simp] theorem State.flushRb_res (s : State) (i : RingIx) : (s.flushRb i).res = s.res := rfl
@[simp] theorem State.flushRb_sr (s : State) (i : RingIx) : (s.flushRb i).sr = s.sr := rfl
@[simp] theorem State.flushRb_crcAcc (s : State) (i : RingIx) : (s.flushRb i).crcAcc = s.crcAcc := rfl
@[simp] theorem State.flushRb_ls (s : State) (i : RingIx) : (s.flushRb i).ls = s.ls := rfl
@[simp] theorem State.flushRb_mem (s : State) (i : RingIx) : (s.flushRb i).mem = s.mem := rfl
@[simp] theorem State.flushRb_phase (s : State) (i : RingIx) : (s.flushRb i).phase = s.phase := rfl
@[simp] theorem State.flushRb_cmd (s : State) (i : RingIx) : (s.flushRb i).cmd = s.cmd := rfl
@[simp] theorem State.flushRb_hazard (s : State) (i : RingIx) : (s.flushRb i).hazard = s.hazard := rfl
@[simp] theorem State.flushRb_wlog (s : State) (i : RingIx) : (s.flushRb i).wlog = s.wlog := rfl
@[simp] theorem State.flushRb_draws (s : State) (i : RingIx) : (s.flushRb i).draws = s.draws := rfl
@[simp] theorem State.flushRb_busData (s : State) (i : RingIx) : (s.flushRb i).busData = s.busData := rfl
@[simp] theorem State.flushRb_env (s : State) (i : RingIx) : (s.flushRb i).env = s.env := rfl
@[simp] theorem State.flushRb_load (s : State) (i : RingIx) (x : Nat) : (s.flushRb i).load x = s.load x := rfl
@[simp] theorem State.flushRb_wrap (s : State) (i : RingIx) (x : Nat) : (s.flushRb i).wrap x = s.wrap x := rfl
@[simp] theorem State.flushRb_rxIx (s : State) (i : RingIx) : (s.flushRb i).rxIx = s.rxIx := rfl
@[simp] theorem State.flushRb_scrIx (s : State) (i : RingIx) : (s.flushRb i).scrIx = s.scrIx := rfl
@[simp] theorem State.flushRb_sideIx (s : State) (i : RingIx) : (s.flushRb i).sideIx = s.sideIx := rfl
@[simp] theorem State.flushRb_slenIx (s : State) (i : RingIx) : (s.flushRb i).slenIx = s.slenIx := rfl

/-! ## completeKeep -/

@[simp] theorem State.completeKeep_addrW (s : State) (e : Ecode) : (s.completeKeep e).addrW = s.addrW := rfl
@[simp] theorem State.completeKeep_irqEn (s : State) (e : Ecode) : (s.completeKeep e).irqEn = s.irqEn := rfl
@[simp] theorem State.completeKeep_arg (s : State) (e : Ecode) : (s.completeKeep e).arg = s.arg := rfl
@[simp] theorem State.completeKeep_res (s : State) (e : Ecode) : (s.completeKeep e).res = s.res := rfl
@[simp] theorem State.completeKeep_sr (s : State) (e : Ecode) : (s.completeKeep e).sr = s.sr := rfl
@[simp] theorem State.completeKeep_crcAcc (s : State) (e : Ecode) : (s.completeKeep e).crcAcc = s.crcAcc := rfl
@[simp] theorem State.completeKeep_ls (s : State) (e : Ecode) : (s.completeKeep e).ls = s.ls := rfl
@[simp] theorem State.completeKeep_rbs (s : State) (e : Ecode) : (s.completeKeep e).rbs = s.rbs := rfl
@[simp] theorem State.completeKeep_mem (s : State) (e : Ecode) : (s.completeKeep e).mem = s.mem := rfl
@[simp] theorem State.completeKeep_cmd (s : State) (e : Ecode) : (s.completeKeep e).cmd = s.cmd := rfl
@[simp] theorem State.completeKeep_hazard (s : State) (e : Ecode) : (s.completeKeep e).hazard = s.hazard := rfl
@[simp] theorem State.completeKeep_wlog (s : State) (e : Ecode) : (s.completeKeep e).wlog = s.wlog := rfl
@[simp] theorem State.completeKeep_draws (s : State) (e : Ecode) : (s.completeKeep e).draws = s.draws := rfl
@[simp] theorem State.completeKeep_busData (s : State) (e : Ecode) : (s.completeKeep e).busData = s.busData := rfl
@[simp] theorem State.completeKeep_env (s : State) (e : Ecode) : (s.completeKeep e).env = s.env := rfl
@[simp] theorem State.completeKeep_rb (s : State) (e : Ecode) (j : RingIx) : (s.completeKeep e).rb j = s.rb j := rfl
@[simp] theorem State.completeKeep_load (s : State) (e : Ecode) (x : Nat) : (s.completeKeep e).load x = s.load x := rfl
@[simp] theorem State.completeKeep_rd (s : State) (e : Ecode) (j : RingIx) (x : Nat) : (s.completeKeep e).rd j x = s.rd j x := rfl
@[simp] theorem State.completeKeep_slice (s : State) (e : Ecode) (j : RingIx) (x k : Nat) : (s.completeKeep e).slice j x k = s.slice j x k := rfl
@[simp] theorem State.completeKeep_content (s : State) (e : Ecode) (j : RingIx) : (s.completeKeep e).content j = s.content j := rfl
@[simp] theorem State.completeKeep_wrap (s : State) (e : Ecode) (x : Nat) : (s.completeKeep e).wrap x = s.wrap x := rfl
@[simp] theorem State.completeKeep_rxIx (s : State) (e : Ecode) : (s.completeKeep e).rxIx = s.rxIx := rfl
@[simp] theorem State.completeKeep_scrIx (s : State) (e : Ecode) : (s.completeKeep e).scrIx = s.scrIx := rfl
@[simp] theorem State.completeKeep_sideIx (s : State) (e : Ecode) : (s.completeKeep e).sideIx = s.sideIx := rfl
@[simp] theorem State.completeKeep_slenIx (s : State) (e : Ecode) : (s.completeKeep e).slenIx = s.slenIx := rfl

/-! ## complete -/

@[simp] theorem State.complete_addrW (s : State) (e : Ecode) (r : Quad) : (s.complete e r).addrW = s.addrW := rfl
@[simp] theorem State.complete_irqEn (s : State) (e : Ecode) (r : Quad) : (s.complete e r).irqEn = s.irqEn := rfl
@[simp] theorem State.complete_arg (s : State) (e : Ecode) (r : Quad) : (s.complete e r).arg = s.arg := rfl
@[simp] theorem State.complete_sr (s : State) (e : Ecode) (r : Quad) : (s.complete e r).sr = s.sr := rfl
@[simp] theorem State.complete_crcAcc (s : State) (e : Ecode) (r : Quad) : (s.complete e r).crcAcc = s.crcAcc := rfl
@[simp] theorem State.complete_ls (s : State) (e : Ecode) (r : Quad) : (s.complete e r).ls = s.ls := rfl
@[simp] theorem State.complete_rbs (s : State) (e : Ecode) (r : Quad) : (s.complete e r).rbs = s.rbs := rfl
@[simp] theorem State.complete_mem (s : State) (e : Ecode) (r : Quad) : (s.complete e r).mem = s.mem := rfl
@[simp] theorem State.complete_cmd (s : State) (e : Ecode) (r : Quad) : (s.complete e r).cmd = s.cmd := rfl
@[simp] theorem State.complete_hazard (s : State) (e : Ecode) (r : Quad) : (s.complete e r).hazard = s.hazard := rfl
@[simp] theorem State.complete_wlog (s : State) (e : Ecode) (r : Quad) : (s.complete e r).wlog = s.wlog := rfl
@[simp] theorem State.complete_draws (s : State) (e : Ecode) (r : Quad) : (s.complete e r).draws = s.draws := rfl
@[simp] theorem State.complete_busData (s : State) (e : Ecode) (r : Quad) : (s.complete e r).busData = s.busData := rfl
@[simp] theorem State.complete_env (s : State) (e : Ecode) (r : Quad) : (s.complete e r).env = s.env := rfl
@[simp] theorem State.complete_rb (s : State) (e : Ecode) (r : Quad) (j : RingIx) : (s.complete e r).rb j = s.rb j := rfl
@[simp] theorem State.complete_load (s : State) (e : Ecode) (r : Quad) (x : Nat) : (s.complete e r).load x = s.load x := rfl
@[simp] theorem State.complete_rd (s : State) (e : Ecode) (r : Quad) (j : RingIx) (x : Nat) : (s.complete e r).rd j x = s.rd j x := rfl
@[simp] theorem State.complete_slice (s : State) (e : Ecode) (r : Quad) (j : RingIx) (x k : Nat) : (s.complete e r).slice j x k = s.slice j x k := rfl
@[simp] theorem State.complete_content (s : State) (e : Ecode) (r : Quad) (j : RingIx) : (s.complete e r).content j = s.content j := rfl
@[simp] theorem State.complete_wrap (s : State) (e : Ecode) (r : Quad) (x : Nat) : (s.complete e r).wrap x = s.wrap x := rfl
@[simp] theorem State.complete_rxIx (s : State) (e : Ecode) (r : Quad) : (s.complete e r).rxIx = s.rxIx := rfl
@[simp] theorem State.complete_scrIx (s : State) (e : Ecode) (r : Quad) : (s.complete e r).scrIx = s.scrIx := rfl
@[simp] theorem State.complete_sideIx (s : State) (e : Ecode) (r : Quad) : (s.complete e r).sideIx = s.sideIx := rfl
@[simp] theorem State.complete_slenIx (s : State) (e : Ecode) (r : Quad) : (s.complete e r).slenIx = s.slenIx := rfl

/-! ## raise -/

@[simp] theorem State.raise_addrW (s : State) (e : Ecode) (r : Quad) : (s.raise e r).addrW = s.addrW := rfl
@[simp] theorem State.raise_irqEn (s : State) (e : Ecode) (r : Quad) : (s.raise e r).irqEn = s.irqEn := rfl
@[simp] theorem State.raise_arg (s : State) (e : Ecode) (r : Quad) : (s.raise e r).arg = s.arg := rfl
@[simp] theorem State.raise_sr (s : State) (e : Ecode) (r : Quad) : (s.raise e r).sr = s.sr := rfl
@[simp] theorem State.raise_crcAcc (s : State) (e : Ecode) (r : Quad) : (s.raise e r).crcAcc = s.crcAcc := rfl
@[simp] theorem State.raise_ls (s : State) (e : Ecode) (r : Quad) : (s.raise e r).ls = s.ls := rfl
@[simp] theorem State.raise_rbs (s : State) (e : Ecode) (r : Quad) : (s.raise e r).rbs = s.rbs := rfl
@[simp] theorem State.raise_mem (s : State) (e : Ecode) (r : Quad) : (s.raise e r).mem = s.mem := rfl
@[simp] theorem State.raise_cmd (s : State) (e : Ecode) (r : Quad) : (s.raise e r).cmd = s.cmd := rfl
@[simp] theorem State.raise_hazard (s : State) (e : Ecode) (r : Quad) : (s.raise e r).hazard = s.hazard := rfl
@[simp] theorem State.raise_wlog (s : State) (e : Ecode) (r : Quad) : (s.raise e r).wlog = s.wlog := rfl
@[simp] theorem State.raise_draws (s : State) (e : Ecode) (r : Quad) : (s.raise e r).draws = s.draws := rfl
@[simp] theorem State.raise_busData (s : State) (e : Ecode) (r : Quad) : (s.raise e r).busData = s.busData := rfl
@[simp] theorem State.raise_env (s : State) (e : Ecode) (r : Quad) : (s.raise e r).env = s.env := rfl
@[simp] theorem State.raise_rb (s : State) (e : Ecode) (r : Quad) (j : RingIx) : (s.raise e r).rb j = s.rb j := rfl
@[simp] theorem State.raise_load (s : State) (e : Ecode) (r : Quad) (x : Nat) : (s.raise e r).load x = s.load x := rfl
@[simp] theorem State.raise_rd (s : State) (e : Ecode) (r : Quad) (j : RingIx) (x : Nat) : (s.raise e r).rd j x = s.rd j x := rfl
@[simp] theorem State.raise_slice (s : State) (e : Ecode) (r : Quad) (j : RingIx) (x k : Nat) : (s.raise e r).slice j x k = s.slice j x k := rfl
@[simp] theorem State.raise_content (s : State) (e : Ecode) (r : Quad) (j : RingIx) : (s.raise e r).content j = s.content j := rfl
@[simp] theorem State.raise_wrap (s : State) (e : Ecode) (r : Quad) (x : Nat) : (s.raise e r).wrap x = s.wrap x := rfl
@[simp] theorem State.raise_rxIx (s : State) (e : Ecode) (r : Quad) : (s.raise e r).rxIx = s.rxIx := rfl
@[simp] theorem State.raise_scrIx (s : State) (e : Ecode) (r : Quad) : (s.raise e r).scrIx = s.scrIx := rfl
@[simp] theorem State.raise_sideIx (s : State) (e : Ecode) (r : Quad) : (s.raise e r).sideIx = s.sideIx := rfl
@[simp] theorem State.raise_slenIx (s : State) (e : Ecode) (r : Quad) : (s.raise e r).slenIx = s.slenIx := rfl

/-! ## finish -/

@[simp] theorem State.finish_addrW (s : State) (a b c d : Nat) : (s.finish a b c d).addrW = s.addrW := rfl
@[simp] theorem State.finish_irqEn (s : State) (a b c d : Nat) : (s.finish a b c d).irqEn = s.irqEn := rfl
@[simp] theorem State.finish_arg (s : State) (a b c d : Nat) : (s.finish a b c d).arg = s.arg := rfl
@[simp] theorem State.finish_sr (s : State) (a b c d : Nat) : (s.finish a b c d).sr = s.sr := rfl
@[simp] theorem State.finish_crcAcc (s : State) (a b c d : Nat) : (s.finish a b c d).crcAcc = s.crcAcc := rfl
@[simp] theorem State.finish_ls (s : State) (a b c d : Nat) : (s.finish a b c d).ls = s.ls := rfl
@[simp] theorem State.finish_rbs (s : State) (a b c d : Nat) : (s.finish a b c d).rbs = s.rbs := rfl
@[simp] theorem State.finish_mem (s : State) (a b c d : Nat) : (s.finish a b c d).mem = s.mem := rfl
@[simp] theorem State.finish_cmd (s : State) (a b c d : Nat) : (s.finish a b c d).cmd = s.cmd := rfl
@[simp] theorem State.finish_hazard (s : State) (a b c d : Nat) : (s.finish a b c d).hazard = s.hazard := rfl
@[simp] theorem State.finish_wlog (s : State) (a b c d : Nat) : (s.finish a b c d).wlog = s.wlog := rfl
@[simp] theorem State.finish_draws (s : State) (a b c d : Nat) : (s.finish a b c d).draws = s.draws := rfl
@[simp] theorem State.finish_busData (s : State) (a b c d : Nat) : (s.finish a b c d).busData = s.busData := rfl
@[simp] theorem State.finish_env (s : State) (a b c d : Nat) : (s.finish a b c d).env = s.env := rfl
@[simp] theorem State.finish_rb (s : State) (a b c d : Nat) (j : RingIx) : (s.finish a b c d).rb j = s.rb j := rfl
@[simp] theorem State.finish_load (s : State) (a b c d : Nat) (x : Nat) : (s.finish a b c d).load x = s.load x := rfl
@[simp] theorem State.finish_rd (s : State) (a b c d : Nat) (j : RingIx) (x : Nat) : (s.finish a b c d).rd j x = s.rd j x := rfl
@[simp] theorem State.finish_slice (s : State) (a b c d : Nat) (j : RingIx) (x k : Nat) : (s.finish a b c d).slice j x k = s.slice j x k := rfl
@[simp] theorem State.finish_content (s : State) (a b c d : Nat) (j : RingIx) : (s.finish a b c d).content j = s.content j := rfl
@[simp] theorem State.finish_wrap (s : State) (a b c d : Nat) (x : Nat) : (s.finish a b c d).wrap x = s.wrap x := rfl
@[simp] theorem State.finish_rxIx (s : State) (a b c d : Nat) : (s.finish a b c d).rxIx = s.rxIx := rfl
@[simp] theorem State.finish_scrIx (s : State) (a b c d : Nat) : (s.finish a b c d).scrIx = s.scrIx := rfl
@[simp] theorem State.finish_sideIx (s : State) (a b c d : Nat) : (s.finish a b c d).sideIx = s.sideIx := rfl
@[simp] theorem State.finish_slenIx (s : State) (a b c d : Nat) : (s.finish a b c d).slenIx = s.slenIx := rfl

/-! ## raiseParam -/

@[simp] theorem State.raiseParam_addrW (s : State) : s.raiseParam.addrW = s.addrW := rfl
@[simp] theorem State.raiseParam_irqEn (s : State) : s.raiseParam.irqEn = s.irqEn := rfl
@[simp] theorem State.raiseParam_arg (s : State) : s.raiseParam.arg = s.arg := rfl
@[simp] theorem State.raiseParam_sr (s : State) : s.raiseParam.sr = s.sr := rfl
@[simp] theorem State.raiseParam_crcAcc (s : State) : s.raiseParam.crcAcc = s.crcAcc := rfl
@[simp] theorem State.raiseParam_ls (s : State) : s.raiseParam.ls = s.ls := rfl
@[simp] theorem State.raiseParam_rbs (s : State) : s.raiseParam.rbs = s.rbs := rfl
@[simp] theorem State.raiseParam_mem (s : State) : s.raiseParam.mem = s.mem := rfl
@[simp] theorem State.raiseParam_cmd (s : State) : s.raiseParam.cmd = s.cmd := rfl
@[simp] theorem State.raiseParam_hazard (s : State) : s.raiseParam.hazard = s.hazard := rfl
@[simp] theorem State.raiseParam_wlog (s : State) : s.raiseParam.wlog = s.wlog := rfl
@[simp] theorem State.raiseParam_draws (s : State) : s.raiseParam.draws = s.draws := rfl
@[simp] theorem State.raiseParam_busData (s : State) : s.raiseParam.busData = s.busData := rfl
@[simp] theorem State.raiseParam_env (s : State) : s.raiseParam.env = s.env := rfl
@[simp] theorem State.raiseParam_rb (s : State) (j : RingIx) : s.raiseParam.rb j = s.rb j := rfl
@[simp] theorem State.raiseParam_load (s : State) (x : Nat) : s.raiseParam.load x = s.load x := rfl
@[simp] theorem State.raiseParam_rd (s : State) (j : RingIx) (x : Nat) : s.raiseParam.rd j x = s.rd j x := rfl
@[simp] theorem State.raiseParam_slice (s : State) (j : RingIx) (x k : Nat) : s.raiseParam.slice j x k = s.slice j x k := rfl
@[simp] theorem State.raiseParam_content (s : State) (j : RingIx) : s.raiseParam.content j = s.content j := rfl
@[simp] theorem State.raiseParam_wrap (s : State) (x : Nat) : s.raiseParam.wrap x = s.wrap x := rfl
@[simp] theorem State.raiseParam_rxIx (s : State) : s.raiseParam.rxIx = s.rxIx := rfl
@[simp] theorem State.raiseParam_scrIx (s : State) : s.raiseParam.scrIx = s.scrIx := rfl
@[simp] theorem State.raiseParam_sideIx (s : State) : s.raiseParam.sideIx = s.sideIx := rfl
@[simp] theorem State.raiseParam_slenIx (s : State) : s.raiseParam.slenIx = s.slenIx := rfl

/-! ## accept -/

@[simp] theorem State.accept_addrW (s : State) (w : Word) : (s.accept w).addrW = s.addrW := rfl
@[simp] theorem State.accept_irqEn (s : State) (w : Word) : (s.accept w).irqEn = s.irqEn := rfl
@[simp] theorem State.accept_arg (s : State) (w : Word) : (s.accept w).arg = s.arg := rfl
@[simp] theorem State.accept_res (s : State) (w : Word) : (s.accept w).res = s.res := rfl
@[simp] theorem State.accept_sr (s : State) (w : Word) : (s.accept w).sr = s.sr := rfl
@[simp] theorem State.accept_crcAcc (s : State) (w : Word) : (s.accept w).crcAcc = s.crcAcc := rfl
@[simp] theorem State.accept_ls (s : State) (w : Word) : (s.accept w).ls = s.ls := rfl
@[simp] theorem State.accept_rbs (s : State) (w : Word) : (s.accept w).rbs = s.rbs := rfl
@[simp] theorem State.accept_mem (s : State) (w : Word) : (s.accept w).mem = s.mem := rfl
@[simp] theorem State.accept_busData (s : State) (w : Word) : (s.accept w).busData = s.busData := rfl
@[simp] theorem State.accept_env (s : State) (w : Word) : (s.accept w).env = s.env := rfl
@[simp] theorem State.accept_rb (s : State) (w : Word) (j : RingIx) : (s.accept w).rb j = s.rb j := rfl
@[simp] theorem State.accept_wrap (s : State) (w : Word) (x : Nat) : (s.accept w).wrap x = s.wrap x := rfl
@[simp] theorem State.accept_rxIx (s : State) (w : Word) : (s.accept w).rxIx = s.rxIx := rfl
@[simp] theorem State.accept_scrIx (s : State) (w : Word) : (s.accept w).scrIx = s.scrIx := rfl
@[simp] theorem State.accept_sideIx (s : State) (w : Word) : (s.accept w).sideIx = s.sideIx := rfl
@[simp] theorem State.accept_slenIx (s : State) (w : Word) : (s.accept w).slenIx = s.slenIx := rfl

/-! ## setSend -/

@[simp] theorem State.setSend_addrW (s : State) (y : SendState) : (s.setSend y).addrW = s.addrW := rfl
@[simp] theorem State.setSend_irqEn (s : State) (y : SendState) : (s.setSend y).irqEn = s.irqEn := rfl
@[simp] theorem State.setSend_status (s : State) (y : SendState) : (s.setSend y).status = s.status := rfl
@[simp] theorem State.setSend_arg (s : State) (y : SendState) : (s.setSend y).arg = s.arg := rfl
@[simp] theorem State.setSend_res (s : State) (y : SendState) : (s.setSend y).res = s.res := rfl
@[simp] theorem State.setSend_sr (s : State) (y : SendState) : (s.setSend y).sr = s.sr := rfl
@[simp] theorem State.setSend_crcAcc (s : State) (y : SendState) : (s.setSend y).crcAcc = s.crcAcc := rfl
@[simp] theorem State.setSend_rbs (s : State) (y : SendState) : (s.setSend y).rbs = s.rbs := rfl
@[simp] theorem State.setSend_mem (s : State) (y : SendState) : (s.setSend y).mem = s.mem := rfl
@[simp] theorem State.setSend_phase (s : State) (y : SendState) : (s.setSend y).phase = s.phase := rfl
@[simp] theorem State.setSend_cmd (s : State) (y : SendState) : (s.setSend y).cmd = s.cmd := rfl
@[simp] theorem State.setSend_hazard (s : State) (y : SendState) : (s.setSend y).hazard = s.hazard := rfl
@[simp] theorem State.setSend_wlog (s : State) (y : SendState) : (s.setSend y).wlog = s.wlog := rfl
@[simp] theorem State.setSend_draws (s : State) (y : SendState) : (s.setSend y).draws = s.draws := rfl
@[simp] theorem State.setSend_busData (s : State) (y : SendState) : (s.setSend y).busData = s.busData := rfl
@[simp] theorem State.setSend_env (s : State) (y : SendState) : (s.setSend y).env = s.env := rfl
@[simp] theorem State.setSend_rb (s : State) (y : SendState) (j : RingIx) : (s.setSend y).rb j = s.rb j := rfl
@[simp] theorem State.setSend_load (s : State) (y : SendState) (x : Nat) : (s.setSend y).load x = s.load x := rfl
@[simp] theorem State.setSend_rd (s : State) (y : SendState) (j : RingIx) (x : Nat) : (s.setSend y).rd j x = s.rd j x := rfl
@[simp] theorem State.setSend_slice (s : State) (y : SendState) (j : RingIx) (x k : Nat) : (s.setSend y).slice j x k = s.slice j x k := rfl
@[simp] theorem State.setSend_content (s : State) (y : SendState) (j : RingIx) : (s.setSend y).content j = s.content j := rfl
@[simp] theorem State.setSend_wrap (s : State) (y : SendState) (x : Nat) : (s.setSend y).wrap x = s.wrap x := rfl

/-! ## setSendBoth -/

@[simp] theorem State.setSendBoth_addrW (s : State) (y : SendState) (n : Nat) : (s.setSendBoth y n).addrW = s.addrW := rfl
@[simp] theorem State.setSendBoth_irqEn (s : State) (y : SendState) (n : Nat) : (s.setSendBoth y n).irqEn = s.irqEn := rfl
@[simp] theorem State.setSendBoth_status (s : State) (y : SendState) (n : Nat) : (s.setSendBoth y n).status = s.status := rfl
@[simp] theorem State.setSendBoth_arg (s : State) (y : SendState) (n : Nat) : (s.setSendBoth y n).arg = s.arg := rfl
@[simp] theorem State.setSendBoth_res (s : State) (y : SendState) (n : Nat) : (s.setSendBoth y n).res = s.res := rfl
@[simp] theorem State.setSendBoth_sr (s : State) (y : SendState) (n : Nat) : (s.setSendBoth y n).sr = s.sr := rfl
@[simp] theorem State.setSendBoth_crcAcc (s : State) (y : SendState) (n : Nat) : (s.setSendBoth y n).crcAcc = s.crcAcc := rfl
@[simp] theorem State.setSendBoth_rbs (s : State) (y : SendState) (n : Nat) : (s.setSendBoth y n).rbs = s.rbs := rfl
@[simp] theorem State.setSendBoth_mem (s : State) (y : SendState) (n : Nat) : (s.setSendBoth y n).mem = s.mem := rfl
@[simp] theorem State.setSendBoth_phase (s : State) (y : SendState) (n : Nat) : (s.setSendBoth y n).phase = s.phase := rfl
@[simp] theorem State.setSendBoth_cmd (s : State) (y : SendState) (n : Nat) : (s.setSendBoth y n).cmd = s.cmd := rfl
@[simp] theorem State.setSendBoth_hazard (s : State) (y : SendState) (n : Nat) : (s.setSendBoth y n).hazard = s.hazard := rfl
@[simp] theorem State.setSendBoth_wlog (s : State) (y : SendState) (n : Nat) : (s.setSendBoth y n).wlog = s.wlog := rfl
@[simp] theorem State.setSendBoth_draws (s : State) (y : SendState) (n : Nat) : (s.setSendBoth y n).draws = s.draws := rfl
@[simp] theorem State.setSendBoth_busData (s : State) (y : SendState) (n : Nat) : (s.setSendBoth y n).busData = s.busData := rfl
@[simp] theorem State.setSendBoth_env (s : State) (y : SendState) (n : Nat) : (s.setSendBoth y n).env = s.env := rfl
@[simp] theorem State.setSendBoth_rb (s : State) (y : SendState) (n : Nat) (j : RingIx) : (s.setSendBoth y n).rb j = s.rb j := rfl
@[simp] theorem State.setSendBoth_load (s : State) (y : SendState) (n : Nat) (x : Nat) : (s.setSendBoth y n).load x = s.load x := rfl
@[simp] theorem State.setSendBoth_rd (s : State) (y : SendState) (n : Nat) (j : RingIx) (x : Nat) : (s.setSendBoth y n).rd j x = s.rd j x := rfl
@[simp] theorem State.setSendBoth_slice (s : State) (y : SendState) (n : Nat) (j : RingIx) (x k : Nat) : (s.setSendBoth y n).slice j x k = s.slice j x k := rfl
@[simp] theorem State.setSendBoth_content (s : State) (y : SendState) (n : Nat) (j : RingIx) : (s.setSendBoth y n).content j = s.content j := rfl
@[simp] theorem State.setSendBoth_wrap (s : State) (y : SendState) (n : Nat) (x : Nat) : (s.setSendBoth y n).wrap x = s.wrap x := rfl

/-! ## setLastRx -/

@[simp] theorem State.setLastRx_addrW (s : State) (h : Half) : (s.setLastRx h).addrW = s.addrW := rfl
@[simp] theorem State.setLastRx_irqEn (s : State) (h : Half) : (s.setLastRx h).irqEn = s.irqEn := rfl
@[simp] theorem State.setLastRx_status (s : State) (h : Half) : (s.setLastRx h).status = s.status := rfl
@[simp] theorem State.setLastRx_arg (s : State) (h : Half) : (s.setLastRx h).arg = s.arg := rfl
@[simp] theorem State.setLastRx_res (s : State) (h : Half) : (s.setLastRx h).res = s.res := rfl
@[simp] theorem State.setLastRx_sr (s : State) (h : Half) : (s.setLastRx h).sr = s.sr := rfl
@[simp] theorem State.setLastRx_crcAcc (s : State) (h : Half) : (s.setLastRx h).crcAcc = s.crcAcc := rfl
@[simp] theorem State.setLastRx_rbs (s : State) (h : Half) : (s.setLastRx h).rbs = s.rbs := rfl
@[simp] theorem State.setLastRx_mem (s : State) (h : Half) : (s.setLastRx h).mem = s.mem := rfl
@[simp] theorem State.setLastRx_phase (s : State) (h : Half) : (s.setLastRx h).phase = s.phase := rfl
@[simp] theorem State.setLastRx_cmd (s : State) (h : Half) : (s.setLastRx h).cmd = s.cmd := rfl
@[simp] theorem State.setLastRx_hazard (s : State) (h : Half) : (s.setLastRx h).hazard = s.hazard := rfl
@[simp] theorem State.setLastRx_wlog (s : State) (h : Half) : (s.setLastRx h).wlog = s.wlog := rfl
@[simp] theorem State.setLastRx_draws (s : State) (h : Half) : (s.setLastRx h).draws = s.draws := rfl
@[simp] theorem State.setLastRx_busData (s : State) (h : Half) : (s.setLastRx h).busData = s.busData := rfl
@[simp] theorem State.setLastRx_env (s : State) (h : Half) : (s.setLastRx h).env = s.env := rfl
@[simp] theorem State.setLastRx_rb (s : State) (h : Half) (j : RingIx) : (s.setLastRx h).rb j = s.rb j := rfl
@[simp] theorem State.setLastRx_load (s : State) (h : Half) (x : Nat) : (s.setLastRx h).load x = s.load x := rfl
@[simp] theorem State.setLastRx_rd (s : State) (h : Half) (j : RingIx) (x : Nat) : (s.setLastRx h).rd j x = s.rd j x := rfl
@[simp] theorem State.setLastRx_slice (s : State) (h : Half) (j : RingIx) (x k : Nat) : (s.setLastRx h).slice j x k = s.slice j x k := rfl
@[simp] theorem State.setLastRx_content (s : State) (h : Half) (j : RingIx) : (s.setLastRx h).content j = s.content j := rfl
@[simp] theorem State.setLastRx_wrap (s : State) (h : Half) (x : Nat) : (s.setLastRx h).wrap x = s.wrap x := rfl

/-! ## setAckFail -/

@[simp] theorem State.setAckFail_addrW (s : State) : s.setAckFail.addrW = s.addrW := rfl
@[simp] theorem State.setAckFail_irqEn (s : State) : s.setAckFail.irqEn = s.irqEn := rfl
@[simp] theorem State.setAckFail_arg (s : State) : s.setAckFail.arg = s.arg := rfl
@[simp] theorem State.setAckFail_res (s : State) : s.setAckFail.res = s.res := rfl
@[simp] theorem State.setAckFail_sr (s : State) : s.setAckFail.sr = s.sr := rfl
@[simp] theorem State.setAckFail_crcAcc (s : State) : s.setAckFail.crcAcc = s.crcAcc := rfl
@[simp] theorem State.setAckFail_ls (s : State) : s.setAckFail.ls = s.ls := rfl
@[simp] theorem State.setAckFail_rbs (s : State) : s.setAckFail.rbs = s.rbs := rfl
@[simp] theorem State.setAckFail_mem (s : State) : s.setAckFail.mem = s.mem := rfl
@[simp] theorem State.setAckFail_phase (s : State) : s.setAckFail.phase = s.phase := rfl
@[simp] theorem State.setAckFail_cmd (s : State) : s.setAckFail.cmd = s.cmd := rfl
@[simp] theorem State.setAckFail_hazard (s : State) : s.setAckFail.hazard = s.hazard := rfl
@[simp] theorem State.setAckFail_wlog (s : State) : s.setAckFail.wlog = s.wlog := rfl
@[simp] theorem State.setAckFail_draws (s : State) : s.setAckFail.draws = s.draws := rfl
@[simp] theorem State.setAckFail_busData (s : State) : s.setAckFail.busData = s.busData := rfl
@[simp] theorem State.setAckFail_env (s : State) : s.setAckFail.env = s.env := rfl
@[simp] theorem State.setAckFail_rb (s : State) (j : RingIx) : s.setAckFail.rb j = s.rb j := rfl
@[simp] theorem State.setAckFail_load (s : State) (x : Nat) : s.setAckFail.load x = s.load x := rfl
@[simp] theorem State.setAckFail_rd (s : State) (j : RingIx) (x : Nat) : s.setAckFail.rd j x = s.rd j x := rfl
@[simp] theorem State.setAckFail_slice (s : State) (j : RingIx) (x k : Nat) : s.setAckFail.slice j x k = s.slice j x k := rfl
@[simp] theorem State.setAckFail_content (s : State) (j : RingIx) : s.setAckFail.content j = s.content j := rfl
@[simp] theorem State.setAckFail_wrap (s : State) (x : Nat) : s.setAckFail.wrap x = s.wrap x := rfl
@[simp] theorem State.setAckFail_rxIx (s : State) : s.setAckFail.rxIx = s.rxIx := rfl
@[simp] theorem State.setAckFail_scrIx (s : State) : s.setAckFail.scrIx = s.scrIx := rfl
@[simp] theorem State.setAckFail_sideIx (s : State) : s.setAckFail.sideIx = s.sideIx := rfl
@[simp] theorem State.setAckFail_slenIx (s : State) : s.setAckFail.slenIx = s.slenIx := rfl

/-! ## setOvr -/

@[simp] theorem State.setOvr_addrW (s : State) : s.setOvr.addrW = s.addrW := rfl
@[simp] theorem State.setOvr_irqEn (s : State) : s.setOvr.irqEn = s.irqEn := rfl
@[simp] theorem State.setOvr_arg (s : State) : s.setOvr.arg = s.arg := rfl
@[simp] theorem State.setOvr_res (s : State) : s.setOvr.res = s.res := rfl
@[simp] theorem State.setOvr_sr (s : State) : s.setOvr.sr = s.sr := rfl
@[simp] theorem State.setOvr_crcAcc (s : State) : s.setOvr.crcAcc = s.crcAcc := rfl
@[simp] theorem State.setOvr_ls (s : State) : s.setOvr.ls = s.ls := rfl
@[simp] theorem State.setOvr_rbs (s : State) : s.setOvr.rbs = s.rbs := rfl
@[simp] theorem State.setOvr_mem (s : State) : s.setOvr.mem = s.mem := rfl
@[simp] theorem State.setOvr_phase (s : State) : s.setOvr.phase = s.phase := rfl
@[simp] theorem State.setOvr_cmd (s : State) : s.setOvr.cmd = s.cmd := rfl
@[simp] theorem State.setOvr_hazard (s : State) : s.setOvr.hazard = s.hazard := rfl
@[simp] theorem State.setOvr_wlog (s : State) : s.setOvr.wlog = s.wlog := rfl
@[simp] theorem State.setOvr_draws (s : State) : s.setOvr.draws = s.draws := rfl
@[simp] theorem State.setOvr_busData (s : State) : s.setOvr.busData = s.busData := rfl
@[simp] theorem State.setOvr_env (s : State) : s.setOvr.env = s.env := rfl
@[simp] theorem State.setOvr_rb (s : State) (j : RingIx) : s.setOvr.rb j = s.rb j := rfl
@[simp] theorem State.setOvr_load (s : State) (x : Nat) : s.setOvr.load x = s.load x := rfl
@[simp] theorem State.setOvr_rd (s : State) (j : RingIx) (x : Nat) : s.setOvr.rd j x = s.rd j x := rfl
@[simp] theorem State.setOvr_slice (s : State) (j : RingIx) (x k : Nat) : s.setOvr.slice j x k = s.slice j x k := rfl
@[simp] theorem State.setOvr_content (s : State) (j : RingIx) : s.setOvr.content j = s.content j := rfl
@[simp] theorem State.setOvr_wrap (s : State) (x : Nat) : s.setOvr.wrap x = s.wrap x := rfl
@[simp] theorem State.setOvr_rxIx (s : State) : s.setOvr.rxIx = s.rxIx := rfl
@[simp] theorem State.setOvr_scrIx (s : State) : s.setOvr.scrIx = s.scrIx := rfl
@[simp] theorem State.setOvr_sideIx (s : State) : s.setOvr.sideIx = s.sideIx := rfl
@[simp] theorem State.setOvr_slenIx (s : State) : s.setOvr.slenIx = s.slenIx := rfl

/-! ## setCrc -/

@[simp] theorem State.setCrc_addrW (s : State) (c : Half) : (s.setCrc c).addrW = s.addrW := rfl
@[simp] theorem State.setCrc_irqEn (s : State) (c : Half) : (s.setCrc c).irqEn = s.irqEn := rfl
@[simp] theorem State.setCrc_status (s : State) (c : Half) : (s.setCrc c).status = s.status := rfl
@[simp] theorem State.setCrc_arg (s : State) (c : Half) : (s.setCrc c).arg = s.arg := rfl
@[simp] theorem State.setCrc_res (s : State) (c : Half) : (s.setCrc c).res = s.res := rfl
@[simp] theorem State.setCrc_sr (s : State) (c : Half) : (s.setCrc c).sr = s.sr := rfl
@[simp] theorem State.setCrc_ls (s : State) (c : Half) : (s.setCrc c).ls = s.ls := rfl
@[simp] theorem State.setCrc_rbs (s : State) (c : Half) : (s.setCrc c).rbs = s.rbs := rfl
@[simp] theorem State.setCrc_mem (s : State) (c : Half) : (s.setCrc c).mem = s.mem := rfl
@[simp] theorem State.setCrc_phase (s : State) (c : Half) : (s.setCrc c).phase = s.phase := rfl
@[simp] theorem State.setCrc_cmd (s : State) (c : Half) : (s.setCrc c).cmd = s.cmd := rfl
@[simp] theorem State.setCrc_hazard (s : State) (c : Half) : (s.setCrc c).hazard = s.hazard := rfl
@[simp] theorem State.setCrc_wlog (s : State) (c : Half) : (s.setCrc c).wlog = s.wlog := rfl
@[simp] theorem State.setCrc_draws (s : State) (c : Half) : (s.setCrc c).draws = s.draws := rfl
@[simp] theorem State.setCrc_busData (s : State) (c : Half) : (s.setCrc c).busData = s.busData := rfl
@[simp] theorem State.setCrc_env (s : State) (c : Half) : (s.setCrc c).env = s.env := rfl
@[simp] theorem State.setCrc_rb (s : State) (c : Half) (j : RingIx) : (s.setCrc c).rb j = s.rb j := rfl
@[simp] theorem State.setCrc_load (s : State) (c : Half) (x : Nat) : (s.setCrc c).load x = s.load x := rfl
@[simp] theorem State.setCrc_rd (s : State) (c : Half) (j : RingIx) (x : Nat) : (s.setCrc c).rd j x = s.rd j x := rfl
@[simp] theorem State.setCrc_slice (s : State) (c : Half) (j : RingIx) (x k : Nat) : (s.setCrc c).slice j x k = s.slice j x k := rfl
@[simp] theorem State.setCrc_content (s : State) (c : Half) (j : RingIx) : (s.setCrc c).content j = s.content j := rfl
@[simp] theorem State.setCrc_wrap (s : State) (c : Half) (x : Nat) : (s.setCrc c).wrap x = s.wrap x := rfl
@[simp] theorem State.setCrc_rxIx (s : State) (c : Half) : (s.setCrc c).rxIx = s.rxIx := rfl
@[simp] theorem State.setCrc_scrIx (s : State) (c : Half) : (s.setCrc c).scrIx = s.scrIx := rfl
@[simp] theorem State.setCrc_sideIx (s : State) (c : Half) : (s.setCrc c).sideIx = s.sideIx := rfl
@[simp] theorem State.setCrc_slenIx (s : State) (c : Half) : (s.setCrc c).slenIx = s.slenIx := rfl

/-! ## await -/

@[simp] theorem State.await_addrW (s : State) (p : Phase) : (s.await p).addrW = s.addrW := rfl
@[simp] theorem State.await_irqEn (s : State) (p : Phase) : (s.await p).irqEn = s.irqEn := rfl
@[simp] theorem State.await_status (s : State) (p : Phase) : (s.await p).status = s.status := rfl
@[simp] theorem State.await_arg (s : State) (p : Phase) : (s.await p).arg = s.arg := rfl
@[simp] theorem State.await_res (s : State) (p : Phase) : (s.await p).res = s.res := rfl
@[simp] theorem State.await_sr (s : State) (p : Phase) : (s.await p).sr = s.sr := rfl
@[simp] theorem State.await_crcAcc (s : State) (p : Phase) : (s.await p).crcAcc = s.crcAcc := rfl
@[simp] theorem State.await_ls (s : State) (p : Phase) : (s.await p).ls = s.ls := rfl
@[simp] theorem State.await_rbs (s : State) (p : Phase) : (s.await p).rbs = s.rbs := rfl
@[simp] theorem State.await_mem (s : State) (p : Phase) : (s.await p).mem = s.mem := rfl
@[simp] theorem State.await_cmd (s : State) (p : Phase) : (s.await p).cmd = s.cmd := rfl
@[simp] theorem State.await_hazard (s : State) (p : Phase) : (s.await p).hazard = s.hazard := rfl
@[simp] theorem State.await_wlog (s : State) (p : Phase) : (s.await p).wlog = s.wlog := rfl
@[simp] theorem State.await_draws (s : State) (p : Phase) : (s.await p).draws = s.draws := rfl
@[simp] theorem State.await_busData (s : State) (p : Phase) : (s.await p).busData = s.busData := rfl
@[simp] theorem State.await_env (s : State) (p : Phase) : (s.await p).env = s.env := rfl
@[simp] theorem State.await_rb (s : State) (p : Phase) (j : RingIx) : (s.await p).rb j = s.rb j := rfl
@[simp] theorem State.await_load (s : State) (p : Phase) (x : Nat) : (s.await p).load x = s.load x := rfl
@[simp] theorem State.await_rd (s : State) (p : Phase) (j : RingIx) (x : Nat) : (s.await p).rd j x = s.rd j x := rfl
@[simp] theorem State.await_slice (s : State) (p : Phase) (j : RingIx) (x k : Nat) : (s.await p).slice j x k = s.slice j x k := rfl
@[simp] theorem State.await_content (s : State) (p : Phase) (j : RingIx) : (s.await p).content j = s.content j := rfl
@[simp] theorem State.await_wrap (s : State) (p : Phase) (x : Nat) : (s.await p).wrap x = s.wrap x := rfl
@[simp] theorem State.await_rxIx (s : State) (p : Phase) : (s.await p).rxIx = s.rxIx := rfl
@[simp] theorem State.await_scrIx (s : State) (p : Phase) : (s.await p).scrIx = s.scrIx := rfl
@[simp] theorem State.await_sideIx (s : State) (p : Phase) : (s.await p).sideIx = s.sideIx := rfl
@[simp] theorem State.await_slenIx (s : State) (p : Phase) : (s.await p).slenIx = s.slenIx := rfl

/-! ## nextMove -/

@[simp] theorem State.nextMove_addrW (s : State) : s.nextMove.addrW = s.addrW := rfl
@[simp] theorem State.nextMove_irqEn (s : State) : s.nextMove.irqEn = s.irqEn := rfl
@[simp] theorem State.nextMove_status (s : State) : s.nextMove.status = s.status := rfl
@[simp] theorem State.nextMove_arg (s : State) : s.nextMove.arg = s.arg := rfl
@[simp] theorem State.nextMove_res (s : State) : s.nextMove.res = s.res := rfl
@[simp] theorem State.nextMove_sr (s : State) : s.nextMove.sr = s.sr := rfl
@[simp] theorem State.nextMove_crcAcc (s : State) : s.nextMove.crcAcc = s.crcAcc := rfl
@[simp] theorem State.nextMove_ls (s : State) : s.nextMove.ls = s.ls := rfl
@[simp] theorem State.nextMove_rbs (s : State) : s.nextMove.rbs = s.rbs := rfl
@[simp] theorem State.nextMove_mem (s : State) : s.nextMove.mem = s.mem := rfl
@[simp] theorem State.nextMove_phase (s : State) : s.nextMove.phase = s.phase := rfl
@[simp] theorem State.nextMove_cmd (s : State) : s.nextMove.cmd = s.cmd := rfl
@[simp] theorem State.nextMove_hazard (s : State) : s.nextMove.hazard = s.hazard := rfl
@[simp] theorem State.nextMove_wlog (s : State) : s.nextMove.wlog = s.wlog := rfl
@[simp] theorem State.nextMove_draws (s : State) : s.nextMove.draws = s.draws := rfl
@[simp] theorem State.nextMove_busData (s : State) : s.nextMove.busData = s.busData := rfl
@[simp] theorem State.nextMove_rb (s : State) (j : RingIx) : s.nextMove.rb j = s.rb j := rfl
@[simp] theorem State.nextMove_load (s : State) (x : Nat) : s.nextMove.load x = s.load x := rfl
@[simp] theorem State.nextMove_rd (s : State) (j : RingIx) (x : Nat) : s.nextMove.rd j x = s.rd j x := rfl
@[simp] theorem State.nextMove_slice (s : State) (j : RingIx) (x k : Nat) : s.nextMove.slice j x k = s.slice j x k := rfl
@[simp] theorem State.nextMove_content (s : State) (j : RingIx) : s.nextMove.content j = s.content j := rfl
@[simp] theorem State.nextMove_wrap (s : State) (x : Nat) : s.nextMove.wrap x = s.wrap x := rfl
@[simp] theorem State.nextMove_rxIx (s : State) : s.nextMove.rxIx = s.rxIx := rfl
@[simp] theorem State.nextMove_scrIx (s : State) : s.nextMove.scrIx = s.scrIx := rfl
@[simp] theorem State.nextMove_sideIx (s : State) : s.nextMove.sideIx = s.sideIx := rfl
@[simp] theorem State.nextMove_slenIx (s : State) : s.nextMove.slenIx = s.slenIx := rfl

/-! ## The updated fields -/

@[simp] theorem State.await_phase (s : State) (p : Phase) : (s.await p).phase = p := rfl
@[simp] theorem State.setCrc_crcAcc (s : State) (c : Half) : (s.setCrc c).crcAcc = c := rfl
@[simp] theorem State.completeKeep_status (s : State) (e : Ecode) : (s.completeKeep e).status = s.status.complete e := rfl
@[simp] theorem State.completeKeep_phase (s : State) (e : Ecode) : (s.completeKeep e).phase = .idle := rfl
@[simp] theorem State.complete_status (s : State) (e : Ecode) (r : Quad) :
    (s.complete e r).status = s.status.complete e := rfl
@[simp] theorem State.complete_phase (s : State) (e : Ecode) (r : Quad) : (s.complete e r).phase = .idle := rfl
@[simp] theorem State.raise_status (s : State) (e : Ecode) (r : Quad) : (s.raise e r).status = s.status.complete e := rfl
@[simp] theorem State.raise_phase (s : State) (e : Ecode) (r : Quad) : (s.raise e r).phase = .idle := rfl
@[simp] theorem State.finish_status (s : State) (a b c d : Nat) : (s.finish a b c d).status = s.status.complete .ok := rfl
@[simp] theorem State.finish_phase (s : State) (a b c d : Nat) : (s.finish a b c d).phase = .idle := rfl
@[simp] theorem State.raiseParam_status (s : State) : s.raiseParam.status = s.status.complete .param := rfl
@[simp] theorem State.raiseParam_phase (s : State) : s.raiseParam.phase = .idle := rfl
@[simp] theorem State.raiseParam_res (s : State) : s.raiseParam.res = Quad.zero := rfl
@[simp] theorem State.accept_phase (s : State) (w : Word) : (s.accept w).phase = .fetch := rfl
@[simp] theorem State.accept_cmd (s : State) (w : Word) : (s.accept w).cmd = w := rfl
@[simp] theorem State.accept_hazard (s : State) (w : Word) : (s.accept w).hazard = false := rfl
@[simp] theorem State.accept_wlog (s : State) (w : Word) : (s.accept w).wlog = [] := rfl
@[simp] theorem State.setAckFail_status (s : State) : s.setAckFail.status = { s.status with ackFail := true } := rfl
@[simp] theorem State.setOvr_status (s : State) : s.setOvr.status = { s.status with ovr := true } := rfl
@[simp] theorem State.setSend_ls (s : State) (x : SendState) : (s.setSend x).ls = { s.ls with state := x } := rfl
@[simp] theorem State.setSendBoth_ls (s : State) (x : SendState) (n : Nat) :
    (s.setSendBoth x n).ls = { s.ls with state := x, attempts := BitVec.ofNat 16 n } := rfl
@[simp] theorem State.setLastRx_ls (s : State) (h : Half) :
    (s.setLastRx h).ls = { s.ls with lastRx := { hash := h, valid := true } } := rfl
@[simp] theorem State.nextMove_env (s : State) : s.nextMove.env = { s.env with agenda := s.env.agenda.tail } := rfl
theorem State.store_mem (s : State) (a : Nat) (b : Byte) :
    (s.store a b).mem = s.mem.write (s.wrap a) (s.storedByte (s.wrap a) b) := rfl

@[simp] theorem Status.complete_done (st : Status) (e : Ecode) : (st.complete e).done = true := rfl
@[simp] theorem Status.complete_ecode (st : Status) (e : Ecode) : (st.complete e).ecode = e := rfl
@[simp] theorem Status.complete_err (st : Status) (e : Ecode) :
    (st.complete e).err = (st.err || decide (e ≠ .ok)) := rfl
@[simp] theorem Status.complete_ovr (st : Status) (e : Ecode) : (st.complete e).ovr = st.ovr := rfl
@[simp] theorem Status.complete_ackFail (st : Status) (e : Ecode) : (st.complete e).ackFail = st.ackFail := rfl

/-- The results of a command no host write has raced with. -/
theorem State.complete_res (s : State) (e : Ecode) (r : Quad) (h : s.hazard = false) : (s.complete e r).res = r := by
  simp [State.complete, h]

/-- The results of an error no host write has raced with. -/
theorem State.raise_res (s : State) (e : Ecode) (r : Quad) (h : s.hazard = false) : (s.raise e r).res = r :=
  State.complete_res s e r h

/-- The results of a success no host write has raced with. -/
theorem State.finish_res (s : State) (a b c d : Nat) (h : s.hazard = false) :
    (s.finish a b c d).res = quadOf a b c d := State.complete_res s _ _ h

/-! ## Descriptors -/

@[simp] theorem State.rb_setRb_same (s : State) (i : RingIx) (d : Desc) : (s.setRb i d).rb i = d := by
  simp [State.setRb, State.rb]

theorem State.rb_setRb_ne (s : State) (i j : RingIx) (d : Desc) (h : j ≠ i) : (s.setRb i d).rb j = s.rb j := by
  have h' : i.val ≠ j.val := fun e => h (Fin.ext e.symm)
  simp [State.setRb, State.rb, h']

theorem State.rb_setRb (s : State) (i j : RingIx) (d : Desc) :
    (s.setRb i d).rb j = if j = i then d else s.rb j := by
  by_cases h : j = i
  · subst h; simp
  · simp [h, State.rb_setRb_ne]

@[simp] theorem State.rb_dropHead_same (s : State) (i : RingIx) (k : Nat) :
    (s.dropHead i k).rb i = (s.rb i).dropHead k := by simp [State.dropHead]

theorem State.rb_dropHead_ne (s : State) (i j : RingIx) (k : Nat) (h : j ≠ i) : (s.dropHead i k).rb j = s.rb j :=
  State.rb_setRb_ne s i j _ h

@[simp] theorem State.rb_dropTail_same (s : State) (i : RingIx) :
    (s.dropTail i).rb i = { s.rb i with count := (s.rb i).count - 1 } := by simp [State.dropTail]

theorem State.rb_dropTail_ne (s : State) (i j : RingIx) (h : j ≠ i) : (s.dropTail i).rb j = s.rb j :=
  State.rb_setRb_ne s i j _ h

@[simp] theorem State.rb_flushRb_same (s : State) (i : RingIx) : (s.flushRb i).rb i = (s.rb i).flush := by
  simp [State.flushRb]

theorem State.rb_flushRb_ne (s : State) (i j : RingIx) (h : j ≠ i) : (s.flushRb i).rb j = s.rb j :=
  State.rb_setRb_ne s i j _ h

@[simp] theorem State.rb_pushTail_same (s : State) (i : RingIx) (b : Byte) :
    (s.pushTail i b).rb i = { s.rb i with count := (s.rb i).count + 1 } := by simp [State.pushTail]

theorem State.rb_pushTail_ne (s : State) (i j : RingIx) (b : Byte) (h : j ≠ i) : (s.pushTail i b).rb j = s.rb j := by
  simp [State.pushTail, State.rb_setRb_ne _ _ _ _ h]

@[simp] theorem State.rb_pushHead_same (s : State) (i : RingIx) (b : Byte) :
    (s.pushHead i b).rb i = { (s.rb i).stepBack with count := (s.rb i).count + 1 } := by simp [State.pushHead]

theorem State.rb_pushHead_ne (s : State) (i j : RingIx) (b : Byte) (h : j ≠ i) : (s.pushHead i b).rb j = s.rb j := by
  simp [State.pushHead, State.rb_setRb_ne _ _ _ _ h]

@[simp] theorem Desc.dropHead_base (d : Desc) (k : Nat) : (d.dropHead k).base = d.base := rfl
@[simp] theorem Desc.dropHead_cap (d : Desc) (k : Nat) : (d.dropHead k).cap = d.cap := rfl
@[simp] theorem Desc.dropHead_count (d : Desc) (k : Nat) : (d.dropHead k).count = d.count - min k d.count := rfl
@[simp] theorem Desc.dropHead_start (d : Desc) (k : Nat) :
    (d.dropHead k).start = (d.start + min k d.count) % d.cap := rfl
@[simp] theorem Desc.flush_base (d : Desc) : d.flush.base = d.base := rfl
@[simp] theorem Desc.flush_cap (d : Desc) : d.flush.cap = d.cap := rfl
@[simp] theorem Desc.flush_count (d : Desc) : d.flush.count = 0 := rfl
@[simp] theorem Desc.flush_start (d : Desc) : d.flush.start = 0 := rfl
@[simp] theorem Desc.stepBack_base (d : Desc) : d.stepBack.base = d.base := rfl
@[simp] theorem Desc.stepBack_cap (d : Desc) : d.stepBack.cap = d.cap := rfl
@[simp] theorem Desc.stepBack_count (d : Desc) : d.stepBack.count = d.count := rfl
@[simp] theorem Desc.stepBack_start (d : Desc) : d.stepBack.start = (d.start + d.cap - 1) % d.cap := rfl

end Sys2Proof.Machine
end

