-- ==== Sys2Proof/Laws/Ring.lean ====
section
/-! SUPPORT. What each shared operation does, said once: loops, MEM accesses, ring elements, pushes and drops. -/

namespace Sys2Proof.Machine

/-! ## Loops -/

/-- What every pass of a rising loop keeps, the loop keeps. -/
theorem forUp_keeps {σ : Type} (P : σ → Prop) (body : Nat → σ → σ) (k lo : Nat) (s : σ)
    (h : ∀ j t, lo ≤ j → j < lo + k → P t → P (body j t)) (hs : P s) : P (forUp body k lo s) := by
  induction k generalizing lo s with
  | zero => exact hs
  | succ k ih =>
    refine ih (lo + 1) (body lo s) (fun j t h1 h2 => h j t (by omega) (by omega)) (h lo s (by omega) (by omega) hs)

/-- What every pass of a falling loop keeps, the loop keeps. -/
theorem forDown_keeps {σ : Type} (P : σ → Prop) (body : Nat → σ → σ) (k lo : Nat) (s : σ)
    (h : ∀ j t, lo ≤ j → j < lo + k → P t → P (body j t)) (hs : P s) : P (forDown body k lo s) := by
  induction k generalizing s with
  | zero => exact hs
  | succ k ih =>
    exact ih (body (lo + k) s) (fun j t h1 h2 => h j t h1 (by omega)) (h (lo + k) s (by omega) (by omega) hs)

/-- A fact indexed by the number of passes made: it holds after a rising loop. -/
theorem forUp_index {σ : Type} (P : Nat → σ → Prop) (body : Nat → σ → σ) (k lo : Nat) (s : σ)
    (h : ∀ j t, lo ≤ j → j < lo + k → P j t → P (j + 1) (body j t)) (hs : P lo s) :
    P (lo + k) (forUp body k lo s) := by
  induction k generalizing lo s with
  | zero => exact hs
  | succ k ih =>
    have := ih (lo + 1) (body lo s) (fun j t h1 h2 => h j t (by omega) (by omega)) (h lo s (by omega) (by omega) hs)
    rwa [show lo + 1 + k = lo + (k + 1) by omega] at this

/-- A fact indexed by the passes still to make: it holds after a falling loop. -/
theorem forDown_index {σ : Type} (P : Nat → σ → Prop) (body : Nat → σ → σ) (k lo : Nat) (s : σ)
    (h : ∀ j t, lo ≤ j → j < lo + k → P (j + 1) t → P j (body j t)) (hs : P (lo + k) s) :
    P lo (forDown body k lo s) := by
  induction k generalizing s with
  | zero => exact hs
  | succ k ih =>
    exact ih (body (lo + k) s) (fun j t h1 h2 => h j t h1 (by omega)) (h (lo + k) s (by omega) (by omega) hs)

/-! ## MEM accesses -/

/-- The conditions under which a ring's bytes are plain data: no raced host write, a canonical memory, rule R15. -/
abbrev Plain (s : State) (i : RingIx) : Prop := s.hazard = false ∧ s.mem.wf = true ∧ (s.rb i).Ok s.addrW

theorem State.load_plain (s : State) (a : Nat) (h : s.hazard = false) : s.load a = s.mem.read (s.wrap a) := by
  simp [State.load, h]

theorem State.storedByte_plain (s : State) (a : Nat) (b : Byte) (h : s.hazard = false) : s.storedByte a b = b := by
  simp [State.storedByte, h]

theorem State.wrap_lt (s : State) (a : Nat) : s.wrap a < 2 ^ s.addrW := Nat.mod_lt _ (Nat.two_pow_pos _)

theorem State.wrap_of_lt (s : State) (a : Nat) (h : a < 2 ^ s.addrW) : s.wrap a = a := Nat.mod_eq_of_lt h

/-- A block's MEM write keeps the canonical form. -/
theorem State.store_wf (s : State) (a : Nat) (b : Byte) (h : s.mem.wf = true) : (s.store a b).mem.wf = true :=
  Memory.wf_write _ _ _ h

/-- A block's MEM write stays in the address space. -/
theorem State.store_within (s : State) (a : Nat) (b : Byte) (h : s.mem.within s.addrW = true) :
    (s.store a b).mem.within s.addrW = true := Memory.within_write _ _ _ _ (s.wrap_lt a) h

/-- A block's MEM write keeps both parts of `MemOk`. -/
theorem State.store_memOk (s : State) (a : Nat) (b : Byte) (h : MemOk s) : MemOk (s.store a b) :=
  ⟨s.store_wf a b h.1, s.store_within a b h.2⟩

/-- Reading MEM after a block's write. -/
theorem State.read_store (s : State) (a : Nat) (b : Byte) (x : Nat) (h : s.mem.wf = true) :
    (s.store a b).mem.read x = if x = s.wrap a then s.storedByte (s.wrap a) b else s.mem.read x :=
  Memory.read_write _ _ _ _ h

/-- A block's load after its store. -/
theorem State.load_store (s : State) (a : Nat) (b : Byte) (x : Nat) (hz : s.hazard = false) (h : s.mem.wf = true) :
    (s.store a b).load x = if s.wrap x = s.wrap a then b else s.load x := by
  simp [State.load, hz, State.read_store _ _ _ _ h, State.storedByte_plain]

/-! ## Slots -/

theorem Desc.phys_lt (d : Desc) (v : Nat) (h : 0 < d.cap) : d.phys v < d.cap := Nat.mod_lt _ h

theorem Desc.addr_holds (d : Desc) (v : Nat) (h : 0 < d.cap) : d.holds (d.addr v) = true := by
  have := d.phys_lt v h
  simp [Desc.holds, Desc.addr]; omega

theorem Desc.addr_lt {w : Nat} (d : Desc) (v : Nat) (h : 0 < d.cap) (hk : d.Ok w) : d.addr v < 2 ^ w := by
  have := d.phys_lt v h
  have := hk.2.2.2.1
  simp only [Desc.addr]; omega

/-- Within CAP, different virtual indices have different slots (R16). -/
theorem Desc.phys_inj (d : Desc) (u v : Nat) (hu : u < d.cap) (hv : v < d.cap) :
    d.phys u = d.phys v ↔ u = v := by
  constructor
  · intro h
    simp only [Desc.phys] at h
    have h1 := Nat.div_add_mod (d.start + u) d.cap
    have h2 := Nat.div_add_mod (d.start + v) d.cap
    rcases Nat.lt_trichotomy ((d.start + u) / d.cap) ((d.start + v) / d.cap) with hlt | heq | hgt
    · have := Nat.mul_le_mul_left d.cap hlt
      rw [Nat.mul_succ] at this
      omega
    · rw [heq] at h1; omega
    · have := Nat.mul_le_mul_left d.cap hgt
      rw [Nat.mul_succ] at this
      omega
  · intro h; rw [h]

theorem Desc.addr_inj (d : Desc) (u v : Nat) (hu : u < d.cap) (hv : v < d.cap) : d.addr u = d.addr v ↔ u = v := by
  rw [← d.phys_inj u v hu hv]; simp [Desc.addr]

theorem State.wrap_addr (s : State) (i : RingIx) (v : Nat) (h : 0 < (s.rb i).cap) (hk : (s.rb i).Ok s.addrW) :
    s.wrap ((s.rb i).addr v) = (s.rb i).addr v := s.wrap_of_lt _ (Desc.addr_lt _ v h hk)

/-- RD without a raced write reads the slot's byte (R16). -/
theorem State.rd_plain (s : State) (i : RingIx) (v : Nat) (h : 0 < (s.rb i).cap) (hp : Plain s i) :
    s.rd i v = s.mem.read ((s.rb i).addr v) := by
  rw [State.rd, s.load_plain _ hp.1, s.wrap_addr i v h hp.2.2]

/-- RD after WR on one ring (R16). -/
theorem State.rd_wr (s : State) (i : RingIx) (u v : Nat) (b : Byte) (hu : u < (s.rb i).cap) (hv : v < (s.rb i).cap)
    (hp : Plain s i) : (s.wr i v b).rd i u = if u = v then b else s.rd i u := by
  have hc : 0 < (s.rb i).cap := by omega
  unfold State.wr
  rw [State.rd, State.store_rb, State.load_store _ _ _ _ hp.1 hp.2.1, s.wrap_addr i u hc hp.2.2,
    s.wrap_addr i v hc hp.2.2, State.rd]
  simp only [Desc.addr_inj _ u v hu hv]

/-- WR touches only a slot of its ring. -/
theorem State.read_wr_outside (s : State) (i : RingIx) (v : Nat) (b : Byte) (x : Nat) (hc : 0 < (s.rb i).cap)
    (hm : s.mem.wf = true) (hk : (s.rb i).Ok s.addrW) (hx : (s.rb i).holds x = false) :
    (s.wr i v b).mem.read x = s.mem.read x := by
  have hne : x ≠ s.wrap ((s.rb i).addr v) := by
    intro e
    rw [e, s.wrap_addr i v hc hk, Desc.addr_holds _ v hc] at hx
    exact absurd hx (by decide)
  simp [State.wr, State.read_store _ _ _ _ hm, hne]

theorem State.wr_memOk (s : State) (i : RingIx) (v : Nat) (b : Byte) (h : MemOk s) : MemOk (s.wr i v b) :=
  s.store_memOk _ b h

theorem State.pushTail_memOk (s : State) (i : RingIx) (b : Byte) (h : MemOk s) : MemOk (s.pushTail i b) :=
  s.store_memOk _ b h

theorem State.pushHead_memOk (s : State) (i : RingIx) (b : Byte) (h : MemOk s) : MemOk (s.pushHead i b) :=
  (s.setRb i (s.rb i).stepBack).store_memOk _ b h

/-! ## Rule R15 under the descriptor updates -/

theorem Desc.Ok.dropHead {w : Nat} {d : Desc} (h : d.Ok w) (k : Nat) : (d.dropHead k).Ok w := by
  obtain ⟨h1, h2, h3, h4, h5⟩ := h
  refine ⟨by simp; omega, fun hc => Nat.mod_lt _ hc, fun hc => ?_, h4, h5⟩
  simp only [Desc.dropHead_cap] at hc
  have h0 : d.count = 0 := by omega
  simp [hc, h0, h3 hc]

theorem Desc.Ok.dropTail {w : Nat} {d : Desc} (h : d.Ok w) : Desc.Ok w { d with count := d.count - 1 } :=
  ⟨by have := h.1; simp only; omega, h.2⟩

theorem Desc.Ok.flush {w : Nat} {d : Desc} (h : d.Ok w) : d.flush.Ok w :=
  ⟨Nat.zero_le _, fun hc => hc, fun _ => rfl, h.2.2.2⟩

theorem Desc.Ok.stepBack {w : Nat} {d : Desc} (h : d.Ok w) (hc : 0 < d.cap) : d.stepBack.Ok w :=
  ⟨h.1, fun _ => Nat.mod_lt _ hc, fun h0 => by simp only [Desc.stepBack_cap] at h0; omega, h.2.2.2⟩

theorem Desc.Ok.grow {w : Nat} {d : Desc} (h : d.Ok w) (hf : d.count < d.cap) :
    Desc.Ok w { d with count := d.count + 1 } := ⟨hf, h.2⟩

theorem RingsOk.setRb {s : State} (h : RingsOk s) (i : RingIx) (d : Desc) (hd : d.Ok s.addrW) : RingsOk (s.setRb i d) := by
  intro j
  simp only [State.rb_setRb, State.setRb_addrW]
  split
  · exact hd
  · exact h j

theorem RingsOk.pushTail {s : State} (h : RingsOk s) (i : RingIx) (b : Byte) (hf : (s.rb i).count < (s.rb i).cap) :
    RingsOk (s.pushTail i b) := RingsOk.setRb (s := s.wr i (s.rb i).count b) h i _ ((h i).grow hf)

theorem RingsOk.pushHead {s : State} (h : RingsOk s) (i : RingIx) (b : Byte) (hf : (s.rb i).count < (s.rb i).cap) :
    RingsOk (s.pushHead i b) := by
  have h1 : RingsOk (s.setRb i (s.rb i).stepBack) := h.setRb i _ ((h i).stepBack (by omega))
  exact RingsOk.setRb (s := (s.setRb i (s.rb i).stepBack).wr i 0 b) h1 i _
    (Desc.Ok.grow ((h i).stepBack (by omega)) (by simpa using hf))

theorem RingsOk.dropHead {s : State} (h : RingsOk s) (i : RingIx) (k : Nat) : RingsOk (s.dropHead i k) :=
  h.setRb i _ ((h i).dropHead k)

theorem RingsOk.dropTail {s : State} (h : RingsOk s) (i : RingIx) : RingsOk (s.dropTail i) :=
  h.setRb i _ (h i).dropTail

theorem RingsOk.flushRb {s : State} (h : RingsOk s) (i : RingIx) : RingsOk (s.flushRb i) := h.setRb i _ (h i).flush

/-! ## Content (R16) -/

@[simp] theorem State.slice_length (s : State) (i : RingIx) (lo k : Nat) : (s.slice i lo k).length = k := by
  simp [State.slice]

@[simp] theorem State.content_length (s : State) (i : RingIx) : (s.content i).length = (s.rb i).count := by
  simp [State.content]

theorem State.slice_getElem (s : State) (i : RingIx) (lo k j : Nat) (h : j < (s.slice i lo k).length) :
    (s.slice i lo k)[j] = s.rd i (lo + j) := by simp [State.slice]

theorem State.content_getElem (s : State) (i : RingIx) (j : Nat) (h : j < (s.content i).length) :
    (s.content i)[j] = s.rd i j := by simp [State.content, State.slice]

/-- The bytes of a range are a part of the content. -/
theorem State.slice_eq_content (s : State) (i : RingIx) (lo k : Nat) (h : lo + k ≤ (s.rb i).count) :
    s.slice i lo k = ((s.content i).drop lo).take k := by
  apply List.ext_getElem
  · simp; omega
  · intro j h1 h2
    simp [State.slice_getElem, State.content_getElem]

/-- The content after a push at the tail (R78). -/
theorem State.content_pushTail (s : State) (i : RingIx) (b : Byte) (hf : (s.rb i).count < (s.rb i).cap)
    (hp : Plain s i) : (s.pushTail i b).content i = s.content i ++ [b] := by
  have key : ∀ u, u < (s.rb i).cap → (s.pushTail i b).rd i u = if u = (s.rb i).count then b else s.rd i u := by
    intro u hu
    rw [← s.rd_wr i u _ b hu hf hp]
    simp only [State.rd, State.rb_pushTail_same]
    rfl
  apply List.ext_getElem
  · simp
  · intro j h1 h2
    simp only [State.content_length, State.rb_pushTail_same] at h1
    rw [State.content_getElem, key j (by omega), List.getElem_append]
    split
    · simp_all
    · have : j < (s.rb i).count := by omega
      simp [this, State.content_getElem]

/-- The content after a push at the head (R78). -/
theorem State.content_pushHead (s : State) (i : RingIx) (b : Byte) (hf : (s.rb i).count < (s.rb i).cap)
    (hp : Plain s i) : (s.pushHead i b).content i = b :: s.content i := by
  have hc : 0 < (s.rb i).cap := by omega
  have hst : (s.rb i).start < (s.rb i).cap := hp.2.2.2.1 hc
  have hp' : Plain (s.setRb i (s.rb i).stepBack) i := ⟨hp.1, hp.2.1, by simpa using hp.2.2.stepBack hc⟩
  have key : ∀ u, u < (s.rb i).cap →
      (s.pushHead i b).rd i u = if u = 0 then b else (s.setRb i (s.rb i).stepBack).rd i u := by
    intro u hu
    rw [← (s.setRb i (s.rb i).stepBack).rd_wr i u 0 b (by simpa using hu) (by simpa using hc) hp']
    simp only [State.rd, State.rb_pushHead_same, State.wr_rb, State.rb_setRb_same]
    rfl
  have shift : ∀ u, (s.setRb i (s.rb i).stepBack).rd i (u + 1) = s.rd i u := by
    intro u
    simp only [State.rd, State.rb_setRb_same, State.setRb_load, Desc.addr, Desc.phys, Desc.stepBack_base,
      Desc.stepBack_cap, Desc.stepBack_start]
    congr 2
    rw [Nat.mod_add_mod]
    rw [show (s.rb i).start + (s.rb i).cap - 1 + (u + 1) = (s.rb i).start + u + (s.rb i).cap by omega,
      Nat.add_mod_right]
  apply List.ext_getElem
  · simp
  · intro j h1 h2
    simp only [State.content_length, State.rb_pushHead_same] at h1
    rw [State.content_getElem, key j (by omega)]
    cases j with
    | zero => simp
    | succ j => simp [shift, State.content_getElem]

/-- The content after a drop at the head (R79). -/
theorem State.content_dropHead (s : State) (i : RingIx) (k : Nat) : (s.dropHead i k).content i = (s.content i).drop k := by
  apply List.ext_getElem
  · simp; omega
  · intro j h1 h2
    simp only [State.content_length, State.rb_dropHead_same, Desc.dropHead_count, List.length_drop] at h1 h2
    rw [State.content_getElem, List.getElem_drop, State.content_getElem]
    simp only [State.rd, State.dropHead_load, State.rb_dropHead_same, Desc.addr, Desc.phys, Desc.dropHead_base,
      Desc.dropHead_cap, Desc.dropHead_start]
    rw [Nat.mod_add_mod, show min k (s.rb i).count = k by omega, Nat.add_assoc]

/-- The content after a drop at the tail (R79). -/
theorem State.content_dropTail (s : State) (i : RingIx) : (s.dropTail i).content i = (s.content i).dropLast := by
  apply List.ext_getElem
  · simp
  · intro j h1 h2
    rw [State.content_getElem, List.getElem_dropLast, State.content_getElem]
    simp only [State.rd, State.dropTail_load, State.rb_dropTail_same, Desc.addr, Desc.phys]

/-- A push changes no byte outside the ring's storage. -/
theorem State.read_pushTail_outside (s : State) (i : RingIx) (b : Byte) (x : Nat) (hc : 0 < (s.rb i).cap)
    (hm : s.mem.wf = true) (hk : (s.rb i).Ok s.addrW) (hx : (s.rb i).holds x = false) :
    (s.pushTail i b).mem.read x = s.mem.read x := s.read_wr_outside i _ b x hc hm hk hx

/-- A push at the head changes no byte outside the ring's storage. -/
theorem State.read_pushHead_outside (s : State) (i : RingIx) (b : Byte) (x : Nat) (hc : 0 < (s.rb i).cap)
    (hm : s.mem.wf = true) (hk : (s.rb i).Ok s.addrW) (hx : (s.rb i).holds x = false) :
    (s.pushHead i b).mem.read x = s.mem.read x :=
  (s.setRb i (s.rb i).stepBack).read_wr_outside i 0 b x (by simpa using hc) hm (by simpa using hk.stepBack hc)
    (by simpa [Desc.holds] using hx)

end Sys2Proof.Machine
end

