-- ==== Sys2Proof/Laws/Frame.lean ====
section
/-! SUPPORT. What the operations of the ring, stuffing and link commands leave alone, said once per operation: `Kept l s t`
says that `t` comes from `s` by work on the rings of `l`, their bytes of MEM, LS_LASTRX and ACKFAIL alone. -/

namespace Sys2Proof.Machine

/-- R15 of every descriptor, a canonical MEM inside its space, and a write log inside it. -/
abbrev Good (s : State) : Prop := RingsOk s ∧ MemOk s ∧ LogOk s

/-- A state with everything the operations work on taken out. -/
def State.frozen (s : State) : State :=
  { s with
    mem := [], wlog := [], rbs := Vector.replicate 8 Desc.reset, ls := { s.ls with lastRx := LastRx.none }
    status := { s.status with ackFail := false } }

/-- `t` comes from `s` by work on the rings of `l`: nothing else changes but LS_LASTRX and ACKFAIL, no storage is rebound, and
no byte of MEM outside the storage of those rings changes. -/
structure Kept (l : List RingIx) (s t : State) : Prop where
  good : Good t
  same : t.frozen = s.frozen
  others : ∀ j, j ∉ l → t.rb j = s.rb j
  shape : ∀ j, (t.rb j).base = (s.rb j).base ∧ (t.rb j).cap = (s.rb j).cap
  outside : ∀ a, (∀ r ∈ l, (s.rb r).holds a = false) → t.mem.read a = s.mem.read a

namespace Kept

variable {l : List RingIx} {s t u : State}

theorem refl (l : List RingIx) (h : Good s) : Kept l s s := ⟨h, rfl, fun _ _ => rfl, fun _ => ⟨rfl, rfl⟩, fun _ _ => rfl⟩

theorem holds_eq (h : Kept l s t) (r : RingIx) (a : Nat) : (t.rb r).holds a = (s.rb r).holds a := by
  simp [Desc.holds, (h.shape r).1, (h.shape r).2]

theorem trans (h1 : Kept l s t) (h2 : Kept l t u) : Kept l s u where
  good := h2.good
  same := h2.same.trans h1.same
  others := fun j hj => (h2.others j hj).trans (h1.others j hj)
  shape := fun j => ⟨(h2.shape j).1.trans (h1.shape j).1, (h2.shape j).2.trans (h1.shape j).2⟩
  outside := fun a ha => (h2.outside a (fun r hr => by rw [h1.holds_eq]; exact ha r hr)).trans (h1.outside a ha)

theorem mono {l' : List RingIx} (h : Kept l s t) (hl : ∀ r ∈ l, r ∈ l') : Kept l' s t where
  good := h.good
  same := h.same
  others := fun j hj => h.others j (fun hjl => hj (hl j hjl))
  shape := h.shape
  outside := fun a ha => h.outside a (fun r hr => ha r (hl r hr))

theorem addrW (h : Kept l s t) : t.addrW = s.addrW := (congrArg State.addrW h.same :)
theorem hazard (h : Kept l s t) : t.hazard = s.hazard := (congrArg State.hazard h.same :)
theorem phase (h : Kept l s t) : t.phase = s.phase := (congrArg State.phase h.same :)
theorem sess (h : Kept l s t) : t.ls.sess = s.ls.sess := congrArg (fun x => x.ls.sess) h.same
theorem sessValid (h : Kept l s t) : t.ls.sessValid = s.ls.sessValid := congrArg (fun x => x.ls.sessValid) h.same
theorem rxIx (h : Kept l s t) : t.rxIx = s.rxIx := by simp [State.rxIx, h.sess]
theorem scrIx (h : Kept l s t) : t.scrIx = s.scrIx := by simp [State.scrIx, h.sess]
theorem sideIx (h : Kept l s t) : t.sideIx = s.sideIx := by simp [State.sideIx, h.sess]
theorem slenIx (h : Kept l s t) : t.slenIx = s.slenIx := by simp [State.slenIx, h.sess]
theorem cap (h : Kept l s t) (j : RingIx) : (t.rb j).cap = (s.rb j).cap := (h.shape j).2

end Kept

/-! ## The primitive operations -/

theorem Kept.setRb {l : List RingIx} {s : State} (h : Good s) {i : RingIx} (hi : i ∈ l) (d : Desc) (hd : d.Ok s.addrW)
    (hb : d.base = (s.rb i).base) (hc : d.cap = (s.rb i).cap) : Kept l s (s.setRb i d) where
  good := ⟨h.1.setRb i d hd, h.2⟩
  same := rfl
  others := fun j hj => State.rb_setRb_ne s i j d (fun e => hj (e ▸ hi))
  shape := fun j => by rw [State.rb_setRb]; split <;> simp_all
  outside := fun _ _ => rfl

theorem Kept.wr {l : List RingIx} {s : State} (h : Good s) {i : RingIx} (hi : i ∈ l) (hc : 0 < (s.rb i).cap) (v : Nat)
    (b : Byte) : Kept l s (s.wr i v b) where
  good := by
    refine ⟨h.1, s.wr_memOk i v b h.2.1, fun w hw => ?_⟩
    have : w ∈ s.wlog ∨ w.addr = s.wrap ((s.rb i).addr v) := by
      simp only [State.wr, State.store, List.mem_append, List.mem_singleton] at hw
      rcases hw with hw | hw
      · exact .inl hw
      · exact .inr (by rw [hw])
    rcases this with hw | hw
    · exact h.2.2 w hw
    · rw [hw]; exact s.wrap_lt _
  same := rfl
  others := fun _ _ => rfl
  shape := fun _ => ⟨rfl, rfl⟩
  outside := fun a ha => s.read_wr_outside i v b a hc h.2.1.1 (h.1 i) (ha i hi)

theorem Kept.dropHead {l : List RingIx} {s : State} (h : Good s) {i : RingIx} (hi : i ∈ l) (k : Nat) :
    Kept l s (s.dropHead i k) := Kept.setRb h hi _ ((h.1 i).dropHead k) rfl rfl

theorem Kept.dropTail {l : List RingIx} {s : State} (h : Good s) {i : RingIx} (hi : i ∈ l) : Kept l s (s.dropTail i) :=
  Kept.setRb h hi _ (h.1 i).dropTail rfl rfl

theorem Kept.flushRb {l : List RingIx} {s : State} (h : Good s) {i : RingIx} (hi : i ∈ l) : Kept l s (s.flushRb i) :=
  Kept.setRb h hi _ (h.1 i).flush rfl rfl

theorem Kept.pushTail {l : List RingIx} {s : State} (h : Good s) {i : RingIx} (hi : i ∈ l) (b : Byte)
    (hf : (s.rb i).count < (s.rb i).cap) : Kept l s (s.pushTail i b) := by
  have h1 := Kept.wr (l := l) h hi (by omega) (s.rb i).count b
  exact h1.trans (Kept.setRb h1.good hi _ ((h.1 i).grow hf) rfl rfl)

theorem Kept.pushHead {l : List RingIx} {s : State} (h : Good s) {i : RingIx} (hi : i ∈ l) (b : Byte)
    (hf : (s.rb i).count < (s.rb i).cap) : Kept l s (s.pushHead i b) := by
  have hk := (h.1 i).stepBack (by omega)
  have h1 : Kept l s (s.setRb i (s.rb i).stepBack) := Kept.setRb h hi _ hk rfl rfl
  have h2 := Kept.wr h1.good hi (by simp; omega) 0 b
  exact h1.trans (h2.trans (Kept.setRb h2.good hi _ (hk.grow (by simpa using hf)) (by simp) (by simp)))

theorem Kept.setLastRx {l : List RingIx} {s : State} (h : Good s) (x : Half) : Kept l s (s.setLastRx x) :=
  ⟨h, rfl, fun _ _ => rfl, fun _ => ⟨rfl, rfl⟩, fun _ _ => rfl⟩

theorem Kept.setAckFail {l : List RingIx} {s : State} (h : Good s) : Kept l s s.setAckFail :=
  ⟨h, rfl, fun _ _ => rfl, fun _ => ⟨rfl, rfl⟩, fun _ _ => rfl⟩

/-! ## Loops over them -/

/-- Dropping on to a byte (R99, R121). -/
theorem Kept.dropUntil {l : List RingIx} {i : RingIx} (hi : i ∈ l) (b : Byte) (fuel : Nat) {s : State} (h : Good s) :
    Kept l s (State.dropUntil i b fuel s) := by
  induction fuel generalizing s with
  | zero => exact Kept.refl l h
  | succ n ih =>
    simp only [State.dropUntil]
    split
    · have h1 := Kept.dropHead (l := l) h hi 1
      exact h1.trans (ih h1.good)
    · exact Kept.refl l h

/-- A copy of `n` elements to the tail of RBo, which has room for them: COUNT grows by `n` (R120, R124, R127). -/
theorem Kept.copyToTail {l : List RingIx} (i : RingIx) {o : RingIx} (ho : o ∈ l) (lo n : Nat) {s : State} (h : Good s)
    (hf : (s.rb o).count + n ≤ (s.rb o).cap) :
    Kept l s (copyToTail i o lo n s) ∧ ((copyToTail i o lo n s).rb o).count = (s.rb o).count + n := by
  have := forUp_index (fun j t => Kept l s t ∧ (t.rb o).count + lo = (s.rb o).count + j)
    (fun v t => t.pushTail o (t.rd i v)) n lo s
    (fun j t h1 h2 ht => by
      have hc := ht.1.cap o
      have h3 := Kept.pushTail (l := l) ht.1.good ho (t.rd i j) (by have := ht.2; omega)
      exact ⟨ht.1.trans h3, by simp; have := ht.2; omega⟩)
    ⟨Kept.refl l h, by omega⟩
  exact ⟨this.1, by have := this.2; simp only [Sys2Proof.Machine.copyToTail]; omega⟩

/-- The stuffing loop with `left` input bytes still in the ring (R102). -/
theorem Kept.stuffLoop {l : List RingIx} {i : RingIx} (hi : i ∈ l) (left k : Nat) {s : State} (h : Good s)
    (hl : left ≤ (s.rb i).count) : Kept l s (stuffLoop i left k s).st := by
  induction left generalizing k s with
  | zero => exact Kept.refl l h
  | succ n ih =>
    have h1 := Kept.dropHead (l := l) h hi 1
    have hle := (h.1 i).1
    have hd : ((s.dropHead i 1).rb i).count + 1 = (s.rb i).count := by simp; omega
    have hc : ((s.dropHead i 1).rb i).cap = (s.rb i).cap := by simp
    simp only [Sys2Proof.Machine.stuffLoop]
    split
    · have h2 := Kept.pushTail (l := l) h1.good hi Config.esc (by omega)
      have hcnt : (((s.dropHead i 1).pushTail i Config.esc).rb i).count = (s.rb i).count := by simp; omega
      split
      · exact h1.trans h2
      · rename_i hne
        have hle2 := (h2.good.1 i).1
        have h3 := Kept.pushTail (l := l) h2.good hi (s.rd i 0 ^^^ Config.escXor) (by omega)
        exact h1.trans (h2.trans (h3.trans (ih _ h3.good (by rw [State.rb_pushTail_same]; simp only; omega))))
    · have h2 := Kept.pushTail (l := l) h1.good hi (s.rd i 0) (by omega)
      exact h1.trans (h2.trans (ih _ h2.good (by rw [State.rb_pushTail_same]; simp only; omega)))

/-- The unstuffing loop with `left` input bytes still in the ring (R103). -/
theorem Kept.unstuffLoop {l : List RingIx} {i : RingIx} (hi : i ∈ l) (left k : Nat) {s : State} (h : Good s)
    (hl : left ≤ (s.rb i).count) : Kept l s (unstuffLoop i left k s).st := by
  induction left using Nat.strongRecOn generalizing k s with
  | _ left ih =>
    match left with
    | 0 => exact Kept.refl l h
    | n + 1 =>
      have h1 := Kept.dropHead (l := l) h hi 1
      have hle := (h.1 i).1
      have hd : ((s.dropHead i 1).rb i).count + 1 = (s.rb i).count := by simp; omega
      have hc : ((s.dropHead i 1).rb i).cap = (s.rb i).cap := by simp
      unfold Sys2Proof.Machine.unstuffLoop
      simp only
      split
      · exact h1
      · split
        · match n, ih, hl with
          | 0, _, _ => exact h1
          | m + 1, ih, hl =>
            have h2 := Kept.dropHead (l := l) h1.good hi 1
            have hd2 : (((s.dropHead i 1).dropHead i 1).rb i).count + 2 = (s.rb i).count := by simp; omega
            have hc2 : (((s.dropHead i 1).dropHead i 1).rb i).cap = (s.rb i).cap := by simp
            simp only
            split
            · have h3 := Kept.pushTail (l := l) h2.good hi ((s.dropHead i 1).rd i 0 ^^^ Config.escXor) (by omega)
              exact h1.trans (h2.trans (h3.trans (ih m (by omega) _ h3.good
                (by rw [State.rb_pushTail_same]; simp only; omega))))
            · exact h1.trans h2
        · have h2 := Kept.pushTail (l := l) h1.good hi (s.rd i 0) (by omega)
          exact h1.trans (h2.trans (ih n (by omega) _ h2.good (by rw [State.rb_pushTail_same]; simp only; omega)))

theorem Kept.stuffRing {l : List RingIx} {i : RingIx} (hi : i ∈ l) {s : State} (h : Good s) :
    Kept l s (stuffRing i s).st := Kept.stuffLoop hi _ _ h (Nat.le_refl _)

theorem Kept.unstuffRing {l : List RingIx} {i : RingIx} (hi : i ∈ l) {s : State} (h : Good s) :
    Kept l s (unstuffRing i s).st := Kept.unstuffLoop hi _ _ h (Nat.le_refl _)

/-! ## BUILD, DEFRAME, CAPTURE (R116, R120, R124) -/

theorem Kept.pushAll {l : List RingIx} {i : RingIx} (hi : i ∈ l) (bytes : List Byte) {s : State} (h : Good s) :
    Kept l s (pushAll i bytes s).1 := by
  induction bytes generalizing s with
  | nil => exact Kept.refl l h
  | cons b bs ih =>
    simp only [Sys2Proof.Machine.pushAll]
    split
    · exact Kept.refl l h
    · rename_i hf
      have h1 := Kept.pushTail (l := l) h hi b (by simp only [Desc.free] at hf; omega)
      exact h1.trans (ih h1.good)

theorem Kept.flagWrap {l : List RingIx} {i : RingIx} (hi : i ∈ l) {s : State} (h : Good s) : Kept l s (flagWrap i s).1 := by
  simp only [Sys2Proof.Machine.flagWrap]
  split
  · exact Kept.refl l h
  · rename_i hf
    have h1 := Kept.pushHead (l := l) h hi Config.flag (by simp only [Desc.free] at hf; omega)
    split
    · exact h1
    · rename_i hf2
      exact h1.trans (Kept.pushTail h1.good hi Config.flag (by simp only [Desc.free] at hf2; omega))

/-- BUILD works on the scratch ring alone (R116). -/
theorem Kept.build {l : List RingIx} {s : State} (hi : s.scrIx ∈ l) (code : BitVec 7) (ackW : Bool) (hash : Half)
    (payload : List Byte) (h : Good s) : Kept l s (build code ackW hash payload s).1 := by
  have h1 := Kept.flushRb (l := l) h hi
  have h2 := h1.trans (Kept.pushAll hi (frameContent code ackW hash payload) h1.good)
  simp only [Sys2Proof.Machine.build]
  split
  · have h3 := h2.trans (Kept.stuffRing hi h2.good)
    split
    · exact h3.trans (Kept.flagWrap hi h3.good)
    · exact h3
  · exact h2

theorem Kept.buildAck {l : List RingIx} {s : State} (hi : s.scrIx ∈ l) (hash : Half) (h : Good s) :
    Kept l s (buildAck hash s).1 := Kept.build hi _ _ _ _ h

/-- DEFRAME works on the scratch ring alone (R120). -/
theorem Kept.deframe {l : List RingIx} {s : State} (hi : s.scrIx ∈ l) (at_ len : Nat) (h : Good s) :
    Kept l s (deframe at_ len s).1 := by
  have h1 := Kept.flushRb (l := l) h hi
  simp only [Sys2Proof.Machine.deframe]
  split
  · exact h1
  · rename_i hf
    have h2 := (Kept.copyToTail s.rxIx hi (at_ + 1) (len - 2) h1.good (by simp at hf ⊢; omega)).1
    have h3 := h1.trans (h2.trans (Kept.unstuffRing hi h2.good))
    split <;> exact h3

/-- CAPTURE works on the side rings and LS_LASTRX (R124). -/
theorem Kept.captureFrame {l : List RingIx} {s : State} (hd : s.sideIx ∈ l) (hn : s.slenIx ∈ l) (hne : s.slenIx ≠ s.sideIx)
    (d : Frame) (h : Good s) (hp : d.plen ≤ (s.rb s.sideIx).free) (hq : 1 ≤ (s.rb s.slenIx).free) :
    Kept l s (captureFrame d s) := by
  simp only [Desc.free] at hp hq
  have hle := (h.1 s.sideIx).1
  have h1 := (Kept.copyToTail (l := [s.sideIx]) s.scrIx (List.mem_singleton.mpr rfl) Config.hdrLen d.plen h (by omega)).1
  have hr := h1.others s.slenIx (by simpa using hne)
  have h1' := h1.mono (l' := l) (by simpa using hd)
  have h2 := Kept.pushTail (l := l) h1'.good hn (BitVec.ofNat 8 d.plen) (by rw [hr]; omega)
  exact h1'.trans (h2.trans (Kept.setLastRx h2.good d.hash))

/-- Removing a range that lies in the content (R82). -/
theorem Kept.cutRange {l : List RingIx} {i : RingIx} (hi : i ∈ l) (f k : Nat) {s : State} (h : Good s)
    (hc : 0 < (s.rb i).cap) (hk : k ≤ (s.rb i).count) : Kept l s (cutRange i f k s) := by
  have ok := h.1 i
  have span : ∀ (g : Nat → Nat) (x : Nat → Nat), ∀ j t, Kept l s t ∧ t.rb i = s.rb i →
      Kept l s (t.wr i (g j) (t.rd i (x j))) ∧ (t.wr i (g j) (t.rd i (x j))).rb i = s.rb i := by
    intro g x j t ht
    exact ⟨ht.1.trans (Kept.wr ht.1.good hi (by rw [ht.2]; exact hc) _ _), by rw [State.wr_rb, ht.2]⟩
  simp only [Sys2Proof.Machine.cutRange]
  split
  · have h1 := forDown_keeps (fun t => Kept l s t ∧ t.rb i = s.rb i) (fun j t => t.wr i (j + k) (t.rd i j)) f 0 s
      (fun j t _ _ ht => span (fun j => j + k) (fun j => j) j t ht) ⟨Kept.refl l h, rfl⟩
    refine h1.1.trans (Kept.setRb h1.1.good hi _ ?_ (by rw [h1.2]) (by rw [h1.2]))
    rw [h1.1.addrW]
    exact ⟨by have := ok.1; simp only; omega, fun _ => Nat.mod_lt _ hc, fun h0 => by simp only at h0; omega, ok.2.2.2⟩
  · have h1 := forUp_keeps (fun t => Kept l s t ∧ t.rb i = s.rb i) (fun j t => t.wr i (j - k) (t.rd i j))
      ((s.rb i).count - f - k) (f + k) s (fun j t _ _ ht => span (fun j => j - k) (fun j => j) j t ht) ⟨Kept.refl l h, rfl⟩
    refine h1.1.trans (Kept.setRb h1.1.good hi _ ?_ (by rw [h1.2]) (by rw [h1.2]))
    rw [h1.1.addrW]
    exact ⟨by have := ok.1; simp only; omega, ok.2⟩

/-! ## The search stays inside the stream (R95) -/

theorem occursAt_bound {p xs : List Byte} {i : Nat} (h : occursAt p xs i = true) : i + p.length ≤ xs.length := by
  simp only [occursAt, Bool.and_eq_true, decide_eq_true_eq] at h
  exact h.1

theorem insideCandidate_bound (r : Rule) (xs : List Byte) (h fuel i len : Nat) (hi : h ≤ i) (hx : i ≤ xs.length)
    (e : insideCandidate r xs h fuel i = some len) : h + len ≤ xs.length := by
  induction fuel generalizing i with
  | zero => simp [insideCandidate] at e
  | succ n ih =>
    simp only [insideCandidate] at e
    split at e
    · cases e
    · split at e
      · cases e; omega
      · split at e
        · rename_i ho
          have := occursAt_bound ho.2
          cases e; omega
        · split at e
          · cases e
          · split at e
            · cases e
            · exact ih (i + 1) (by omega) (by omega) e

theorem candidate_bound (r : Rule) (xs : List Byte) (h len : Nat) (e : candidate r xs h = some len) :
    h + len ≤ xs.length := by
  simp only [candidate] at e
  split at e
  · rename_i ho
    exact insideCandidate_bound r xs h _ _ len (by omega) (occursAt_bound ho) e
  · cases e

/-- A frame that a search finds lies in the stream (R95). -/
theorem search_bound (r : Rule) (xs : List Byte) (start h len : Nat) (e : search r xs start = some (h, len)) :
    h + len ≤ xs.length := by
  have key : ∀ fuel at_, searchFrom r xs fuel at_ = some (h, len) → h + len ≤ xs.length := by
    intro fuel
    induction fuel with
    | zero => intro at_ e; simp [searchFrom] at e
    | succ n ih =>
      intro at_ e
      simp only [searchFrom] at e
      split at e
      · split at e
        · rename_i hc
          cases e
          exact candidate_bound r xs _ _ hc
        · exact ih _ e
      · cases e
  exact key _ _ e

/-- A frame that a search finds has its whole head in it, so it is not empty when the head is not (R95). -/
theorem search_pos (r : Rule) (xs : List Byte) (start h len : Nat) (e : search r xs start = some (h, len)) :
    r.head.length ≤ len := by
  have inside : ∀ fuel i, h + r.head.length ≤ i → insideCandidate r xs h fuel i = some len → r.head.length ≤ len := by
    intro fuel
    induction fuel with
    | zero => intro i _ e; simp [insideCandidate] at e
    | succ n ih =>
      intro i hi e
      simp only [insideCandidate] at e
      split at e
      · cases e
      · split at e
        · cases e; omega
        · split at e
          · cases e; omega
          · split at e
            · cases e
            · split at e
              · cases e
              · exact ih (i + 1) (by omega) e
  have key : ∀ fuel at_, searchFrom r xs fuel at_ = some (h, len) → r.head.length ≤ len := by
    intro fuel
    induction fuel with
    | zero => intro at_ e; simp [searchFrom] at e
    | succ n ih =>
      intro at_ e
      simp only [searchFrom] at e
      split at e
      · split at e
        · rename_i hc
          cases e
          simp only [candidate] at hc
          split at hc
          · exact inside _ _ (Nat.le_refl _) hc
          · cases hc
        · exact ih _ e
      · cases e
  exact key _ _ e

/-! ## SCAN (R121, R122) -/

theorem rx_mem_rings (g : Session) : g.rx ∈ g.rings := by unfold Session.rings; split <;> simp
theorem scr_mem_rings (g : Session) : g.scr ∈ g.rings := by unfold Session.rings; split <;> simp
theorem side_mem_rings {g : Session} (h : g.sqe = true) : g.side ∈ g.rings := by simp [Session.rings, h]
theorem slen_mem_rings {g : Session} (h : g.sqe = true) : g.slen ∈ g.rings := by simp [Session.rings, h]

/-- A frame is captured only with the side queue enabled and room in it (R122). -/
theorem classify_capture {m : Mode} {d : Frame} {s : State} {a : Bool} (h : classify m d s = .capture a) :
    s.ls.sess.sqe = true ∧ d.plen ≤ (s.rb s.sideIx).free ∧ 1 ≤ (s.rb s.slenIx).free := by
  cases m with
  | ordinary want out =>
    simp only [classify, classifyOrdinary] at h
    split at h
    · split at h <;> cases h
    · split at h <;> cases h
  | ackWait hs =>
    simp only [classify, classifyWait] at h
    split at h
    · split at h <;> cases h
    · split at h
      · rename_i hq
        split at h
        · split at h <;> cases h
        · split at h
          · rename_i hf; exact ⟨hq.2, hf⟩
          · cases h
      · cases h

/-- The end of a scan works on the receive ring (R121). -/
theorem Kept.scanRest {l : List RingIx} {s : State} (hi : s.rxIx ∈ l) (off : Nat) (h : Good s) :
    Kept l s (scanRest off s) := by
  simp only [Sys2Proof.Machine.scanRest]
  split
  · split
    · have h1 := Kept.dropHead (l := l) h hi 1
      exact h1.trans (Kept.dropUntil hi _ _ h1.good)
    · exact Kept.dropUntil hi _ _ h
  · exact Kept.refl l h

/-- SCAN works on the session's rings, LS_LASTRX and ACKFAIL alone (R121). -/
theorem Kept.scan (m : Mode) (fuel off : Nat) {s : State} (h : Good s) (hd : s.ls.sess.Distinct) :
    Kept s.ls.sess.rings s (Sys2Proof.Machine.scan m fuel off s).1 := by
  induction fuel generalizing off s with
  | zero => exact Kept.refl _ h
  | succ n ih =>
    have hrx : s.rxIx ∈ s.ls.sess.rings := rx_mem_rings _
    have hsc : s.scrIx ∈ s.ls.sess.rings := scr_mem_rings _
    -- going on with the scan after work on the session's rings
    have next : ∀ (off' : Nat) (t : State), Kept s.ls.sess.rings s t → Kept s.ls.sess.rings s (Sys2Proof.Machine.scan m n off' t).1 := by
      intro off' t ht
      have := ih off' ht.good (by rw [ht.sess]; exact hd)
      rw [ht.sess] at this
      exact ht.trans this
    simp only [Sys2Proof.Machine.scan]
    split
    · exact Kept.scanRest hrx off h
    · rename_i at0 len hs
      have hb : at0 + len ≤ (s.rb s.rxIx).count := by
        have := search_bound _ _ _ _ _ hs
        simpa using this
      have hf1 : Kept [s.scrIx] s (Sys2Proof.Machine.deframe at0 len s).1 := Kept.deframe (List.mem_singleton.mpr rfl) _ _ h
      have hrb : ((Sys2Proof.Machine.deframe at0 len s).1.rb s.rxIx) = s.rb s.rxIx := hf1.others _ (by
        simp only [List.mem_singleton]; exact hd.1)
      have hf : Kept s.ls.sess.rings s (Sys2Proof.Machine.deframe at0 len s).1 := hf1.mono (by simpa using hsc)
      split
      · rename_i t ht
        rw [ht] at hf
        have hr : t.rxIx = s.rxIx := hf.rxIx
        split
        · exact next _ _ (hf.trans (Kept.dropHead hf.good (by rw [hr]; exact hrx) _))
        · exact next _ _ hf
      · rename_i t d ht
        rw [ht] at hf hrb
        simp only at hf hrb
        -- the state after the noise before the frame is dropped
        generalize hu : (if off = 0 then t.dropHead t.rxIx at0 else t) = u
        generalize (if off = 0 then 0 else at0) = at1
        have hr : t.rxIx = s.rxIx := hf.rxIx
        have ku : Kept s.ls.sess.rings s u := by
          rw [← hu]; split
          · exact hf.trans (Kept.dropHead hf.good (by rw [hr]; exact hrx) _)
          · exact hf
        have hru : u.rxIx = s.rxIx := ku.rxIx
        have hcount : len ≤ (u.rb s.rxIx).count := by
          rw [← hu]; split
          · rw [hr, State.rb_dropHead_same, Desc.dropHead_count, hrb]; omega
          · rw [hrb]; omega
        have hcut : ∀ v, Kept s.ls.sess.rings s v → v.rb s.rxIx = u.rb s.rxIx → 0 < len →
            Kept s.ls.sess.rings s (Sys2Proof.Machine.cutRange s.rxIx at1 len v) := by
          intro v hv hvr hl
          refine hv.trans (Kept.cutRange hrx at1 len hv.good ?_ (by rw [hvr]; exact hcount))
          have := (hv.good.1 s.rxIx).1
          rw [hvr] at this ⊢
          omega
        have hlen : 0 < len := by
          by_contra h0
          have : search linkRule (s.content s.rxIx) off = some (at0, 0) := by rw [hs]; congr; omega
          exact absurd (search_pos _ _ _ _ _ this) (by decide)
        rw [hru]
        split
        · exact hcut u ku rfl hlen
        · exact next _ _ (hcut u ku rfl hlen)
        · have kc := hcut u ku rfl hlen
          have kb := kc.trans (Kept.buildAck (by rw [kc.scrIx]; exact hsc) d.hash kc.good)
          split
          · exact kb
          · exact next _ _ (kb.trans (Kept.setAckFail kb.good))
        · rename_i a hcl
          have hcap := classify_capture hcl
          have hq : s.ls.sess.sqe = true := by rw [← ku.sess]; exact hcap.1
          have hsd : u.sideIx ∈ s.ls.sess.rings := by rw [ku.sideIx]; exact side_mem_rings hq
          have hsl : u.slenIx ∈ s.ls.sess.rings := by rw [ku.slenIx]; exact slen_mem_rings hq
          have hdq := hd.2 hq
          have k1 : Kept [u.sideIx, u.slenIx] u (Sys2Proof.Machine.captureFrame d u) :=
            Kept.captureFrame (by simp) (by simp) (by rw [ku.slenIx, ku.sideIx]; exact hdq.2.2.2.2) d ku.good hcap.2.1
              hcap.2.2
          have hvr : (Sys2Proof.Machine.captureFrame d u).rb s.rxIx = u.rb s.rxIx := by
            refine k1.others _ ?_
            rw [ku.sideIx, ku.slenIx]
            simp only [List.mem_cons, List.not_mem_nil, or_false, not_or]
            exact ⟨fun e => hdq.1 e.symm, fun e => hdq.2.2.1 e.symm⟩
          have kc := hcut _ (ku.trans (k1.mono (by
            intro r hr'
            simp only [List.mem_cons, List.not_mem_nil, or_false] at hr'
            rcases hr' with e | e <;> rw [e] <;> assumption))) hvr hlen
          split
          · have kb := kc.trans (Kept.buildAck (by rw [kc.scrIx]; exact hsc) d.hash kc.good)
            split
            · exact kb
            · exact next _ _ (kb.trans (Kept.setAckFail kb.good))
          · exact next _ _ kc
        · exact next _ _ ku
        · exact ku

end Sys2Proof.Machine
end

