-- ==== Sys2Proof/Laws/Content.lean ====
section
/-! SUPPORT. What the loops make of the content of a ring, on states without a raced host write. -/

namespace Sys2Proof.Machine

/-- A ring whose storage is apart from the rings worked on reads as before, at every index. -/
theorem Kept.rd_eq {l : List RingIx} {s t : State} (h : Kept l s t) (hg : Good s) (hz : s.hazard = false) {i : RingIx}
    (hi : i ∉ l) (ha : ∀ r ∈ l, StorageApart s i r) (hc : 0 < (s.rb i).cap) (v : Nat) : t.rd i v = s.rd i v := by
  have hr := h.others i hi
  rw [t.rd_plain i v (by rw [hr]; exact hc) ⟨by rw [h.hazard]; exact hz, h.good.2.1.1, h.good.1 i⟩,
    s.rd_plain i v hc ⟨hz, hg.2.1.1, hg.1 i⟩, hr]
  refine h.outside _ (fun r hrl => ?_)
  have h1 := (s.rb i).phys_lt v hc
  have h2 : StorageApart s i r := ha r hrl
  unfold StorageApart at h2
  by_contra hh
  simp only [Desc.holds, Desc.addr, Bool.not_eq_false, Bool.and_eq_true] at hh
  have h3 := of_decide_eq_true hh.1
  have h4 := of_decide_eq_true hh.2
  omega

/-- The content of a ring whose storage is apart from the rings worked on stays. -/
theorem Kept.content_eq {l : List RingIx} {s t : State} (h : Kept l s t) (hg : Good s) (hz : s.hazard = false) {i : RingIx}
    (hi : i ∉ l) (ha : ∀ r ∈ l, StorageApart s i r) : t.content i = s.content i := by
  have hr := h.others i hi
  by_cases hc : 0 < (s.rb i).cap
  · apply List.ext_getElem
    · simp [hr]
    · intro j h1 h2
      rw [State.content_getElem, State.content_getElem, h.rd_eq hg hz hi ha hc]
  · have h0 : (s.rb i).count = 0 := by have := (hg.1 i).1; omega
    have e : ∀ u : State, (u.rb i).count = 0 → u.content i = [] := fun u hu => List.eq_nil_of_length_eq_zero (by simp [hu])
    rw [e s h0, e t (by rw [hr]; exact h0)]

/-- Pushing a list of bytes at the tail (R116): it succeeds iff there is room, and then the bytes stand behind the content. -/
theorem pushAll_content (i : RingIx) (bytes : List Byte) {s : State} (h : Good s) (hz : s.hazard = false) :
    ((pushAll i bytes s).2 = true ↔ (s.rb i).count + bytes.length ≤ (s.rb i).cap) ∧
      ((pushAll i bytes s).2 = true → (pushAll i bytes s).1.content i = s.content i ++ bytes ∧
        (pushAll i bytes s).1.rb i = { s.rb i with count := (s.rb i).count + bytes.length }) := by
  have hle := (h.1 i).1
  induction bytes generalizing s with
  | nil => simp [pushAll, hle]
  | cons b bs ih =>
    simp only [pushAll]
    split
    · rename_i hf
      simp only [Desc.free] at hf
      simp
      omega
    · rename_i hf
      simp only [Desc.free] at hf
      have hlt : (s.rb i).count < (s.rb i).cap := by omega
      have k := Kept.pushTail (l := [i]) h (by simp) b hlt
      have ih' := ih k.good (by rw [k.hazard]; exact hz) ((k.good.1 i).1)
      rw [State.rb_pushTail_same, State.content_pushTail s i b hlt ⟨hz, h.2.1.1, h.1 i⟩] at ih'
      simp only [List.append_assoc, List.singleton_append] at ih'
      refine ⟨?_, fun hs => ⟨(ih'.2 hs).1, ?_⟩⟩
      · rw [ih'.1]; simp only [List.length_cons]; omega
      · rw [(ih'.2 hs).2]; simp only [List.length_cons]; congr 1; omega

/-- Dropping on to the byte `b` removes the bytes before its first occurrence, and nothing else changes (R99, R121). -/
theorem dropUntil_content (i : RingIx) (b : Byte) (fuel : Nat) {s : State} (hf : (s.rb i).count ≤ fuel) :
    (State.dropUntil i b fuel s).content i = (s.content i).dropWhile (fun x => x != b) := by
  induction fuel generalizing s with
  | zero =>
    have : s.content i = [] := List.eq_nil_of_length_eq_zero (by simp; omega)
    simp [State.dropUntil, this]
  | succ n ih =>
    simp only [State.dropUntil]
    split
    · rename_i hc
      rw [ih (by simp; omega), State.content_dropHead]
      have hne : s.content i = s.rd i 0 :: (s.content i).drop 1 := by
        apply List.ext_getElem
        · simp; omega
        · intro j h1 h2
          cases j with
          | zero => simp [State.content_getElem]
          | succ j => simp [State.content_getElem]
      conv_rhs => rw [hne]
      simp [hc.2]
    · rename_i hc
      by_cases h0 : (s.rb i).count = 0
      · have : s.content i = [] := List.eq_nil_of_length_eq_zero (by simp [h0])
        simp [this]
      · have hb : s.rd i 0 = b := by by_contra hne; exact hc ⟨by omega, hne⟩
        have hne : s.content i = s.rd i 0 :: (s.content i).drop 1 := by
          apply List.ext_getElem
          · simp; omega
          · intro j h1 h2
            cases j with
            | zero => simp [State.content_getElem]
            | succ j => simp [State.content_getElem]
        conv_rhs => rw [hne, hb, List.dropWhile_cons]
        rw [hb] at hne
        simpa using hne

/-- A copy of a range to the tail of another ring with room for it, their storages apart (R120, R124, R127). -/
theorem copyToTail_content (i o : RingIx) (lo n : Nat) {s : State} (h : Good s) (hz : s.hazard = false) (hio : i ≠ o)
    (ha : StorageApart s i o) (hc : 0 < (s.rb i).cap) (hf : (s.rb o).count + n ≤ (s.rb o).cap) :
    (copyToTail i o lo n s).content o = s.content o ++ s.slice i lo n := by
  have := forUp_index (fun j t => Kept [o] s t ∧ (t.rb o).count + lo = (s.rb o).count + j ∧
      t.content o = s.content o ++ s.slice i lo (j - lo))
    (fun v t => t.pushTail o (t.rd i v)) n lo s
    (fun j t h1 h2 ht => by
      have hcap := ht.1.cap o
      have hlt : (t.rb o).count < (t.rb o).cap := by have := ht.2.1; omega
      have h3 := Kept.pushTail (l := [o]) ht.1.good (by simp) (t.rd i j) hlt
      refine ⟨ht.1.trans h3, by simp; have := ht.2.1; omega, ?_⟩
      rw [State.content_pushTail t o _ hlt ⟨by rw [ht.1.hazard]; exact hz, ht.1.good.2.1.1, ht.1.good.1 o⟩, ht.2.2,
        ht.1.rd_eq h hz (by simpa using hio) (by simpa using ha) hc, show j + 1 - lo = (j - lo) + 1 by omega]
      simp only [State.slice, List.range'_concat, List.map_append, List.append_assoc]
      simp only [List.map_cons, List.map_nil, Nat.one_mul]
      rw [show lo + (j - lo) = j by omega])
    ⟨Kept.refl _ h, by omega, by simp [State.slice]⟩
  have h3 := this.2.2
  rw [show lo + n - lo = n by omega] at h3
  exact h3

end Sys2Proof.Machine
end

