-- ==== Sys2Proof/Laws/PerInstr.lean ====
section
/-! SUPPORT. One law per instruction: its encoding matches its row of the opcode map in every fixed bit (R63, R66). -/

namespace Sys2Proof.Laws.EncodeMatchesRow

open Sys2Proof.Machine

/-- The encoding of `i` matches a row of the opcode map: its OPC and every bit its format fixes to 0. -/
def Statement (i : Instr) : Prop := ∃ r ∈ opcodeMap, encode i &&& r.2 = r.1

/-- A row of the map that the encoding matches. -/
theorem of_row {i : Instr} (r : Word × Word) (h : r ∈ opcodeMap) (e : encode i &&& r.2 = r.1) : Statement i := ⟨r, h, e⟩

theorem nop : Statement .nop := by
  refine of_row (0x00000000#32, 0xFFFFFFFF#32) (by decide) ?_
  decide
theorem rbInit (ra : RingIx) : Statement (.rbInit ra) := by
  refine of_row (0x00000010#32, 0xFFFFF8FF#32) (by decide) ?_
  revert ra
  decide +kernel
theorem rbPusho (ra : RingIx) (ea : End) : Statement (.rbPusho ra ea) := by
  refine of_row (0x00000011#32, 0xFFFEF8FF#32) (by decide) ?_
  revert ra
  cases ea <;> decide +kernel
theorem rbPushb (ra : RingIx) (ea : End) : Statement (.rbPushb ra ea) := by
  refine of_row (0x00000012#32, 0xFFFEF8FF#32) (by decide) ?_
  revert ra
  cases ea <;> decide +kernel
theorem rbPull (ra : RingIx) (ea : End) (discard : Bool) : Statement (.rbPull ra ea discard) := by
  refine of_row (0x00000013#32, 0xFFFAF8FF#32) (by decide) ?_
  revert ra discard
  cases ea <;> decide +kernel
theorem rbRead (ra : RingIx) (ea : End) : Statement (.rbRead ra ea) := by
  refine of_row (0x00000014#32, 0xFFFEF8FF#32) (by decide) ?_
  revert ra
  cases ea <;> decide +kernel
theorem rbWrite (ra : RingIx) (ea : End) : Statement (.rbWrite ra ea) := by
  refine of_row (0x00000015#32, 0xFFFEF8FF#32) (by decide) ?_
  revert ra
  cases ea <;> decide +kernel
theorem rbCut (ra : RingIx) (ea : End) (discard : Bool) : Statement (.rbCut ra ea discard) := by
  refine of_row (0x00000016#32, 0xFFFAF8FF#32) (by decide) ?_
  revert ra discard
  cases ea <;> decide +kernel
theorem rbMove (ra : RingIx) (ea : End) (rb : RingIx) (eb : End) (destr : Bool) : Statement (.rbMove ra ea rb eb destr) := by
  refine of_row (0x00000017#32, 0xFFF888FF#32) (by decide) ?_
  revert ra rb destr
  cases ea <;> cases eb <;> decide +kernel
theorem rbRotl (ra : RingIx) (dir : Dir) : Statement (.rbRotl ra dir) := by
  refine of_row (0x00000018#32, 0xFFFBF8FF#32) (by decide) ?_
  revert ra
  cases dir <;> decide +kernel
theorem rbRotp (ra : RingIx) : Statement (.rbRotp ra) := by
  refine of_row (0x00000019#32, 0xFFFFF8FF#32) (by decide) ?_
  revert ra
  decide +kernel
theorem rbFull (ra : RingIx) : Statement (.rbFull ra) := by
  refine of_row (0x0000001A#32, 0xFFFFF8FF#32) (by decide) ?_
  revert ra
  decide +kernel
theorem rbEmpty (ra : RingIx) : Statement (.rbEmpty ra) := by
  refine of_row (0x0000001B#32, 0xFFFFF8FF#32) (by decide) ?_
  revert ra
  decide +kernel
theorem rbFlush (ra : RingIx) : Statement (.rbFlush ra) := by
  refine of_row (0x0000001C#32, 0xFFFFF8FF#32) (by decide) ?_
  revert ra
  decide +kernel
theorem fsMatch (ra : RingIx) (sel : Sel) (tie : Tie) : Statement (.fsMatch ra sel tie) := by
  refine of_row (0x00000020#32, 0xFFF3F8FF#32) (by decide) ?_
  revert ra
  cases sel <;> cases tie <;> decide +kernel
theorem fsSearch (ra : RingIx) (rb : RingIx) : Statement (.fsSearch ra rb) := by
  refine of_row (0x00000021#32, 0xFFFF88FF#32) (by decide) ?_
  revert ra rb
  decide +kernel
theorem fsSrchadv (ra : RingIx) (rb : RingIx) (flags : AdvFlags) : Statement (.fsSrchadv ra rb flags) := by
  obtain ⟨f0, f1, f2, f3, f4⟩ := flags
  refine of_row (0x00000022#32, 0xFE0F88FF#32) (by decide) ?_
  revert ra rb
  cases f0 <;> cases f1 <;> cases f2 <;> cases f3 <;> cases f4 <;> decide +kernel
theorem bsStuff (ra : RingIx) : Statement (.bsStuff ra) := by
  refine of_row (0x00000030#32, 0xFFFFF8FF#32) (by decide) ?_
  revert ra
  decide +kernel
theorem bsUnstuff (ra : RingIx) : Statement (.bsUnstuff ra) := by
  refine of_row (0x00000031#32, 0xFFFFF8FF#32) (by decide) ?_
  revert ra
  decide +kernel
theorem crcSeed : Statement .crcSeed := by
  refine of_row (0x00000040#32, 0xFFFFFFFF#32) (by decide) ?_
  decide
theorem crcByte : Statement .crcByte := by
  refine of_row (0x00000041#32, 0xFFFFFFFF#32) (by decide) ?_
  decide
theorem crcRun (ra : RingIx) : Statement (.crcRun ra) := by
  refine of_row (0x00000042#32, 0xFFFFF8FF#32) (by decide) ?_
  revert ra
  decide +kernel
theorem crcAppend (ra : RingIx) : Statement (.crcAppend ra) := by
  refine of_row (0x00000043#32, 0xFFFFF8FF#32) (by decide) ?_
  revert ra
  decide +kernel
theorem crcCheck (ra : RingIx) : Statement (.crcCheck ra) := by
  refine of_row (0x00000044#32, 0xFFFFF8FF#32) (by decide) ?_
  revert ra
  decide +kernel
theorem lpInit : Statement .lpInit := by
  refine of_row (0x00000050#32, 0xFFFFFFFF#32) (by decide) ?_
  decide
theorem lpSend (ra : RingIx) (ack : Bool) : Statement (.lpSend ra ack) := by
  refine of_row (0x00000051#32, 0xFFFBF8FF#32) (by decide) ?_
  revert ra ack
  decide +kernel
theorem lpRecv (ra : RingIx) (want : Nat) : Statement (.lpRecv ra want) := by
  have key : ∀ w : Fin 128, ∀ ra : RingIx, encode (.lpRecv ra w.val) &&& 0xF80FF8FF#32 = 0x00000052#32 := by decide +kernel
  refine of_row (0x00000052#32, 0xF80FF8FF#32) (by decide) ?_
  have h := key ⟨want % 128, Nat.mod_lt _ (by decide)⟩ ra
  simpa [encode] using h

end Sys2Proof.Laws.EncodeMatchesRow
end

