-- ==== Sys2Proof/Laws/Stuff.lean ====
section
/-! SUPPORT. The stuffing of a list of bytes, byte by byte, and bytes that DEFRAME does not accept (43_byte_stuffing R101,
45_link_protocol R120). -/

namespace Sys2Proof.Machine

@[simp] theorem stuff_nil : stuff [] = [] := rfl

@[simp] theorem stuff_cons (b : Byte) (y : List Byte) : stuff (b :: y) = stuff1 b ++ stuff y := rfl

/-- A byte is stuffed to itself, or to two bytes the first of which is ESC. -/
theorem stuff1_cases (b : Byte) : stuff1 b = [b] ∨ stuff1 b = [Config.esc, b ^^^ Config.escXor] := by
  unfold stuff1
  split <;> simp

/-- Stuffing never shortens. -/
theorem length_le_length_stuff (y : List Byte) : y.length ≤ (stuff y).length := by
  induction y with
  | nil => simp
  | cons b y ih => rcases stuff1_cases b with h | h <;> simp [h] <;> omega

/-- A stuffing without ESC is of bytes that needed none. -/
theorem stuff_eq_of_no_esc {y : List Byte} (h : Config.esc ∉ stuff y) : stuff y = y := by
  induction y with
  | nil => rfl
  | cons b y ih =>
    rw [stuff_cons] at h ⊢
    rcases stuff1_cases b with hb | hb
    · simp only [hb, List.mem_append, not_or] at h
      simp [hb, ih h.2]
    · simp [hb] at h

/-- Fewer than five bytes are no frame (R120). -/
theorem not_deframes_of_short {x : List Byte} (h : x.length < 5) : ¬ Deframes x := by
  rintro ⟨y, rfl, hy, -⟩
  have := length_le_length_stuff y
  omega

/-- Bytes without ESC whose CRC residue is not 0 are no frame (R120). -/
theorem not_deframes_of_residue {x : List Byte} (he : Config.esc ∉ x) (hc : crc16 x ≠ 0#16) : ¬ Deframes x := by
  rintro ⟨y, rfl, -, -, h0⟩
  rw [stuff_eq_of_no_esc he] at hc
  exact hc h0

/-- Noise alone is no frame. -/
theorem Junk.noise {xs : List Byte} (h : (0x7E#8 : Byte) ∉ xs) : Junk xs := ⟨xs, [], h, by simp, by simp⟩

/-- A FLAG and bytes that DEFRAME does not accept behind junk are junk. -/
theorem Junk.append_body {xs x : List Byte} (h : Junk xs) (hx : (0x7E#8 : Byte) ∉ x) (hd : ¬ Deframes x) :
    Junk (xs ++ 0x7E#8 :: x) := by
  obtain ⟨n, bs, hn, hb, rfl⟩ := h
  refine ⟨n, bs ++ [x], hn, ?_, by simp⟩
  intro y hy
  rcases List.mem_append.mp hy with hy | hy
  · exact hb y hy
  · obtain rfl := List.mem_singleton.mp hy
    exact ⟨hx, hd⟩

end Sys2Proof.Machine
end

