-- ==== Sys2Proof/Tests/Slice0.lean ====
section
/-! SUPPORT. Small tests: ill-formed terms, the words of the encodings, one or two steps of every command against the worked
examples and vectors of spec/, and for every statement with hypotheses a state that meets them. -/

namespace Sys2Proof.Tests

open Sys2Proof.Machine

/-! ## WellFormed -/

theorem test_wellFormed_refuses_wide_want : (Instr.lpRecv 0 200).wellFormed = false := by decide
theorem test_wellFormed_want_boundary :
    (Instr.lpRecv 0 127).wellFormed = true ∧ (Instr.lpRecv 0 128).wellFormed = false := by decide

/-! ## Decode: the words of 30_encoding R66 and R69, field by field -/

theorem test_decode_nop : decode 0x00000000#32 = .ok .nop := rfl
theorem test_decode_init_push :
    decode 0x00000310#32 = .ok (.rbInit 3) ∧ decode 0x00010511#32 = .ok (.rbPusho 5 .head) ∧
      decode 0x00000012#32 = .ok (.rbPushb 0 .tail) := ⟨rfl, rfl, rfl⟩
theorem test_decode_pull_read_write_cut :
    decode 0x00050313#32 = .ok (.rbPull 3 .head true) ∧ decode 0x00000714#32 = .ok (.rbRead 7 .tail) ∧
      decode 0x00010015#32 = .ok (.rbWrite 0 .head) ∧ decode 0x00040216#32 = .ok (.rbCut 2 .tail true) :=
  ⟨rfl, rfl, rfl, rfl⟩
theorem test_decode_move :
    decode 0x00060117#32 = .ok (.rbMove 1 .tail 0 .head true) ∧
      decode 0x00013417#32 = .ok (.rbMove 4 .head 3 .tail false) := ⟨rfl, rfl⟩
theorem test_decode_rotate_query :
    decode 0x00040018#32 = .ok (.rbRotl 0 .right) ∧ decode 0x00000018#32 = .ok (.rbRotl 0 .left) ∧
      decode 0x00000619#32 = .ok (.rbRotp 6) ∧ decode 0x0000001A#32 = .ok (.rbFull 0) ∧
      decode 0x0000011B#32 = .ok (.rbEmpty 1) ∧ decode 0x0000021C#32 = .ok (.rbFlush 2) :=
  ⟨rfl, rfl, rfl, rfl, rfl, rfl⟩
theorem test_decode_search :
    decode 0x00040020#32 = .ok (.fsMatch 0 .tailPat .low) ∧ decode 0x00080120#32 = .ok (.fsMatch 1 .headPat .high) ∧
      decode 0x00001021#32 = .ok (.fsSearch 0 1) ∧
      decode 0x01401022#32 =
        .ok (.fsSrchadv 0 1 { onFull := false, toStart := false, toStart1 := true, entire := false, ffwd := true }) ∧
      decode 0x00A01022#32 =
        .ok (.fsSrchadv 0 1 { onFull := false, toStart := true, toStart1 := false, entire := true, ffwd := false }) ∧
      decode 0x00101022#32 =
        .ok (.fsSrchadv 0 1 { onFull := true, toStart := false, toStart1 := false, entire := false, ffwd := false }) :=
  ⟨rfl, rfl, rfl, rfl, rfl, rfl⟩
theorem test_decode_stuff_crc :
    decode 0x00000030#32 = .ok (.bsStuff 0) ∧ decode 0x00000131#32 = .ok (.bsUnstuff 1) ∧
      decode 0x00000040#32 = .ok .crcSeed ∧ decode 0x00000041#32 = .ok .crcByte ∧ decode 0x00000242#32 = .ok (.crcRun 2) ∧
      decode 0x00000343#32 = .ok (.crcAppend 3) ∧ decode 0x00000444#32 = .ok (.crcCheck 4) :=
  ⟨rfl, rfl, rfl, rfl, rfl, rfl, rfl⟩
theorem test_decode_link :
    decode 0x00000050#32 = .ok .lpInit ∧ decode 0x00040251#32 = .ok (.lpSend 2 true) ∧
      decode 0x00000651#32 = .ok (.lpSend 6 false) ∧ decode 0x00000252#32 = .ok (.lpRecv 2 0) ∧
      decode 0x00200352#32 = .ok (.lpRecv 3 2) ∧ decode 0x07F00052#32 = .ok (.lpRecv 0 127) :=
  ⟨rfl, rfl, rfl, rfl, rfl, rfl⟩
/-- R67, R68: a reserved opcode, NOP with another bit, a listed opcode with a must-be-zero bit. -/
theorem test_decode_refuses :
    decode 0x00000053#32 = .error (.reservedOpcode 0x53) ∧ decode 0x00000100#32 = .error (.mustBeZero 0x00) ∧
      decode 0x00020012#32 = .error (.mustBeZero 0x12) ∧ decode 0x08000052#32 = .error (.mustBeZero 0x52) :=
  ⟨rfl, rfl, rfl, rfl⟩
theorem test_decode_bytes : decodeBytes [0x17#8, 0x01#8, 0x06#8, 0x00#8] = .ok (.rbMove 1 .tail 0 .head true) := rfl
theorem test_encode :
    encode (.rbMove 1 .tail 0 .head true) = 0x00060117#32 ∧ encode (.lpRecv 2 0) = 0x00000252#32 ∧
      encode (.fsMatch 0 .tailPat .low) = 0x00040020#32 := ⟨rfl, rfl, rfl⟩

/-! ## States to test on -/

/-- Puts bytes into MEM from an address up. -/
def put (a : Nat) (l : List Byte) (s : State) : State :=
  { s with mem := l.zipIdx.foldl (fun m p => m.write (a + p.2) p.1) s.mem }

/-- Sets a descriptor. -/
def ring (i : RingIx) (base cap count start : Nat) (s : State) : State :=
  s.setRb i { base := base, cap := cap, count := count, start := start }

/-- Sets ARG0..ARG2. -/
def args (a b c : Nat) (s : State) : State := { s with arg := quadOf a b c 0 }

/-- The state a command leaves. -/
def after (i : Instr) (s : State) : State :=
  match exec i s with
  | .next t => t
  | .fault _ => s
  | .refused _ => s

/-- The state an engine step leaves. -/
def engine (s : State) : State :=
  match engineStep s with
  | .next t => t
  | .fault _ => s
  | .refused _ => s

/-- A command has been accepted, in an address space of 2^16 bytes. -/
def busy : State := { State.reset with addrW := 16, phase := .fetch }

/-- RB0 at 0x1000 with these bytes from slot 0 on, and data at 0x2000. -/
def one (cap : Nat) (content data : List Byte) : State :=
  put 0x2000 data (put 0x1000 content (ring 0 0x1000 cap content.length 0 busy))

/-- RES0..RES3 as numbers. -/
def results (s : State) : List Nat := [s.res.r0.toNat, s.res.r1.toNat, s.res.r2.toNat, s.res.r3.toNat]

/-! ## Ring commands (95_test_vectors V-RB, 41_ring_buffer examples) -/

theorem test_nop : (after .nop (one 4 [1] [])).status.ecode = .ok ∧ (after .nop (one 4 [1] [])).busy = false := by decide
theorem test_init : (after (.rbInit 0) (args 0x1000 8 0 busy)).rb 0 = { base := 0x1000, cap := 8, count := 0, start := 0 } ∧
    results (after (.rbInit 0) (args 0x1000 8 0 busy)) = [1, 0, 0, 0] := by decide
/-- V-RB5 in an address space of 2^16 bytes: the storage would pass the top. -/
theorem test_init_top : (after (.rbInit 0) (args 0xFFF8 8 0 busy)).status.ecode = .ok ∧
    (after (.rbInit 0) (args 0xFFFC 8 0 busy)).status.ecode = .param := by decide
/-- V-RB7. -/
theorem test_pusho_head : (after (.rbPusho 0 .head) (args 0x2000 2 0 (one 4 [1, 2, 3] [7, 8]))).content 0 = [7, 8, 1, 2] ∧
    results (after (.rbPusho 0 .head) (args 0x2000 2 0 (one 4 [1, 2, 3] [7, 8]))) = [2, 1, 0, 0] := by decide
/-- V-RB8. -/
theorem test_pusho_tail :
    (after (.rbPusho 0 .tail) (args 0x2000 5 0 (one 4 [1, 2, 3, 4] [5, 6, 7, 8, 9]))).content 0 = [6, 7, 8, 9] := by decide
/-- The example of R78. -/
theorem test_pushb_head : (after (.rbPushb 0 .head) (args 0x2000 3 0 (one 4 [1, 2] [7, 8, 9]))).content 0 = [7, 8, 1, 2] ∧
    ((after (.rbPushb 0 .head) (args 0x2000 3 0 (one 4 [1, 2] [7, 8, 9]))).rb 0).start = 2 := by decide
/-- V-RB13. -/
theorem test_pull_tail : (after (.rbPull 0 .tail false) (args 0x3000 2 0 (one 4 [1, 2, 3] []))).block 0x3000 2 = [2, 3] ∧
    (after (.rbPull 0 .tail false) (args 0x3000 2 0 (one 4 [1, 2, 3] []))).content 0 = [1] := by decide
/-- V-RB14. -/
theorem test_pull_discard : ((after (.rbPull 0 .head true) (args 0x3000 9 0 (one 4 [1, 2, 3] []))).rb 0).start = 3 ∧
    (after (.rbPull 0 .head true) (args 0x3000 9 0 (one 4 [1, 2, 3] []))).mem = (one 4 [1, 2, 3] []).mem := by decide
/-- V-RB16. -/
theorem test_read_tail :
    (after (.rbRead 0 .tail) (args 0x3000 9 1 (one 8 [10, 11, 12, 13, 14] []))).block 0x3000 4 = [10, 11, 12, 13] := by decide
/-- The example of R81. -/
theorem test_write_head : (after (.rbWrite 0 .head) (args 0x2000 4 3 (one 8 [10, 11, 12, 13, 14] [20, 21, 22, 23]))).content 0 =
    [10, 11, 12, 20, 21] := by decide
/-- The example of R82: the head-side span moves. -/
theorem test_cut_head : (after (.rbCut 0 .head true) (args 0 2 1 (one 8 [1, 2, 3, 4, 5, 6, 7] []))).content 0 = [1, 4, 5, 6, 7] ∧
    (after (.rbCut 0 .head true) (args 0 2 1 (one 8 [1, 2, 3, 4, 5, 6, 7] []))).block 0x1000 7 = [1, 2, 1, 4, 5, 6, 7] := by
  decide
/-- V-RB20: the tail-side span moves. -/
theorem test_cut_tail : (after (.rbCut 0 .tail false) (args 0x3000 2 1 (one 8 [1, 2, 3, 4, 5, 6, 7] []))).content 0 =
    [1, 2, 3, 4, 7] ∧ results (after (.rbCut 0 .tail false) (args 0x3000 2 1 (one 8 [1, 2, 3, 4, 5, 6, 7] []))) = [2, 1, 0, 0] := by
  decide
/-- V-RB23: head to head reverses. -/
theorem test_move_head_head : (after (.rbMove 1 .head 0 .head true) (args 0 9 0 (ring 1 0x1100 8 0 0 (one 8 [1, 2, 3] [])))).content 1 =
    [3, 2, 1] := by decide
/-- The example of R83. -/
theorem test_move_bounded : (after (.rbMove 1 .tail 0 .head true) (args 0 9 0 (ring 1 0x1100 2 0 0 (one 8 [1, 2, 3] [])))).content 1 =
    [1, 2] := by decide
/-- V-RB25. -/
theorem test_rotl_right : (after (.rbRotl 0 .right) (args 0 2 0 (one 6 [1, 2, 3, 4, 5] []))).content 0 = [4, 5, 1, 2, 3] ∧
    ((after (.rbRotl 0 .right) (args 0 2 0 (one 6 [1, 2, 3, 4, 5] []))).rb 0).start = 4 := by decide
/-- The example of R84. -/
theorem test_rotl_left : (after (.rbRotl 0 .left) (args 0 1 0 (one 6 [1, 2, 3, 4] []))).content 0 = [2, 3, 4, 1] := by decide
/-- V-RB29. -/
theorem test_rotp : (after (.rbRotp 0) (args 0 3 0 (put 0x1000 [0, 1, 2, 0] (ring 0 0x1000 4 2 1 busy)))).block 0x1000 4 =
    [2, 0, 0, 1] ∧ results (after (.rbRotp 0) (args 0 3 0 (put 0x1000 [0, 1, 2, 0] (ring 0 0x1000 4 2 1 busy)))) = [1, 2, 0, 0] := by
  decide
/-- V-RB31. -/
theorem test_queries : results (after (.rbFull 0) (one 4 [1, 2, 3, 4] [])) = [1, 0, 0, 0] ∧
    results (after (.rbEmpty 0) (one 4 [1, 2, 3, 4] [])) = [0, 0, 0, 0] := by decide
theorem test_flush : (after (.rbFlush 0) (one 4 [1, 2, 3, 4] [])).rb 0 = { base := 0x1000, cap := 4, count := 0, start := 0 } ∧
    results (after (.rbFlush 0) (one 4 [1, 2, 3, 4] [])) = [4, 0, 0, 0] := by decide
/-- V-RB32. -/
theorem test_unbound : (after (.rbFlush 0) busy).status.ecode = .param := by decide

/-! ## Search, stuffing, CRC (V-FS, V-BS, V-CRC) -/

/-- The search registers of a head and a tail pattern of one byte each, with a policy and bounds. -/
def rule (hlen tlen : BitVec 4) (h t : Word) (policy : BitVec 2) (mn mx : Half) (s : State) : State :=
  { s with sr := { SearchRegs.reset with
    hpat0 := h, tpat0 := t, hlen := hlen, tlen := tlen, policy := policy, minLen := mn, maxLen := mx } }

/-- V-FS1. -/
theorem test_match : results (after (.fsMatch 0 .headPat .low)
    (args 0 1 3 (rule 3 0 0x00424141 0 0 0 0 (one 8 [0x78, 0x41, 0x41, 0x42] [])))) = [2, 2, 4, 0] := by decide
/-- The example of R93, high tie-break. -/
theorem test_match_partial : results (after (.fsMatch 0 .headPat .high)
    (args 0 0 2 (rule 3 0 0x00424141 0 0 0 0 (one 8 [0x78, 0x41, 0x41] [])))) = [1, 1, 3, 0] := by decide
/-- V-FS6: the frame that is too short is passed over. -/
theorem test_search : results (after (.fsSearch 0 1)
    (rule 1 1 0x7E 0x7E 0 4 0 (one 16 [0x7E, 1, 2, 0x7E, 0x7E, 1, 2, 3, 0x7E] []))) = [1, 4, 5, 0] := by decide
/-- V-FS10: soft finds what hard does not. -/
theorem test_search_policy : results (after (.fsSearch 0 0) (rule 1 1 0x7E 0x7E 3 3 0 (one 16 [0x7E, 1, 0x7E, 2, 0x7E] []))) =
    [1, 0, 5, 0] ∧ results (after (.fsSearch 0 0) (rule 1 1 0x7E 0x7E 0 3 0 (one 16 [0x7E, 1, 0x7E, 2, 0x7E] []))) =
    [0, 0, 0, 0] := by decide
/-- V-FS16. -/
theorem test_srchadv : results (after (.fsSrchadv 0 1
      { onFull := false, toStart := false, toStart1 := false, entire := true, ffwd := true })
    (rule 1 1 0x7E 0x7E 0 0 0 (one 8 [1, 2, 0x7E, 5, 0x7E, 9] []))) = [1, 2, 3, 6] := by decide
/-- V-FS13. -/
theorem test_srchadv_full : (after (.fsSrchadv 0 1
      { onFull := true, toStart := false, toStart1 := false, entire := false, ffwd := false })
    (rule 1 1 0x7E 0x7E 0 0 0 (one 4 [1, 2, 3, 4] []))).content 0 = [2, 3, 4] := by decide
/-- V-BS4. -/
theorem test_stuff : (after (.bsStuff 0) (one 8 [1, 0x7E, 0x7D, 2] [])).content 0 = [1, 0x7D, 0x5E, 0x7D, 0x5D, 2] ∧
    (after (.bsStuff 0) (one 8 [1, 0x7E, 0x7D, 2] [])).block 0x1000 8 = [0x5D, 2, 0x7D, 2, 1, 0x7D, 0x5E, 0x7D] := by decide
/-- V-BS5. -/
theorem test_stuff_capacity : (after (.bsStuff 0) (one 3 [0x7E, 0x7E, 1] [])).content 0 = [0x7E, 1, 0x7D] ∧
    (after (.bsStuff 0) (one 3 [0x7E, 0x7E, 1] [])).status.ecode = .capacity := by decide
/-- V-BS6. -/
theorem test_unstuff : (after (.bsUnstuff 0) (one 8 [0x7D, 0x5D, 0x7D, 0x5E] [])).content 0 = [0x7D, 0x7E] := by decide
/-- V-BS7. -/
theorem test_unstuff_corrupt : (after (.bsUnstuff 0) (one 8 [1, 0x7E, 2] [])).content 0 = [2, 1] ∧
    results (after (.bsUnstuff 0) (one 8 [1, 0x7E, 2] [])) = [0, 2, 2, 0] := by decide
/-- R109 and R106: the byte step and the table. -/
theorem test_crc_byte : crcByte 0xFFFF#16 0x31#8 = 0xC782#16 ∧ crcTable 0x80#8 = 0x9188#16 := by decide
theorem test_crc_seed : (after .crcSeed { busy with crcAcc := 0#16 }).crcAcc = 0xFFFF#16 := by decide
theorem test_crc_byte_command :
    results (after .crcByte { busy with arg := quadOf 0xABCDEF31 0 0 0 }) = [0xC782, 0, 0, 0] := by decide
/-- R110: "123456789". -/
theorem test_crc_run : results (after (.crcRun 0) (args 0 9 0
    (one 16 [0x31, 0x32, 0x33, 0x34, 0x35, 0x36, 0x37, 0x38, 0x39] []))) = [0x29B1, 9, 0, 0] := by decide +kernel
/-- R111. -/
theorem test_crc_append : (after (.crcAppend 0) { one 4 [9] [] with crcAcc := 0x29B1#16 }).content 0 = [9, 0x29, 0xB1] := by
  decide
/-- R112. -/
theorem test_crc_check : results (after (.crcCheck 0)
    (one 16 [0x31, 0x32, 0x33, 0x34, 0x35, 0x36, 0x37, 0x38, 0x39, 0x29, 0xB1] [])) = [1, 0, 0, 0] := by decide +kernel

/-! ## Link protocol (V-LP, P4) -/

/-- A valid session on RB0 (receive) and RB1 (scratch), with RB2 as payload or out ring; RB4 and RB5 are the side rings. -/
def link (sqe : Bool) (rx payload : List Byte) : State :=
  put 0x3000 payload (ring 2 0x3000 32 payload.length 0 (ring 4 0x4000 32 0 0 (ring 5 0x5000 4 0 0 (ring 1 0x2000 32 0 0
    (put 0x1000 rx (ring 0 0x1000 64 rx.length 0
      { busy with ls := { LinkRegs.reset with
        sess := { rx := 0, scr := 1, side := 4, slen := 5, sqe := sqe }, sessValid := true } }))))))

/-- The frame of P4: DATA "Hello ", hash 1. -/
def hello : List Byte := [0x7E, 0x00, 0x00, 0x01, 0x48, 0x65, 0x6C, 0x6C, 0x6F, 0x20, 0x3A, 0x56, 0x7E]

/-- The same frame with ackWanted = 1. -/
def helloAck : List Byte := wireFrame 0#7 true 1#16 [0x48, 0x65]

theorem test_wireFrame : wireFrame 0#7 false 1#16 [0x48, 0x65, 0x6C, 0x6C, 0x6F, 0x20] = hello := by decide +kernel
/-- The example of R125. -/
theorem test_init_session : (after .lpInit (ring 0 0x1000 64 0 0 (ring 1 0x2000 32 0 0
    { busy with ls := { LinkRegs.reset with cfg := Session.ofWord 0x00000010#32 } }))).ls.sessWord = 0x80000010#32 := by decide
/-- V-LP11. -/
theorem test_init_session_param : (after .lpInit busy).status.ecode = .param ∧
    (after .lpInit { busy with ls := { LinkRegs.reset with sessValid := true } }).ls.sessValid = false := by decide
/-- The frame of P4 in the scratch ring, before its first byte goes out. -/
theorem test_send_builds : (after (.lpSend 2 false) (link false [] [0x48, 0x65, 0x6C, 0x6C, 0x6F, 0x20])).content 1 = hello := by
  decide +kernel
/-- The first TX call offers the opening flag. -/
theorem test_send_first_byte :
    (engine (after (.lpSend 2 false) (link false [] [0x41]))).env.sent = [0x7E#8] := by decide +kernel
/-- The example of R127. -/
theorem test_recv_hello : (engine { link false hello [] with phase := .recvRx { out := 2, want := 0 } }).content 2 =
    [0x48, 0x65, 0x6C, 0x6C, 0x6F, 0x20] ∧
    results (engine { link false hello [] with phase := .recvRx { out := 2, want := 0 } }) = [6, 1, 0, 1] := by decide +kernel
/-- V-LP9. -/
theorem test_recv_session_ring : (after (.lpRecv 0 0) (link false [] [])).status.ecode = .param := by decide

/-! ## The engine and the host -/

theorem test_step_runs_word : (match step ((one 4 [1, 2] []).withFetchWord 32 0x0000001C) with
    | .next t => results t | _ => []) = [2, 0, 0, 0] := by decide
theorem test_decodeTableWord : decodeTableWord 32 0x00060117 = some (.rbMove 1 .tail 0 .head true) ∧
    decodeTableWord 32 0x53 = none := ⟨rfl, rfl⟩
/-- R18: STATUS after an error, and the session word. -/
theorem test_status_word : (after (.rbFlush 0) busy).statusWord = 0x00000206#32 := by decide
theorem test_host_write_while_busy : (hostWrite 0x014 4 5#32 busy).status.ovr = true ∧
    (hostWrite 0x014 4 5#32 busy).arg.r0 = 0#32 := by decide
theorem test_register_map : registerAt (one 4 [1, 2] []) 0x104 = 4#32 ∧ registerAt (one 4 [1, 2] []) 0x108 = 2#32 ∧
    registerAt (one 4 [1, 2] []) 0x060 = 0xFFFF#32 ∧ registerAt (one 4 [1, 2] []) 0x034 = 0#32 := by decide

/-! ## Witnesses: for every statement with hypotheses, a state and operands that meet them, clause by clause -/

/-- A command state with the CMD word `w` latched. -/
def latched (w : Word) : State := { one 4 [1, 2] [7, 8] with cmd := w }

/-- The next move is the event `e`. -/
def planned (e : Event) (s : State) : State := { s with env := { s.env with agenda := [e] } }

/-- An LP_SEND in flight: acknowledged, hash 1, payload "He", one frame started, R = 2, T = 10, t0 = 5. -/
def flight : SendCtx :=
  { ackW := true, hash := 1#16, payload := [0x48, 0x65], tries := 1, frameLen := 9, t0 := 5#32, timeout := 10#32, retries := 2 }

/-- A link state in a phase. -/
def inPhase (p : Phase) (s : State) : State := { s with phase := p }

/-- The tick input shows `n`. -/
def atTick (n : Nat) (s : State) : State := { s with env := { s.env with tick := BitVec.ofNat 32 n } }

theorem witness_DecodeInvertsEncode : (Instr.lpRecv 0 127).wellFormed = true := rfl
theorem witness_EncodeInvertsDecode : decode 0x07F00052#32 = .ok (.lpRecv 0 127) := rfl
theorem witness_StepRunsLatchedCommand :
    ((latched 0x1C).phase = .fetch ∧ decode (latched 0x1C).cmd = .ok (.rbFlush 0) ∧ (latched 0x1C).env.agenda = []) ∧
      (planned .engine (latched 0x1C)).env.agenda = [.engine] := ⟨⟨rfl, rfl, rfl⟩, rfl⟩
theorem witness_IllegalWordChangesOnlyStatus :
    (latched 0x100).phase = .fetch ∧ (latched 0x100).env.agenda = [] ∧
      decode (latched 0x100).cmd = .error (.mustBeZero 0) := ⟨rfl, rfl, rfl⟩
theorem witness_CommandAcceptance :
    (planned (.host (.write 0x010 4 0x1C)) State.reset).phase = .idle ∧
      (planned (.host (.write 0x010 4 0x1C)) State.reset).env.agenda = [.host (.write 0x010 4 0x1C)] := ⟨rfl, rfl⟩
/-- The first and the last of the dropped offsets, and CTRL. -/
theorem witness_BusyWritesAreDropped :
    ((planned (.host (.write 0x010 4 0x1C)) busy).phase ≠ .idle ∧
      (planned (.host (.write 0x010 4 0x1C)) busy).env.agenda = [.host (.write 0x010 4 0x1C)]) ∧
    ((planned (.host (.write 0x07C 4 9)) busy).phase ≠ .idle ∧
      (planned (.host (.write 0x07C 4 9)) busy).env.agenda = [.host (.write 0x07C 4 9)]) ∧
    ((planned (.host (.write 0x008 4 1)) busy).phase ≠ .idle ∧
      (planned (.host (.write 0x008 4 1)) busy).env.agenda = [.host (.write 0x008 4 1)]) := by decide
theorem witness_HostAccessFrame : (one 4 [1, 2] []).mem.wf = true ∧
    HostOp.memWrite 0x1000 9 ≠ .write 0x010 4 0 ∧ (one 4 [1, 2] []).wrap 0x11000 = 0x1000 := by decide
/-- Another width and another alignment; the first and the last register, idle, and one read while busy; the last reserved
offset and CMD; the last register of class RO, for a write, and a reserved offset; an RW register with reserved bits. -/
theorem witness_HostAccessBasics :
    (((2 : Nat) ≠ 4 ∨ 0x014 % 4 ≠ 0) ∧ ((4 : Nat) ≠ 4 ∨ 0x015 % 4 ≠ 0)) ∧
    (State.reset.phase = .idle ∧ (0x000, 0x52424331#32) ∈ windowWords State.reset ∧
      (0x17C, 0#32) ∈ windowWords State.reset ∧ (0x00C, 1#32) ∈ windowWords busy ∧ 0x00C ∈ readableWhileBusy) ∧
    (0x1FC ∉ (windowWords State.reset).map Prod.fst ∧ 0x010 ∉ (windowWords State.reset).map Prod.fst) ∧
    (0x17C ∉ rwRegisters.map Prod.fst ∧ 0x180 ∉ rwRegisters.map Prod.fst) ∧
    (0x050, 0x00030F0F#32) ∈ rwRegisters ∧ (0x060, 0x0000FFFF#32) ∈ rwRegisters := by decide +kernel
theorem witness_StatusClearAndIrq :
    (planned (.host (.write 0x00C 4 2)) (after .nop busy)).env.agenda = [.host (.write 0x00C 4 2)] ∧
      (2#32).getLsbD 1 = true ∧ Completed busy (after .nop busy) .ok Quad.zero := by decide
/-- An idle block; then RB_PUSHB of two bytes into a ring of four slots: the last slot and the byte behind it, the last byte
of the data block and the byte behind it. -/
def pushing : State := args 0x2000 2 0 (latched 0x12)
theorem witness_HostWriteToUsedByte :
    (after .nop busy).phase = .idle ∧ pushing.phase ≠ .idle ∧ decode pushing.cmd = .ok (.rbPushb 0 .tail) ∧
      inFootprint (.rbPushb 0 .tail) pushing 0x1003 = true ∧ inFootprint (.rbPushb 0 .tail) pushing 0x1004 = false ∧
      inFootprint (.rbPushb 0 .tail) pushing 0x2001 = true ∧ inFootprint (.rbPushb 0 .tail) pushing 0x2002 = false :=
  ⟨rfl, by decide, rfl, by decide, by decide, by decide, by decide⟩
/-- A reset of an idle block, and one that abandons RB_PUSHB: it was writing slots 2 and 3, and slot 1 stays. -/
theorem witness_ResetLeavesResetValues :
    ((planned .reset (after .nop busy)).mem.wf = true ∧ (planned .reset (after .nop busy)).env.agenda = [.reset] ∧
      (planned .reset (after .nop busy)).phase = .idle) ∧
    (planned .reset pushing).mem.wf = true ∧ (planned .reset pushing).env.agenda = [.reset] ∧
      (planned .reset pushing).nextMove.pendingWrites.map (fun w => w.addr) = [0x1002, 0x1003] := by decide +kernel
/-- An LP_RECV that waits for the receive port. -/
def receiving : State := inPhase (.recvRx { out := 2, want := 0 }) (link false hello [])
theorem witness_StepKeepsInvariant : Inv receiving ∧ ∃ t, step receiving = .next t := ⟨by decide, ⟨_, rfl⟩⟩
/-- An LP_SEND before its first TX call. -/
def sending : State := { inPhase (.sendTx flight 0) (ring 1 0x2000 32 9 0 (link false [] [0x48, 0x65])) with
  ls := { (link false [] []).ls with state := .sent, attempts := 1#16 } }
theorem witness_StepKeepsSendLaw : SendOk sending ∧ ∃ t, step sending = .next t := by
  refine ⟨by unfold SendOk; decide, ⟨_, rfl⟩⟩
theorem witness_EngineLeavesHostRegisters : ∃ t, engineStep (latched 0x1C) = .next t := ⟨_, rfl⟩
theorem witness_CommandsStayInFootprint :
    (Inv pushing ∧ (∃ t, exec (.rbPushb 0 .tail) pushing = .next t) ∧ inFootprint (.rbPushb 0 .tail) pushing 0x1004 = false) ∧
    Inv receiving ∧ receiving.phase.linkRunning = true ∧ (∃ t, engineStep receiving = .next t) ∧
      ∀ r ∈ receiving.ls.sess.rings ++ receiving.phase.outRing.toList, (receiving.rb r).holds 0x1040 = false :=
  ⟨⟨by decide, ⟨_, rfl⟩, by decide⟩, by decide, rfl, ⟨_, rfl⟩, by decide⟩
theorem witness_LinkIgnoresCrcAndSearchRegs :
    receiving.phase.linkRunning = true ∧ (∃ t, engineStep receiving = .next t) ∧
      (∃ t, exec .lpInit receiving = .next t) ∧ (∃ t, exec (.lpSend 2 false) (link false [] [0x41]) = .next t) ∧
      ∃ t, exec (.lpRecv 2 0) (link false [] []) = .next t := ⟨rfl, ⟨_, rfl⟩, ⟨_, rfl⟩, ⟨_, rfl⟩, ⟨_, rfl⟩⟩
/-- A parameter error of every kind: no storage, length 0, offset at COUNT, a ring onto itself, no head, no session. -/
theorem witness_ParamErrorsChangeNothing :
    paramCase (.rbInit 0) (args 0 3 4 busy) ∧ paramCase (.rbPusho 0 .tail) busy ∧
      paramCase (.rbPull 0 .head false) (args 0 0 0 (one 4 [1] [])) ∧
      paramCase (.rbRead 0 .tail) (args 0 1 1 (one 4 [1] [])) ∧
      paramCase (.rbMove 0 .tail 0 .tail true) (args 0 1 0 (one 4 [1] [])) ∧
      paramCase (.rbRotp 0) (args 0 4 0 (one 4 [1] [])) ∧ paramCase (.rbFlush 0) busy ∧
      paramCase (.fsMatch 0 .tailPat .low) (one 4 [1] []) ∧ paramCase (.fsSearch 0 1) (one 4 [1] []) ∧
      paramCase (.bsStuff 0) (one 4 [] []) ∧ paramCase (.crcRun 0) (args 0 1 1 (one 4 [1] [])) ∧
      paramCase (.lpSend 0 true) (one 4 [1] []) ∧ paramCase (.lpRecv 0 0) (link false [] []) := by
  simp only [paramCase]; decide
theorem witness_NopChangesOnlyStatus : (0x100#32).extractLsb' 0 8 = 0x00#8 ∧ (0x100#32) ≠ 0#32 := by decide
/-- Storage up to the very top with every slot filled; one byte past the top; one element too many. -/
theorem witness_RbInitBindsStorage :
    ((args 0xFFF8 8 8 busy).hazard = false ∧ (args 0xFFF8 8 8 busy).arg2 ≤ (args 0xFFF8 8 8 busy).arg1 ∧
      (args 0xFFF8 8 8 busy).argAddr + (args 0xFFF8 8 8 busy).arg1 ≤ 2 ^ (args 0xFFF8 8 8 busy).addrW) ∧
    ((args 0xFFF9 8 0 busy).hazard = false ∧
      (args 0xFFF9 8 0 busy).argAddr + (args 0xFFF9 8 0 busy).arg1 > 2 ^ (args 0xFFF9 8 0 busy).addrW) ∧
    (args 0 3 4 busy).hazard = false ∧ (args 0 3 4 busy).arg2 > (args 0 3 4 busy).arg1 := by decide
/-- Five bytes into a full ring of four. -/
def overPushing : State := args 0x2000 5 0 (one 4 [1, 2, 3, 4] [5, 6, 7, 8, 9])
theorem witness_RbPushoKeepsNewest :
    Ready overPushing ∧ 0 < (overPushing.rb 0).cap ∧ 0 < overPushing.arg1 ∧
      BlockApart overPushing overPushing.argAddr overPushing.arg1 0 := by decide
/-- The data block ends just below the storage; k = 2 of its 3 bytes fit. -/
def boundedPushing : State := args 0xFFE 3 0 (one 4 [1, 2] [])
theorem witness_RbPushbInsertsPrefix :
    Ready boundedPushing ∧ 0 < (boundedPushing.rb 0).cap ∧ 0 < boundedPushing.arg1 ∧
      2 = min boundedPushing.arg1 ((boundedPushing.rb 0).cap - (boundedPushing.rb 0).count) ∧
      BlockApart boundedPushing boundedPushing.argAddr 2 0 := by decide
/-- Nine bytes asked of a ring of three. -/
def pulling : State := args 0x3000 9 0 (one 4 [1, 2, 3] [])
theorem witness_RbPullRemovesEnd :
    Ready pulling ∧ 0 < (pulling.rb 0).cap ∧ 0 < pulling.arg1 ∧ 3 = min pulling.arg1 (pulling.rb 0).count ∧
      BlockApart pulling pulling.argAddr 3 0 := by decide
/-- The last offset of a ring of five. -/
def reading : State := args 0x3000 9 4 (one 8 [10, 11, 12, 13, 14] [])
theorem witness_RbReadCopiesRange :
    Ready reading ∧ 0 < (reading.rb 0).cap ∧ 0 < reading.arg1 ∧ reading.arg2 < (reading.rb 0).count ∧
      1 = min reading.arg1 ((reading.rb 0).count - reading.arg2) ∧ BlockApart reading reading.argAddr 1 0 := by decide
/-- Two of four bytes find an element to replace. -/
def writing : State := args 0x2000 4 3 (one 8 [10, 11, 12, 13, 14] [20, 21])
theorem witness_RbWriteReplacesRange :
    Ready writing ∧ 0 < (writing.rb 0).cap ∧ 0 < writing.arg1 ∧ writing.arg2 < (writing.rb 0).count ∧
      2 = min writing.arg1 ((writing.rb 0).count - writing.arg2) ∧ BlockApart writing writing.argAddr 2 0 := by decide
/-- Both spans around the range have one element. -/
def cutting : State := args 0x3000 2 1 (one 8 [1, 2, 3, 4] [])
theorem witness_RbCutRemovesRange :
    Ready cutting ∧ 0 < (cutting.rb 0).cap ∧ 0 < cutting.arg1 ∧ cutting.arg2 < (cutting.rb 0).count ∧
      2 = min cutting.arg1 ((cutting.rb 0).count - cutting.arg2) ∧ BlockApart cutting cutting.argAddr 2 0 := by decide
/-- Three bytes to a ring of two. -/
def moving : State := args 0 9 0 (ring 1 0x1008 2 0 0 (one 8 [1, 2, 3] []))
theorem witness_RbMoveTransfers :
    Ready moving ∧ (1 : RingIx) ≠ 0 ∧ 0 < (moving.rb 1).cap ∧ 0 < (moving.rb 0).cap ∧ 0 < moving.arg1 ∧
      2 = min moving.arg1 (min (moving.rb 0).count ((moving.rb 1).cap - (moving.rb 1).count)) ∧
      StorageApart moving 1 0 := by decide
/-- A ring of three rotated by seven, and an empty ring. -/
theorem witness_RbRotlRotatesContent :
    (Ready (args 0 7 0 (one 6 [1, 2, 3] [])) ∧ 0 < ((args 0 7 0 (one 6 [1, 2, 3] [])).rb 0).cap ∧
      0 < ((args 0 7 0 (one 6 [1, 2, 3] [])).rb 0).count) ∧
    Ready (args 0 2 0 (one 6 [] [])) ∧ 0 < ((args 0 2 0 (one 6 [] [])).rb 0).cap ∧
      ((args 0 2 0 (one 6 [] [])).rb 0).count = 0 := by decide
/-- The last slot asked for. -/
def rotating : State := args 0 3 0 (put 0x1000 [0, 1, 2, 0] (ring 0 0x1000 4 2 1 busy))
theorem witness_RbRotpMovesWholeStorage :
    Ready rotating ∧ 0 < (rotating.rb 0).cap ∧ rotating.arg1 < (rotating.rb 0).cap ∧
      2 = (rotating.arg1 + (rotating.rb 0).cap - (rotating.rb 0).start) % (rotating.rb 0).cap := by decide
theorem witness_RingRoundTrips :
    (Ready rotating ∧ 0 < (rotating.rb 0).cap ∧ rotating.arg1 < (rotating.rb 0).cap ∧
      ∃ t, exec (.rbRotp 0) rotating = .next t) ∧
    (Ready writing ∧ 0 < (writing.rb 0).cap ∧ 0 < writing.arg1 ∧ writing.arg2 < (writing.rb 0).count ∧
      ∃ t, exec (.rbWrite 0 .head) writing = .next t) ∧
    BlockApart writing writing.argAddr 2 0 ∧ BlockApart writing ((0x3000#32).toNat % 2 ^ writing.addrW) 2 0 :=
  ⟨⟨by decide, by decide, by decide, ⟨_, rfl⟩⟩, ⟨by decide, by decide, by decide, by decide, ⟨_, rfl⟩⟩, by decide, by decide⟩
theorem witness_QueriesAndFlush : busy.hazard = false ∧ (busy.rb 0).cap = 0 ∧ ((one 4 [1] []).rb 0).cap ≠ 0 := by decide
/-- A head pattern of three bytes and a tail pattern of one, at a position with alignments and at one with none. -/
def matching (ws p : Nat) : State := args 0 ws p (rule 3 1 0x00424141 0x42 0 0 0 (one 8 [0x78, 0x41, 0x41, 0x42] []))
theorem witness_FsMatchReportsAlignments :
    Ready (matching 1 3) ∧ 0 < ((matching 1 3).rb 0).cap ∧ (matching 1 3).sr.spelled.head = [0x41, 0x41, 0x42] ∧
      (matching 1 3).sr.spelled.tail = [0x42] ∧ (matching 1 3).arg1 ≤ (matching 1 3).arg2 ∧
      (matching 1 3).arg2 < ((matching 1 3).rb 0).count ∧ (matching 0 0).arg1 ≤ (matching 0 0).arg2 ∧
      alignments ((matching 1 3).sr.pattern .headPat) ((matching 1 3).content 0) 1 3 = [2] ∧
      alignments ((matching 0 0).sr.pattern .headPat) ((matching 0 0).content 0) 0 0 = [] := by decide
theorem witness_SearchFindsLowestFrame : ([0x7E] : List Byte) ≠ [] := by decide
theorem witness_HardSearchFindsIntendedFrame :
    (∀ y ∈ [[1, 2]] ++ [3] :: ([[4]] : List (List Byte)),
      (0x7E#8 : Byte) ∉ y ∧ 2 ≤ 1 + y.length ∧ (3 = 0 ∨ 1 + y.length ≤ 3)) := by decide
/-- A frame that fills the stream; the same stream scanned from its end. -/
def searching (start : Nat) : State := args 0 0 start (rule 1 1 0x7E 0x7E 0 0 0 (one 16 [0x7E, 1, 2, 0x7E] []))
theorem witness_FsSearchWritesView :
    (searching 0).hazard = false ∧ 0 < ((searching 0).rb 0).cap ∧ (searching 0).sr.hlen.toNat ∈ List.range' 1 8 ∧
      (searching 0).sr.tlen.toNat ≤ 8 ∧
      search (searching 0).sr.spelled ((searching 0).content 0) (searching 0).arg2 = some (0, 4) ∧
      search (searching 4).sr.spelled ((searching 4).content 0) (searching 4).arg2 = none := by decide
/-- R25, R26: a head pattern over both registers, a tail of one byte, and policy 3 read as soft. -/
theorem test_spelled_rule :
    ({ SearchRegs.reset with
        hpat0 := 0x44434241#32, hpat1 := 0x48474645#32, tpat0 := 0x0000005A#32, hlen := 5#4, tlen := 1#4, policy := 3#2,
        minLen := 6#16, maxLen := 0#16 } : SearchRegs).rule =
      { head := [0x41, 0x42, 0x43, 0x44, 0x45], tail := [0x5A], minLen := 6, maxLen := 0, policy := .soft } := by decide
theorem witness_FsSrchadvAdvances :
    Ready (searching 0) ∧ 0 < ((searching 0).rb 0).cap ∧ (searching 0).sr.hlen.toNat ∈ List.range' 1 8 ∧
      (searching 0).sr.tlen.toNat ≤ 8 := by decide
theorem witness_BsStuffReplacesContent :
    Ready (one 4 [0x7D, 0x7D] []) ∧ 0 < ((one 4 [0x7D, 0x7D] []).rb 0).count ∧
      (stuff ((one 4 [0x7D, 0x7D] []).content 0)).length ≤ ((one 4 [0x7D, 0x7D] []).rb 0).cap := by decide
theorem witness_BsStuffWithoutRoom :
    Ready (one 3 [0x7E, 0x7E, 1] []) ∧ 0 < ((one 3 [0x7E, 0x7E, 1] []).rb 0).count ∧
      ((one 3 [0x7E, 0x7E, 1] []).rb 0).cap < (stuff ((one 3 [0x7E, 0x7E, 1] []).content 0)).length := by decide
/-- A stuffing; a FLAG inside; an ESC at the end; an ESC before a wrong byte. -/
theorem witness_BsUnstuffInvertsOrStops :
    Ready (one 8 [0x7D, 0x5D, 1] []) ∧ 0 < ((one 8 [0x7D, 0x5D, 1] []).rb 0).count ∧
      (one 8 [0x7D, 0x5D, 1] []).content 0 = stuff [0x7D, 1] ∧
      (CorruptAt [0x7E] [2] ∧ (one 8 [1, 0x7E, 2] []).content 0 = stuff [1] ++ [0x7E] ++ [2]) ∧
      (CorruptAt [0x7D] [] ∧ (one 8 [1, 0x7D] []).content 0 = stuff [1] ++ [0x7D] ++ []) ∧
      CorruptAt [0x7D, 0x41] [3] ∧ (one 8 [0x7D, 0x41, 3] []).content 0 = stuff [] ++ [0x7D, 0x41] ++ [3] :=
  ⟨by decide, by decide, by decide, ⟨Or.inl rfl, by decide⟩, ⟨Or.inr (Or.inl ⟨rfl, rfl⟩), by decide⟩,
    Or.inr (Or.inr ⟨0x41, rfl, by decide, by decide⟩), by decide⟩
theorem witness_StuffThenUnstuff :
    Ready (one 4 [0x7D, 0x7E] []) ∧ 0 < ((one 4 [0x7D, 0x7E] []).rb 0).count ∧
      (stuff ((one 4 [0x7D, 0x7E] []).content 0)).length ≤ ((one 4 [0x7D, 0x7E] []).rb 0).cap := by decide
theorem witness_CrcResidueLaw :
    (2 : Nat) < ([0x31, (crc16 [0x31]).extractLsb' 8 8, (crc16 [0x31]).extractLsb' 0 8] : List Byte).length ∧ 7 < 8 := by decide
theorem witness_CrcSeedAndByte : busy.hazard = false := rfl
/-- The last offset with an append that just fits; an append with one free slot; an unbound ring; an empty one. -/
theorem witness_CrcRingCommands :
    (Ready (args 0 9 1 (one 4 [1, 2] [])) ∧ 0 < (args 0 9 1 (one 4 [1, 2] [])).arg1 ∧
      (args 0 9 1 (one 4 [1, 2] [])).arg2 < ((args 0 9 1 (one 4 [1, 2] [])).rb 0).count ∧
      0 < ((args 0 9 1 (one 4 [1, 2] [])).rb 0).cap ∧
      2 ≤ ((args 0 9 1 (one 4 [1, 2] [])).rb 0).cap - ((args 0 9 1 (one 4 [1, 2] [])).rb 0).count) ∧
    (Ready (one 3 [1, 2] []) ∧ ((one 3 [1, 2] []).rb 0).cap - ((one 3 [1, 2] []).rb 0).count < 2 ∧
      0 < ((one 3 [1, 2] []).rb 0).cap) ∧
    (Ready busy ∧ (busy.rb 0).cap = 0) ∧ Ready (one 4 [] []) ∧ ((one 4 [] []).rb 0).count = 0 := by decide
/-- RX and SCR the same ring; a session without and one with the side queue. -/
def starting (cfg : Word) : State := { link true [] [] with ls := { LinkRegs.reset with cfg := Session.ofWord cfg } }
theorem witness_LpInitStartsSession :
    ((starting 0x00000000).hazard = false ∧ (starting 0x00000000).ls.cfg.rx = (starting 0x00000000).ls.cfg.scr) ∧
    ((starting 0x00000010).hazard = false ∧ (starting 0x00000010).ls.cfg.sqe = false ∧
      badSession (starting 0x00000010) (starting 0x00000010).ls.cfg = false) ∧
    (starting 0x00015410).hazard = false ∧ (starting 0x00015410).ls.cfg.sqe = true ∧
      badSession (starting 0x00015410) (starting 0x00015410).ls.cfg = false := by decide
theorem witness_WireFrameShape : (List.replicate 128 (0x7E#8 : Byte)).length ≤ 128 := by simp
/-- A payload of two bytes and a scratch ring in which its frame just fits. -/
def sender : State := ring 1 0x2000 9 0 0 (link false [] [0x48, 0x65])
theorem witness_LpSendBuildsFrame :
    Ready sender ∧ sender.ls.sessValid = true ∧ (2 : RingIx) ∉ sender.ls.sess.rings ∧ 0 < (sender.rb 2).cap ∧
      (sender.rb 2).count ≤ 128 ∧
      (wireFrame 0#7 true (sender.ls.txHash + 1#16) (sender.content 2)).length ≤ (sender.rb sender.scrIx).cap := by
  decide +kernel
/-- A payload of 129 bytes; a scratch ring one byte too small for the frame. -/
def longSender : State := ring 2 0x3000 200 129 0 (link false [] [])
/-- As `sender`, the scratch ring one byte smaller. -/
def crampedSender : State := ring 1 0x2000 8 0 0 (link false [] [0x48, 0x65])
theorem witness_LpSendCapacity :
    (Ready longSender ∧ longSender.ls.sessValid = true ∧ (2 : RingIx) ∉ longSender.ls.sess.rings ∧
      0 < (longSender.rb 2).cap ∧ 128 < (longSender.rb 2).count) ∧
    Ready crampedSender ∧ crampedSender.ls.sessValid = true ∧ (2 : RingIx) ∉ crampedSender.ls.sess.rings ∧
      0 < (crampedSender.rb 2).cap ∧ (crampedSender.rb 2).count ≤ 128 ∧
      (crampedSender.rb crampedSender.scrIx).cap <
        (wireFrame 0#7 true (crampedSender.ls.txHash + 1#16) (crampedSender.content 2)).length := by
  refine ⟨?_, ?_, ?_, ?_, ?_, ?_, ?_⟩ <;> decide +kernel
/-- A byte of XMIT with another behind it and the last one; a port that rejects; an acknowledgement of LP_RECV and of a wait
on such a port and on one that accepts, with a byte behind it and at the last one. -/
theorem witness_TransmitSteps :
    (sending.hazard = false ∧ sending.phase = .sendTx flight 0 ∧ sending.env.txOk = true ∧
      0 + 1 < (sending.rb sending.scrIx).count) ∧
    ((inPhase (.sendTx flight 8) sending).env.txOk = true ∧ flight.ackW = true ∧
      ((inPhase (.sendTx flight 8) sending).rb sending.scrIx).count ≤ 8 + 1) ∧
    (portReady false sending).env.txOk = false ∧ (portReady false sending).phase = .sendTx flight 0 ∧
      (inPhase (.recvAckTx Quad.zero 6) (portReady false sending)).phase = .recvAckTx Quad.zero 6 ∧
      (inPhase (.recvAckTx Quad.zero 6) (portReady false sending)).env.txOk = false ∧
      (inPhase (.sendAckTx flight 0 6) (portReady false sending)).env.txOk = false ∧
    (6 + 1 < (sending.rb sending.scrIx).count ∧ (sending.rb sending.scrIx).count ≤ 8 + 1) ∧
      (inPhase (.recvAckTx Quad.zero 8) sending).env.txOk = true ∧ (inPhase (.recvAckTx Quad.zero 8) sending).hazard = false ∧
      (inPhase (.sendAckTx flight 0 8) sending).env.txOk = true := by decide
/-- An idle block with a session and a payload, and LP_SEND rb2 planned. -/
def planning : State := planned (.host (.write 0x010 4 0x00000251#32)) (inPhase .idle sender)
theorem witness_UnackedSendTransmitsFrame :
    RingsOk planning ∧ MemOk planning ∧ planning.phase = .idle ∧ encode (.lpSend 2 false) = 0x00000251#32 ∧
      planning.env.agenda = [.host (.write 0x010 4 0x00000251#32)] ∧ planning.env.txOk = true ∧
      planning.ls.sessValid = true ∧ (2 : RingIx) ∉ planning.ls.sess.rings ∧ 0 < (planning.rb 2).cap ∧
      (planning.rb 2).count ≤ 128 ∧
      (wireFrame 0#7 false (planning.ls.txHash + 1#16) ((planning.accept 0x00000251#32).content 2)).length ≤
        (planning.rb planning.scrIx).cap := by
  refine ⟨?_, ?_, ?_, ?_, ?_, ?_, ?_, ?_, ?_, ?_, ?_⟩ <;> decide +kernel
/-- One tick before the time-out and at it, with retries left and without, and across the wrap of the tick input. -/
def waiting (tick : Nat) (c : SendCtx) : State := atTick tick (inPhase (.sendT c) sending)
/-- As `waiting`, with a full receive ring and a scratch ring in which no frame fits. -/
def waitingFull (tick : Nat) : State := ring 1 0x2000 6 0 0 (ring 0 0x1000 4 4 0 (waiting tick flight))
theorem witness_AckWaitTimeout_full :
    Ready (waitingFull 14) ∧ ((waitingFull 14).rb (waitingFull 14).rxIx).count = ((waitingFull 14).rb (waitingFull 14).rxIx).cap ∧
    ((waitingFull 14).env.tick - flight.t0).toNat < flight.timeout.toNat ∧
    Ready (waitingFull 15) ∧ flight.timeout.toNat ≤ ((waitingFull 15).env.tick - flight.t0).toNat ∧
    ((waitingFull 15).rb (waitingFull 15).scrIx).cap < (wireFrame 0#7 flight.ackW flight.hash flight.payload).length := by
  refine ⟨?_, ?_, ?_, ?_, ?_, ?_⟩ <;> decide +kernel
theorem witness_AckWaitTimeout :
    (Ready (inPhase (.sendT0 flight) sending) ∧ 0 < (sending.rb sending.rxIx).cap - (sending.rb sending.rxIx).count) ∧
    (Ready (waiting 14 flight) ∧ ((waiting 14 flight).env.tick - flight.t0).toNat < flight.timeout.toNat) ∧
    (Ready (waiting 15 { flight with tries := 3 }) ∧
      flight.timeout.toNat ≤ ((waiting 15 { flight with tries := 3 }).env.tick - flight.t0).toNat ∧
      ({ flight with tries := 3 } : SendCtx).tries = 1 + flight.retries) ∧
    Ready (waiting 4 flight) ∧ flight.timeout.toNat ≤ ((waiting 4 flight).env.tick - flight.t0).toNat ∧
      flight.tries ≠ 1 + flight.retries ∧
      (wireFrame 0#7 flight.ackW flight.hash flight.payload).length ≤ ((waiting 4 flight).rb (waiting 4 flight).scrIx).cap := by
  refine ⟨⟨?_, ?_⟩, ⟨?_, ?_⟩, ⟨?_, ?_, ?_⟩, ?_, ?_, ?_, ?_⟩ <;> decide +kernel
/-- An acknowledgement of the hash in flight behind one byte of noise, and bytes behind it. -/
def ackWaiting : State :=
  inPhase (.sendRx flight) (link false ([9] ++ wireFrame 1#7 false flight.hash [] ++ [0x7E, 3]) [])
theorem witness_MatchingAckEndsSend :
    Inv ackWaiting ∧ ackWaiting.hazard = false ∧ ackWaiting.phase = .sendRx flight ∧ ackWaiting.env.rxLine = [] ∧
      AllApart ackWaiting [ackWaiting.rxIx, ackWaiting.scrIx] ∧ (0x7E#8 : Byte) ∉ ([9] : List Byte) ∧
      ackWaiting.content ackWaiting.rxIx = [9] ++ wireFrame 1#7 false flight.hash [] ++ [0x7E, 3] ∧
      (wireFrame 1#7 false flight.hash []).length ≤ (ackWaiting.rb ackWaiting.scrIx).cap + 2 := by
  refine ⟨?_, ?_, ?_, ?_, ?_, ?_, ?_, ?_⟩ <;> decide +kernel
/-- A receive ring with two free slots and a byte on the port, inside a wait and inside LP_RECV. -/
def toppingUp (p : Phase) : State := lineByte 5 (inPhase p (ring 0 0x1000 64 62 0 (link false [] [])))
theorem witness_TopUpTakesBytes :
    ((toppingUp .fetch).ls.sessValid = true ∧ (2 : RingIx) ∉ (toppingUp .fetch).ls.sess.rings ∧
      0 < ((toppingUp .fetch).rb 2).cap ∧
      0 < ((toppingUp .fetch).rb (toppingUp .fetch).rxIx).cap - ((toppingUp .fetch).rb (toppingUp .fetch).rxIx).count) ∧
    (Ready (toppingUp (.sendRx flight)) ∧ (toppingUp (.sendRx flight)).env.rxLine = [5] ∧
      ((toppingUp (.sendRx flight)).rb 0).count + 1 < ((toppingUp (.sendRx flight)).rb 0).cap) ∧
    Ready (toppingUp (.recvRx { out := 2, want := 0 })) ∧
      (toppingUp (.recvRx { out := 2, want := 0 })).phase = .recvRx { out := 2, want := 0 } := by
  refine ⟨?_, ⟨?_, ?_, ?_⟩, ?_, ?_⟩ <;> decide +kernel
/-- One free slot, which the byte fills; a full ring at LP_RECV's execution; a port with nothing to hand over. -/
theorem witness_TopUpTakesBytes_full :
    (Ready (ring 0 0x1000 64 63 0 (toppingUp (.sendRx flight))) ∧
      ((ring 0 0x1000 64 63 0 (toppingUp (.sendRx flight))).rb 0).count + 1 =
        ((ring 0 0x1000 64 63 0 (toppingUp (.sendRx flight))).rb 0).cap) ∧
    ((ring 0 0x1000 64 64 0 (toppingUp .fetch)).rb 0).cap - ((ring 0 0x1000 64 64 0 (toppingUp .fetch)).rb 0).count = 0 ∧
      receiving.env.rxLine = [] ∧ receiving.phase = .recvRx { out := 2, want := 0 } := by
  refine ⟨⟨?_, ?_⟩, ?_, ?_, ?_⟩ <;> decide +kernel
/-- LP_RECV rb2, want=0 latched, a frame in the receive ring behind noise and before other bytes; a scratch ring of `cap`. -/
def taking (cap : Nat) (pre w post : List Byte) : State :=
  { ring 1 0x2000 cap 0 0 (link false (pre ++ w ++ post) []) with cmd := 0x00000252#32 }
/-- Noise, a candidate with a wrong CRC, and a too short one, which share a flag. -/
def badCandidates : List Byte := [9] ++ 0x7E :: [0, 0, 1, 0x41, 2, 3] ++ 0x7E :: [4]
theorem witness_junk : Junk badCandidates ∧ Junk [9] :=
  ⟨((Junk.noise (by decide)).append_body (by decide)
    (not_deframes_of_residue (by decide) (by decide +kernel))).append_body (by decide) (not_deframes_of_short (by decide)),
    Junk.noise (by decide)⟩
/-- R120, R121: the two bad candidates are dropped and the frame behind them is taken. -/
theorem test_recv_behind_bad_candidates :
    (recvScan { out := 2, want := 0 } (taking 11 badCandidates hello [0x7E])).content 2 =
        [0x48, 0x65, 0x6C, 0x6C, 0x6F, 0x20] ∧
      (recvScan { out := 2, want := 0 } (taking 11 badCandidates hello [0x7E])).content 0 = [0x7E] := by decide +kernel
/-- `hello` behind bad candidates, in a ring with room, and just room for the payload in the out ring. -/
def takingHello : State := ring 2 0x3000 32 26 0 (taking 11 badCandidates hello [0x7E])
theorem witness_LpRecvDelivers :
    Inv takingHello ∧ takingHello.hazard = false ∧ takingHello.phase = .fetch ∧
      decode takingHello.cmd = .ok (.lpRecv 2 (0#7).toNat) ∧ takingHello.env.agenda = [] ∧ takingHello.env.rxLine = [] ∧
      takingHello.ls.sessValid = true ∧ (2 : RingIx) ∉ takingHello.ls.sess.rings ∧ 0 < (takingHello.rb 2).cap ∧
      takingHello.ls.sess.sqe = false ∧ AllApart takingHello [takingHello.rxIx, takingHello.scrIx, 2] ∧
      hello = wireFrame 0#7 false 1#16 [0x48, 0x65, 0x6C, 0x6C, 0x6F, 0x20] ∧ (0x7E#8 : Byte) ∉ ([9] : List Byte) ∧
      takingHello.content takingHello.rxIx = badCandidates ++ hello ++ [0x7E] ∧
      hello.length ≤ (takingHello.rb takingHello.scrIx).cap + 2 ∧
      6 ≤ (takingHello.rb 2).cap - (takingHello.rb 2).count := by
  refine ⟨?_, ?_, ?_, rfl, ?_, ?_, ?_, ?_, ?_, ?_, ?_, ?_, ?_, ?_, ?_, ?_⟩ <;> decide +kernel
/-- A frame that wants an acknowledgement, with a scratch ring that just holds the acknowledgement, with one that does not, and
with a hash already delivered. -/
theorem witness_LpRecvDelivers_ack :
    (Inv (taking 7 [] helloAck []) ∧ (taking 7 [] helloAck []).content 0 = [] ++ helloAck ++ [] ∧
      helloAck.length ≤ ((taking 7 [] helloAck []).rb 1).cap + 2 ∧
      (wireFrame 1#7 false 1#16 []).length ≤ ((taking 7 [] helloAck []).rb 1).cap ∧
      (taking 7 [] helloAck []).env.txOk = true) ∧
    (Inv (taking 6 [] (wireFrame 0#7 true 1#16 [0x41]) []) ∧
      (wireFrame 0#7 true 1#16 [0x41]).length ≤ ((taking 6 [] (wireFrame 0#7 true 1#16 [0x41]) []).rb 1).cap + 2 ∧
      ((taking 6 [] (wireFrame 0#7 true 1#16 [0x41]) []).rb 1).cap < (wireFrame 1#7 false 1#16 []).length) ∧
    (decide (0#7 = 0#7) && ((taking 7 [] helloAck []).setLastRx 1#16).ls.lastRx.valid &&
      decide (1#16 = ((taking 7 [] helloAck []).setLastRx 1#16).ls.lastRx.hash)) = true := by
  refine ⟨⟨?_, ?_, ?_, ?_, ?_⟩, ⟨?_, ?_, ?_⟩, ?_⟩ <;> decide +kernel
/-- Another code, removable and not, and a frame of the wanted code with one byte too few in the out ring. -/
def passing (word : Word) (removable outCount : Nat) : State :=
  { ring 2 0x3000 32 outCount 0 (link false ([9] ++ hello ++ [4]) []) with cmd := word, arg := quadOf removable 0 0 0 }
theorem witness_LpRecvLeavesOtherFrames :
    (Inv (passing 0x00200252 1 0) ∧ decode (passing 0x00200252 1 0).cmd = .ok (.lpRecv 2 2) ∧ (0#7).toNat ≠ 2 ∧
      (passing 0x00200252 1 0).removable 0 = true ∧ (passing 0x00200252 0 0).removable 0 = false ∧
      (passing 0x00200252 1 0).content 0 = [9] ++ hello ++ [4] ∧ (passing 0x00200252 1 0).ls.sess.sqe = false ∧
      AllApart (passing 0x00200252 1 0) [(passing 0x00200252 1 0).rxIx, (passing 0x00200252 1 0).scrIx]) ∧
    Inv (passing 0x00000252 0 27) ∧ decode (passing 0x00000252 0 27).cmd = .ok (.lpRecv 2 (0#7).toNat) ∧
      (passing 0x00000252 0 27).ls.lastRx.valid = false ∧
      ((passing 0x00000252 0 27).rb 2).cap - ((passing 0x00000252 0 27).rb 2).count < 6 := by
  refine ⟨⟨?_, rfl, ?_, ?_, ?_, ?_, ?_, ?_⟩, ?_, rfl, ?_, ?_⟩ <;> decide +kernel
/-- A side queue with one entry of two bytes: an out ring with just that room, and one with a byte less. -/
def queued (outCount : Nat) : State :=
  inPhase (.recvRx { out := 2, want := 0 }) (ring 2 0x3000 32 outCount 0
    (put 0x5000 [2] (ring 5 0x5000 4 1 0 (put 0x4000 [0x41, 0x42] (ring 4 0x4000 32 2 0 (link true [] []))))))
theorem witness_LpRecvDrainsSideQueue :
    Inv (queued 30) ∧ (queued 30).hazard = false ∧ ((queued 30).content (queued 30).slenIx).head? = some (BitVec.ofNat 8 2) ∧
      2 ≤ ((queued 30).rb 2).cap - ((queued 30).rb 2).count ∧ 2 ≤ ((queued 30).rb (queued 30).sideIx).count ∧
      AllApart (queued 30) [2, (queued 30).sideIx, (queued 30).slenIx] ∧
      ((queued 31).rb 2).cap - ((queued 31).rb 2).count < 2 ∧ Inv (queued 31) := by
  refine ⟨?_, ?_, ?_, ?_, ?_, ?_, ?_, ?_⟩ <;> decide +kernel
/-- A DATA frame that wants an acknowledgement, and one that does not, in the receive ring of a wait with side queue. -/
def capturing (w : List Byte) : State := inPhase (.sendRx flight) (link true ([9] ++ w ++ [4]) [])
theorem witness_WaitCapturesData :
    Inv (capturing helloAck) ∧ (capturing helloAck).hazard = false ∧ (capturing helloAck).env.rxLine = [] ∧
      (capturing helloAck).ls.sess.sqe = true ∧
      AllApart (capturing helloAck)
        [(capturing helloAck).rxIx, (capturing helloAck).scrIx, (capturing helloAck).sideIx, (capturing helloAck).slenIx] ∧
      (capturing helloAck).content (capturing helloAck).rxIx = [9] ++ helloAck ++ [4] ∧
      (capturing helloAck).ls.lastRx.valid = false ∧
      2 ≤ ((capturing helloAck).rb (capturing helloAck).sideIx).cap - ((capturing helloAck).rb (capturing helloAck).sideIx).count ∧
      ((capturing helloAck).rb (capturing helloAck).slenIx).count < ((capturing helloAck).rb (capturing helloAck).slenIx).cap ∧
      (wireFrame 1#7 false 1#16 []).length ≤ ((capturing helloAck).rb (capturing helloAck).scrIx).cap ∧
      Inv (capturing hello) ∧ (capturing hello).content (capturing hello).rxIx = [9] ++ hello ++ [4] := by
  refine ⟨?_, ?_, ?_, ?_, ?_, ?_, ?_, ?_, ?_, ?_, ?_, ?_⟩ <;> decide +kernel

/-- The other frames of a wait: a stale acknowledgement; a duplicate that wants an acknowledgement; DATA with a full length ring;
DATA without side queue; a frame of another code. -/
theorem witness_WaitCapturesData_rows :
    (Inv (capturing (wireFrame 1#7 false 2#16 [])) ∧
      (capturing (wireFrame 1#7 false 2#16 [])).content 0 = [9] ++ wireFrame 1#7 false 2#16 [] ++ [4] ∧
      (2#16 : Half) ≠ flight.hash) ∧
    (Inv ((capturing helloAck).setLastRx 1#16) ∧ ((capturing helloAck).setLastRx 1#16).ls.lastRx.valid = true ∧
      (1#16 : Half) = ((capturing helloAck).setLastRx 1#16).ls.lastRx.hash) ∧
    (Inv (ring 5 0x5000 4 4 0 (capturing hello)) ∧ (ring 5 0x5000 4 4 0 (capturing hello)).content 0 = [9] ++ hello ++ [4] ∧
      ¬ ((ring 5 0x5000 4 4 0 (capturing hello)).rb 5).count < ((ring 5 0x5000 4 4 0 (capturing hello)).rb 5).cap) ∧
    (Inv (inPhase (.sendRx flight) (link false ([9] ++ hello ++ [4]) [])) ∧
      AllApart (link false ([9] ++ hello ++ [4]) []) (link false ([9] ++ hello ++ [4]) []).ls.sess.rings) ∧
    Inv (capturing (wireFrame 2#7 false 1#16 [])) ∧ AllApart (capturing hello) (capturing hello).ls.sess.rings ∧
      (capturing hello).env.txOk = true ∧ (capturing hello).env.agenda = [] := by
  refine ⟨⟨?_, ?_, ?_⟩, ⟨?_, ?_, ?_⟩, ⟨?_, ?_, ?_⟩, ⟨?_, ?_⟩, ?_, ?_, ?_, ?_⟩ <;> decide +kernel

/-- As `capturing`, with a scratch ring in which the frame's content fits and its acknowledgement does not. -/
def crampedCapture : State := ring 1 0x2000 6 0 0 (capturing (wireFrame 0#7 true 1#16 [0x41]))
theorem witness_WaitCapturesData_cramped :
    Inv crampedCapture ∧ crampedCapture.content 0 = [9] ++ wireFrame 0#7 true 1#16 [0x41] ++ [4] ∧
      AllApart crampedCapture
        [crampedCapture.rxIx, crampedCapture.scrIx, crampedCapture.sideIx, crampedCapture.slenIx] ∧
      (wireFrame 0#7 true 1#16 [0x41]).length ≤ (crampedCapture.rb crampedCapture.scrIx).cap + 2 ∧
      crampedCapture.ls.lastRx.valid = false ∧
      (crampedCapture.rb crampedCapture.scrIx).cap < (wireFrame 1#7 false 1#16 []).length := by
  refine ⟨?_, ?_, ?_, ?_, ?_, ?_⟩ <;> decide +kernel

end Sys2Proof.Tests
end

namespace Sys2Proof.Machine

/-! ## What the operations of the engine leave alone, whatever the state (10_state R37)

`State.frozen` takes out what the operations work on; that an operation keeps it needs no soundness of the state. -/

@[simp] theorem State.store_frozen (s : State) (a : Nat) (b : Byte) : (s.store a b).frozen = s.frozen := rfl
@[simp] theorem State.wr_frozen (s : State) (i : RingIx) (v : Nat) (b : Byte) : (s.wr i v b).frozen = s.frozen := rfl
@[simp] theorem State.setRb_frozen (s : State) (i : RingIx) (d : Desc) : (s.setRb i d).frozen = s.frozen := rfl
@[simp] theorem State.pushTail_frozen (s : State) (i : RingIx) (b : Byte) : (s.pushTail i b).frozen = s.frozen := rfl
@[simp] theorem State.pushHead_frozen (s : State) (i : RingIx) (b : Byte) : (s.pushHead i b).frozen = s.frozen := rfl
@[simp] theorem State.dropHead_frozen (s : State) (i : RingIx) (k : Nat) : (s.dropHead i k).frozen = s.frozen := rfl
@[simp] theorem State.dropTail_frozen (s : State) (i : RingIx) : (s.dropTail i).frozen = s.frozen := rfl
@[simp] theorem State.flushRb_frozen (s : State) (i : RingIx) : (s.flushRb i).frozen = s.frozen := rfl
@[simp] theorem State.setLastRx_frozen (s : State) (h : Half) : (s.setLastRx h).frozen = s.frozen := rfl
@[simp] theorem State.setAckFail_frozen (s : State) : s.setAckFail.frozen = s.frozen := rfl

theorem forUp_frozen {body : Nat → State → State} (h : ∀ j t, (body j t).frozen = t.frozen) (k lo : Nat) (s : State) :
    (forUp body k lo s).frozen = s.frozen :=
  forUp_keeps (fun t => t.frozen = s.frozen) body k lo s (fun j t _ _ ht => (h j t).trans ht) rfl

theorem forDown_frozen {body : Nat → State → State} (h : ∀ j t, (body j t).frozen = t.frozen) (k lo : Nat) (s : State) :
    (forDown body k lo s).frozen = s.frozen :=
  forDown_keeps (fun t => t.frozen = s.frozen) body k lo s (fun j t _ _ ht => (h j t).trans ht) rfl

@[simp] theorem copyOut_frozen (i : RingIx) (a f k : Nat) (s : State) : (copyOut i a f k s).frozen = s.frozen :=
  forUp_frozen (by intros; rfl) _ _ _
@[simp] theorem copyIn_frozen (i : RingIx) (a f k : Nat) (s : State) : (copyIn i a f k s).frozen = s.frozen :=
  forUp_frozen (by intros; rfl) _ _ _
@[simp] theorem pushBlockTail_frozen (i : RingIx) (a k : Nat) (s : State) : (pushBlockTail i a k s).frozen = s.frozen :=
  forUp_frozen (by intros; rfl) _ _ _
@[simp] theorem pushBlockHead_frozen (i : RingIx) (a k : Nat) (s : State) : (pushBlockHead i a k s).frozen = s.frozen :=
  forDown_frozen (by intros; rfl) _ _ _
@[simp] theorem copyToTail_frozen (i o : RingIx) (lo n : Nat) (s : State) : (copyToTail i o lo n s).frozen = s.frozen :=
  forUp_frozen (by intros; rfl) _ _ _
@[simp] theorem drain_frozen (o : RingIx) (n : Nat) (s : State) : (drain o n s).frozen = s.frozen :=
  forUp_frozen (by intros; rfl) _ _ _

@[simp] theorem makeRoomHead_frozen (i : RingIx) (p : State × Nat) : (makeRoomHead i p).1.frozen = p.1.frozen := by
  unfold makeRoomHead; split <;> rfl
@[simp] theorem makeRoomTail_frozen (i : RingIx) (p : State × Nat) : (makeRoomTail i p).1.frozen = p.1.frozen := by
  unfold makeRoomTail; split <;> rfl

@[simp] theorem pushOver_frozen (i : RingIx) (e : End) (a n : Nat) (s : State) : (pushOver i e a n s).1.frozen = s.frozen := by
  cases e with
  | tail => exact forUp_keeps (fun p : State × Nat => p.1.frozen = s.frozen) _ _ _ _ (by simp) rfl
  | head => exact forDown_keeps (fun p : State × Nat => p.1.frozen = s.frozen) _ _ _ _ (by simp) rfl

@[simp] theorem cutRange_frozen (i : RingIx) (f k : Nat) (s : State) : (cutRange i f k s).frozen = s.frozen := by
  unfold cutRange
  dsimp only
  split
  · rw [State.setRb_frozen]
    exact forDown_frozen (by intros; rfl) _ _ _
  · rw [State.setRb_frozen]
    exact forUp_frozen (by intros; rfl) _ _ _

@[simp] theorem State.pushEnd_frozen (s : State) (i : RingIx) (e : End) (b : Byte) : (s.pushEnd i e b).frozen = s.frozen := by
  cases e <;> rfl
@[simp] theorem State.dropEnd_frozen (s : State) (i : RingIx) (e : End) : (s.dropEnd i e).frozen = s.frozen := by
  cases e <;> rfl

@[simp] theorem moveLoop_frozen (di : RingIx) (ed : End) (si : RingIx) (es : End) (destr : Bool) (fuel i : Nat) (s : State) :
    (moveLoop di ed si es destr fuel i s).1.frozen = s.frozen := by
  induction fuel generalizing i s with
  | zero => rfl
  | succ n ih =>
    simp only [moveLoop]
    split
    · rfl
    · rw [ih]; split <;> simp

@[simp] theorem rotHeadToTail_frozen (i : RingIx) (s : State) : (rotHeadToTail i s).frozen = s.frozen := rfl
@[simp] theorem rotTailToHead_frozen (i : RingIx) (s : State) : (rotTailToHead i s).frozen = s.frozen := rfl

@[simp] theorem storeSlots_frozen (d : Desc) (sh i : Nat) (l : List Byte) (s : State) :
    (storeSlots d sh i l s).frozen = s.frozen := by
  induction l generalizing i s with
  | nil => rfl
  | cons b bs ih => simp [storeSlots, ih]

@[simp] theorem rotateStorage_frozen (d : Desc) (sh : Nat) (s : State) : (rotateStorage d sh s).frozen = s.frozen :=
  storeSlots_frozen _ _ _ _ _

@[simp] theorem State.dropUntil_frozen (i : RingIx) (b : Byte) (fuel : Nat) (s : State) :
    (State.dropUntil i b fuel s).frozen = s.frozen := by
  induction fuel generalizing s with
  | zero => rfl
  | succ n ih =>
    simp only [State.dropUntil]
    split
    · simp [ih]
    · rfl

@[simp] theorem writeView_frozen (i v : RingIx) (found : Option (Nat × Nat)) (s : State) :
    (writeView i v found s).frozen = s.frozen := by
  unfold writeView
  split
  · split <;> rfl
  · rfl

@[simp] theorem advance_frozen (i : RingIx) (f : AdvFlags) (b : Byte) (k : Nat) (s : State) :
    (advance i f b k s).frozen = s.frozen := by
  unfold advance
  split <;> simp

@[simp] theorem stuffLoop_frozen (i : RingIx) (left k : Nat) (s : State) : (stuffLoop i left k s).st.frozen = s.frozen := by
  induction left generalizing k s with
  | zero => rfl
  | succ n ih =>
    simp only [stuffLoop]
    split
    · split
      · simp
      · simp [ih]
    · simp [ih]

@[simp] theorem unstuffLoop_frozen (i : RingIx) (left k : Nat) (s : State) :
    (unstuffLoop i left k s).st.frozen = s.frozen := by
  induction left using Nat.strongRecOn generalizing k s with
  | _ left ih =>
    match left with
    | 0 => rfl
    | n + 1 =>
      unfold unstuffLoop
      dsimp only
      split
      · simp
      · split
        · match n with
          | 0 => simp
          | m + 1 =>
            dsimp only
            split
            · simp [ih m (by omega)]
            · simp
        · simp [ih n (by omega)]

@[simp] theorem stuffRing_frozen (i : RingIx) (s : State) : (stuffRing i s).st.frozen = s.frozen := stuffLoop_frozen _ _ _ _
@[simp] theorem unstuffRing_frozen (i : RingIx) (s : State) : (unstuffRing i s).st.frozen = s.frozen :=
  unstuffLoop_frozen _ _ _ _

@[simp] theorem pushAll_frozen (i : RingIx) (l : List Byte) (s : State) : (pushAll i l s).1.frozen = s.frozen := by
  induction l generalizing s with
  | nil => rfl
  | cons b bs ih =>
    simp only [pushAll]
    split
    · rfl
    · simp [ih]

@[simp] theorem flagWrap_frozen (i : RingIx) (s : State) : (flagWrap i s).1.frozen = s.frozen := by
  simp only [flagWrap]
  split
  · rfl
  · split <;> simp

@[simp] theorem build_frozen (code : BitVec 7) (ackW : Bool) (hash : Half) (l : List Byte) (s : State) :
    (build code ackW hash l s).1.frozen = s.frozen := by
  simp only [build]
  split
  · split <;> simp
  · simp

@[simp] theorem buildAck_frozen (hash : Half) (s : State) : (buildAck hash s).1.frozen = s.frozen := build_frozen _ _ _ _ _

@[simp] theorem deframe_frozen (h len : Nat) (s : State) : (deframe h len s).1.frozen = s.frozen := by
  simp only [deframe]
  split
  · rfl
  · split <;> simp

@[simp] theorem captureFrame_frozen (d : Frame) (s : State) : (captureFrame d s).frozen = s.frozen :=
  copyToTail_frozen s.scrIx s.sideIx Config.hdrLen d.plen s

@[simp] theorem deliver_frozen (o : RingIx) (d : Frame) (s : State) : (deliver o d s).frozen = s.frozen := by
  simp only [deliver]
  split <;> simp

@[simp] theorem scanRest_frozen (off : Nat) (s : State) : (scanRest off s).frozen = s.frozen := by
  simp only [scanRest]
  split
  · split <;> simp
  · rfl

/-- SCAN keeps what its operations keep (R121). -/
@[simp] theorem scan_frozen (m : Mode) (fuel off : Nat) (s : State) : (scan m fuel off s).1.frozen = s.frozen := by
  induction fuel generalizing off s with
  | zero => rfl
  | succ n ih =>
    simp only [scan]
    split
    · exact scanRest_frozen off s
    · rename_i h len _
      have hd := deframe_frozen h len s
      split
      · rename_i t ht
        rw [ht] at hd
        split <;> simpa [ih] using hd
      · rename_i t d ht
        rw [ht] at hd
        have hu : (if off = 0 then t.dropHead t.rxIx h else t).frozen = s.frozen := by split <;> exact hd
        generalize (if off = 0 then t.dropHead t.rxIx h else t) = u at hu
        generalize (if off = 0 then 0 else h) = at1
        split
        · simpa using hu
        · simpa [ih] using hu
        · split <;> simpa [ih] using hu
        · split
          · split <;> simpa [ih] using hu
          · simpa [ih] using hu
        · simpa [ih] using hu
        · exact hu

@[simp] theorem scanAll_frozen (m : Mode) (off : Nat) (s : State) : (scanAll m off s).1.frozen = s.frozen :=
  scan_frozen _ _ _ _

end Sys2Proof.Machine

namespace Sys2Proof.Machine

/-! ## Outcomes -/

/-- If the outcome is a next state, it has the property `P`. -/
def Ends (P : State → Prop) (o : Host.Outcome State Fault Refusal) : Prop := ∀ t, o = .next t → P t

@[simp] theorem ends_goOn (P : State → Prop) (s : State) : Ends P (goOn s) ↔ P s := by
  simp [Ends, goOn]

theorem Ends.mono {P Q : State → Prop} {o : Host.Outcome State Fault Refusal} (h : Ends P o) (hpq : ∀ t, P t → Q t) :
    Ends Q o := fun t ht => hpq t (h t ht)

/-! ## The commands that end in the step that executes them (R36) -/

/-- LP_INIT, LP_SEND and LP_RECV. -/
def linkCommand : Instr → Bool
  | .lpInit | .lpSend _ _ | .lpRecv _ _ => true
  | _ => false

/-- A state with everything a command that is no link command may write taken out. -/
def State.besides (s : State) : State :=
  { s.frozen with phase := .idle, status := { Status.reset with ovr := s.status.ovr }, res := Quad.zero, crcAcc := 0#16 }

/-- `t` is a completion of a command that is no link command and was executing in `s`. -/
structure Done (s t : State) : Prop where
  phase : t.phase = .idle
  besides : t.besides = s.besides

theorem Done.of_frozen {s t u : State} (hp : t.phase = .idle) (ht : t.besides = u.besides) (hu : u.frozen = s.frozen) :
    Done s t where
  phase := hp
  besides := by
    have ho : u.status.ovr = s.status.ovr := congrArg (fun x => x.status.ovr) hu
    rw [ht, State.besides, State.besides, hu, ho]

theorem done_raiseParam (s : State) : Done s s.raiseParam := ⟨rfl, rfl⟩
theorem done_completeKeep (s : State) (e : Ecode) : Done s (s.completeKeep e) := ⟨rfl, rfl⟩
theorem done_complete {s u : State} (e : Ecode) (r : Quad) (h : u.frozen = s.frozen) : Done s (u.complete e r) :=
  Done.of_frozen (u := u) rfl rfl h
theorem done_finish {s u : State} (a b c d : Nat) (h : u.frozen = s.frozen) : Done s (u.finish a b c d) :=
  done_complete _ _ h
theorem done_setCrc_finish (s : State) (x : Half) (a b c d : Nat) : Done s ((s.setCrc x).finish a b c d) := ⟨rfl, rfl⟩
theorem done_passFinish {s : State} {p : PassResult} (i : RingIx) (e : Ecode) (h : p.st.frozen = s.frozen) :
    Done s (p.finish i e) := by
  unfold PassResult.finish
  split
  · exact done_finish _ _ _ _ h
  · exact done_complete _ _ h

/-- A command with one check completes: with PARAM where it fails, else as its rule says (R131). -/
theorem ends_done_ite {s t : State} {c : Prop} [Decidable c] (h : Done s t) :
    Ends (Done s) (if c then goOn s.raiseParam else goOn t) := by
  split
  · exact (ends_goOn _ _).mpr (done_raiseParam s)
  · exact (ends_goOn _ _).mpr h

/-- Every command but the link commands completes in the step that executes it, and writes no more than `Done` says (R36). -/
theorem exec_done {i : Instr} (hi : linkCommand i = false) (s : State) : Ends (Done s) (exec i s) := by
  cases i with
  | nop => exact (ends_goOn _ _).mpr (done_completeKeep s _)
  | rbInit ra => exact ends_done_ite (done_finish _ _ _ _ rfl)
  | rbPusho ra ea => exact ends_done_ite (done_finish _ _ _ _ (by simp))
  | rbPushb ra ea =>
    cases ea with
    | tail => exact ends_done_ite (done_finish _ _ _ _ (by simp))
    | head => exact ends_done_ite (done_finish _ _ _ _ (by simp))
  | rbPull ra ea discard => exact ends_done_ite (done_finish _ _ _ _ (by cases discard <;> simp))
  | rbRead ra ea => exact ends_done_ite (done_finish _ _ _ _ (by simp))
  | rbWrite ra ea => exact ends_done_ite (done_finish _ _ _ _ (by simp))
  | rbCut ra ea discard => exact ends_done_ite (done_finish _ _ _ _ (by cases discard <;> simp))
  | rbMove ra ea rb eb destr => exact ends_done_ite (done_finish _ _ _ _ (by simp))
  | rbRotl ra dir =>
    simp only [exec, execRbRotl]
    split
    · exact (ends_goOn _ _).mpr (done_raiseParam s)
    · split
      · exact (ends_goOn _ _).mpr (done_finish _ _ _ _ rfl)
      · split
        · exact (ends_goOn _ _).mpr (done_finish _ _ _ _ (forUp_frozen (by simp) _ _ _))
        · exact (ends_goOn _ _).mpr (done_finish _ _ _ _ (forUp_frozen (by simp) _ _ _))
  | rbRotp ra => exact ends_done_ite (done_finish _ _ _ _ (by simp))
  | rbFull ra => exact ends_done_ite (done_finish _ _ _ _ rfl)
  | rbEmpty ra => exact ends_done_ite (done_finish _ _ _ _ rfl)
  | rbFlush ra => exact ends_done_ite (done_finish _ _ _ _ (by simp))
  | fsMatch ra sel tie => exact ends_done_ite (done_finish _ _ _ _ rfl)
  | fsSearch ra rb => exact ends_done_ite (done_finish _ _ _ _ (by simp))
  | fsSrchadv ra rb flags => exact ends_done_ite (done_finish _ _ _ _ (by simp))
  | bsStuff ra => exact ends_done_ite (done_passFinish _ _ (by simp))
  | bsUnstuff ra => exact ends_done_ite (done_passFinish _ _ (by simp))
  | crcSeed => exact (ends_goOn _ _).mpr (done_setCrc_finish _ _ _ _ _ _)
  | crcByte => exact (ends_goOn _ _).mpr (done_setCrc_finish _ _ _ _ _ _)
  | crcRun ra => exact ends_done_ite (done_setCrc_finish _ _ _ _ _ _)
  | crcAppend ra =>
    simp only [exec, execCrcAppend]
    split
    · exact (ends_goOn _ _).mpr (done_raiseParam s)
    · split
      · exact (ends_goOn _ _).mpr (done_complete _ _ rfl)
      · exact (ends_goOn _ _).mpr (done_finish _ _ _ _ (by simp))
  | crcCheck ra => exact ends_done_ite (done_setCrc_finish _ _ _ _ _ _)
  | lpInit => cases hi
  | lpSend ra ack => cases hi
  | lpRecv ra want => cases hi

end Sys2Proof.Machine

namespace Sys2Proof.Machine

/-! ## What the parts of the link commands can do (R116, R121, R126, R127)

Each lemma says once in which states a part can end; `u` is what its ring operations leave. -/

/-- An attempt ends before its first TX call, or its BUILD fails (R126). -/
theorem sendAttempt_cases (c : SendCtx) (s : State) :
    ∃ u, u = (build Config.codeData c.ackW c.hash c.payload s).1 ∧
      ((∃ n, sendAttempt c s =
          (u.setSendBoth .sent (c.tries + 1)).await (.sendTx { c with tries := c.tries + 1, frameLen := n } 0)) ∨
        sendAttempt c s = (u.setSend .aborted).raise .capacity (quadOf 0 c.tries c.hash.toNat 0)) := by
  refine ⟨_, rfl, ?_⟩
  simp only [sendAttempt]
  split
  · exact .inl ⟨_, rfl⟩
  · exact .inr rfl

/-- The scan of a wait completes the send, or ends before the TX call of an acknowledgement or the reading of the tick
(R121, R126). -/
theorem waitScan_cases (c : SendCtx) (off : Nat) (s : State) :
    ∃ u, u = (scanAll (.ackWait c.hash) off s).1 ∧
      (waitScan c off s = (u.setSend .acked).complete .ok (c.results 1) ∨
        (∃ off', waitScan c off s = u.await (.sendAckTx c off' 0)) ∨ waitScan c off s = u.await (.sendT c)) := by
  refine ⟨_, rfl, ?_⟩
  unfold waitScan
  rcases scanAll (.ackWait c.hash) off s with ⟨u, _ | _ | _ | _⟩
  · exact .inl rfl
  · exact .inr (.inr rfl)
  · exact .inr (.inr rfl)
  · exact .inr (.inl ⟨_, rfl⟩)

/-- A poll of a wait ends before the RXP call, with room in rx, or scans (R119, R126). -/
theorem waitPoll_cases (c : SendCtx) (s : State) :
    (0 < (s.rb s.rxIx).free ∧ waitPoll c s = s.await (.sendRx c)) ∨ waitPoll c s = waitScan c 0 s := by
  unfold waitPoll
  split
  · exact .inl ⟨‹_›, rfl⟩
  · exact .inr rfl

/-- A poll of LP_RECV ends before the RXP call, with room in rx, or scans (R119, R127). -/
theorem recvPoll_cases (c : RecvCtx) (s : State) :
    (0 < (s.rb s.rxIx).free ∧ recvPoll c s = s.await (.recvRx c)) ∨ recvPoll c s = recvScan c s := by
  unfold recvPoll
  split
  · exact .inl ⟨‹_›, rfl⟩
  · exact .inr rfl

/-- A byte of XMIT is rejected, or more bytes follow, or the wait begins, or the command completes (R117, R126). -/
theorem sendTxStep_cases (c : SendCtx) (v : Nat) (s : State) :
    ∃ u, u = (s.tx (s.rd s.scrIx v)).1 ∧
      (sendTxStep c v s = (u.setSend .aborted).raise .transport (c.results 0) ∨
        sendTxStep c v s = u.await (.sendTx c (v + 1)) ∨
        (c.ackW = true ∧ sendTxStep c v s = (u.setSend .ackWait).await (.sendT0 c)) ∨
        sendTxStep c v s = u.complete .ok (c.results 1)) := by
  refine ⟨_, rfl, ?_⟩
  unfold sendTxStep
  rcases s.tx (s.rd s.scrIx v) with ⟨u, _ | _⟩
  · exact .inl rfl
  · dsimp only
    split
    · exact .inr (.inl rfl)
    · split
      · exact .inr (.inr (.inl ⟨‹_›, rfl⟩))
      · exact .inr (.inr (.inr rfl))

/-- A byte of an acknowledgement in a wait is rejected or the last, and the scan goes on; or more bytes follow (R118, R122). -/
theorem sendAckTxStep_cases (c : SendCtx) (off v : Nat) (s : State) :
    ∃ u, u = (s.tx (s.rd s.scrIx v)).1 ∧
      (sendAckTxStep c off v s = waitScan c off u.setAckFail ∨
        sendAckTxStep c off v s = u.await (.sendAckTx c off (v + 1)) ∨ sendAckTxStep c off v s = waitScan c off u) := by
  refine ⟨_, rfl, ?_⟩
  unfold sendAckTxStep
  rcases s.tx (s.rd s.scrIx v) with ⟨u, _ | _⟩
  · exact .inl rfl
  · dsimp only
    split
    · exact .inr (.inl rfl)
    · exact .inr (.inr rfl)

/-- A byte of LP_RECV's acknowledgement is rejected or the last, and the command completes; or more bytes follow (R127). -/
theorem recvAckTxStep_cases (results : Quad) (v : Nat) (s : State) :
    ∃ u, u = (s.tx (s.rd s.scrIx v)).1 ∧
      (recvAckTxStep results v s = u.setAckFail.complete .ok results ∨
        recvAckTxStep results v s = u.await (.recvAckTx results (v + 1)) ∨
        recvAckTxStep results v s = u.complete .ok results) := by
  refine ⟨_, rfl, ?_⟩
  unfold recvAckTxStep
  rcases s.tx (s.rd s.scrIx v) with ⟨u, _ | _⟩
  · exact .inl rfl
  · dsimp only
    split
    · exact .inr (.inl rfl)
    · exact .inr (.inr rfl)

/-- The delivery of a taken frame, which a duplicate does without (R123, R127). -/
def delivered (out : RingIx) (d : Frame) (s : State) : State :=
  if (decide (d.code = Config.codeData) && s.dup d.hash) = true then s else deliver out d s

/-- After the delivery LP_RECV completes, or it ends before the TX call of its acknowledgement (R127). -/
theorem recvTaken_cases (out : RingIx) (d : Frame) (s : State) :
    (∃ r, recvTaken out d s = (buildAck d.hash (delivered out d s)).1.await (.recvAckTx r 0)) ∨
      (∃ r, recvTaken out d s = (buildAck d.hash (delivered out d s)).1.setAckFail.complete .ok r) ∨
      ∃ r, recvTaken out d s = (delivered out d s).complete .ok r := by
  unfold recvTaken
  by_cases ha : d.code = Config.codeData ∧ d.ackW = true
  · rw [if_pos ha]
    by_cases hb : (buildAck d.hash (delivered out d s)).2 = true
    · exact .inl ⟨_, if_pos hb⟩
    · exact .inr (.inl ⟨_, if_neg hb⟩)
  · rw [if_neg ha]
    exact .inr (.inr ⟨_, rfl⟩)

/-- LP_RECV after its TOPUP: the side queue's next entry does not fit, or is drained; else a scan takes a frame, or has to
stop, or finds none (R127). -/
theorem recvScan_cases (c : RecvCtx) (s : State) :
    recvScan c s = s.raise .capacity Quad.zero ∨
    (∃ n r, s.ls.sess.sqe = true ∧ n ≤ (s.rb c.out).free ∧ recvScan c s = (drain c.out n s).complete .ok r) ∨
    ∃ u, u = (scanAll (.ordinary c.want c.out) 0 s).1 ∧
      ((∃ d, scanAll (.ordinary c.want c.out) 0 s = (u, .taken d) ∧ recvScan c s = recvTaken c.out d u) ∨
        recvScan c s = u.raise .capacity Quad.zero ∨ recvScan c s = u.finish 0 0 0 0) := by
  by_cases hq : s.ls.sess.sqe = true ∧ c.want = Config.codeData.toNat ∧ (s.rb s.slenIx).count > 0
  · simp only [recvScan, if_pos hq]
    split
    · exact .inl rfl
    · exact .inr (.inl ⟨_, _, hq.1, by omega, rfl⟩)
  · simp only [recvScan, if_neg hq]
    refine .inr (.inr ⟨_, rfl, ?_⟩)
    rcases scanAll (.ordinary c.want c.out) 0 s with ⟨u, d | _ | _ | _⟩
    · exact .inl ⟨d, rfl, rfl⟩
    · exact .inr (.inl rfl)
    · exact .inr (.inr rfl)
    · exact .inr (.inr rfl)

theorem State.tx_cases (s : State) (b : Byte) :
    (s.env.txOk = true ∧ s.tx b = ({ s with env := { s.env with sent := s.env.sent ++ [b] } }, true)) ∨
      (s.env.txOk = false ∧ s.tx b = (s, false)) := by
  unfold State.tx
  cases h : s.env.txOk
  · exact .inr ⟨rfl, rfl⟩
  · exact .inl ⟨rfl, rfl⟩

theorem State.rxp_cases (s : State) :
    (s.env.rxLine = [] ∧ s.rxp = (s, none)) ∨
      ∃ b rest, s.env.rxLine = b :: rest ∧ s.rxp = ({ s with env := { s.env with rxLine := rest } }, some b) := by
  unfold State.rxp
  split
  · exact .inl ⟨‹_›, rfl⟩
  · exact .inr ⟨_, _, ‹_›, rfl⟩

/-! ## The host's registers (R37) -/

/-- A state with everything an engine step may write taken out. -/
def State.hostPart (s : State) : State :=
  { s.besides with
    ls := { LinkRegs.reset with cfg := s.ls.cfg, timeout := s.ls.timeout, maxRetry := s.ls.maxRetry }
    env := { s.env with rxLine := [], sent := [] } }

theorem hostKept_of_hostPart {s t : State} (h : t.hostPart = s.hostPart) : HostKept s t :=
  ⟨congrArg (fun x => x.addrW) h, congrArg (fun x => x.irqEn) h, congrArg (fun x => x.arg) h, congrArg (fun x => x.sr) h,
    congrArg (fun x => x.ls.cfg) h, congrArg (fun x => x.ls.timeout) h, congrArg (fun x => x.ls.maxRetry) h,
    congrArg (fun x => x.cmd) h, congrArg (fun x => x.hazard) h, congrArg (fun x => x.draws) h, congrArg (fun x => x.busData) h,
    congrArg (fun x => x.status.ovr) h, congrArg (fun x => x.env.tick) h, congrArg (fun x => x.env.txOk) h,
    congrArg (fun x => x.env.agenda) h⟩

theorem hostPart_of_besides {s t : State} (h : t.besides = s.besides) : t.hostPart = s.hostPart := by
  have hl : t.ls.cfg = s.ls.cfg ∧ t.ls.timeout = s.ls.timeout ∧ t.ls.maxRetry = s.ls.maxRetry :=
    ⟨congrArg (fun x => x.ls.cfg) h, congrArg (fun x => x.ls.timeout) h, congrArg (fun x => x.ls.maxRetry) h⟩
  have he : t.env = s.env := (congrArg State.env h :)
  unfold State.hostPart
  rw [h, he, hl.1, hl.2.1, hl.2.2]

theorem besides_of_frozen {s t : State} (h : t.frozen = s.frozen) : t.besides = s.besides := by
  have ho : t.status.ovr = s.status.ovr := congrArg (fun x => x.status.ovr) h
  rw [State.besides, State.besides, h, ho]

theorem hostPart_of_frozen {s t : State} (h : t.frozen = s.frozen) : t.hostPart = s.hostPart :=
  hostPart_of_besides (besides_of_frozen h)

@[simp] theorem State.await_hostPart (s : State) (p : Phase) : (s.await p).hostPart = s.hostPart := rfl
@[simp] theorem State.complete_hostPart (s : State) (e : Ecode) (r : Quad) : (s.complete e r).hostPart = s.hostPart := rfl
@[simp] theorem State.raise_hostPart (s : State) (e : Ecode) (r : Quad) : (s.raise e r).hostPart = s.hostPart := rfl
@[simp] theorem State.finish_hostPart (s : State) (a b c d : Nat) : (s.finish a b c d).hostPart = s.hostPart := rfl
@[simp] theorem State.raiseParam_hostPart (s : State) : s.raiseParam.hostPart = s.hostPart := rfl
@[simp] theorem State.illegal_hostPart (s : State) : s.illegal.hostPart = s.hostPart := rfl
@[simp] theorem State.setSend_hostPart (s : State) (x : SendState) : (s.setSend x).hostPart = s.hostPart := rfl
@[simp] theorem State.setSendBoth_hostPart (s : State) (x : SendState) (n : Nat) :
    (s.setSendBoth x n).hostPart = s.hostPart := rfl
@[simp] theorem State.setAckFail_hostPart (s : State) : s.setAckFail.hostPart = s.hostPart := rfl
@[simp] theorem State.pushTail_hostPart (s : State) (i : RingIx) (b : Byte) : (s.pushTail i b).hostPart = s.hostPart := rfl

@[simp] theorem State.tx_hostPart (s : State) (b : Byte) : (s.tx b).1.hostPart = s.hostPart := by
  rcases s.tx_cases b with ⟨_, h⟩ | ⟨_, h⟩
  · rw [h]; rfl
  · rw [h]

@[simp] theorem flushAll_frozen (l : List RingIx) (s : State) : (flushAll l s).frozen = s.frozen := by
  induction l generalizing s with
  | nil => rfl
  | cons i l ih => exact (ih _).trans (s.flushRb_frozen i)

theorem delivered_frozen (out : RingIx) (d : Frame) (s : State) : (delivered out d s).frozen = s.frozen := by
  unfold delivered
  split <;> simp

theorem sendAttempt_hostPart (c : SendCtx) (s : State) : (sendAttempt c s).hostPart = s.hostPart := by
  obtain ⟨u, hu, h⟩ := sendAttempt_cases c s
  have hk : u.hostPart = s.hostPart := hostPart_of_frozen (by rw [hu]; simp)
  rcases h with ⟨n, h⟩ | h <;> simpa [h] using hk

theorem waitScan_hostPart (c : SendCtx) (off : Nat) (s : State) : (waitScan c off s).hostPart = s.hostPart := by
  obtain ⟨u, hu, h⟩ := waitScan_cases c off s
  have hk : u.hostPart = s.hostPart := hostPart_of_frozen (by rw [hu]; simp)
  rcases h with h | ⟨off', h⟩ | h <;> simpa [h] using hk

theorem waitPoll_hostPart (c : SendCtx) (s : State) : (waitPoll c s).hostPart = s.hostPart := by
  rcases waitPoll_cases c s with ⟨_, h⟩ | h <;> rw [h]
  · rfl
  · exact waitScan_hostPart c 0 s

theorem recvTaken_hostPart (out : RingIx) (d : Frame) (s : State) : (recvTaken out d s).hostPart = s.hostPart := by
  have h1 := hostPart_of_frozen (delivered_frozen out d s)
  have h2 : (buildAck d.hash (delivered out d s)).1.hostPart = s.hostPart :=
    (hostPart_of_frozen (by simp)).trans h1
  rcases recvTaken_cases out d s with ⟨r, h⟩ | ⟨r, h⟩ | ⟨r, h⟩ <;> simpa [h]

theorem recvScan_hostPart (c : RecvCtx) (s : State) : (recvScan c s).hostPart = s.hostPart := by
  rcases recvScan_cases c s with h | ⟨n, r, _, _, h⟩ | ⟨u, hu, h⟩
  · simp [h]
  · rw [h, State.complete_hostPart]; exact hostPart_of_frozen (drain_frozen c.out n s)
  · have hk : u.hostPart = s.hostPart := hostPart_of_frozen (by rw [hu]; simp)
    rcases h with ⟨d, _, h⟩ | h | h
    · rw [h, recvTaken_hostPart, hk]
    · simpa [h] using hk
    · simpa [h] using hk

theorem recvPoll_hostPart (c : RecvCtx) (s : State) : (recvPoll c s).hostPart = s.hostPart := by
  rcases recvPoll_cases c s with ⟨_, h⟩ | h <;> rw [h]
  · rfl
  · exact recvScan_hostPart c s

/-- No command writes a register of the host at its execution (R37). -/
theorem exec_hostPart (i : Instr) (s : State) : Ends (fun t => t.hostPart = s.hostPart) (exec i s) := by
  by_cases hi : linkCommand i = false
  · exact (exec_done hi s).mono (fun t ht => hostPart_of_besides ht.besides)
  · cases i with
    | lpInit =>
      simp only [exec, execLpInit]
      split
      · simp; rfl
      · simp only [ends_goOn, State.finish_hostPart]
        exact (hostPart_of_frozen (flushAll_frozen _ _)).trans rfl
    | lpSend ra ack =>
      simp only [exec, execLpSend]
      split
      · simp
      · split
        · simp
        · simp [sendAttempt_hostPart]; rfl
    | lpRecv ra want =>
      simp only [exec, execLpRecv]
      split
      · simp
      · simp [recvPoll_hostPart]
    | _ => exact absurd rfl hi

/-- No engine step writes a register of the host (R37). -/
theorem engineStep_hostPart (s : State) : Ends (fun t => t.hostPart = s.hostPart) (engineStep s) := by
  unfold engineStep
  split
  case h_1 => simp
  case h_2 =>
    unfold executeLatched
    split
    · exact exec_hostPart _ s
    · simp
  case h_3 c v _ =>
    obtain ⟨u, hu, h⟩ := sendTxStep_cases c v s
    have hk : u.hostPart = s.hostPart := by rw [hu]; simp
    rcases h with h | h | ⟨_, h⟩ | h <;> simpa [h] using hk
  case h_4 c _ => simp [sendT0Step, waitPoll_hostPart]
  case h_5 c _ =>
    rcases s.rxp_cases with ⟨_, h⟩ | ⟨b, rest, _, h⟩
    · simp [sendRxStep, h, waitScan_hostPart]
    · simp [sendRxStep, h, waitPoll_hostPart]; rfl
  case h_6 c off v _ =>
    obtain ⟨u, hu, h⟩ := sendAckTxStep_cases c off v s
    have hk : u.hostPart = s.hostPart := by rw [hu]; simp
    rcases h with h | h | h <;> simpa [h, waitScan_hostPart] using hk
  case h_7 c _ =>
    unfold sendTStep
    split
    · split <;> simp [sendAttempt_hostPart]
    · simp [waitPoll_hostPart]
  case h_8 c _ =>
    rcases s.rxp_cases with ⟨_, h⟩ | ⟨b, rest, _, h⟩
    · simp [recvRxStep, h, recvScan_hostPart]
    · simp [recvRxStep, h, recvPoll_hostPart]; rfl
  case h_9 r v _ =>
    obtain ⟨u, hu, h⟩ := recvAckTxStep_cases r v s
    have hk : u.hostPart = s.hostPart := by rw [hu]; simp
    rcases h with h | h | h <;> simpa [h] using hk

/-- Settles O18: an engine step keeps the part of the state that holds the host's registers. -/
theorem engineLeavesHostRegisters : Obligations.EngineLeavesHostRegisters :=
  fun s t h => hostKept_of_hostPart (engineStep_hostPart s t h)

end Sys2Proof.Machine

namespace Sys2Proof.Machine

/-! ## The law of a running LP_SEND (R33, R126, R128) -/

/-- The counting part of the law: between one and `1 + R` transmissions, and ATTEMPTS shows their number. -/
def SendCtx.Counts (c : SendCtx) (l : LinkRegs) : Prop :=
  1 ≤ c.tries ∧ c.tries ≤ 1 + c.retries ∧ c.retries < 2 ^ 16 ∧ l.attempts = BitVec.ofNat 16 c.tries

/-- An acknowledged send is in its wait: the count is right and STATE is AckWait. -/
def SendCtx.Waits (c : SendCtx) (l : LinkRegs) : Prop := c.Counts l ∧ l.state = .ackWait ∧ c.ackW = true

/-- The law in a phase that belongs to no LP_SEND. -/
theorem sendOk_of_no_ctx {s : State} (h : s.phase.sendCtx = none) : SendOk s := by
  intro c hc
  rw [h] at hc
  cases hc


/-- The law in a phase outside XMIT is that the send waits. -/
theorem sendOk_iff_waits {s : State} {c : SendCtx} (hc : s.phase.sendCtx = some c) (ht : s.phase.transmitting = false) :
    SendOk s ↔ c.Waits s.ls := by
  simp only [SendOk, hc, ht, SendCtx.Waits, SendCtx.Counts, Option.mem_some_iff, forall_eq', Bool.false_eq_true, false_implies,
    true_and, forall_const, and_assoc]

/-- The law in XMIT. -/
theorem sendOk_iff_sent {s : State} {c : SendCtx} (hc : s.phase.sendCtx = some c) (ht : s.phase.transmitting = true) :
    SendOk s ↔ c.Counts s.ls ∧ s.ls.state = .sent := by
  simp only [SendOk, hc, ht, SendCtx.Counts, Option.mem_some_iff, forall_eq', Bool.true_eq_false, false_implies,
    and_true, forall_const, and_assoc]

/-- Ring operations keep the wait. -/
theorem SendCtx.Waits.of_frozen {c : SendCtx} {s u : State} (h : c.Waits s.ls) (hu : u.frozen = s.frozen) : c.Waits u.ls := by
  have ha : u.ls.attempts = s.ls.attempts := congrArg (fun x => x.ls.attempts) hu
  have hs : u.ls.state = s.ls.state := congrArg (fun x => x.ls.state) hu
  unfold SendCtx.Waits SendCtx.Counts
  rw [ha, hs]
  exact h

theorem State.tx_ls (s : State) (b : Byte) : (s.tx b).1.ls = s.ls := by
  rcases s.tx_cases b with ⟨_, h⟩ | ⟨_, h⟩ <;> rw [h]

/-- A new attempt, one more than the last, within `1 + R` (R126). -/
theorem sendAttempt_sendOk {c : SendCtx} {s : State} (ht : c.tries ≤ c.retries) (hr : c.retries < 2 ^ 16) :
    SendOk (sendAttempt c s) := by
  obtain ⟨u, _, h⟩ := sendAttempt_cases c s
  rcases h with ⟨n, h⟩ | h
  · rw [h, sendOk_iff_sent rfl rfl]
    exact ⟨⟨by simp, by simp only; omega, hr, rfl⟩, rfl⟩
  · rw [h]; exact sendOk_of_no_ctx rfl

theorem waitScan_sendOk {c : SendCtx} {off : Nat} {s : State} (hw : c.Waits s.ls) : SendOk (waitScan c off s) := by
  obtain ⟨u, hu, h⟩ := waitScan_cases c off s
  have hk : c.Waits u.ls := hw.of_frozen (by rw [hu]; simp)
  rcases h with h | ⟨off', h⟩ | h
  · rw [h]; exact sendOk_of_no_ctx rfl
  · rw [h, sendOk_iff_waits rfl rfl]; exact hk
  · rw [h, sendOk_iff_waits rfl rfl]; exact hk

theorem waitPoll_sendOk {c : SendCtx} {s : State} (hw : c.Waits s.ls) : SendOk (waitPoll c s) := by
  rcases waitPoll_cases c s with ⟨_, h⟩ | h
  · rw [h, sendOk_iff_waits rfl rfl]; exact hw
  · rw [h]; exact waitScan_sendOk hw

theorem recvScan_sendOk (c : RecvCtx) (s : State) : SendOk (recvScan c s) := by
  rcases recvScan_cases c s with h | ⟨n, r, _, _, h⟩ | ⟨u, _, ⟨d, _, h⟩ | h | h⟩
  · rw [h]; exact sendOk_of_no_ctx rfl
  · rw [h]; exact sendOk_of_no_ctx rfl
  · rcases recvTaken_cases c.out d u with ⟨r, hr⟩ | ⟨r, hr⟩ | ⟨r, hr⟩
    · rw [h, hr]; exact sendOk_of_no_ctx rfl
    · rw [h, hr]; exact sendOk_of_no_ctx rfl
    · rw [h, hr]; exact sendOk_of_no_ctx rfl
  · rw [h]; exact sendOk_of_no_ctx rfl
  · rw [h]; exact sendOk_of_no_ctx rfl

theorem recvPoll_sendOk (c : RecvCtx) (s : State) : SendOk (recvPoll c s) := by
  rcases recvPoll_cases c s with ⟨_, h⟩ | h <;> rw [h]
  · exact sendOk_of_no_ctx rfl
  · exact recvScan_sendOk c s

/-- The execution of a command ends in the law: only LP_SEND starts a send, with its first attempt (R126). -/
theorem exec_sendOk (i : Instr) (s : State) : Ends SendOk (exec i s) := by
  by_cases hi : linkCommand i = false
  · exact (exec_done hi s).mono (fun t ht => sendOk_of_no_ctx (by rw [ht.phase]; rfl))
  · cases i with
    | lpInit =>
      simp only [exec, execLpInit]
      split
      · exact (ends_goOn _ _).mpr (sendOk_of_no_ctx rfl)
      · exact (ends_goOn _ _).mpr (sendOk_of_no_ctx rfl)
    | lpSend ra ack =>
      simp only [exec, execLpSend]
      split
      · exact (ends_goOn _ _).mpr (sendOk_of_no_ctx rfl)
      · split
        · exact (ends_goOn _ _).mpr (sendOk_of_no_ctx rfl)
        · exact (ends_goOn _ _).mpr (sendAttempt_sendOk (Nat.zero_le _) s.ls.maxRetry.isLt)
    | lpRecv ra want =>
      simp only [exec, execLpRecv]
      split
      · exact (ends_goOn _ _).mpr (sendOk_of_no_ctx rfl)
      · exact (ends_goOn _ _).mpr (recvPoll_sendOk _ s)
    | _ => exact absurd rfl hi

/-- Every engine step keeps the law (R126). -/
theorem engineStep_sendOk {s : State} (hs : SendOk s) : Ends SendOk (engineStep s) := by
  unfold engineStep
  split
  case h_1 => simpa using hs
  case h_2 =>
    unfold executeLatched
    split
    · exact exec_sendOk _ s
    · exact (ends_goOn _ _).mpr (sendOk_of_no_ctx rfl)
  case h_3 c v hp =>
    have hc : c.Counts s.ls ∧ s.ls.state = .sent := (sendOk_iff_sent (by rw [hp]; rfl) (by rw [hp]; rfl)).mp hs
    obtain ⟨u, hu, h⟩ := sendTxStep_cases c v s
    have hl : u.ls = s.ls := by rw [hu, State.tx_ls]
    rw [ends_goOn]
    rcases h with h | h | ⟨ha, h⟩ | h
    · rw [h]; exact sendOk_of_no_ctx rfl
    · rw [h, sendOk_iff_sent rfl rfl, State.await_ls, hl]; exact hc
    · rw [h, sendOk_iff_waits rfl rfl, State.await_ls, State.setSend_ls, hl]; exact ⟨hc.1, rfl, ha⟩
    · rw [h]; exact sendOk_of_no_ctx rfl
  case h_4 c hp =>
    have hw : c.Waits s.ls := (sendOk_iff_waits (by rw [hp]; rfl) (by rw [hp]; rfl)).mp hs
    exact (ends_goOn _ _).mpr (waitPoll_sendOk (c := { c with t0 := s.now }) hw)
  case h_5 c hp =>
    have hw : c.Waits s.ls := (sendOk_iff_waits (by rw [hp]; rfl) (by rw [hp]; rfl)).mp hs
    rw [ends_goOn, sendRxStep]
    rcases s.rxp_cases with ⟨_, h⟩ | ⟨b, rest, _, h⟩ <;> rw [h]
    · exact waitScan_sendOk hw
    · exact waitPoll_sendOk hw
  case h_6 c off v hp =>
    have hw : c.Waits s.ls := (sendOk_iff_waits (by rw [hp]; rfl) (by rw [hp]; rfl)).mp hs
    obtain ⟨u, hu, h⟩ := sendAckTxStep_cases c off v s
    have hl : u.ls = s.ls := by rw [hu, State.tx_ls]
    rw [ends_goOn]
    rcases h with h | h | h <;> rw [h]
    · exact waitScan_sendOk (by rw [State.setAckFail_ls, hl]; exact hw)
    · rw [sendOk_iff_waits rfl rfl, State.await_ls, hl]; exact hw
    · exact waitScan_sendOk (by rw [hl]; exact hw)
  case h_7 c hp =>
    have hw : c.Waits s.ls := (sendOk_iff_waits (by rw [hp]; rfl) (by rw [hp]; rfl)).mp hs
    obtain ⟨⟨_, hle, hr, _⟩, _, _⟩ := id hw
    rw [ends_goOn, sendTStep]
    split
    · split
      · exact sendOk_of_no_ctx rfl
      · exact sendAttempt_sendOk (by omega) hr
    · exact waitPoll_sendOk hw
  case h_8 c _ =>
    rw [ends_goOn, recvRxStep]
    rcases s.rxp_cases with ⟨_, h⟩ | ⟨b, rest, _, h⟩ <;> rw [h]
    · exact recvScan_sendOk c s
    · exact recvPoll_sendOk c _
  case h_9 r v _ =>
    obtain ⟨u, _, h⟩ := recvAckTxStep_cases r v s
    rw [ends_goOn]
    rcases h with h | h | h
    · rw [h]; exact sendOk_of_no_ctx rfl
    · rw [h]; exact sendOk_of_no_ctx rfl
    · rw [h]; exact sendOk_of_no_ctx rfl

/-! ## The steps of the machine -/

/-- What the other agents' moves keep and the engine's steps keep, every step keeps (R7; log 3). -/
theorem step_ends {P : State → Prop} {s : State} (hn : P s → P s.nextMove) (he : ∀ u, P u → Ends P (engineStep u))
    (hh : ∀ op u, P u → P (hostStep op u)) (hr : ∀ u, P u → P (hardReset u)) (ht : ∀ d u, P u → P (tickOn d u))
    (hb : ∀ b u, P u → P (lineByte b u)) (ho : ∀ ok u, P u → P (portReady ok u)) (hs : P s) : Ends P (step s) := by
  unfold step
  split
  · exact he s hs
  · rename_i e _ _
    have hs' := hn hs
    cases e with
    | engine => exact he _ hs'
    | host op => exact (ends_goOn _ _).mpr (hh op _ hs')
    | tick d => exact (ends_goOn _ _).mpr (ht d _ hs')
    | rxByte b => exact (ends_goOn _ _).mpr (hb b _ hs')
    | txReady ok => exact (ends_goOn _ _).mpr (ho ok _ hs')
    | reset => exact (ends_goOn _ _).mpr (hr _ hs')

end Sys2Proof.Machine

namespace Sys2Proof.Machine

/-! ## The host's accesses (R19, R37, R50, R51) -/

@[simp] theorem busy_eq_false {s : State} (h : s.phase = .idle) : s.busy = false := by simp [State.busy, h]
@[simp] theorem busy_eq_true {s : State} (h : s.phase ≠ .idle) : s.busy = true := by simp [State.busy, h]

/-- A 32-bit write at a multiple of 4 inside the window: it is dropped and sets OVR, or it takes effect (R37). -/
theorem hostWrite_served {off : Nat} (v : Word) (s : State) (h : served off 4 = true) :
    hostWrite off 4 v s = if s.busy && lockedWhileBusy off then s.setOvr else writeRegister off v s := by
  rw [hostWrite, if_pos h]

/-- What a host access can make of the state: it writes a byte of MEM, latches a command word, or works on the host's own
registers, STATUS, CRC_ACC and the bus (R19, R35, R37, R51). -/
inductive Touched (op : HostOp) (s t : State) : Prop
  | mem (a : Nat) (b : Byte) (hop : op = .memWrite a b)
      (ht : t = { s with mem := s.mem.write (s.wrap a) b, hazard := t.hazard, draws := t.draws })
  | accepted (w : Word) (hop : op = .write 0x010 4 w) (ht : t = s.accept w)
  | regs (ht : t = { s with
      irqEn := t.irqEn, status := t.status, arg := t.arg, sr := t.sr, crcAcc := t.crcAcc, busData := t.busData,
      draws := t.draws, ls := { s.ls with cfg := t.ls.cfg, timeout := t.ls.timeout, maxRetry := t.ls.maxRetry } })

theorem writeRegister_touched (off : Nat) (v : Word) (s : State) :
    Touched (.write off 4 v) s (writeRegister off v s) := by
  by_cases h : off = 0x010
  · subst h
    exact .accepted v rfl rfl
  · refine .regs ?_
    unfold writeRegister
    split
    case h_3 => exact absurd rfl h
    all_goals rfl

theorem hostStep_touched (op : HostOp) (s : State) : Touched op s (hostStep op s) := by
  cases op with
  | read off width => exact .regs rfl
  | memRead a => exact .regs rfl
  | memWrite a b => exact .mem a b rfl rfl
  | write off width v =>
    simp only [hostStep, hostWrite]
    split
    · rename_i h
      obtain rfl : width = 4 := by simp [served] at h; exact h.1.1
      split
      · exact .regs rfl
      · exact writeRegister_touched off v s
    · exact .regs rfl

/-- The parts of the state no host access writes. -/
theorem Touched.kept {op : HostOp} {s t : State} (h : Touched op s t) :
    t.rbs = s.rbs ∧ t.res = s.res ∧ t.addrW = s.addrW ∧ t.env = s.env ∧
      t.ls = { s.ls with cfg := t.ls.cfg, timeout := t.ls.timeout, maxRetry := t.ls.maxRetry } := by
  cases h with
  | mem a b hop ht => rw [ht]; exact ⟨rfl, rfl, rfl, rfl, rfl⟩
  | accepted w hop ht => rw [ht]; exact ⟨rfl, rfl, rfl, rfl, rfl⟩
  | regs ht => rw [ht]; exact ⟨rfl, rfl, rfl, rfl, rfl⟩

/-- Only a CMD write moves the engine or the latched word (R35). -/
theorem Touched.engine_kept {op : HostOp} {s t : State} (h : Touched op s t) (hop : ∀ w, op ≠ .write 0x010 4 w) :
    t.phase = s.phase ∧ t.cmd = s.cmd := by
  cases h with
  | mem a b _ ht => rw [ht]; exact ⟨rfl, rfl⟩
  | accepted w e ht => exact absurd e (hop w)
  | regs ht => rw [ht]; exact ⟨rfl, rfl⟩

/-- Only a write of MEM writes MEM (R51). -/
theorem Touched.mem_kept {op : HostOp} {s t : State} (h : Touched op s t) (hop : ∀ a b, op ≠ .memWrite a b) :
    t.mem = s.mem := by
  cases h with
  | mem a b e ht => exact absurd e (hop a b)
  | accepted w _ ht => rw [ht]; rfl
  | regs ht => rw [ht]

/-- A read of a list at a wrapped index gives an element of the list. -/
theorem getD_mod_mem {α : Type} {l : List α} (hl : l ≠ []) (n : Nat) (d : α) : l.getD (n % l.length) d ∈ l := by
  have : n % l.length < l.length := Nat.mod_lt _ (List.length_pos_iff.mpr hl)
  rw [List.getD_eq_getElem _ _ this]
  exact List.getElem_mem this

/-- The byte a host read of MEM returns is one of the values R56 allows. -/
theorem hostMemRead_busData (a : Nat) (s : State) :
    ∃ b ∈ readChoices s (s.wrap a), (hostStep (.memRead a) s).busData = b.setWidth 32 :=
  ⟨_, getD_mod_mem (by simp [readChoices]) _ _, rfl⟩

theorem mem_readChoices {s : State} {a : Nat} {b : Byte} :
    b ∈ readChoices s a ↔ b = s.mem.read a ∨ ∃ w ∈ s.pendingWrites, w.addr = a ∧ (b = w.old ∨ b = w.new) := by
  simp [readChoices, and_assoc]

theorem pendingWrites_idle {s : State} (h : s.phase = .idle) : s.pendingWrites = [] := by
  simp [State.pendingWrites, h]

/-- Settles O9: `Touched` says what an access writes, and `readChoices` what a read of MEM returns. -/
theorem hostAccessFrame : Obligations.HostAccessFrame := by
  refine ⟨fun op s hm => ?_, fun s a => ?_⟩
  · have ht := hostStep_touched op s
    obtain ⟨hrbs, hres, haw, henv, hls⟩ := ht.kept
    refine ⟨hrbs, hres, haw, henv, hls, ht.engine_kept, ?_, ht.mem_kept, ?_⟩
    · rintro (⟨off, width, rfl⟩ | ⟨a, rfl⟩) <;> rfl
    · rintro a b rfl
      exact ⟨Memory.read_write_same _ _ _ hm, fun x hx => Memory.read_write_ne _ _ _ _ hm hx⟩
  · obtain ⟨b, hb, he⟩ := hostMemRead_busData a s
    rw [mem_readChoices] at hb
    refine ⟨fun hi => ?_, b, he, hb⟩
    rw [pendingWrites_idle hi] at hb
    obtain rfl : b = s.mem.read (s.wrap a) := by simpa using hb
    exact he

/-! ## Steps in which the host moves -/

theorem step_host {s : State} {op : HostOp} {rest : List Event} (h : s.env.agenda = .host op :: rest) :
    step s = .next (hostStep op s.nextMove) := by
  simp [step, h, eventStep, goOn]

theorem step_engine {s : State} (h : s.env.agenda = [] ) : step s = engineStep s := by simp [step, h]

theorem step_planned_engine {s : State} {rest : List Event} (h : s.env.agenda = .engine :: rest) :
    step s = engineStep s.nextMove := by
  simp [step, h, eventStep]

theorem engineStep_fetch {s : State} {i : Instr} (hp : s.phase = .fetch) (hd : decode s.cmd = .ok i) :
    engineStep s = exec i s := by
  simp [engineStep, hp, executeLatched, hd]

theorem placeCommand_nextMove (s : State) (w : Word) : (s.placeCommand w).nextMove = s.accept w := rfl

/-- Settles O5: the engine in `fetch` runs `exec`, whoever planned its move. -/
theorem stepRunsLatchedCommand : Obligations.StepRunsLatchedCommand := by
  intro s i
  refine ⟨fun hp hd => ⟨fun ha => ?_, fun rest ha => ?_⟩, fun w hd => ?_⟩
  · rw [step_engine ha, engineStep_fetch hp hd]
  · rw [step_planned_engine ha, engineStep_fetch (s := s.nextMove) hp hd]
  · rw [step_planned_engine (rest := s.env.agenda) rfl, placeCommand_nextMove, engineStep_fetch rfl hd]

theorem hostStep_write_cmd {s : State} (h : s.phase = .idle) (w : Word) :
    hostStep (.write 0x010 4 w) s = s.accept w := by
  rw [hostStep, hostWrite_served w s (by decide), busy_eq_false h]
  rfl

/-- Settles O7: the CMD write of an idle block is `State.accept`. -/
theorem commandAcceptance : Obligations.CommandAcceptance := by
  intro s w rest hi ha
  refine ⟨s.nextMove.accept w, ?_, rfl, rfl, rfl, rfl, rfl, rfl, rfl, rfl, rfl, rfl, rfl, rfl, rfl, rfl⟩
  rw [step_host ha, hostStep_write_cmd (s := s.nextMove) hi]

theorem hostStep_write_locked {s : State} {off : Nat} (v : Word) (hb : s.phase ≠ .idle)
    (hs : served off 4 = true) (hl : lockedWhileBusy off = true) : hostStep (.write off 4 v) s = s.setOvr := by
  rw [hostStep, hostWrite_served v s hs, busy_eq_true hb, hl]
  rfl

theorem hostStep_write_open {s : State} {off : Nat} (v : Word) (hs : served off 4 = true) (hl : lockedWhileBusy off = false) :
    hostStep (.write off 4 v) s = writeRegister off v s := by
  rw [hostStep, hostWrite_served v s hs, hl, Bool.and_false]
  rfl

/-- The locked registers are registers of the window. -/
theorem served_of_locked {off : Nat} (h : lockedWhileBusy off = true) : served off 4 = true := by
  have key : ∀ x ∈ [0x010, 0x014, 0x018, 0x01C, 0x020, 0x040, 0x044, 0x048, 0x04C, 0x050, 0x054, 0x058, 0x060, 0x070, 0x078,
    0x07C], served x 4 = true := by decide
  exact key off (List.contains_iff_mem.mp h)

/-- Settles O8: a busy block drops a write to a locked register; CTRL is not locked (R37). -/
theorem busyWritesAreDropped : Obligations.BusyWritesAreDropped := by
  intro s off v rest hb ha
  refine ⟨fun hoff => ?_, ?_⟩
  · have hl : lockedWhileBusy off = true := List.contains_iff_mem.mpr hoff
    rw [step_host ha, hostStep_write_locked (s := s.nextMove) v hb (served_of_locked hl) hl]
    rfl
  · rintro rfl
    rw [step_host ha, hostStep_write_open v (by decide) (by decide)]
    rfl

/-- Settles O11: the write to STATUS is `Status.clearWritten`; a completion leaves DONE set, so IRQ is IRQ_EN. -/
theorem statusClearAndIrq : Obligations.StatusClearAndIrq := by
  refine ⟨fun s v rest ha => ⟨_, step_host ha, ?_, ?_⟩, fun s v => ?_, fun s t e r h => ?_⟩
  · rw [hostStep_write_open v (by decide) (by decide)]
    rfl
  · intro hv
    rw [hostStep_write_open v (by decide) (by decide)]
    simp [writeRegister, Status.clearWritten, State.irq, hv]
  · rw [hostStep_write_open v (by decide) (by decide)]
    rfl
  · obtain ⟨_, _, hdone, _⟩ := h
    simp [State.irq, hdone]

theorem RingsOk.of_reset {s : State} (h : s.rbs = State.reset.rbs) : RingsOk s := by
  intro i
  have : s.rb i = Desc.reset := by simp [State.rb, h, State.reset]
  rw [this]
  exact ⟨Nat.le_refl _, fun hc => hc, fun _ => rfl, Nat.one_le_two_pow.trans' (by decide), by decide⟩

/-- Settles O15: every descriptor is unbound, MEM lists nothing, no session is valid and nothing runs. -/
theorem resetIsSound : Obligations.ResetIsSound :=
  ⟨⟨RingsOk.of_reset rfl, ⟨rfl, rfl⟩, fun _ hw => absurd hw List.not_mem_nil, by simp [State.reset, LinkRegs.reset], by
      simp [State.reset, Phase.linkRunning], by simp [State.reset, Phase.toppingUp], by simp [State.reset, Phase.outRing]⟩,
    sendOk_of_no_ctx rfl⟩

/-! ## Every step keeps the law of LP_SEND -/

/-- A host access keeps the law: it does not touch a running send, and a CMD write starts none yet. -/
theorem hostStep_sendOk {s : State} (op : HostOp) (h : SendOk s) : SendOk (hostStep op s) := by
  rcases hostStep_touched op s with ⟨a, b, _, ht⟩ | ⟨w, _, ht⟩ | ht
  · rw [ht]; exact h
  · rw [ht]; exact sendOk_of_no_ctx rfl
  · rw [ht]; exact h

/-- Settles O17: the engine's steps keep the law, and the other agents do not touch a running LP_SEND. -/
theorem stepKeepsSendLaw : Obligations.StepKeepsSendLaw := fun _ t hs =>
  step_ends (P := fun u => SendOk u) (fun h => h) (fun _ h => engineStep_sendOk h) (fun op _ h => hostStep_sendOk op h)
    (fun _ _ => sendOk_of_no_ctx rfl) (fun _ _ h => h) (fun _ _ h => h) (fun _ _ h => h) hs t

end Sys2Proof.Machine

namespace Sys2Proof.Machine

/-! ## The link protocol does not look at CRC_ACC and the SR registers (R28, R115)

Every part of the link protocol commutes with a change of these registers. -/

/-- The state with other values in CRC_ACC and the SR registers. -/
def State.withSearch (s : State) (c : Half) (r : SearchRegs) : State := { s with crcAcc := c, sr := r }

/-- The same change inside the result of an in-place pass. -/
def PassResult.withSearch (p : PassResult) (c : Half) (r : SearchRegs) : PassResult := { p with st := p.st.withSearch c r }

/-- The same change inside a state with a result beside it. -/
def besideSearch {α : Type} (p : State × α) (c : Half) (r : SearchRegs) : State × α := (p.1.withSearch c r, p.2)

section

variable (s : State) (c : Half) (r : SearchRegs)

/-! ### What reads of the state see

The proofs stand in parentheses so that `simp` rewrites with them as equations and the conditions of the `if`s it meets keep
matching decisions. -/

@[simp] theorem withSearch_rb (i : RingIx) : (s.withSearch c r).rb i = s.rb i := (rfl)
@[simp] theorem withSearch_rd (i : RingIx) (v : Nat) : (s.withSearch c r).rd i v = s.rd i v := (rfl)
@[simp] theorem withSearch_content (i : RingIx) : (s.withSearch c r).content i = s.content i := (rfl)
@[simp] theorem withSearch_ls : (s.withSearch c r).ls = s.ls := (rfl)
@[simp] theorem withSearch_rxIx : (s.withSearch c r).rxIx = s.rxIx := (rfl)
@[simp] theorem withSearch_scrIx : (s.withSearch c r).scrIx = s.scrIx := (rfl)
@[simp] theorem withSearch_sideIx : (s.withSearch c r).sideIx = s.sideIx := (rfl)
@[simp] theorem withSearch_slenIx : (s.withSearch c r).slenIx = s.slenIx := (rfl)
@[simp] theorem withSearch_now : (s.withSearch c r).now = s.now := (rfl)
@[simp] theorem withSearch_dup (h : Half) : (s.withSearch c r).dup h = s.dup h := (rfl)
@[simp] theorem withSearch_contentOk : contentOk (s.withSearch c r) = contentOk s := (rfl)
@[simp] theorem withSearch_frameOf (k : Nat) : frameOf (s.withSearch c r) k = frameOf s k := (rfl)
@[simp] theorem withSearch_drainByte (k : Nat) : drainByte (s.withSearch c r) k = drainByte s k := (rfl)
@[simp] theorem withSearch_badLink (ra : RingIx) : badLink (s.withSearch c r) ra = badLink s ra := (rfl)
@[simp] theorem withSearch_sendStart (ra : RingIx) (a : Bool) : sendStart (s.withSearch c r) ra a = sendStart s ra a := (rfl)
@[simp] theorem withSearch_classify (m : Mode) (d : Frame) : classify m d (s.withSearch c r) = classify m d s := by
  cases m <;> rfl

/-! ### The primitive operations -/

@[simp] theorem withSearch_wr (i : RingIx) (v : Nat) (b : Byte) : (s.withSearch c r).wr i v b = (s.wr i v b).withSearch c r := rfl
@[simp] theorem withSearch_setRb (i : RingIx) (d : Desc) : (s.withSearch c r).setRb i d = (s.setRb i d).withSearch c r := rfl
@[simp] theorem withSearch_pushTail (i : RingIx) (b : Byte) :
    (s.withSearch c r).pushTail i b = (s.pushTail i b).withSearch c r := rfl
@[simp] theorem withSearch_pushHead (i : RingIx) (b : Byte) :
    (s.withSearch c r).pushHead i b = (s.pushHead i b).withSearch c r := rfl
@[simp] theorem withSearch_dropHead (i : RingIx) (k : Nat) :
    (s.withSearch c r).dropHead i k = (s.dropHead i k).withSearch c r := rfl
@[simp] theorem withSearch_flushRb (i : RingIx) : (s.withSearch c r).flushRb i = (s.flushRb i).withSearch c r := rfl
@[simp] theorem withSearch_setLastRx (h : Half) : (s.withSearch c r).setLastRx h = (s.setLastRx h).withSearch c r := rfl
@[simp] theorem withSearch_setAckFail : (s.withSearch c r).setAckFail = s.setAckFail.withSearch c r := rfl
@[simp] theorem withSearch_setSend (x : SendState) : (s.withSearch c r).setSend x = (s.setSend x).withSearch c r := rfl
@[simp] theorem withSearch_setSendBoth (x : SendState) (n : Nat) :
    (s.withSearch c r).setSendBoth x n = (s.setSendBoth x n).withSearch c r := rfl
@[simp] theorem withSearch_await (p : Phase) : (s.withSearch c r).await p = (s.await p).withSearch c r := rfl
@[simp] theorem withSearch_complete (e : Ecode) (q : Quad) :
    (s.withSearch c r).complete e q = (s.complete e q).withSearch c r := rfl
@[simp] theorem withSearch_raise (e : Ecode) (q : Quad) : (s.withSearch c r).raise e q = (s.raise e q).withSearch c r := rfl
@[simp] theorem withSearch_finish (w x y z : Nat) :
    (s.withSearch c r).finish w x y z = (s.finish w x y z).withSearch c r := rfl
@[simp] theorem withSearch_raiseParam : (s.withSearch c r).raiseParam = s.raiseParam.withSearch c r := rfl

@[simp] theorem withSearch_tx (b : Byte) : (s.withSearch c r).tx b = besideSearch (s.tx b) c r := by
  unfold State.tx
  change (if s.env.txOk then _ else _) = _
  split <;> rfl

@[simp] theorem withSearch_rxp : (s.withSearch c r).rxp = besideSearch s.rxp c r := by
  rcases s.rxp_cases with ⟨hl, h⟩ | ⟨b, rest, hl, h⟩
  · rw [h, State.rxp, show (s.withSearch c r).env.rxLine = [] from hl]
    rfl
  · rw [h, State.rxp, show (s.withSearch c r).env.rxLine = b :: rest from hl]
    rfl

/-! ### The ring operations of the link protocol -/

theorem forUp_commute {f : State → State} {body : Nat → State → State} (h : ∀ j t, body j (f t) = f (body j t)) (k lo : Nat) :
    forUp body k lo (f s) = f (forUp body k lo s) := by
  induction k generalizing lo s with
  | zero => rfl
  | succ k ih => simp only [forUp, h, ih]

theorem forDown_commute {f : State → State} {body : Nat → State → State} (h : ∀ j t, body j (f t) = f (body j t)) (k lo : Nat) :
    forDown body k lo (f s) = f (forDown body k lo s) := by
  induction k generalizing s with
  | zero => rfl
  | succ k ih => simp only [forDown, h, ih]

@[simp] theorem withSearch_dropUntil (i : RingIx) (b : Byte) (fuel : Nat) :
    State.dropUntil i b fuel (s.withSearch c r) = (State.dropUntil i b fuel s).withSearch c r := by
  induction fuel generalizing s with
  | zero => rfl
  | succ n ih =>
    simp only [State.dropUntil, withSearch_rb, withSearch_rd, withSearch_dropHead, ih]
    split <;> rfl

@[simp] theorem withSearch_copyToTail (i o : RingIx) (lo n : Nat) :
    copyToTail i o lo n (s.withSearch c r) = (copyToTail i o lo n s).withSearch c r :=
  forUp_commute (f := (State.withSearch · c r)) s (by intros; rfl) n lo

@[simp] theorem withSearch_cutRange (i : RingIx) (f k : Nat) :
    cutRange i f k (s.withSearch c r) = (cutRange i f k s).withSearch c r := by
  simp only [cutRange, withSearch_rb]
  split
  · rw [forDown_commute (f := (State.withSearch · c r)) s (by intros; rfl), withSearch_setRb]
  · rw [forUp_commute (f := (State.withSearch · c r)) s (by intros; rfl), withSearch_setRb]

@[simp] theorem withSearch_stuffLoop (i : RingIx) (left k : Nat) :
    stuffLoop i left k (s.withSearch c r) = (stuffLoop i left k s).withSearch c r := by
  induction left generalizing k s with
  | zero => rfl
  | succ n ih =>
    simp only [stuffLoop, withSearch_rd, withSearch_dropHead, withSearch_pushTail, withSearch_rb, ih]
    split
    · split <;> rfl
    · rfl

@[simp] theorem withSearch_unstuffLoop (i : RingIx) (left k : Nat) :
    unstuffLoop i left k (s.withSearch c r) = (unstuffLoop i left k s).withSearch c r := by
  induction left using Nat.strongRecOn generalizing k s with
  | _ left ih =>
    match left with
    | 0 => rfl
    | n + 1 =>
      unfold unstuffLoop
      simp only [withSearch_rd, withSearch_dropHead, withSearch_pushTail]
      split
      · rfl
      · split
        · match n with
          | 0 => rfl
          | m + 1 =>
            simp only
            split
            · exact ih m (by omega) _ _
            · rfl
        · exact ih n (by omega) _ _

@[simp] theorem withSearch_stuffRing (i : RingIx) : stuffRing i (s.withSearch c r) = (stuffRing i s).withSearch c r :=
  withSearch_stuffLoop s c r i _ 0
@[simp] theorem withSearch_unstuffRing (i : RingIx) : unstuffRing i (s.withSearch c r) = (unstuffRing i s).withSearch c r :=
  withSearch_unstuffLoop s c r i _ 0

@[simp] theorem withSearch_pushAll (i : RingIx) (l : List Byte) :
    pushAll i l (s.withSearch c r) = besideSearch (pushAll i l s) c r := by
  induction l generalizing s with
  | nil => rfl
  | cons b bs ih =>
    simp only [pushAll, withSearch_rb, withSearch_pushTail, ih]
    split <;> rfl

@[simp] theorem withSearch_flagWrap (i : RingIx) : flagWrap i (s.withSearch c r) = besideSearch (flagWrap i s) c r := by
  simp only [flagWrap, withSearch_rb, withSearch_pushHead, withSearch_pushTail]
  split
  · rfl
  · split <;> rfl

@[simp] theorem withSearch_build (code : BitVec 7) (a : Bool) (h : Half) (l : List Byte) :
    build code a h l (s.withSearch c r) = besideSearch (build code a h l s) c r := by
  simp only [build, withSearch_scrIx, withSearch_flushRb, withSearch_pushAll, besideSearch, withSearch_stuffRing,
    PassResult.withSearch, withSearch_flagWrap]
  split
  · split <;> rfl
  · rfl

@[simp] theorem withSearch_buildAck (h : Half) : buildAck h (s.withSearch c r) = besideSearch (buildAck h s) c r :=
  withSearch_build s c r _ _ _ _

@[simp] theorem withSearch_deframe (at_ len : Nat) :
    deframe at_ len (s.withSearch c r) = besideSearch (deframe at_ len s) c r := by
  simp only [deframe, withSearch_scrIx, withSearch_flushRb, withSearch_rb, withSearch_rxIx, withSearch_copyToTail,
    withSearch_unstuffRing, PassResult.withSearch, withSearch_contentOk, withSearch_frameOf]
  split
  · rfl
  · split <;> rfl

@[simp] theorem withSearch_captureFrame (d : Frame) :
    captureFrame d (s.withSearch c r) = (captureFrame d s).withSearch c r := by simp [captureFrame]

@[simp] theorem withSearch_deliver (o : RingIx) (d : Frame) : deliver o d (s.withSearch c r) = (deliver o d s).withSearch c r := by
  simp only [deliver, withSearch_scrIx, withSearch_copyToTail, withSearch_setLastRx]
  split <;> rfl

@[simp] theorem withSearch_drain (o : RingIx) (n : Nat) : drain o n (s.withSearch c r) = (drain o n s).withSearch c r := by
  simp only [drain, withSearch_slenIx, withSearch_dropHead]
  exact forUp_commute (f := (State.withSearch · c r)) _ (by intros; rfl) n 0

@[simp] theorem withSearch_scanRest (off : Nat) : scanRest off (s.withSearch c r) = (scanRest off s).withSearch c r := by
  simp only [scanRest, withSearch_rxIx, withSearch_rb, withSearch_dropHead]
  split
  · split
    · rw [withSearch_rb, withSearch_dropUntil]
    · rw [withSearch_rb, withSearch_dropUntil]
  · rfl

@[simp] theorem withSearch_scan (m : Mode) (fuel off : Nat) :
    scan m fuel off (s.withSearch c r) = besideSearch (scan m fuel off s) c r := by
  induction fuel generalizing off s with
  | zero => rfl
  | succ n ih =>
    simp only [scan, withSearch_rxIx, withSearch_content]
    split
    · simp [besideSearch]
    · rename_i h len _
      simp only [withSearch_deframe]
      rcases deframe h len s with ⟨t, _ | d⟩
      · simp only [besideSearch, withSearch_rxIx, withSearch_dropHead, ih]
        split <;> rfl
      · simp only [besideSearch, withSearch_rxIx, withSearch_dropHead]
        have hu : (if off = 0 then (t.dropHead t.rxIx h).withSearch c r else t.withSearch c r) =
            (if off = 0 then t.dropHead t.rxIx h else t).withSearch c r := by split <;> rfl
        rw [hu]
        generalize (if off = 0 then t.dropHead t.rxIx h else t) = u
        generalize (if off = 0 then 0 else h) = at1
        simp only [withSearch_classify, withSearch_rxIx, withSearch_cutRange, withSearch_captureFrame, withSearch_buildAck,
          besideSearch, withSearch_setAckFail, ih]
        split
        · rfl
        · rfl
        · split <;> rfl
        · split
          · split <;> rfl
          · rfl
        · rfl
        · rfl

@[simp] theorem withSearch_scanAll (m : Mode) (off : Nat) :
    scanAll m off (s.withSearch c r) = besideSearch (scanAll m off s) c r := withSearch_scan s c r m _ off

/-! ### The engine steps of the link commands -/

@[simp] theorem withSearch_sendAttempt (x : SendCtx) : sendAttempt x (s.withSearch c r) = (sendAttempt x s).withSearch c r := by
  simp only [sendAttempt, withSearch_build, besideSearch, withSearch_rb, withSearch_scrIx, withSearch_setSendBoth,
    withSearch_await, withSearch_setSend, withSearch_raise]
  split <;> rfl

@[simp] theorem withSearch_waitScan (x : SendCtx) (off : Nat) :
    waitScan x off (s.withSearch c r) = (waitScan x off s).withSearch c r := by
  simp only [waitScan, withSearch_scanAll]
  rcases scanAll (.ackWait x.hash) off s with ⟨t, _ | _ | _ | _⟩ <;> rfl

@[simp] theorem withSearch_waitPoll (x : SendCtx) : waitPoll x (s.withSearch c r) = (waitPoll x s).withSearch c r := by
  simp only [waitPoll, withSearch_rb, withSearch_rxIx, withSearch_await, withSearch_waitScan]
  split <;> rfl

@[simp] theorem withSearch_sendTxStep (x : SendCtx) (v : Nat) :
    sendTxStep x v (s.withSearch c r) = (sendTxStep x v s).withSearch c r := by
  simp only [sendTxStep, withSearch_rd, withSearch_scrIx, withSearch_tx]
  rcases s.tx (s.rd s.scrIx v) with ⟨t, _ | _⟩
  · rfl
  · simp only [besideSearch, withSearch_rb, withSearch_scrIx, withSearch_await, withSearch_setSend, withSearch_complete]
    split
    · rfl
    · split <;> rfl

@[simp] theorem withSearch_sendT0Step (x : SendCtx) : sendT0Step x (s.withSearch c r) = (sendT0Step x s).withSearch c r := by
  simp [sendT0Step]

@[simp] theorem withSearch_sendRxStep (x : SendCtx) : sendRxStep x (s.withSearch c r) = (sendRxStep x s).withSearch c r := by
  simp only [sendRxStep, withSearch_rxp]
  rcases s.rxp with ⟨t, _ | b⟩ <;> simp [besideSearch]

@[simp] theorem withSearch_sendAckTxStep (x : SendCtx) (off v : Nat) :
    sendAckTxStep x off v (s.withSearch c r) = (sendAckTxStep x off v s).withSearch c r := by
  simp only [sendAckTxStep, withSearch_rd, withSearch_scrIx, withSearch_tx]
  rcases s.tx (s.rd s.scrIx v) with ⟨t, _ | _⟩
  · simp [besideSearch]
  · simp only [besideSearch, withSearch_rb, withSearch_scrIx, withSearch_await, withSearch_waitScan]
    split <;> rfl

@[simp] theorem withSearch_sendTStep (x : SendCtx) : sendTStep x (s.withSearch c r) = (sendTStep x s).withSearch c r := by
  simp only [sendTStep, withSearch_now, withSearch_setSend, withSearch_raise, withSearch_sendAttempt, withSearch_waitPoll]
  split
  · split <;> rfl
  · rfl

@[simp] theorem withSearch_recvTaken (o : RingIx) (d : Frame) :
    recvTaken o d (s.withSearch c r) = (recvTaken o d s).withSearch c r := by
  simp only [recvTaken, withSearch_dup, withSearch_deliver]
  generalize (decide (d.code = Config.codeData) && s.dup d.hash) = isDup
  cases isDup
  · simp only [Bool.false_eq_true, if_false, withSearch_buildAck, besideSearch]
    split
    · split <;> rfl
    · rfl
  · simp only [if_true, withSearch_buildAck, besideSearch]
    split
    · split <;> rfl
    · rfl

@[simp] theorem withSearch_recvScan (x : RecvCtx) : recvScan x (s.withSearch c r) = (recvScan x s).withSearch c r := by
  simp only [recvScan, withSearch_ls, withSearch_rb, withSearch_slenIx, withSearch_rd, withSearch_raise, withSearch_drain,
    withSearch_complete, withSearch_scanAll]
  split
  · split <;> rfl
  · rcases scanAll (.ordinary x.want x.out) 0 s with ⟨t, d | _ | _ | _⟩
    · exact withSearch_recvTaken t c r x.out d
    · rfl
    · rfl
    · rfl

@[simp] theorem withSearch_recvPoll (x : RecvCtx) : recvPoll x (s.withSearch c r) = (recvPoll x s).withSearch c r := by
  simp only [recvPoll, withSearch_rb, withSearch_rxIx, withSearch_await, withSearch_recvScan]
  split <;> rfl

@[simp] theorem withSearch_recvRxStep (x : RecvCtx) : recvRxStep x (s.withSearch c r) = (recvRxStep x s).withSearch c r := by
  simp only [recvRxStep, withSearch_rxp]
  rcases s.rxp with ⟨t, _ | b⟩ <;> simp [besideSearch]

@[simp] theorem withSearch_recvAckTxStep (q : Quad) (v : Nat) :
    recvAckTxStep q v (s.withSearch c r) = (recvAckTxStep q v s).withSearch c r := by
  simp only [recvAckTxStep, withSearch_rd, withSearch_scrIx, withSearch_tx]
  rcases s.tx (s.rd s.scrIx v) with ⟨t, _ | _⟩
  · rfl
  · simp only [besideSearch, withSearch_rb, withSearch_scrIx, withSearch_await, withSearch_complete]
    split <;> rfl

/-! ### The executions of the link commands -/

@[simp] theorem withSearch_flushAll (l : List RingIx) : flushAll l (s.withSearch c r) = (flushAll l s).withSearch c r := by
  induction l generalizing s with
  | nil => rfl
  | cons i l ih => exact ih (s.flushRb i)

/-- The change inside an outcome. -/
def outcomeWith (o : Host.Outcome State Fault Refusal) : Host.Outcome State Fault Refusal :=
  match o with
  | .next t => .next (t.withSearch c r)
  | .fault f => .fault f
  | .refused f => .refused f

theorem withSearch_execLpInit : execLpInit (s.withSearch c r) = outcomeWith c r (execLpInit s) := by
  unfold execLpInit
  change (if badSession s s.ls.cfg = true then _ else _) = _
  split
  · rfl
  · exact congrArg (fun t : State => goOn (t.finish 1 0 0 0))
      (withSearch_flushAll { s with ls := s.ls.start } c r s.ls.cfg.rings)

theorem withSearch_execLpSend (ra : RingIx) (ack : Bool) :
    execLpSend ra ack (s.withSearch c r) = outcomeWith c r (execLpSend ra ack s) := by
  simp only [execLpSend, withSearch_badLink, withSearch_rb, withSearch_sendStart, withSearch_raiseParam]
  split
  · rfl
  · split
    · rfl
    · exact congrArg goOn (withSearch_sendAttempt
        (({ s with ls := { s.ls with txHash := s.ls.txHash + 1#16 } } : State).setSendBoth .idle 0) c r (sendStart s ra ack))

theorem withSearch_execLpRecv (ra : RingIx) (want : Nat) :
    execLpRecv ra want (s.withSearch c r) = outcomeWith c r (execLpRecv ra want s) := by
  simp only [execLpRecv, withSearch_badLink, withSearch_raiseParam, withSearch_recvPoll]
  split <;> rfl

/-- A step of a running link command commutes with the change (R28, R115). -/
theorem withSearch_engineStep (hp : s.phase.linkRunning = true) :
    engineStep (s.withSearch c r) = outcomeWith c r (engineStep s) := by
  unfold engineStep
  change (match s.phase with
    | .idle => _ | .fetch => _ | .sendTx x v => _ | .sendT0 x => _ | .sendRx x => _ | .sendAckTx x off v => _
    | .sendT x => _ | .recvRx x => _ | .recvAckTx q v => _) = _
  generalize s.phase = p at hp
  cases p with
  | idle => cases hp
  | fetch => cases hp
  | sendTx x v => exact congrArg goOn (withSearch_sendTxStep s c r x v)
  | sendT0 x => exact congrArg goOn (withSearch_sendT0Step s c r x)
  | sendRx x => exact congrArg goOn (withSearch_sendRxStep s c r x)
  | sendAckTx x off v => exact congrArg goOn (withSearch_sendAckTxStep s c r x off v)
  | sendT x => exact congrArg goOn (withSearch_sendTStep s c r x)
  | recvRx x => exact congrArg goOn (withSearch_recvRxStep s c r x)
  | recvAckTx q v => exact congrArg goOn (withSearch_recvAckTxStep s c r q v)

end

/-- Settles O20: each step and each execution commutes with the change of CRC_ACC and the SR registers. -/
theorem linkIgnoresCrcAndSearchRegs : Obligations.LinkIgnoresCrcAndSearchRegs := by
  refine fun s t c r => ⟨fun hp h => ?_, fun i hi h => ?_⟩
  · exact (withSearch_engineStep s c r hp).trans (by rw [h]; rfl)
  · have key : exec i (s.withSearch c r) = outcomeWith c r (exec i s) := by
      rcases hi with rfl | ⟨ra, ack, rfl⟩ | ⟨ra, want, rfl⟩
      · exact withSearch_execLpInit s c r
      · exact withSearch_execLpSend s c r ra ack
      · exact withSearch_execLpRecv s c r ra want
    exact key.trans (by rw [h]; rfl)

end Sys2Proof.Machine

namespace Sys2Proof.Machine

/-! ## The ring commands keep R15, MEM and the write log sound (R15, R42) -/

theorem addrW_of_frozen {s t : State} (h : t.frozen = s.frozen) : t.addrW = s.addrW := congrArg (fun x => x.addrW) h
theorem sess_of_frozen {s t : State} (h : t.frozen = s.frozen) : t.ls.sess = s.ls.sess := congrArg (fun x => x.ls.sess) h
theorem sessValid_of_frozen {s t : State} (h : t.frozen = s.frozen) : t.ls.sessValid = s.ls.sessValid :=
  congrArg (fun x => x.ls.sessValid) h

/-- A MEM write of the block keeps the state sound, wherever it goes. -/
theorem Good.store {s : State} (h : Good s) (a : Nat) (b : Byte) : Good (s.store a b) := by
  obtain ⟨hr, hm, hl⟩ := h
  refine ⟨hr, s.store_memOk a b hm, fun w hw => ?_⟩
  rcases List.mem_append.mp hw with hw | hw
  · exact hl w hw
  · rw [List.mem_singleton.mp hw]; exact s.wrap_lt a

theorem Good.setRb {s : State} (h : Good s) (i : RingIx) {d : Desc} (hd : d.Ok s.addrW) : Good (s.setRb i d) :=
  ⟨h.1.setRb i d hd, h.2⟩

/-- A loop whose passes keep the state sound and the descriptors as they are. -/
theorem forUp_good_rb {body : Nat → State → State} (hb : ∀ j t, Good t → Good (body j t))
    (hr : ∀ j t i, (body j t).rb i = t.rb i) (k lo : Nat) {s : State} (h : Good s) :
    Good (forUp body k lo s) ∧ ∀ i, (forUp body k lo s).rb i = s.rb i :=
  forUp_keeps (fun t => Good t ∧ ∀ i, t.rb i = s.rb i) body k lo s
    (fun j t _ _ ht => ⟨hb j t ht.1, fun i => (hr j t i).trans (ht.2 i)⟩) ⟨h, fun _ => rfl⟩

theorem copyOut_good_rb (i : RingIx) (a f k : Nat) {s : State} (h : Good s) :
    Good (copyOut i a f k s) ∧ ∀ j, (copyOut i a f k s).rb j = s.rb j :=
  forUp_good_rb (fun _ _ ht => ht.store _ _) (fun _ _ _ => rfl) k 0 h

theorem copyIn_good_rb (i : RingIx) (a f k : Nat) {s : State} (h : Good s) :
    Good (copyIn i a f k s) ∧ ∀ j, (copyIn i a f k s).rb j = s.rb j :=
  forUp_good_rb (fun _ _ ht => Good.store ht _ _) (fun _ _ _ => rfl) k 0 h

theorem storeSlots_good_rb (d : Desc) (sh i : Nat) (l : List Byte) {s : State} (h : Good s) :
    Good (storeSlots d sh i l s) ∧ ∀ j, (storeSlots d sh i l s).rb j = s.rb j := by
  induction l generalizing i s with
  | nil => exact ⟨h, fun _ => rfl⟩
  | cons b bs ih => exact ih (i + 1) (h.store _ b)

/-- What RB_PULL and RB_CUT copy out, unless they discard it (R79, R82). -/
theorem copied_good_rb (discard : Bool) (i : RingIx) (a f k : Nat) {s : State} (h : Good s) :
    Good (if discard then s else copyOut i a f k s) ∧ ∀ j, (if discard then s else copyOut i a f k s).rb j = s.rb j := by
  cases discard
  · exact copyOut_good_rb i a f k h
  · exact ⟨h, fun _ => rfl⟩

theorem badLen_iff {d : Desc} {n : Nat} : badLen d n = true ↔ d.cap = 0 ∨ n = 0 := by simp [badLen]

theorem badRange_iff {d : Desc} {n o : Nat} : badRange d n o = true ↔ d.cap = 0 ∨ n = 0 ∨ o ≥ d.count := by
  simp [badRange, badLen, or_assoc]

theorem cap_pos_of_not_badLen {d : Desc} {n : Nat} (h : ¬ badLen d n = true) : 0 < d.cap := by
  rw [badLen_iff] at h
  omega

theorem cap_pos_of_not_badRange {d : Desc} {n o : Nat} (h : ¬ badRange d n o = true) : 0 < d.cap := by
  rw [badRange_iff] at h
  omega

/-! ### Insertion (R77, R78) -/

/-- After the discard of R77 there is room for one more element. -/
theorem makeRoomHead_room {l : List RingIx} {i : RingIx} (hi : i ∈ l) {p : State × Nat} (h : Good p.1)
    (hc : 0 < (p.1.rb i).cap) :
    Kept l p.1 (makeRoomHead i p).1 ∧ ((makeRoomHead i p).1.rb i).count < ((makeRoomHead i p).1.rb i).cap := by
  have hle := (h.1 i).1
  unfold makeRoomHead
  split
  · exact ⟨Kept.dropHead h hi 1, by simp; omega⟩
  · exact ⟨Kept.refl l h, by omega⟩

theorem makeRoomTail_room {l : List RingIx} {i : RingIx} (hi : i ∈ l) {p : State × Nat} (h : Good p.1)
    (hc : 0 < (p.1.rb i).cap) :
    Kept l p.1 (makeRoomTail i p).1 ∧ ((makeRoomTail i p).1.rb i).count < ((makeRoomTail i p).1.rb i).cap := by
  have hle := (h.1 i).1
  unfold makeRoomTail
  split
  · exact ⟨Kept.dropTail h hi, by simp; omega⟩
  · exact ⟨Kept.refl l h, by omega⟩

/-- The overwriting insert works on its ring alone (R77). -/
theorem Kept.pushOver {l : List RingIx} {i : RingIx} (hi : i ∈ l) (e : End) (a n : Nat) {s : State} (h : Good s)
    (hc : 0 < (s.rb i).cap) : Kept l s (pushOver i e a n s).1 := by
  cases e with
  | tail =>
    refine forUp_keeps (fun p : State × Nat => Kept l s p.1) _ _ _ _ (fun j p _ _ hp => ?_) (Kept.refl l h)
    obtain ⟨hk, hf⟩ := makeRoomHead_room hi hp.good (by rw [hp.cap i]; exact hc)
    exact (hp.trans hk).trans (Kept.pushTail hk.good hi _ hf)
  | head =>
    refine forDown_keeps (fun p : State × Nat => Kept l s p.1) _ _ _ _ (fun j p _ _ hp => ?_) (Kept.refl l h)
    obtain ⟨hk, hf⟩ := makeRoomTail_room hi hp.good (by rw [hp.cap i]; exact hc)
    exact (hp.trans hk).trans (Kept.pushHead hk.good hi _ hf)

/-- The bounded insert at the tail works on its ring alone (R78). -/
theorem Kept.pushBlockTail {l : List RingIx} {i : RingIx} (hi : i ∈ l) (a k : Nat) {s : State} (h : Good s)
    (hk : (s.rb i).count + k ≤ (s.rb i).cap) : Kept l s (pushBlockTail i a k s) :=
  (forUp_index (fun j t => Kept l s t ∧ (t.rb i).count = (s.rb i).count + j)
    (fun j t => t.pushTail i (t.load (a + j))) k 0 s
    (fun j t _ hj ht => by
      obtain ⟨ht, hn⟩ := ht
      have hc := ht.cap i
      exact ⟨ht.trans (Kept.pushTail ht.good hi _ (by omega)), by simp; omega⟩)
    ⟨Kept.refl l h, rfl⟩).1

/-- The bounded insert at the head works on its ring alone (R78). -/
theorem Kept.pushBlockHead {l : List RingIx} {i : RingIx} (hi : i ∈ l) (a k : Nat) {s : State} (h : Good s)
    (hk : (s.rb i).count + k ≤ (s.rb i).cap) : Kept l s (pushBlockHead i a k s) :=
  (forDown_index (fun j t => Kept l s t ∧ (t.rb i).count + j = (s.rb i).count + k)
    (fun j t => t.pushHead i (t.load (a + j))) k 0 s
    (fun j t _ hj ht => by
      obtain ⟨ht, hn⟩ := ht
      have hc := ht.cap i
      exact ⟨ht.trans (Kept.pushHead ht.good hi _ (by omega)), by simp; omega⟩)
    ⟨Kept.refl l h, by simp⟩).1

/-! ### Removal, transfer, rotation (R79, R83, R84) -/

theorem Desc.Ok.pull {w : Nat} {d : Desc} (h : d.Ok w) (hc : 0 < d.cap) (e : End) (k : Nat) : (d.pull e k).Ok w := by
  obtain ⟨hcnt, hst, hz, hrest⟩ := h
  cases e with
  | tail => exact ⟨by simp only [Desc.pull]; omega, hst, hz, hrest⟩
  | head =>
    refine ⟨by simp only [Desc.pull]; omega, fun _ => Nat.mod_lt _ hc, fun h0 => ?_, hrest⟩
    simp only [Desc.pull] at h0
    omega

theorem Desc.Ok.stepOn {w : Nat} {d : Desc} (h : d.Ok w) (hc : 0 < d.cap) : d.stepOn.Ok w :=
  ⟨h.1, fun _ => Nat.mod_lt _ hc, fun h0 => by simp only [Desc.stepOn] at h0; omega, h.2.2.2⟩

theorem Kept.pushEnd {l : List RingIx} {s : State} (h : Good s) {i : RingIx} (hi : i ∈ l) (e : End) (b : Byte)
    (hf : (s.rb i).count < (s.rb i).cap) : Kept l s (s.pushEnd i e b) := by
  cases e with
  | tail => exact Kept.pushTail h hi b hf
  | head => exact Kept.pushHead h hi b hf

theorem Kept.dropEnd {l : List RingIx} {s : State} (h : Good s) {i : RingIx} (hi : i ∈ l) (e : End) :
    Kept l s (s.dropEnd i e) := by
  cases e with
  | tail => exact Kept.dropTail h hi
  | head => exact Kept.dropHead h hi 1

/-- RB_MOVE works on its two rings (R83). -/
theorem Kept.moveLoop {l : List RingIx} {di si : RingIx} (hd : di ∈ l) (hs : si ∈ l) (hne : di ≠ si) (ed es : End)
    (destr : Bool) (fuel i : Nat) {s : State} (h : Good s) : Kept l s (moveLoop di ed si es destr fuel i s).1 := by
  induction fuel generalizing i s with
  | zero => exact Kept.refl l h
  | succ n ih =>
    simp only [Sys2Proof.Machine.moveLoop]
    split
    · exact Kept.refl l h
    · rename_i hgo
      have hfull : (s.rb di).count < (s.rb di).cap := by
        have hle := (h.1 di).1
        simp [moveStops] at hgo
        omega
      -- the source has given its byte, or keeps it
      have hsrc : Kept [si] s (if destr then s.dropEnd si es else s) := by
        split
        · exact Kept.dropEnd h (List.mem_singleton.mpr rfl) es
        · exact Kept.refl _ h
      have hdst := hsrc.others di (by simpa using hne)
      have hpush := Kept.pushEnd (l := l) hsrc.good hd ed (s.rd si (moveIndex es destr (s.rb si).count i))
        (by rw [hdst]; exact hfull)
      exact (hsrc.mono (by simpa using hs)).trans (hpush.trans (ih (i + 1) hpush.good))

/-- One rotation step at either end works on its ring alone (R84). -/
theorem Kept.rotHeadToTail {l : List RingIx} {i : RingIx} (hi : i ∈ l) {s : State} (h : Good s) (hc : 0 < (s.rb i).cap) :
    Kept l s (rotHeadToTail i s) := by
  have h1 := Kept.setRb h hi (s.rb i).stepOn ((h.1 i).stepOn hc) rfl rfl
  exact h1.trans (Kept.wr h1.good hi (by rw [h1.cap i]; exact hc) _ _)

theorem Kept.rotTailToHead {l : List RingIx} {i : RingIx} (hi : i ∈ l) {s : State} (h : Good s) (hc : 0 < (s.rb i).cap) :
    Kept l s (rotTailToHead i s) := by
  have h1 := Kept.setRb h hi (s.rb i).stepBack ((h.1 i).stepBack hc) rfl rfl
  exact h1.trans (Kept.wr h1.good hi (by rw [h1.cap i]; exact hc) _ _)

/-- Passes that work on the rings of `l` make a loop that does. -/
theorem Kept.forUp {l : List RingIx} {i : RingIx} {body : Nat → State → State}
    (hb : ∀ j t, Good t → 0 < (t.rb i).cap → Kept l t (body j t)) (k lo : Nat) {s : State} (h : Good s)
    (hc : 0 < (s.rb i).cap) : Kept l s (forUp body k lo s) :=
  forUp_keeps (fun t => Kept l s t) body k lo s
    (fun j t _ _ ht => ht.trans (hb j t ht.good (by rw [ht.cap i]; exact hc))) (Kept.refl l h)

/-! ### Views (R97) -/

theorem Desc.Ok.view {w : Nat} {d : Desc} (h : d.Ok w) (hc : 0 < d.cap) {at_ len : Nat} (hl : at_ + len ≤ d.count) :
    (d.view at_ len).Ok w := by
  obtain ⟨hcnt, _, _, hrest⟩ := h
  refine ⟨by simp only [Desc.view]; omega, fun _ => Nat.mod_lt _ hc, fun h0 => ?_, hrest⟩
  simp only [Desc.view] at h0
  omega

/-- The view of a frame that a search of the stream found is sound (R97). -/
theorem Good.writeView {s : State} (h : Good s) (i v : RingIx) (hc : 0 < (s.rb i).cap) (r : Rule) (start : Nat) :
    Good (writeView i v (search r (s.content i) start) s) := by
  unfold Sys2Proof.Machine.writeView
  split
  · rename_i at_ len hs
    split
    · exact h
    · refine h.setRb v ((h.1 i).view hc ?_)
      have := search_bound r (s.content i) start at_ len hs
      rwa [State.content_length] at this
  · exact h

theorem Kept.advance {l : List RingIx} {i : RingIx} (hi : i ∈ l) (f : AdvFlags) (b : Byte) (k : Nat) {s : State} (h : Good s) :
    Kept l s (advance i f b k s) := by
  have h1 := Kept.dropHead (l := l) h hi k
  simp only [Sys2Proof.Machine.advance]
  split
  · exact h1.trans (Kept.dropUntil hi b _ h1.good)
  · exact h1

/-! ### The executions -/

theorem ends_good_ite {s t : State} {c : Prop} [Decidable c] (h : Good s) (ht : ¬ c → Good t) :
    Ends Good (if c then goOn s.raiseParam else goOn t) := by
  split
  · exact (ends_goOn _ _).mpr h
  · exact (ends_goOn _ _).mpr (ht ‹_›)

theorem Good.passFinish {p : PassResult} (h : Good p.st) (i : RingIx) (e : Ecode) : Good (p.finish i e) := by
  unfold PassResult.finish
  split
  · exact h
  · exact h

theorem arg1_le_capMax (s : State) : s.arg1 ≤ Config.capMax := by
  have := (s.arg.r1.extractLsb' 0 16).isLt
  simp only [State.arg1, Config.capMax]
  omega

/-- Every command that is no link command keeps the state sound (R15, R42). -/
theorem exec_good {i : Instr} (hi : linkCommand i = false) {s : State} (h : Good s) : Ends Good (exec i s) := by
  have self : ∀ ra : RingIx, ra ∈ [ra] := fun ra => List.mem_singleton.mpr rfl
  cases i with
  | nop => exact (ends_goOn _ _).mpr h
  | rbInit ra =>
    refine ends_good_ite h (fun hc => h.setRb ra ?_)
    rw [not_or] at hc
    exact ⟨Nat.not_lt.mp hc.1, fun h0 => h0, fun _ => rfl, Nat.not_lt.mp hc.2, arg1_le_capMax s⟩
  | rbPusho ra ea => exact ends_good_ite h (fun hc => (Kept.pushOver (self ra) ea _ _ h (cap_pos_of_not_badLen hc)).good)
  | rbPushb ra ea =>
    have hle := (h.1 ra).1
    have hk : (s.rb ra).count + pushBoundedLen (s.rb ra) s.arg1 ≤ (s.rb ra).cap := by
      simp only [pushBoundedLen, Desc.free]
      omega
    cases ea with
    | tail => exact ends_good_ite h (fun _ => (Kept.pushBlockTail (self ra) _ _ h hk).good)
    | head => exact ends_good_ite h (fun _ => (Kept.pushBlockHead (self ra) _ _ h hk).good)
  | rbPull ra ea discard =>
    refine ends_good_ite h (fun hc => ?_)
    have ht := copied_good_rb discard ra s.argAddr (rangeFirst ea (s.rb ra).count 0 (min s.arg1 (s.rb ra).count))
      (min s.arg1 (s.rb ra).count) h
    refine ht.1.setRb ra ?_
    rw [addrW_of_frozen (s := s) (by split <;> simp)]
    exact (h.1 ra).pull (cap_pos_of_not_badLen hc) ea _
  | rbRead ra ea => exact ends_good_ite h (fun _ => (copyOut_good_rb ra _ _ _ h).1)
  | rbWrite ra ea => exact ends_good_ite h (fun _ => (copyIn_good_rb ra _ _ _ h).1)
  | rbCut ra ea discard =>
    refine ends_good_ite h (fun hc => ?_)
    have ht := copied_good_rb discard ra s.argAddr
      (rangeFirst ea (s.rb ra).count s.arg2 (min s.arg1 ((s.rb ra).count - s.arg2)))
      (min s.arg1 ((s.rb ra).count - s.arg2)) h
    refine (Kept.cutRange (self ra) _ _ ht.1 ?_ ?_).good
    · rw [ht.2]; exact cap_pos_of_not_badRange hc
    · rw [ht.2]; omega
  | rbMove ra ea rb eb destr =>
    refine ends_good_ite h (fun hc => ?_)
    rw [not_or] at hc
    exact (Kept.moveLoop (l := [ra, rb]) (by simp) (by simp) hc.1 ea eb destr _ 0 h).good
  | rbRotl ra dir =>
    simp only [exec, execRbRotl]
    split
    · exact (ends_goOn _ _).mpr h
    · split
      · exact (ends_goOn _ _).mpr h
      · have hc : 0 < (s.rb ra).cap := by omega
        split
        · exact (ends_goOn _ _).mpr (Kept.forUp (fun _ _ => Kept.rotHeadToTail (self ra)) _ 0 h hc).good
        · exact (ends_goOn _ _).mpr (Kept.forUp (fun _ _ => Kept.rotTailToHead (self ra)) _ 0 h hc).good
  | rbRotp ra =>
    refine ends_good_ite h (fun hc => ?_)
    have ht := storeSlots_good_rb (s.rb ra) (rotpShift (s.rb ra) s.arg1) 0
      ((List.range (s.rb ra).cap).map (fun i => s.load ((s.rb ra).base + i))) h
    refine ht.1.setRb ra ?_
    obtain ⟨hcnt, _, _, hrest⟩ := h.1 ra
    rw [addrW_of_frozen (storeSlots_frozen _ _ _ _ _)]
    exact ⟨hcnt, fun _ => by simp only; omega, fun h0 => by simp only at h0; omega, hrest⟩
  | rbFull ra => exact ends_good_ite h (fun _ => h)
  | rbEmpty ra => exact ends_good_ite h (fun _ => h)
  | rbFlush ra => exact ends_good_ite h (fun _ => (Kept.flushRb h (self ra)).good)
  | fsMatch ra sel tie => exact ends_good_ite h (fun _ => h)
  | fsSearch ra rb =>
    refine ends_good_ite h (fun hc => h.writeView ra rb ?_ _ _)
    simp [badSearch] at hc
    omega
  | fsSrchadv ra rb flags =>
    refine ends_good_ite h (fun hc => (Kept.advance (self ra) flags _ _ (h.writeView ra rb ?_ _ _)).good)
    simp [badSearch] at hc
    omega
  | bsStuff ra => exact ends_good_ite h (fun _ => (Kept.stuffRing (self ra) h).good.passFinish ra _)
  | bsUnstuff ra => exact ends_good_ite h (fun _ => (Kept.unstuffRing (self ra) h).good.passFinish ra _)
  | crcSeed => exact (ends_goOn _ _).mpr h
  | crcByte => exact (ends_goOn _ _).mpr h
  | crcRun ra => exact ends_good_ite h (fun _ => h)
  | crcAppend ra =>
    simp only [exec, execCrcAppend]
    split
    · exact (ends_goOn _ _).mpr h
    · split
      · exact (ends_goOn _ _).mpr h
      · rename_i hf
        simp only [Desc.free] at hf
        have h1 := Kept.pushTail h (self ra) (s.crcAcc.extractLsb' 8 8) (by omega)
        exact (ends_goOn _ _).mpr (Kept.pushTail h1.good (self ra) _ (by simp; omega)).good
  | crcCheck ra => exact ends_good_ite h (fun _ => h)
  | lpInit => cases hi
  | lpSend ra ack => cases hi
  | lpRecv ra want => cases hi

end Sys2Proof.Machine

namespace Sys2Proof.Machine

/-! ## The invariant under the engine's steps (R15, R42, R119, R125, R126, R127) -/

theorem inv_iff {s : State} : Inv s ↔ Good s ∧ LinkOk s := by
  simp only [Inv, Good, and_assoc]

/-- What the invariant asks where no link command runs. -/
theorem inv_of_not_running {s : State} (h : Good s) (hs : s.ls.sessValid = true → s.ls.sess.Distinct)
    (hp : s.phase.linkRunning = false) : Inv s := by
  refine inv_iff.mpr ⟨h, hs, fun hr => ?_, fun ht => ?_, fun o ho => ?_⟩
  · rw [hp] at hr; cases hr
  · generalize s.phase = p at hp ht
    cases p <;> simp [Phase.linkRunning, Phase.toppingUp] at hp ht
  · generalize s.phase = p at hp ho
    cases p <;> simp [Phase.linkRunning, Phase.outRing] at hp ho

/-- A sound state with a valid session: what a link command runs in (R125). -/
structure Linked (s : State) : Prop where
  good : Good s
  valid : s.ls.sessValid = true
  distinct : s.ls.sess.Distinct

theorem Linked.of_kept {l : List RingIx} {s t : State} (h : Linked s) (hk : Kept l s t) : Linked t where
  good := hk.good
  valid := by rw [hk.sessValid]; exact h.valid
  distinct := by rw [hk.sess]; exact h.distinct

theorem Linked.tx {s : State} (h : Linked s) (b : Byte) : Linked (s.tx b).1 := by
  rcases s.tx_cases b with ⟨_, hb⟩ | ⟨_, hb⟩
  · rw [hb]; exact ⟨h.good, h.valid, h.distinct⟩
  · rw [hb]; exact h

/-- The engine stands before a call that is no RXP call of LP_RECV or of a wait. -/
theorem Linked.inv_await {s : State} (h : Linked s) {p : Phase} (ht : p.toppingUp = false) (ho : p.outRing = none) :
    Inv (s.await p) := by
  refine inv_iff.mpr ⟨h.good, fun _ => h.distinct, fun _ => h.valid, fun hp => ?_, fun o hp => ?_⟩
  · rw [State.await_phase, ht] at hp; cases hp
  · rw [State.await_phase, ho] at hp; cases hp

/-- A completion in a valid session, LS_STATE written on the way or not. -/
theorem Linked.inv_complete {s : State} (h : Linked s) (e : Ecode) (r : Quad) : Inv (s.complete e r) :=
  inv_of_not_running h.good (fun _ => h.distinct) rfl

theorem Linked.setSend {s : State} (h : Linked s) (x : SendState) : Linked (s.setSend x) := ⟨h.good, h.valid, h.distinct⟩
theorem Linked.setSendBoth {s : State} (h : Linked s) (x : SendState) (n : Nat) : Linked (s.setSendBoth x n) :=
  ⟨h.good, h.valid, h.distinct⟩
theorem Linked.setAckFail {s : State} (h : Linked s) : Linked s.setAckFail := ⟨h.good, h.valid, h.distinct⟩

theorem Linked.build {s : State} (h : Linked s) (code : BitVec 7) (a : Bool) (x : Half) (l : List Byte) :
    Linked (Sys2Proof.Machine.build code a x l s).1 :=
  h.of_kept (Kept.build (l := [s.scrIx]) (List.mem_singleton.mpr rfl) code a x l h.good)

theorem Linked.scanAll {s : State} (h : Linked s) (m : Mode) (off : Nat) : Linked (Sys2Proof.Machine.scanAll m off s).1 :=
  h.of_kept (Kept.scan m _ off h.good h.distinct)

/-! ### LP_SEND (R126) -/

theorem sendAttempt_inv (c : SendCtx) {s : State} (h : Linked s) : Inv (sendAttempt c s) := by
  obtain ⟨u, hu, hc⟩ := sendAttempt_cases c s
  have hl : Linked u := by rw [hu]; exact h.build _ _ _ _
  rcases hc with ⟨n, hc⟩ | hc <;> rw [hc]
  · exact (hl.setSendBoth _ _).inv_await rfl rfl
  · exact (hl.setSend _).inv_complete _ _

theorem waitScan_inv (c : SendCtx) (off : Nat) {s : State} (h : Linked s) : Inv (waitScan c off s) := by
  obtain ⟨u, hu, hc⟩ := waitScan_cases c off s
  have hl : Linked u := by rw [hu]; exact h.scanAll _ _
  rcases hc with hc | ⟨off', hc⟩ | hc <;> rw [hc]
  · exact (hl.setSend _).inv_complete _ _
  · exact hl.inv_await rfl rfl
  · exact hl.inv_await rfl rfl

theorem waitPoll_inv (c : SendCtx) {s : State} (h : Linked s) : Inv (waitPoll c s) := by
  rcases waitPoll_cases c s with ⟨hf, hc⟩ | hc <;> rw [hc]
  · exact inv_iff.mpr ⟨h.good, fun _ => h.distinct, fun _ => h.valid, fun _ => hf, fun o ho => absurd ho (by simp [Phase.outRing])⟩
  · exact waitScan_inv c 0 h

/-! ### LP_RECV (R127) -/

theorem cutRange_ls (i : RingIx) (f k : Nat) (s : State) : (cutRange i f k s).ls = s.ls := by
  simp only [cutRange]
  split
  · exact forDown_keeps (fun t : State => t.ls = s.ls) _ _ _ _ (fun _ _ _ _ ht => ht) rfl
  · exact forUp_keeps (fun t : State => t.ls = s.ls) _ _ _ _ (fun _ _ _ _ ht => ht) rfl

theorem cutRange_rb_ne (i j : RingIx) (f k : Nat) (s : State) (h : j ≠ i) : (cutRange i f k s).rb j = s.rb j := by
  simp only [cutRange]
  split
  · rw [State.rb_setRb_ne _ _ _ _ h]
    exact forDown_keeps (fun t : State => t.rb j = s.rb j) _ _ _ _ (fun _ _ _ _ ht => ht) rfl
  · rw [State.rb_setRb_ne _ _ _ _ h]
    exact forUp_keeps (fun t : State => t.rb j = s.rb j) _ _ _ _ (fun _ _ _ _ ht => ht) rfl

/-- The payload of a frame fits the out ring, unless the frame is a duplicate (R122). -/
def Fits (out : RingIx) (d : Frame) (s : State) : Prop :=
  (decide (d.code = Config.codeData) && s.dup d.hash) = false → d.plen ≤ (s.rb out).free

theorem fits_of_take {want : Nat} {out : RingIx} {d : Frame} {s : State} (h : classify (.ordinary want out) d s = .take) :
    Fits out d s := by
  intro hd
  simp only [classify, classifyOrdinary] at h
  split at h
  · split at h
    · cases h
    · rename_i hf
      simpa [hd] using hf
  · split at h <;> cases h

theorem Fits.cutRange {out : RingIx} {d : Frame} {s : State} (h : Fits out d s) {i : RingIx} (hi : out ≠ i) (f k : Nat) :
    Fits out d (Sys2Proof.Machine.cutRange i f k s) := by
  unfold Fits State.dup
  rw [cutRange_ls, cutRange_rb_ne _ _ _ _ _ hi]
  exact h

/-- The frame that a scan of LP_RECV takes fits the out ring, which is not rx (R121, R122). -/
theorem scan_taken_fits {want : Nat} {out : RingIx} (fuel off : Nat) {s u : State} {d : Frame} (hs : out ≠ s.ls.sess.rx)
    (h : scan (.ordinary want out) fuel off s = (u, .taken d)) : Fits out d u := by
  induction fuel generalizing off s with
  | zero => cases h
  | succ n ih =>
    -- going on with the scan from a state of the same session
    have next : ∀ (off' : Nat) (t : State), t.frozen = s.frozen → scan (.ordinary want out) n off' t = (u, .taken d) →
        Fits out d u := fun off' t ht h => ih off' (by rw [sess_of_frozen ht]; exact hs) h
    simp only [scan] at h
    split at h
    · cases h
    · rename_i at0 len _
      have hd := deframe_frozen at0 len s
      split at h
      · rename_i t ht
        rw [ht] at hd
        split at h
        · exact next _ _ (by simpa using hd) h
        · exact next _ _ hd h
      · rename_i t d' ht
        rw [ht] at hd
        have hv : (if off = 0 then t.dropHead t.rxIx at0 else t).frozen = s.frozen := by split <;> exact hd
        generalize (if off = 0 then t.dropHead t.rxIx at0 else t) = v at hv h
        generalize (if off = 0 then 0 else at0) = at1 at h
        have hrx : out ≠ v.rxIx := by rw [State.rxIx, sess_of_frozen hv]; exact hs
        split at h
        · rename_i htake
          obtain ⟨rfl, hdd⟩ := Prod.mk.inj h
          cases hdd
          exact (fits_of_take htake).cutRange hrx _ _
        · exact next _ _ (by simpa using hv) h
        · split at h
          · cases h
          · exact next _ _ (by simpa using hv) h
        · split at h
          · split at h
            · cases h
            · exact next _ _ (by simpa using hv) h
          · exact next _ _ (by simpa using hv) h
        · exact next _ _ hv h
        · cases h

theorem out_ne_rx {s : State} {out : RingIx} (h : s.ls.sess.rings.contains out = false) : out ≠ s.ls.sess.rx := by
  rintro rfl
  exact absurd (rx_mem_rings s.ls.sess) (by simpa using h)

/-- A delivery of a payload that fits keeps the session (R127). -/
theorem Linked.delivered {s : State} (h : Linked s) {out : RingIx} {d : Frame} (hf : Fits out d s) :
    Linked (Sys2Proof.Machine.delivered out d s) := by
  unfold Sys2Proof.Machine.delivered
  split
  · exact h
  · rename_i hd
    have hp : d.plen ≤ (s.rb out).free := hf (by simpa using hd)
    have hle := (h.good.1 out).1
    have hk := (Kept.copyToTail (l := [out]) s.scrIx (List.mem_singleton.mpr rfl) Config.hdrLen d.plen h.good
      (by simp only [Desc.free] at hp; omega)).1
    unfold deliver
    split
    · exact (h.of_kept hk).of_kept (Kept.setLastRx (l := [out]) hk.good _)
    · exact h.of_kept hk

theorem recvTaken_inv {s : State} (h : Linked s) {out : RingIx} {d : Frame} (hf : Fits out d s) : Inv (recvTaken out d s) := by
  have hl := h.delivered hf
  have hb : Linked (buildAck d.hash (delivered out d s)).1 := hl.build _ _ _ _
  rcases recvTaken_cases out d s with ⟨r, hc⟩ | ⟨r, hc⟩ | ⟨r, hc⟩ <;> rw [hc]
  · exact hb.inv_await rfl rfl
  · exact hb.setAckFail.inv_complete _ _
  · exact hl.inv_complete _ _

/-- DRAIN of an entry that fits the out ring, which is no session ring (R124). -/
theorem Linked.drain {s : State} (h : Linked s) {out : RingIx} (ho : s.ls.sess.rings.contains out = false)
    (hq : s.ls.sess.sqe = true) {n : Nat} (hn : n ≤ (s.rb out).free) : Linked (Sys2Proof.Machine.drain out n s) := by
  have hle := (h.good.1 out).1
  simp only [Desc.free] at hn
  have hside : out ≠ s.sideIx := by rintro rfl; exact absurd (side_mem_rings hq) (by simpa [State.sideIx] using ho)
  have hslen : out ≠ s.slenIx := by rintro rfl; exact absurd (slen_mem_rings hq) (by simpa [State.slenIx] using ho)
  have h0 : Kept [out, s.sideIx, s.slenIx] s (s.dropHead s.slenIx 1) := Kept.dropHead h.good (by simp) 1
  refine h.of_kept (l := [out, s.sideIx, s.slenIx])
    (forUp_index (fun j t => Kept [out, s.sideIx, s.slenIx] s t ∧ (t.rb out).count = (s.rb out).count + j)
      _ n 0 (s.dropHead s.slenIx 1) (fun j t _ hj ht => ?_) ⟨h0, by rw [State.rb_dropHead_ne _ _ _ _ hslen]; rfl⟩).1
  obtain ⟨hk, hc⟩ := ht
  have hcap := hk.cap out
  have h1 := hk.trans (Kept.pushTail hk.good (by simp) (drainByte t j) (i := out) (by omega))
  have h2 := h1.trans (Kept.dropHead h1.good (i := (t.pushTail out (drainByte t j)).sideIx) (by rw [h1.sideIx]; simp) 1)
  refine ⟨h2, ?_⟩
  rw [State.rb_dropHead_ne _ _ _ _ (by rw [hk.sideIx]; exact hside), State.rb_pushTail_same]
  simp only
  omega

theorem recvScan_inv (c : RecvCtx) {s : State} (h : Linked s) (ho : s.ls.sess.rings.contains c.out = false) :
    Inv (recvScan c s) := by
  rcases recvScan_cases c s with hc | ⟨n, r, hq, hn, hc⟩ | ⟨u, hu, hc⟩
  · rw [hc]; exact h.inv_complete _ _
  · rw [hc]; exact (h.drain ho hq hn).inv_complete _ _
  · have hl : Linked u := by rw [hu]; exact h.scanAll _ _
    rcases hc with ⟨d, hd, hc⟩ | hc | hc <;> rw [hc]
    · exact recvTaken_inv hl (scan_taken_fits _ _ (out_ne_rx ho) hd)
    · exact hl.inv_complete _ _
    · exact hl.inv_complete _ _

theorem recvPoll_inv (c : RecvCtx) {s : State} (h : Linked s) (ho : s.ls.sess.rings.contains c.out = false) :
    Inv (recvPoll c s) := by
  rcases recvPoll_cases c s with ⟨hf, hc⟩ | hc <;> rw [hc]
  · refine inv_iff.mpr ⟨h.good, fun _ => h.distinct, fun _ => h.valid, fun _ => hf, fun o hp => ?_⟩
    obtain rfl : c.out = o := by simpa [Phase.outRing] using hp
    exact ho
  · exact recvScan_inv c h ho

/-! ### The executions -/

theorem badLink_eq_false {s : State} {ra : RingIx} (h : ¬ badLink s ra = true) :
    s.ls.sessValid = true ∧ s.ls.sess.rings.contains ra = false := by
  simp only [badLink, Bool.or_eq_true, not_or, Bool.not_eq_true, Bool.not_eq_false'] at h
  exact h.1

/-- A session LP_INIT accepts has distinct rings (R125). -/
theorem distinct_of_not_badSession {s : State} {g : Session} (h : ¬ badSession s g = true) : g.Distinct := by
  simp [badSession] at h
  obtain ⟨⟨⟨hrx, _⟩, _⟩, hq⟩ := h
  exact ⟨hrx, fun hs => by simpa [not_or, and_assoc] using (hq hs).1.1⟩

theorem Good.flushAll (l : List RingIx) {s : State} (h : Good s) : Good (flushAll l s) := by
  induction l generalizing s with
  | nil => exact h
  | cons i l ih => exact ih (Kept.flushRb (l := [i]) h (List.mem_singleton.mpr rfl)).good

theorem exec_inv (i : Instr) {s : State} (hs : Inv s) : Ends Inv (exec i s) := by
  obtain ⟨hg, hd, _⟩ := inv_iff.mp hs
  by_cases hi : linkCommand i = false
  · intro t ht
    have hdone := exec_done hi s t ht
    have he : t.ls.sess = s.ls.sess ∧ t.ls.sessValid = s.ls.sessValid :=
      ⟨congrArg (fun x => x.ls.sess) hdone.besides, congrArg (fun x => x.ls.sessValid) hdone.besides⟩
    exact inv_of_not_running (exec_good hi hg t ht) (by rw [he.1, he.2]; exact hd) (by rw [hdone.phase]; rfl)
  · cases i with
    | lpInit =>
      simp only [exec, execLpInit]
      split
      · exact (ends_goOn _ _).mpr (inv_of_not_running hg (fun hv => by cases hv) rfl)
      · rename_i hb
        refine (ends_goOn _ _).mpr (inv_of_not_running (Good.flushAll (s := { s with ls := s.ls.start }) _ hg) (fun _ => ?_) rfl)
        rw [State.finish_ls, sess_of_frozen (flushAll_frozen _ _)]
        exact distinct_of_not_badSession hb
    | lpSend ra ack =>
      simp only [exec, execLpSend]
      split
      · exact (ends_goOn _ _).mpr (inv_of_not_running hg hd rfl)
      · rename_i hb
        obtain ⟨hv, _⟩ := badLink_eq_false hb
        split
        · exact (ends_goOn _ _).mpr (inv_of_not_running hg hd rfl)
        · exact (ends_goOn _ _).mpr (sendAttempt_inv _ ⟨hg, hv, hd hv⟩)
    | lpRecv ra want =>
      simp only [exec, execLpRecv]
      split
      · exact (ends_goOn _ _).mpr (inv_of_not_running hg hd rfl)
      · rename_i hb
        obtain ⟨hv, ho⟩ := badLink_eq_false hb
        exact (ends_goOn _ _).mpr (recvPoll_inv _ ⟨hg, hv, hd hv⟩ ho)
    | _ => exact absurd rfl hi

/-! ### The engine's steps -/

/-- A running link command has a valid session. -/
theorem Inv.linked {s : State} (h : Inv s) (hr : s.phase.linkRunning = true) : Linked s := by
  obtain ⟨hg, hd, hv, _⟩ := inv_iff.mp h
  exact ⟨hg, hv hr, hd (hv hr)⟩

/-- The byte RXP hands over goes to the tail of rx, which has room (R119). -/
theorem Linked.received {s : State} (h : Linked s) (hf : 0 < (s.rb s.rxIx).free) (b : Byte) (rest : List Byte) :
    Linked (({ s with env := { s.env with rxLine := rest } } : State).pushTail s.rxIx b) := by
  have hl : Linked { s with env := { s.env with rxLine := rest } } := ⟨h.good, h.valid, h.distinct⟩
  refine hl.of_kept (Kept.pushTail (l := [s.rxIx]) hl.good (List.mem_singleton.mpr rfl) b ?_)
  simp only [Desc.free] at hf
  exact Nat.lt_of_sub_pos hf

/-- Every engine step keeps the invariant. -/
theorem engineStep_inv {s : State} (hs : Inv s) : Ends Inv (engineStep s) := by
  have linked : ∀ p, s.phase = p → p.linkRunning = true → Linked s := fun p hp hr => hs.linked (by rw [hp]; exact hr)
  have room : s.phase.toppingUp = true → 0 < (s.rb s.rxIx).free := (inv_iff.mp hs).2.2.2.1
  unfold engineStep
  split
  case h_1 => exact (ends_goOn _ _).mpr hs
  case h_2 hp =>
    unfold executeLatched
    split
    · exact exec_inv _ hs
    · exact (ends_goOn _ _).mpr (inv_of_not_running (inv_iff.mp hs).1 (inv_iff.mp hs).2.1 rfl)
  case h_3 c v hp =>
    obtain ⟨u, hu, hc⟩ := sendTxStep_cases c v s
    have hl : Linked u := by rw [hu]; exact (linked _ hp rfl).tx _
    rw [ends_goOn]
    rcases hc with hc | hc | ⟨_, hc⟩ | hc <;> rw [hc]
    · exact (hl.setSend _).inv_complete _ _
    · exact hl.inv_await rfl rfl
    · exact (hl.setSend _).inv_await rfl rfl
    · exact hl.inv_complete _ _
  case h_4 c hp => exact (ends_goOn _ _).mpr (waitPoll_inv _ (linked _ hp rfl))
  case h_5 c hp =>
    have hl := linked _ hp rfl
    rw [ends_goOn, sendRxStep]
    rcases s.rxp_cases with ⟨_, h⟩ | ⟨b, rest, _, h⟩ <;> rw [h]
    · exact waitScan_inv c 0 hl
    · exact waitPoll_inv c (hl.received (room (by rw [hp]; rfl)) b rest)
  case h_6 c off v hp =>
    obtain ⟨u, hu, hc⟩ := sendAckTxStep_cases c off v s
    have hl : Linked u := by rw [hu]; exact (linked _ hp rfl).tx _
    rw [ends_goOn]
    rcases hc with hc | hc | hc <;> rw [hc]
    · exact waitScan_inv c off hl.setAckFail
    · exact hl.inv_await rfl rfl
    · exact waitScan_inv c off hl
  case h_7 c hp =>
    have hl := linked _ hp rfl
    rw [ends_goOn, sendTStep]
    split
    · split
      · exact (hl.setSend _).inv_complete _ _
      · exact sendAttempt_inv c (hl.setSend _)
    · exact waitPoll_inv c hl
  case h_8 c hp =>
    have hl := linked _ hp rfl
    have ho : s.ls.sess.rings.contains c.out = false := (inv_iff.mp hs).2.2.2.2 c.out (by rw [hp]; rfl)
    rw [ends_goOn, recvRxStep]
    rcases s.rxp_cases with ⟨_, h⟩ | ⟨b, rest, _, h⟩ <;> rw [h]
    · exact recvScan_inv c hl ho
    · exact recvPoll_inv c (hl.received (room (by rw [hp]; rfl)) b rest) ho
  case h_9 r v hp =>
    obtain ⟨u, hu, hc⟩ := recvAckTxStep_cases r v s
    have hl : Linked u := by rw [hu]; exact (linked _ hp rfl).tx _
    rw [ends_goOn]
    rcases hc with hc | hc | hc <;> rw [hc]
    · exact hl.setAckFail.inv_complete _ _
    · exact hl.inv_await rfl rfl
    · exact hl.inv_complete _ _

/-! ### The other agents -/

theorem hostStep_inv (op : HostOp) {s : State} (hs : Inv s) : Inv (hostStep op s) := by
  obtain ⟨⟨hr, ⟨hw, hin⟩, hl⟩, hk⟩ := inv_iff.mp hs
  rcases hostStep_touched op s with ⟨a, b, _, ht⟩ | ⟨w, _, ht⟩ | ht
  · rw [ht]
    exact inv_iff.mpr ⟨⟨hr, ⟨Memory.wf_write _ _ _ hw, Memory.within_write _ _ _ _ (s.wrap_lt a) hin⟩, hl⟩, hk⟩
  · rw [ht]
    exact inv_of_not_running ⟨hr, ⟨hw, hin⟩, fun _ h => absurd h List.not_mem_nil⟩ hk.1 rfl
  · rw [ht]
    exact inv_iff.mpr ⟨⟨hr, ⟨hw, hin⟩, hl⟩, hk⟩

/-- Free values at addresses of MEM leave it sound (R146; log 9). -/
theorem scramble_memOk (n w : Nat) (l : List WriteRec) {m : Memory} (hl : ∀ x ∈ l, x.addr < 2 ^ w) (hw : m.wf = true)
    (hin : m.within w = true) : (scramble n l m).wf = true ∧ (scramble n l m).within w = true := by
  induction l generalizing m with
  | nil => exact ⟨hw, hin⟩
  | cons x l ih =>
    obtain ⟨hx, hl⟩ := List.forall_mem_cons.mp hl
    exact ih hl (Memory.wf_write _ _ _ hw) (Memory.within_write _ _ _ _ hx hin)

/-- The writes a running command has made or is making lie in MEM (R42). -/
theorem pendingWrites_lt {s : State} (hs : Inv s) : ∀ w ∈ s.pendingWrites, w.addr < 2 ^ s.addrW := by
  unfold State.pendingWrites
  split
  · split
    · rename_i t ht
      have hlog : LogOk t := (inv_iff.mp (engineStep_inv hs t ht)).1.2.2
      have hw : t.addrW = s.addrW := (hostKept_of_hostPart (engineStep_hostPart s t ht)).1
      rw [← hw]
      exact hlog
    · exact (inv_iff.mp hs).1.2.2
    · exact (inv_iff.mp hs).1.2.2
  · exact fun _ h => absurd h List.not_mem_nil

theorem hardReset_inv {s : State} (hs : Inv s) : Inv (hardReset s) := by
  obtain ⟨⟨_, ⟨hw, hin⟩, _⟩, _⟩ := inv_iff.mp hs
  exact inv_of_not_running
    ⟨RingsOk.of_reset rfl, scramble_memOk _ _ _ (pendingWrites_lt hs) hw hin, fun _ h => absurd h List.not_mem_nil⟩
    (fun hv => by cases hv) rfl

/-- Settles O16: the engine, the host and the reset keep the invariant, and the environment's moves do not touch it. -/
theorem stepKeepsInvariant : Obligations.StepKeepsInvariant := fun _ t hs =>
  step_ends (P := fun u => Inv u) (fun h => h) (fun _ h => engineStep_inv h) (fun op _ h => hostStep_inv op h)
    (fun _ h => hardReset_inv h) (fun _ _ h => h) (fun _ _ h => h) (fun _ _ h => h) hs t

end Sys2Proof.Machine

namespace Sys2Proof.Machine

/-! ## The PARAM checks (R71, R91, R131) -/

theorem raiseParam_eq_paramDone (s : State) : s.raiseParam = s.paramDone := by
  simp [State.raiseParam, State.paramDone, Status.complete, Status.after]

/-- A failing check ends the command with PARAM (R131). -/
theorem param_of_check {c : Prop} [Decidable c] {s : State} {o : Host.Outcome State Fault Refusal} (h : c) :
    (if c then goOn s.raiseParam else o) = .next s.paramDone := by
  rw [if_pos h, goOn, raiseParam_eq_paramDone]

theorem badSearch_iff {d : Desc} {r : SearchRegs} : badSearch d r = true ↔
    d.cap = 0 ∨ r.hlen.toNat = 0 ∨ r.hlen.toNat > Config.patMax ∨ r.tlen.toNat > Config.patMax := by
  simp [badSearch, SearchRegs.headOk, SearchRegs.tailOk, or_assoc]

theorem patternOk_head_iff {r : SearchRegs} : r.patternOk .headPat = false ↔
    r.hlen.toNat = 0 ∨ r.hlen.toNat > Config.patMax := by
  simp [SearchRegs.patternOk, SearchRegs.headOk, imp_iff_not_or]

theorem patternOk_tail_iff {r : SearchRegs} : r.patternOk .tailPat = false ↔
    r.tlen.toNat = 0 ∨ r.tlen.toNat > Config.patMax := by
  simp [SearchRegs.patternOk, SearchRegs.tailOk, imp_iff_not_or]

theorem badPass_iff {d : Desc} : badPass d = true ↔ d.cap = 0 ∨ d.count = 0 := by simp [badPass]

theorem badLink_iff {s : State} {ra : RingIx} : badLink s ra = true ↔
    s.ls.sessValid = false ∨ ra ∈ s.ls.sess.rings ∨ (s.rb ra).cap = 0 := by
  simp [badLink, or_assoc]

/-- Settles O21: in each command the listed checks are the condition of its PARAM branch. -/
theorem paramErrorsChangeNothing : Obligations.ParamErrorsChangeNothing := by
  intro i s h
  cases i with
  | rbInit ra => exact param_of_check h
  | rbPusho ra ea => exact param_of_check (badLen_iff.mpr h)
  | rbPushb ra ea => exact param_of_check (badLen_iff.mpr h)
  | rbPull ra ea discard => exact param_of_check (badLen_iff.mpr h)
  | rbRead ra ea => exact param_of_check (badRange_iff.mpr h)
  | rbWrite ra ea => exact param_of_check (badRange_iff.mpr h)
  | rbCut ra ea discard => exact param_of_check (badRange_iff.mpr h)
  | rbMove ra ea rb eb destr => exact param_of_check h
  | rbRotl ra dir => exact param_of_check h
  | rbRotp ra => exact param_of_check h
  | rbFull ra => exact param_of_check h
  | rbEmpty ra => exact param_of_check h
  | rbFlush ra => exact param_of_check h
  | fsMatch ra sel tie =>
    cases sel with
    | headPat =>
      refine param_of_check ?_
      rw [patternOk_head_iff, or_assoc]
      exact h
    | tailPat =>
      refine param_of_check ?_
      rw [patternOk_tail_iff, or_assoc]
      exact h
  | fsSearch ra rb => exact param_of_check (badSearch_iff.mpr h)
  | fsSrchadv ra rb flags => exact param_of_check (badSearch_iff.mpr h)
  | bsStuff ra => exact param_of_check (badPass_iff.mpr h)
  | bsUnstuff ra => exact param_of_check (badPass_iff.mpr h)
  | crcRun ra => exact param_of_check (badRange_iff.mpr h)
  | crcAppend ra => exact param_of_check h
  | crcCheck ra => exact param_of_check h
  | lpSend ra ack => exact param_of_check (badLink_iff.mpr h)
  | lpRecv ra want => exact param_of_check (badLink_iff.mpr h)
  | nop => cases h
  | crcSeed => cases h
  | crcByte => cases h
  | lpInit => cases h

/-! ## The rule the SR registers spell (R25, R26, R47) -/

theorem patternBytes_eq (lo hi : Word) : patternBytes lo hi = (List.range 8).map (patternByte lo hi) := rfl

theorem take_patternBytes (lo hi : Word) {n : Nat} (h : n ≤ 8) :
    (patternBytes lo hi).take n = (List.range n).map (patternByte lo hi) := by
  rw [patternBytes_eq, ← List.map_take, List.take_range, Nat.min_eq_left h]

theorem policyOf_eq (p : BitVec 2) : policyOf p = if p = 0#2 then .hard else if p = 1#2 then .medium else .soft := by
  revert p
  decide

theorem SearchRegs.rule_eq_spelled {r : SearchRegs} (hh : r.hlen.toNat ≤ 8) (ht : r.tlen.toNat ≤ 8) : r.rule = r.spelled := by
  simp only [SearchRegs.rule, SearchRegs.spelled, SearchRegs.head, SearchRegs.tail, take_patternBytes _ _ hh,
    take_patternBytes _ _ ht, policyOf_eq]

theorem SearchRegs.spelled_head_length (r : SearchRegs) : r.spelled.head.length = r.hlen.toNat := by simp [SearchRegs.spelled]
theorem SearchRegs.spelled_tail_length (r : SearchRegs) : r.spelled.tail.length = r.tlen.toNat := by simp [SearchRegs.spelled]

theorem SearchRegs.head_eq_spelled {r : SearchRegs} (h : r.hlen.toNat ≤ 8) : r.head = r.spelled.head :=
  take_patternBytes _ _ h
theorem SearchRegs.tail_eq_spelled {r : SearchRegs} (h : r.tlen.toNat ≤ 8) : r.tail = r.spelled.tail :=
  take_patternBytes _ _ h

/-- The first byte of a head pattern that is not empty is byte 0 of its register (R25). -/
theorem SearchRegs.headD_head {r : SearchRegs} (h : r.hlen.toNat ≠ 0) : r.head.headD 0#8 = r.hpat0.extractLsb' 0 8 := by
  obtain ⟨n, hn⟩ := Nat.exists_eq_succ_of_ne_zero h
  rw [SearchRegs.head, hn]
  rfl

/-- A completion with OK of a command that no host write has raced with (R24, R35). -/
theorem finish_eq_okDone {t : State} (h : t.hazard = false) (a b c d : Nat) : t.finish a b c d = t.okDone (quadOf a b c d) := by
  simp [State.finish, State.complete, State.okDone, h, Status.complete, Status.after]

theorem not_badSearch {d : Desc} {r : SearchRegs} (hc : 0 < d.cap) (hh : r.hlen.toNat ∈ List.range' 1 8)
    (ht : r.tlen.toNat ≤ 8) : ¬ badSearch d r = true := by
  rw [badSearch_iff]
  simp [List.mem_range'_1, Config.patMax] at hh ⊢
  omega

/-- FS_SEARCH whose checks pass (R98). -/
theorem exec_fsSearch {s : State} {ra rb : RingIx} {found : Option (Nat × Nat)} (hb : ¬ badSearch (s.rb ra) s.sr = true)
    (hf : search s.sr.rule (s.content ra) s.arg2 = found) : exec (.fsSearch ra rb) s =
      .next ((writeView ra rb found s).finish (foundRes found).1 (foundRes found).2.1 (foundRes found).2.2 0) := by
  subst hf
  exact if_neg hb

/-- Settles O38: FS_SEARCH is one search with the spelled rule, and the view of what it found. -/
theorem fsSearchWritesView : Obligations.FsSearchWritesView := by
  refine ⟨fun r hh ht => SearchRegs.rule_eq_spelled hh ht, fun s ra rb hz hc hh ht => ?_⟩
  have hrule : s.sr.rule = s.sr.spelled :=
    SearchRegs.rule_eq_spelled (by simp [List.mem_range'_1] at hh; omega) ht
  rw [← hrule]
  refine ⟨fun hf => ?_, fun at_ len hf => ?_⟩
  · rw [exec_fsSearch (not_badSearch hc hh ht) hf]
    exact congrArg _ (finish_eq_okDone hz _ _ _ _)
  · rw [exec_fsSearch (not_badSearch hc hh ht) hf]
    have hv : writeView ra rb (some (at_, len)) s = if rb = ra then s else s.setRb rb ((s.rb ra).view at_ len) := rfl
    exact congrArg _ ((finish_eq_okDone (by rw [hv]; split <;> exact hz) _ _ _ _).trans (by rw [hv]; rfl))

end Sys2Proof.Machine

namespace Sys2Proof.Machine

/-! ## The membership test (R92, R93) -/

theorem mem_alignments {p xs : List Byte} {ws pos a : Nat} (h : ws ≤ pos) :
    a ∈ alignments p xs ws pos ↔ Qualifies p xs ws pos a := by
  simp only [alignments, List.mem_filter, List.mem_range, qualifies, Bool.and_eq_true, decide_eq_true_eq, List.all_eq_true,
    beq_iff_eq, Qualifies, Nat.lt_succ_iff, Nat.le_sub_iff_add_le h]

theorem alignments_sorted (p xs : List Byte) (ws pos : Nat) : (alignments p xs ws pos).Pairwise (· < ·) :=
  List.Pairwise.filter _ List.pairwise_lt_range

/-- Bit `a` of the mask of a choice among `0 .. m-1` is 1 iff `a` was chosen. -/
theorem alignMask_filter_range (P : Nat → Bool) (m : Nat) :
    alignMask ((List.range m).filter P) < 2 ^ m ∧
      ∀ a, (alignMask ((List.range m).filter P)).testBit a = (decide (a < m) && P a) := by
  induction m with
  | zero => simp [alignMask]
  | succ m ih =>
    obtain ⟨hlt, hbit⟩ := ih
    have hstep : alignMask ((List.range (m + 1)).filter P) =
        (if P m then 2 ^ m else 0) + alignMask ((List.range m).filter P) := by
      rw [List.range_succ, List.filter_append, alignMask, List.map_append, List.sum_append, Nat.add_comm]
      cases hp : P m <;> simp [hp, alignMask]
    rw [hstep]
    cases hp : P m
    · simp only [Bool.false_eq_true, if_false, Nat.zero_add, hbit]
      refine ⟨by rw [Nat.pow_succ]; omega, fun a => ?_⟩
      rcases Nat.lt_trichotomy a m with h | rfl | h
      · simp [h, Nat.lt_succ_of_lt h]
      · simp [hp]
      · simp [Nat.not_lt_of_gt h, show ¬ a < m + 1 by omega]
    · simp only [if_true]
      refine ⟨by rw [Nat.pow_succ]; omega, fun a => ?_⟩
      rcases Nat.lt_trichotomy a m with h | rfl | h
      · rw [Nat.testBit_two_pow_add_gt h, hbit]
        simp [h, Nat.lt_succ_of_lt h]
      · rw [Nat.testBit_two_pow_add_eq, Nat.testBit_lt_two_pow hlt]
        simp [hp]
      · have hb : 2 ^ m + alignMask ((List.range m).filter P) < 2 ^ a :=
          Nat.lt_of_lt_of_le (by rw [Nat.pow_succ]; omega) (Nat.pow_le_pow_right (by decide) h)
        rw [Nat.testBit_lt_two_pow hb]
        simp [show ¬ a < m + 1 by omega]

theorem alignMask_bit {p xs : List Byte} {ws pos a : Nat} (ha : a < 32) :
    (BitVec.ofNat 32 (alignMask (alignments p xs ws pos))).getLsbD a = true ↔ a ∈ alignments p xs ws pos := by
  rw [BitVec.getLsbD_ofNat, alignments, (alignMask_filter_range _ _).2 a]
  simp [ha]

/-- The tie-break reports one of the alignments, if there is one (R93). -/
theorem tieBreak_mem {tie : Tie} {q : List Nat} (h : q ≠ []) : tieBreak tie q ∈ q := by
  cases tie with
  | low =>
    rw [tieBreak, List.head?_eq_some_head h]
    exact List.head_mem h
  | high =>
    rw [tieBreak, List.getLast?_eq_some_getLast h]
    exact List.getLast_mem h

theorem tieBreak_nil (tie : Tie) : tieBreak tie [] = 0 := by cases tie <;> rfl

theorem tieBreak_low_le {q : List Nat} (hs : q.Pairwise (· < ·)) {a : Nat} (ha : a ∈ q) : tieBreak .low q ≤ a := by
  cases q with
  | nil => cases ha
  | cons x q =>
    rcases List.mem_cons.mp ha with rfl | ha
    · exact Nat.le_refl _
    · exact Nat.le_of_lt (List.rel_of_pairwise_cons hs ha)

theorem le_tieBreak_high {q : List Nat} (hs : q.Pairwise (· < ·)) {a : Nat} (ha : a ∈ q) : a ≤ tieBreak .high q := by
  rcases List.eq_nil_or_concat q with rfl | ⟨q, x, rfl⟩
  · cases ha
  · rw [List.concat_eq_append] at hs ha ⊢
    have hx : tieBreak .high (q ++ [x]) = x := by simp [tieBreak]
    rw [hx]
    rcases List.mem_append.mp ha with ha | ha
    · exact Nat.le_of_lt ((List.pairwise_append.mp hs).2.2 a ha x (List.mem_singleton.mpr rfl))
    · exact Nat.le_of_eq (List.mem_singleton.mp ha)

/-- The chosen pattern, if its length is in range, is the one its registers spell, and FS_MATCH's check of it passes. -/
theorem pattern_spelled {r : SearchRegs} {sel : Sel} {p : List Byte}
    (hp : p = (match sel with | .headPat => r.spelled.head | .tailPat => r.spelled.tail)) (hl : p.length ∈ List.range' 1 8) :
    r.pattern sel = p ∧ ¬ r.patternOk sel = false := by
  subst hp
  cases sel with
  | headPat =>
    rw [SearchRegs.spelled_head_length] at hl
    simp only [List.mem_range'_1] at hl
    refine ⟨SearchRegs.head_eq_spelled (by omega), ?_⟩
    rw [patternOk_head_iff, Config.patMax]
    omega
  | tailPat =>
    rw [SearchRegs.spelled_tail_length] at hl
    simp only [List.mem_range'_1] at hl
    refine ⟨SearchRegs.tail_eq_spelled (by omega), ?_⟩
    rw [patternOk_tail_iff, Config.patMax]
    omega

/-- Settles O35: the results are read off the list of the qualifying alignments. -/
theorem fsMatchReportsAlignments : Obligations.FsMatchReportsAlignments := by
  intro s ra sel tie p hr hc hp hl hws hpos
  obtain ⟨hpat, hok⟩ := pattern_spelled hp hl
  have hmem := fun a => mem_alignments (p := p) (xs := s.content ra) (a := a) hws
  have hsort := alignments_sorted p (s.content ra) s.arg1 s.arg2
  have hlt : ∀ a ∈ alignments p (s.content ra) s.arg1 s.arg2, a < 8 := by
    intro a ha
    obtain ⟨ha, _⟩ := (hmem a).mp ha
    simp only [List.mem_range'_1] at hl
    omega
  have hexec : exec (.fsMatch ra sel tie) s = .next (s.okDone (quadOf
      (memberOf p.length (alignments p (s.content ra) s.arg1 s.arg2)).code
      (tieBreak tie (alignments p (s.content ra) s.arg1 s.arg2)) (alignMask (alignments p (s.content ra) s.arg1 s.arg2)) 0)) := by
    have hcheck : ¬ ((s.rb ra).cap = 0 ∨ s.sr.patternOk sel = false ∨ s.arg1 > s.arg2 ∨ s.arg2 ≥ (s.rb ra).count) := by
      rintro (h | h | h | h)
      · omega
      · exact hok h
      · omega
      · omega
    rw [← finish_eq_okDone hr.2.2, ← hpat]
    exact if_neg hcheck
  refine ⟨_, hexec, rfl, fun a ha => ?_, fun h => ?_, fun h => ⟨fun ⟨a, ha⟩ => ?_, fun h0 => ?_⟩, fun ⟨a, ha⟩ => ?_, fun a ha => ?_⟩
  all_goals simp only [← hmem] at *
  all_goals generalize hq : alignments p (s.content ra) s.arg1 s.arg2 = q at *
  · exact hq ▸ alignMask_bit ha
  · simp [quadOf, memberOf, h, Member.code]
  · have hne : q.isEmpty = false := List.isEmpty_eq_false_iff.mpr (List.ne_nil_of_mem ha)
    simp [quadOf, memberOf, h, hne, Member.code]
  · obtain rfl : q = [] := List.eq_nil_iff_forall_not_mem.mpr h0
    simp [quadOf, memberOf, Member.code, tieBreak_nil]
  · have hm := tieBreak_mem (tie := tie) (List.ne_nil_of_mem ha)
    have := hlt _ hm
    rw [show (quadOf _ _ _ _).r1.toNat = tieBreak tie q from Nat.mod_eq_of_lt (by omega)]
    exact hm
  · have hm := tieBreak_mem (tie := tie) (List.ne_nil_of_mem ha)
    have := hlt _ hm
    rw [show (quadOf _ _ _ _).r1.toNat = tieBreak tie q from Nat.mod_eq_of_lt (by omega)]
    exact ⟨by rintro rfl; exact tieBreak_low_le hsort ha, by rintro rfl; exact le_tieBreak_high hsort ha⟩

/-! ## Advancing (R99) -/

theorem State.setRb_setRb (s : State) (i : RingIx) (d e : Desc) : (s.setRb i d).setRb i e = s.setRb i e := by
  simp [State.setRb]

theorem State.setRb_self (s : State) (i : RingIx) : s.setRb i (s.rb i) = s := by
  simp [State.setRb, State.rb]

theorem State.dropHead_zero (s : State) (i : RingIx) (h : (s.rb i).Ok s.addrW) : s.dropHead i 0 = s := by
  obtain ⟨_, hst, hz, _⟩ := h
  have hmod : (s.rb i).start % (s.rb i).cap = (s.rb i).start := by
    rcases Nat.eq_zero_or_pos (s.rb i).cap with h0 | hc
    · rw [h0, Nat.mod_zero]
    · exact Nat.mod_eq_of_lt (hst hc)
  have hd : (s.rb i).dropHead 0 = s.rb i := by simp [Desc.dropHead, hmod]
  rw [State.dropHead, hd, s.setRb_self]

theorem Desc.dropHead_dropHead (d : Desc) {j k : Nat} (h : j + k ≤ d.count) : (d.dropHead j).dropHead k = d.dropHead (j + k) := by
  have h1 : min j d.count = j := by omega
  have h2 : min k (d.count - j) = k := by omega
  have h3 : min (j + k) d.count = j + k := by omega
  simp only [Desc.dropHead, h1, h2, h3, Nat.mod_add_mod, Nat.add_assoc, Nat.sub_sub]

theorem State.dropHead_dropHead (s : State) (i : RingIx) {j k : Nat} (h : j + k ≤ (s.rb i).count) :
    (s.dropHead i j).dropHead i k = s.dropHead i (j + k) := by
  rw [State.dropHead, State.rb_dropHead_same, Desc.dropHead_dropHead _ h, State.dropHead, State.setRb_setRb]
  rfl

/-- Dropping on to a byte is one drop (R99). -/
theorem dropUntil_eq_dropHead (i : RingIx) (b : Byte) (fuel : Nat) {s : State} (h : (s.rb i).Ok s.addrW) :
    ∃ j, j ≤ (s.rb i).count ∧ State.dropUntil i b fuel s = s.dropHead i j := by
  induction fuel generalizing s with
  | zero => exact ⟨0, Nat.zero_le _, (s.dropHead_zero i h).symm⟩
  | succ n ih =>
    simp only [State.dropUntil]
    split
    · rename_i hgo
      obtain ⟨j, hj, he⟩ := ih (s := s.dropHead i 1) (by rw [State.rb_dropHead_same]; exact h.dropHead 1)
      simp only [State.rb_dropHead_same, Desc.dropHead_count] at hj
      exact ⟨1 + j, by omega, by rw [he, State.dropHead_dropHead _ _ (by omega)]⟩
    · exact ⟨0, Nat.zero_le _, (s.dropHead_zero i h).symm⟩

/-- The bytes that stand behind an advance by `k` and then, with FFWD, on to the byte `b` (R99). -/
def restAfter (f : AdvFlags) (b : Byte) (k : Nat) (xs : List Byte) : List Byte :=
  if f.ffwd then (xs.drop k).dropWhile (fun x => x != b) else xs.drop k

/-- An advance is one drop, of all but the rest (R99). -/
theorem advance_eq_dropHead (i : RingIx) (f : AdvFlags) (b : Byte) {k : Nat} {s : State} (h : (s.rb i).Ok s.addrW)
    (hk : k ≤ (s.rb i).count) :
    ∃ j, j ≤ (s.rb i).count ∧ advance i f b k s = s.dropHead i j ∧
      (s.dropHead i j).content i = restAfter f b k (s.content i) := by
  unfold advance restAfter
  split
  · have hok : ((s.dropHead i k).rb i).Ok (s.dropHead i k).addrW := by rw [State.rb_dropHead_same]; exact h.dropHead k
    obtain ⟨j, hj, he⟩ := dropUntil_eq_dropHead i b ((s.dropHead i k).rb i).count hok
    have hcont := dropUntil_content i b ((s.dropHead i k).rb i).count (s := s.dropHead i k) (Nat.le_refl _)
    simp only [State.rb_dropHead_same, Desc.dropHead_count] at hj
    rw [State.dropHead_dropHead _ _ (by omega)] at he
    exact ⟨k + j, by omega, he, by rw [← he, hcont, State.content_dropHead]⟩
  · exact ⟨k, hk, rfl, State.content_dropHead s i k⟩

/-- What the flags ask to drop is no more than there is (R99). -/
theorem advanceBy_le {f : AdvFlags} {r : Rule} {xs : List Byte} {full : Bool} (hh : 0 < r.head.length)
    (hfull : full = true → 0 < xs.length) : advanceBy f (search r xs 0) full ≤ xs.length := by
  unfold advanceBy
  split
  · rename_i at_ len hs
    have h1 := search_bound _ _ _ _ _ hs
    have h2 := search_pos _ _ _ _ _ hs
    exact Nat.max_le.mpr ⟨by split <;> omega, Nat.max_le.mpr ⟨by split <;> omega, by split <;> omega⟩⟩
  · split
    · rename_i hf
      have := hfull (Bool.and_eq_true_iff.mp hf).2
      omega
    · exact Nat.zero_le _

/-- The descriptor that stands in RBv after the view of what was found is written (R97). -/
def viewOf (i v : RingIx) (found : Option (Nat × Nat)) (s : State) : Desc :=
  match found with
  | some (h, len) => if v = i then s.rb v else (s.rb i).view h len
  | none => s.rb v

theorem writeView_eq_setRb (i v : RingIx) (found : Option (Nat × Nat)) (s : State) :
    writeView i v found s = s.setRb v (viewOf i v found s) := by
  unfold writeView viewOf
  split
  · split
    · exact (s.setRb_self v).symm
    · rfl
  · exact (s.setRb_self v).symm

/-- The stream's own descriptor is no view of itself (R97). -/
theorem viewOf_self (i : RingIx) (found : Option (Nat × Nat)) (s : State) : viewOf i i found s = s.rb i := by
  unfold viewOf
  split
  · exact if_pos rfl
  · rfl

/-- Writing the view leaves the stream's ring and its bytes alone (R97). -/
theorem writeView_stream (i v : RingIx) (found : Option (Nat × Nat)) (s : State) :
    (writeView i v found s).rb i = s.rb i ∧ (writeView i v found s).content i = s.content i := by
  have hrb : (writeView i v found s).rb i = s.rb i := by
    rw [writeView_eq_setRb, State.rb_setRb]
    split
    · rename_i h
      rw [← h, viewOf_self]
    · rfl
  have hrd : (writeView i v found s).rd i = s.rd i := by
    funext x
    rw [State.rd, hrb, writeView_eq_setRb, State.setRb_load, State.rd]
  exact ⟨hrb, by rw [State.content, State.slice, hrb, hrd]; rfl⟩

/-- FS_SRCHADV whose checks pass (R99). -/
theorem exec_fsSrchadv {s t : State} {ra rb : RingIx} {f : AdvFlags} {found : Option (Nat × Nat)} {b : Byte} {k : Nat}
    (hb : ¬ badSearch (s.rb ra) s.sr = true) (hf : search s.sr.rule (s.content ra) 0 = found) (hbyte : s.sr.head.headD 0#8 = b)
    (hk : advanceBy f found (decide ((s.rb ra).count = (s.rb ra).cap)) = k) (ht : advance ra f b k (writeView ra rb found s) = t) :
    exec (.fsSrchadv ra rb f) s = .next (t.finish (foundRes found).1 (foundRes found).2.1 (foundRes found).2.2
      ((s.rb ra).count - (t.rb ra).count)) := by
  subst hf hbyte hk ht
  exact if_neg hb

/-- Settles O39: the search writes the view, and the advance is one drop of all but the rest. -/
theorem fsSrchadvAdvances : Obligations.FsSrchadvAdvances := by
  intro s ra rb f hr hc hh ht found k rest b hfound hb hk hrest
  have hh' : 0 < s.sr.hlen.toNat ∧ s.sr.hlen.toNat ≤ 8 := by simp [List.mem_range'_1] at hh; omega
  have hrule : s.sr.rule = s.sr.spelled := SearchRegs.rule_eq_spelled hh'.2 ht
  have hbyte : s.sr.head.headD 0#8 = b := by rw [SearchRegs.headD_head (by omega), hb]
  have hk' : k = advanceBy f found (decide ((s.rb ra).count = (s.rb ra).cap)) := by
    rw [hk]
    unfold advanceBy
    split
    · rfl
    · simp
  have hkle : k ≤ (s.rb ra).count := by
    rw [hk', hfound, ← s.content_length ra]
    refine advanceBy_le (by rw [SearchRegs.spelled_head_length]; exact hh'.1) (fun hfull => ?_)
    have hcap := of_decide_eq_true hfull
    rw [s.content_length] at hcap ⊢
    omega
  obtain ⟨hwrb, hwcont⟩ := writeView_stream ra rb found s
  obtain ⟨j, hj, hadv, hcont⟩ := advance_eq_dropHead ra f b (k := k) (s := writeView ra rb found s)
    (by rw [hwrb, addrW_of_frozen (writeView_frozen _ _ _ _)]; exact hr.1 ra) (by rw [hwrb]; exact hkle)
  have hrest' : restAfter f b k ((writeView ra rb found s).content ra) = rest := by rw [hwcont, hrest, restAfter]
  rw [hrest'] at hcont
  rw [hwrb] at hj
  -- the rest is what the drop leaves
  have hlen : rest.length = (s.rb ra).count - j := by
    rw [← hcont, State.content_length, State.rb_dropHead_same, hwrb, Desc.dropHead_count, Nat.min_eq_left hj]
  have hjeq : j = (s.rb ra).count - rest.length := by omega
  have hdrop : (((writeView ra rb found s).dropHead ra j).rb ra) = { s.rb ra with
      count := rest.length, start := ((s.rb ra).start + ((s.rb ra).count - rest.length)) % (s.rb ra).cap } := by
    rw [State.rb_dropHead_same, hwrb, Desc.dropHead, Nat.min_eq_left hj, ← hlen, ← hjeq]
  have hexec := exec_fsSrchadv (rb := rb) (not_badSearch hc hh ht) (by rw [hrule, hfound]) hbyte hk'.symm hadv
  refine ⟨_, hexec, ⟨rfl, ?_, rfl, rfl, ?_, ?_, ?_⟩, ⟨?_, ⟨?_, ?_, ?_⟩, ?_, fun i hi => ?_⟩, ?_, hcont, hdrop, fun hne => ?_⟩
  · rw [State.finish_res _ _ _ _ _ (by rw [writeView_eq_setRb]; exact hr.2.2), hdrop]
    cases found <;> rfl
  · rw [writeView_eq_setRb]; simp [State.dropHead]
  · rw [writeView_eq_setRb]; rfl
  · rw [writeView_eq_setRb]; rfl
  · exact hostKept_of_hostPart (by
      rw [State.finish_hostPart]; exact hostPart_of_frozen (by simp))
  · rw [writeView_eq_setRb]; rfl
  · rw [writeView_eq_setRb]; rfl
  · rw [writeView_eq_setRb]; rfl
  · rw [writeView_eq_setRb]; rfl
  · simp only [List.contains_eq_mem, List.mem_cons, List.not_mem_nil, or_false, decide_eq_false_iff_not, not_or] at hi
    rw [State.finish_rb, State.rb_dropHead_ne _ _ _ _ hi.1, writeView_eq_setRb, State.rb_setRb_ne _ _ _ _ hi.2]
  · rw [writeView_eq_setRb]; rfl
  · rw [State.finish_rb, State.rb_dropHead_ne _ _ _ _ hne, writeView_eq_setRb, State.rb_setRb_same]
    unfold viewOf
    split
    · exact if_neg hne
    · rfl

end Sys2Proof.Machine

namespace Sys2Proof.Machine

/-! ## The register window (R18, R19, R20, R37, R50) -/

/-- The offsets of the window that show a register: all but CMD and the reserved ones (R18). -/
def windowOffsets : List Nat :=
  [0x000, 0x004, 0x008, 0x00C, 0x014, 0x018, 0x01C, 0x020, 0x024, 0x028, 0x02C, 0x030, 0x040, 0x044, 0x048, 0x04C, 0x050,
   0x054, 0x058, 0x060, 0x070, 0x074, 0x078, 0x07C, 0x080, 0x084, 0x088, 0x08C] ++ (List.range 32).map (fun k => 0x100 + 4 * k)

theorem windowWords_offsets (s : State) : (windowWords s).map Prod.fst = windowOffsets := rfl

theorem served_window {off : Nat} (h : off ∈ windowOffsets) : served off 4 = true := by
  have key : ∀ x ∈ windowOffsets, served x 4 = true := by decide
  exact key off h

theorem descriptor_mem_window {off : Nat} (h : 0x100 ≤ off) (h' : off < 0x180) (h4 : off % 4 = 0) : off ∈ windowOffsets :=
  List.mem_append_right _ (List.mem_map.mpr ⟨(off - 0x100) / 4, List.mem_range.mpr (by omega), by omega⟩)

theorem served_iff {off width : Nat} : served off width = true ↔ width = 4 ∧ off % 4 = 0 ∧ off < 512 := by
  rw [served, Bool.and_eq_true, Bool.and_eq_true, beq_iff_eq, beq_iff_eq, decide_eq_true_iff, and_assoc]
  rfl

/-- What a read shows of a register whose value is not open (R19, R37). -/
theorem shows_served {s : State} {off : Nat} (hs : served off 4 = true) (ho : s.phase = .idle ∨ openWhileBusy off = false) :
    s.shows off = registerAt s off := by
  have hb : (s.busy && openWhileBusy off) = false := by
    rcases ho with h | h
    · rw [busy_eq_false h, Bool.false_and]
    · rw [h, Bool.and_false]
  show readValue s off 4 = _
  rw [readValue, if_pos hs, hb]
  rfl

theorem shows_not_served {s : State} {off : Nat} (hs : served off 4 = false) : s.shows off = 0#32 := by
  show readValue s off 4 = _
  rw [readValue, hs]
  rfl

/-! ### The packed registers, field by field (R18) -/

theorem toNat_append_add {n m : Nat} (x : BitVec n) (y : BitVec m) : (x ++ y).toNat = x.toNat * 2 ^ m + y.toNat := by
  rw [BitVec.toNat_append, ← Nat.shiftLeft_add_eq_or_of_lt y.isLt, Nat.shiftLeft_eq]

theorem irqEn_word (b : Bool) : BitVec.ofNat 32 b.toNat = 0#31 ++ BitVec.ofBool b := by cases b <;> rfl

theorem half_word (x : Half) : x.setWidth 32 = 0#16 ++ x := by
  apply BitVec.eq_of_toNat_eq
  rw [toNat_append_add, BitVec.toNat_setWidth]
  simp only [BitVec.toNat_ofNat]
  omega

theorem Ecode.code_lt (e : Ecode) : e.code < 16 := by cases e <;> decide
theorem SendState.code_lt (x : SendState) : x.code < 8 := by cases x <;> decide

theorem status_word (s : State) : s.statusWord = 0#20 ++ BitVec.ofNat 4 s.status.ecode.code ++ 0#3 ++
    BitVec.ofBool s.status.ackFail ++ BitVec.ofBool s.status.ovr ++ BitVec.ofBool s.status.err ++
    BitVec.ofBool s.status.done ++ BitVec.ofBool (decide (s.phase ≠ .idle)) := by
  apply BitVec.eq_of_toNat_eq
  have hcode := s.status.ecode.code_lt
  have hack := s.status.ackFail.toNat_lt
  have hovr := s.status.ovr.toNat_lt
  have herr := s.status.err.toNat_lt
  have hdone := s.status.done.toNat_lt
  have hbusy := (decide (s.phase ≠ .idle)).toNat_lt
  simp only [State.statusWord, State.busy, toNat_append_add, BitVec.toNat_ofBool, BitVec.toNat_ofNat]
  omega

theorem srCfg_word (r : SearchRegs) : r.cfgWord = 0#14 ++ r.policy ++ 0#4 ++ r.tlen ++ 0#4 ++ r.hlen := by
  apply BitVec.eq_of_toNat_eq
  simp only [SearchRegs.cfgWord, toNat_append_add, BitVec.toNat_ofNat]
  omega

theorem Session.fields_toNat (g : Session) : g.fields.toNat = g.bits := by
  simp only [Session.fields, Session.bits, toNat_append_add, BitVec.toNat_ofBool, BitVec.toNat_ofNat]
  omega

theorem Session.bits_lt (g : Session) : g.bits < 2 ^ 17 := by
  rw [← g.fields_toNat]
  exact g.fields.isLt

theorem lsCfg_word (l : LinkRegs) : l.cfgWord = 0#15 ++ l.cfg.fields := by
  apply BitVec.eq_of_toNat_eq
  have := l.cfg.bits_lt
  simp only [LinkRegs.cfgWord, toNat_append_add, BitVec.toNat_ofNat, Session.fields_toNat]
  omega

theorem lsSess_word (l : LinkRegs) : l.sessWord = BitVec.ofBool l.sessValid ++ 0#14 ++ l.sess.fields := by
  apply BitVec.eq_of_toNat_eq
  have := l.sess.bits_lt
  have := l.sessValid.toNat_lt
  simp only [LinkRegs.sessWord, toNat_append_add, BitVec.toNat_ofBool, BitVec.toNat_ofNat, Session.fields_toNat]
  omega

theorem lastRx_word (l : LinkRegs) : l.lastRxWord = 0#15 ++ BitVec.ofBool l.lastRx.valid ++ l.lastRx.hash := by
  apply BitVec.eq_of_toNat_eq
  have := l.lastRx.valid.toNat_lt
  simp only [LinkRegs.lastRxWord, toNat_append_add, BitVec.toNat_ofBool, BitVec.toNat_ofNat]
  omega

theorem lsState_word (l : LinkRegs) : l.stateWord = l.attempts ++ 0#13 ++ BitVec.ofNat 3 l.state.code := by
  apply BitVec.eq_of_toNat_eq
  have := l.state.code_lt
  simp only [LinkRegs.stateWord, toNat_append_add, BitVec.toNat_ofNat]
  omega

/-- The four registers of each descriptor (R18). -/
theorem registerAt_descriptor (s : State) (n : Fin 8) :
    registerAt s (0x100 + 16 * n.val) = BitVec.ofNat 32 (s.rb n).base ∧
      registerAt s (0x104 + 16 * n.val) = BitVec.ofNat 32 (s.rb n).cap ∧
      registerAt s (0x108 + 16 * n.val) = BitVec.ofNat 32 (s.rb n).count ∧
      registerAt s (0x10C + 16 * n.val) = BitVec.ofNat 32 (s.rb n).start := by
  fin_cases n <;> exact ⟨rfl, rfl, rfl, rfl⟩

/-- The registers are the words of the table (R18). -/
theorem registerAt_window (s : State) : ∀ p ∈ windowWords s, registerAt s p.1 = p.2 := by
  simp only [windowWords, List.forall_mem_append, List.forall_mem_cons, List.mem_flatMap]
  refine ⟨⟨⟨rfl, rfl, irqEn_word _, status_word s, rfl, rfl, rfl, rfl, rfl, rfl, rfl, rfl, by simp⟩, ⟨rfl, rfl, rfl, rfl,
    srCfg_word _, half_word _, half_word _, half_word _, lsCfg_word _, lsSess_word _, rfl, half_word _, half_word _,
    lastRx_word _, lsState_word _, rfl, by simp⟩⟩, ?_⟩
  rintro p ⟨n, -, hp⟩
  obtain ⟨hbase, hcap, hcount, hstart⟩ := registerAt_descriptor s n
  simp only [List.mem_cons, List.not_mem_nil, or_false] at hp
  rcases hp with rfl | rfl | rfl | rfl
  · exact hbase
  · exact hcap
  · exact hcount
  · exact hstart

theorem not_open_of_readable {off : Nat} (h : off ∈ readableWhileBusy) : openWhileBusy off = false := by
  have key : ∀ x ∈ readableWhileBusy, openWhileBusy x = false := by decide
  exact key off h

/-- Outside the table nothing is open and everything reads 0 (R19). -/
theorem not_open_of_reserved {off : Nat} (h4 : off % 4 = 0) (h : off ∉ windowOffsets) : openWhileBusy off = false := by
  have hlist : ∀ x ∈ [0x024, 0x028, 0x02C, 0x030, 0x060, 0x074, 0x080, 0x084], x ∈ windowOffsets := by decide
  rw [openWhileBusy, Bool.or_eq_false_iff, Bool.and_eq_false_iff]
  refine ⟨?_, ?_⟩
  · rw [← Bool.not_eq_true, List.contains_iff_mem]
    exact fun hm => h (hlist off hm)
  · by_contra hr
    simp only [decide_eq_false_iff_not, not_or, not_not] at hr
    exact h (descriptor_mem_window hr.1 hr.2 h4)

theorem registerAt_reserved (s : State) {off : Nat} (h4 : off % 4 = 0) (h : off ∉ windowOffsets) : registerAt s off = 0#32 := by
  unfold registerAt
  split
  case h_29 => exact if_neg (fun hr => h (descriptor_mem_window hr.1 hr.2 h4))
  all_goals exact absurd (by decide) h

/-! ### Writes -/

theorem descRegister_congr {s t : State} (h : t.rbs = s.rbs) (off : Nat) : descRegister t off = descRegister s off := by
  unfold descRegister State.rb
  rw [h]

/-- A write changes no other register (R19). -/
theorem registerAt_writeRegister_ne (v : Word) (s : State) {p off : Nat} (h : off ≠ p) (hp : p ≠ 0x010) :
    registerAt (writeRegister p v s) off = registerAt s off := by
  unfold writeRegister
  split
  case h_3 => exact absurd rfl hp
  case h_19 => rfl
  all_goals
    unfold registerAt
    split
    case h_29 => rw [descRegister_congr (s := s)]; rfl
    any_goals exact absurd rfl h
    all_goals rfl

/-- The registers of class RW are registers of the window, and none of them is CMD. -/
theorem rw_window {p : Nat × Word} (h : p ∈ rwRegisters) : p.1 ∈ windowOffsets ∧ p.1 ≠ 0x010 := by
  have key : ∀ q ∈ rwRegisters, q.1 ∈ windowOffsets ∧ q.1 ≠ 0x010 := by decide
  exact key p h

theorem writeRegister_phase (v : Word) (s : State) {off : Nat} (h : off ≠ 0x010) : (writeRegister off v s).phase = s.phase :=
  ((writeRegister_touched off v s).engine_kept (fun w e => h (by cases e; rfl))).1

/-- A write that takes effect changes what no other register shows (R19). -/
theorem shows_writeRegister_ne (v : Word) {s : State} {p off : Nat} (h : off ≠ p) (hp : p ≠ 0x010) (hi : s.phase = .idle) :
    (writeRegister p v s).shows off = s.shows off := by
  cases hs : served off 4
  · rw [shows_not_served hs, shows_not_served hs]
  · rw [shows_served hs (.inl hi), shows_served hs (.inl (by rw [writeRegister_phase v s hp, hi])),
      registerAt_writeRegister_ne v s h hp]

theorem hostStep_write_idle {s : State} {off : Nat} (v : Word) (hs : served off 4 = true) (hi : s.phase = .idle) :
    hostStep (.write off 4 v) s = writeRegister off v s := by
  rw [hostStep, hostWrite_served v s hs, busy_eq_false hi]
  rfl

/-- A write to a register of class RO or to a reserved offset is ignored (R19). -/
theorem writeRegister_readOnly (v : Word) (s : State) {off : Nat} (h : off ∉ rwRegisters.map Prod.fst) (h1 : off ≠ 0x00C)
    (h2 : off ≠ 0x010) : writeRegister off v s = s := by
  unfold writeRegister
  split
  case h_19 => rfl
  case h_2 => exact absurd rfl h1
  case h_3 => exact absurd rfl h2
  all_goals exact absurd (by decide) h

/-! ### Reading back (R18, R19) -/

theorem bit0_word (v : Word) : BitVec.ofNat 32 (v.getLsbD 0).toNat = v &&& 0x00000001#32 := by
  rw [BitVec.and_one_eq_setWidth_ofBool_getLsbD]
  cases v.getLsbD 0 <;> rfl

theorem low16_word (v : Word) : (v.extractLsb' 0 16).setWidth 32 = v &&& 0x0000FFFF#32 := by
  apply BitVec.eq_of_getLsbD_eq
  intro i hi
  interval_cases i <;> simp

theorem srCfg_readback (v : Word) :
    0#14 ++ v.extractLsb' 16 2 ++ 0#4 ++ v.extractLsb' 8 4 ++ 0#4 ++ v.extractLsb' 0 4 = v &&& 0x00030F0F#32 := by
  apply BitVec.eq_of_getLsbD_eq
  intro i hi
  simp only [BitVec.getLsbD_append, BitVec.getLsbD_and, BitVec.getLsbD_extractLsb']
  interval_cases i <;> simp

theorem lsCfg_readback (v : Word) : 0#15 ++ (Session.ofWord v).fields = v &&& 0x00017777#32 := by
  have hix : ∀ x : BitVec 3, BitVec.ofNat 3 x.toFin.val = x := by decide
  simp only [Session.fields, Session.ofWord, hix]
  apply BitVec.eq_of_getLsbD_eq
  intro i hi
  simp only [BitVec.getLsbD_append, BitVec.getLsbD_and, BitVec.getLsbD_extractLsb']
  interval_cases i <;> simp

/-- A register of class RW reads back what was written, reserved bits 0 (R19). -/
theorem registerAt_writeRegister (v : Word) (s : State) :
    ∀ p ∈ rwRegisters, registerAt (writeRegister p.1 v s) p.1 = v &&& p.2 := by
  have hfull : v = v &&& 0xFFFFFFFF#32 := (BitVec.and_allOnes (x := v)).symm
  simp only [rwRegisters, List.forall_mem_append, List.forall_mem_cons]
  exact ⟨⟨bit0_word v, hfull, hfull, hfull, hfull, hfull, hfull, hfull, by simp⟩, hfull,
    (srCfg_word _).trans (srCfg_readback v), low16_word v, low16_word v, low16_word v,
    (lsCfg_word _).trans (lsCfg_readback v), hfull, low16_word v, by simp⟩

/-- A write to STATUS clears the W1C bits where a 1 is written (R18, R19). -/
theorem statusWord_clearWritten (s : State) (v : Word) :
    State.statusWord { s with status := s.status.clearWritten v } = s.statusWord &&& ~~~(v &&& 0x0000001E#32) := by
  rw [status_word, status_word]
  simp only [Status.clearWritten]
  apply BitVec.eq_of_getLsbD_eq
  intro i hi
  simp only [BitVec.getLsbD_append, BitVec.getLsbD_and]
  interval_cases i <;> simp

/-- Settles O10: the window's table, and the write to each of its registers. -/
theorem hostAccessBasics : Obligations.HostAccessBasics := by
  refine ⟨fun s => ⟨?_, ?_⟩, fun s off width v h => ?_, fun s p hp hr => ?_, fun s off hlt h4 hoff => ?_,
    fun s off v hi hoff h1 h2 => ?_, fun s p hp v hi => ⟨?_, fun off hne => ?_⟩, fun s v => ⟨?_, fun hi off hne => ?_⟩, ?_⟩
  · exact shows_served rfl (.inr rfl)
  · exact shows_served rfl (.inr rfl)
  · have hs : served off width = false := by
      rw [← Bool.not_eq_true, served_iff]
      omega
    refine ⟨?_, ?_, rfl⟩
    · rw [hostStep, hostWrite, hs]; rfl
    · show readValue s off width = _
      rw [readValue, hs]; rfl
  · have hw : p.1 ∈ windowOffsets := windowWords_offsets s ▸ List.mem_map_of_mem hp
    rw [shows_served (served_window hw) (hr.imp_right not_open_of_readable)]
    exact registerAt_window s p hp
  · rw [windowWords_offsets] at hoff
    rw [shows_served (served_iff.mpr ⟨rfl, h4, hlt⟩) (.inr (not_open_of_reserved h4 hoff)), registerAt_reserved s h4 hoff]
  · cases hs : served off 4
    · rw [hostStep, hostWrite, hs]; rfl
    · rw [hostStep_write_idle v hs hi, writeRegister_readOnly v s hoff h1 h2]
  · obtain ⟨hw, hne⟩ := rw_window hp
    rw [hostStep_write_idle v (served_window hw) hi,
      shows_served (served_window hw) (.inl (by rw [writeRegister_phase v s hne, hi]))]
    exact registerAt_writeRegister v s p hp
  · obtain ⟨hw, hcmd⟩ := rw_window hp
    rw [hostStep_write_idle v (served_window hw) hi, shows_writeRegister_ne v hne hcmd hi]
  · rw [hostStep_write_open v rfl rfl, shows_served rfl (.inr rfl), shows_served rfl (.inr rfl)]
    exact statusWord_clearWritten s v
  · rw [hostStep_write_open v rfl rfl, shows_writeRegister_ne v hne (by decide) hi]
  · decide

end Sys2Proof.Machine

namespace Sys2Proof.Machine

/-! ## What stuffing and BUILD leave in the ring (R101, R102, R116) -/

theorem content_cons {s : State} {i : RingIx} {b : Byte} {rest : List Byte} (h : s.content i = b :: rest) :
    s.rd i 0 = b ∧ (s.dropHead i 1).content i = rest ∧ (s.rb i).count = rest.length + 1 := by
  have hlen : (s.content i).length = rest.length + 1 := by rw [h]; rfl
  have h0 := s.content_getElem i 0 (by omega)
  simp only [h, List.getElem_cons_zero] at h0
  exact ⟨h0.symm, by rw [State.content_dropHead, h]; rfl, by rw [← s.content_length i, hlen]⟩

/-- A push at the tail of a ring with room, as its content shows it. -/
theorem pushTail_content {s : State} {i : RingIx} {xs : List Byte} (h : Good s) (hz : s.hazard = false)
    (hx : s.content i = xs) (hf : xs.length < (s.rb i).cap) (b : Byte) :
    Kept [i] s (s.pushTail i b) ∧ (s.pushTail i b).content i = xs ++ [b] := by
  have hlt : (s.rb i).count < (s.rb i).cap := by rwa [← s.content_length i, hx]
  exact ⟨Kept.pushTail h (List.mem_singleton.mpr rfl) b hlt,
    by rw [State.content_pushTail s i b hlt ⟨hz, h.2.1.1, h.1 i⟩, hx]⟩

/-- The stuffing loop, with `xs` still to read and `ys` written behind it: if the result fits, it stands there (R102). -/
theorem stuffLoop_content (i : RingIx) (k : Nat) {s : State} (h : Good s) (hz : s.hazard = false) {xs ys : List Byte}
    (hx : s.content i = xs ++ ys) (hf : ys.length + (stuff xs).length ≤ (s.rb i).cap) :
    (stuffLoop i xs.length k s).ok = true ∧ (stuffLoop i xs.length k s).st.content i = ys ++ stuff xs ∧
      (stuffLoop i xs.length k s).used = k + xs.length := by
  induction xs generalizing k s ys with
  | nil => exact ⟨rfl, by simpa [stuffLoop] using hx, rfl⟩
  | cons b xs ih =>
    have hfit := length_le_length_stuff xs
    obtain ⟨hrd, hdrop, _⟩ := content_cons (b := b) (rest := xs ++ ys) hx
    have k0 := Kept.dropHead (l := [i]) h (List.mem_singleton.mpr rfl) 1
    have hcap0 := k0.cap i
    have hz0 : (s.dropHead i 1).hazard = false := hz
    simp only [List.length_cons, stuffLoop, hrd]
    split
    · rename_i hesc
      have hstuff : stuff (b :: xs) = [Config.esc, b ^^^ Config.escXor] ++ stuff xs := by rw [stuff_cons, stuff1, if_pos hesc]
      rw [hstuff] at hf ⊢
      simp only [List.length_append, List.length_cons, List.length_nil] at hf
      obtain ⟨k1, hc1⟩ := pushTail_content k0.good hz0 hdrop (by rw [hcap0]; simp only [List.length_append]; omega) Config.esc
      have hcap1 := k1.cap i
      have hcnt1 : (((s.dropHead i 1).pushTail i Config.esc).rb i).count = xs.length + ys.length + 1 := by
        rw [← State.content_length, hc1]
        simp only [List.length_append, List.length_cons, List.length_nil]
      rw [if_neg (by omega)]
      obtain ⟨k2, hc2⟩ := pushTail_content k1.good hz0 hc1
        (by rw [hcap1, hcap0]; simp only [List.length_append, List.length_cons, List.length_nil]; omega) (b ^^^ Config.escXor)
      have hcap2 := k2.cap i
      obtain ⟨hok, hcont, hused⟩ := ih (k + 1) k2.good hz0 (ys := ys ++ [Config.esc, b ^^^ Config.escXor])
        (by rw [hc2]; simp only [List.append_assoc, List.cons_append, List.nil_append])
        (by rw [hcap2, hcap1, hcap0]; simp only [List.length_append, List.length_cons, List.length_nil]; omega)
      exact ⟨hok, by rw [hcont, List.append_assoc], by rw [hused]; omega⟩
    · rename_i hesc
      have hstuff : stuff (b :: xs) = [b] ++ stuff xs := by rw [stuff_cons, stuff1, if_neg hesc]
      rw [hstuff] at hf ⊢
      simp only [List.length_append, List.length_cons, List.length_nil] at hf
      obtain ⟨k1, hc1⟩ := pushTail_content k0.good hz0 hdrop (by rw [hcap0]; simp only [List.length_append]; omega) b
      have hcap1 := k1.cap i
      obtain ⟨hok, hcont, hused⟩ := ih (k + 1) k1.good hz0 (ys := ys ++ [b])
        (by rw [hc1, List.append_assoc])
        (by rw [hcap1, hcap0]; simp only [List.length_append, List.length_cons, List.length_nil]; omega)
      exact ⟨hok, by rw [hcont, List.append_assoc], by rw [hused]; omega⟩

/-- A ring whose stuffed content fits it is stuffed in place (R102). -/
theorem stuffRing_content (i : RingIx) {s : State} (h : Good s) (hz : s.hazard = false)
    (hf : (stuff (s.content i)).length ≤ (s.rb i).cap) :
    (stuffRing i s).ok = true ∧ (stuffRing i s).st.content i = stuff (s.content i) := by
  have hs := stuffLoop_content i 0 h hz (xs := s.content i) (ys := []) (by simp) (by simpa using hf)
  rw [State.content_length] at hs
  exact ⟨hs.1, hs.2.1⟩

/-- Two FLAGs with room for them stand around the content (R116). -/
theorem flagWrap_content (i : RingIx) {s : State} (h : Good s) (hz : s.hazard = false)
    (hf : (s.content i).length + 2 ≤ (s.rb i).cap) :
    (flagWrap i s).2 = true ∧ (flagWrap i s).1.content i = Config.flag :: (s.content i ++ [Config.flag]) := by
  rw [State.content_length] at hf
  have k1 := Kept.pushHead (l := [i]) h (List.mem_singleton.mpr rfl) Config.flag (by omega)
  have hc1 := State.content_pushHead s i Config.flag (by omega) ⟨hz, h.2.1.1, h.1 i⟩
  have hcap := k1.cap i
  have hcnt : ((s.pushHead i Config.flag).rb i).count = (s.rb i).count + 1 := by
    rw [← State.content_length, hc1, List.length_cons, State.content_length]
  have hroom : ¬ (s.rb i).free = 0 := by simp only [Desc.free]; omega
  have hroom1 : ¬ ((s.pushHead i Config.flag).rb i).free = 0 := by simp only [Desc.free]; omega
  obtain ⟨_, hc2⟩ := pushTail_content k1.good hz hc1
    (by rw [List.length_cons, State.content_length]; omega) Config.flag
  simp only [flagWrap, if_neg hroom, if_neg hroom1, hc2, List.cons_append, and_self]

/-- A BUILD whose frame fits the scratch ring leaves the frame in it (R113, R116). -/
theorem build_content (code : BitVec 7) (a : Bool) (hash : Half) (l : List Byte) {s : State} (h : Good s)
    (hz : s.hazard = false) (hf : (wireFrame code a hash l).length ≤ (s.rb s.scrIx).cap) :
    (build code a hash l s).2 = true ∧ (build code a hash l s).1.content s.scrIx = wireFrame code a hash l := by
  have hi : s.scrIx ∈ [s.scrIx] := List.mem_singleton.mpr rfl
  have hlen : (wireFrame code a hash l).length = (stuff (frameContent code a hash l)).length + 2 := by simp [wireFrame]
  have hle := length_le_length_stuff (frameContent code a hash l)
  have k0 := Kept.flushRb (l := [s.scrIx]) h hi
  have hc0 : (s.flushRb s.scrIx).content s.scrIx = [] := List.eq_nil_of_length_eq_zero (by simp)
  -- the content of the frame is pushed
  obtain ⟨hp, hpc⟩ := pushAll_content s.scrIx (frameContent code a hash l) k0.good hz
  have k1 := k0.trans (Kept.pushAll hi (frameContent code a hash l) k0.good)
  have hp1 := hp.mpr (by simp; omega)
  have hc1 := (hpc hp1).1
  rw [hc0, List.nil_append] at hc1
  -- it is stuffed
  have hz1 : (pushAll s.scrIx (frameContent code a hash l) (s.flushRb s.scrIx)).1.hazard = false := k1.hazard.trans hz
  obtain ⟨hok, hc2⟩ := stuffRing_content s.scrIx k1.good hz1 (by rw [hc1, k1.cap]; omega)
  have k2 := k1.trans (Kept.stuffRing hi k1.good)
  -- and wrapped
  obtain ⟨hw, hc3⟩ := flagWrap_content s.scrIx k2.good (k2.hazard.trans hz) (by rw [hc2, hc1, k2.cap]; omega)
  simp only [build, hp1, hok, if_true]
  exact ⟨hw, by rw [hc3, hc2, hc1, wireFrame]⟩

/-! ### STATUS -/

theorem pushAll_status (i : RingIx) (l : List Byte) (s : State) : (pushAll i l s).1.status = s.status := by
  induction l generalizing s with
  | nil => rfl
  | cons b bs ih =>
    simp only [pushAll]
    split
    · rfl
    · rw [ih, State.pushTail_status]

theorem stuffLoop_status (i : RingIx) (left k : Nat) (s : State) : (stuffLoop i left k s).st.status = s.status := by
  induction left generalizing k s with
  | zero => rfl
  | succ n ih =>
    simp only [stuffLoop]
    split
    · split
      · simp
      · simp [ih]
    · simp [ih]

theorem flagWrap_status (i : RingIx) (s : State) : (flagWrap i s).1.status = s.status := by
  simp only [flagWrap]
  split
  · rfl
  · split <;> simp

/-- BUILD does not write STATUS (R116). -/
theorem build_status (code : BitVec 7) (a : Bool) (hash : Half) (l : List Byte) (s : State) :
    (build code a hash l s).1.status = s.status := by
  have hp := pushAll_status s.scrIx (frameContent code a hash l) (s.flushRb s.scrIx)
  simp only [build]
  split
  · split
    · rw [flagWrap_status, stuffRing, stuffLoop_status, hp, State.flushRb_status]
    · rw [stuffRing, stuffLoop_status, hp, State.flushRb_status]
  · rw [hp, State.flushRb_status]

/-! ## The transmission of a frame (R117, R126) -/

/-- The state after the transmit port has accepted more bytes (R137). -/
def State.sentOn (s : State) (l : List Byte) : State := { s with env := { s.env with sent := s.env.sent ++ l } }

theorem coreRun_succ (M : Host.Core) (k : Nat) {s t : M.State} (h : M.step s = .next t) : M.run (k + 1) s = M.run k t := by
  rw [Host.Core.run, h]

theorem run_succ {s t : State} (k : Nat) (h : step s = .next t) :
    Host.Core.run Sys2Proof.core (k + 1) s = Host.Core.run Sys2Proof.core k t := coreRun_succ Sys2Proof.core k h

/-- One TX call of an unacknowledged send on a port that accepts. -/
theorem sendTxStep_accepted {c : SendCtx} {v : Nat} {s : State} {w : List Byte} (ha : c.ackW = false)
    (hw : s.content s.scrIx = w) (ho : s.env.txOk = true) (hv : v < w.length) :
    sendTxStep c v s = if v + 1 < w.length then (s.sentOn [w[v]]).await (.sendTx c (v + 1))
      else (s.sentOn [w[v]]).complete .ok (c.results 1) := by
  subst hw
  have hrd : s.rd s.scrIx v = (s.content s.scrIx)[v] := (s.content_getElem _ v hv).symm
  have htx : s.tx (s.rd s.scrIx v) = (s.sentOn [(s.content s.scrIx)[v]], true) := by
    rw [State.tx, if_pos ho, hrd]
    rfl
  have hcount : ((s.sentOn [(s.content s.scrIx)[v]]).rb (s.sentOn [(s.content s.scrIx)[v]]).scrIx).count =
      (s.content s.scrIx).length := (s.content_length s.scrIx).symm
  simp only [sendTxStep, htx, hcount, ha, Bool.false_eq_true, if_false]

/-- From TX call `v` on, the rest of the frame goes out, byte by byte, and the command completes (R117, R126). -/
theorem sendTx_run {c : SendCtx} {w : List Byte} (ha : c.ackW = false) (n : Nat) {v : Nat} {s : State}
    (hp : s.phase = .sendTx c v) (hw : s.content s.scrIx = w) (ho : s.env.txOk = true) (hq : s.env.agenda = [])
    (hn : v + n + 1 = w.length) :
    Host.Core.run Sys2Proof.core (n + 1) s = .next ((s.sentOn (w.drop v)).complete .ok (c.results 1)) := by
  induction n generalizing v s with
  | zero =>
    have hv : v < w.length := by omega
    have hstep : step s = .next (sendTxStep c v s) := by rw [step_engine hq, engineStep, hp]; rfl
    rw [run_succ 0 hstep, sendTxStep_accepted ha hw ho hv, if_neg (by omega), List.drop_eq_getElem_cons hv,
      List.drop_eq_nil_of_le (by omega)]
    rfl
  | succ n ih =>
    have hv : v < w.length := by omega
    have hstep : step s = .next (sendTxStep c v s) := by rw [step_engine hq, engineStep, hp]; rfl
    rw [run_succ (n + 1) hstep, sendTxStep_accepted ha hw ho hv, if_pos (by omega),
      ih (s := (s.sentOn [w[v]]).await (.sendTx c (v + 1))) rfl hw ho hq (by omega), List.drop_eq_getElem_cons hv]
    simp [State.sentOn, State.await, State.complete, State.racedResults]

/-! ### LP_SEND without acknowledgement -/

theorem decode_encode_lpSend (ra : RingIx) (ack : Bool) : decode (encode (.lpSend ra ack)) = .ok (.lpSend ra ack) := by
  revert ra ack
  decide

/-- The state in which LP_SEND has passed its checks: the fresh hash is in LS_TXHASH, LS_STATE is cleared (R126). -/
def sendReady (s : State) : State :=
  ({ s with ls := { s.ls with txHash := s.ls.txHash + 1#16 } } : State).setSendBoth .idle 0

/-- The execution of LP_SEND whose checks pass is its first attempt (R126). -/
theorem exec_lpSend {s : State} {ra : RingIx} (ack : Bool) (hv : s.ls.sessValid = true) (hr : ra ∉ s.ls.sess.rings)
    (hc : 0 < (s.rb ra).cap) (hn : (s.rb ra).count ≤ 128) :
    exec (.lpSend ra ack) s = .next (sendAttempt (sendStart s ra ack) (sendReady s)) := by
  have hb : ¬ badLink s ra = true := by
    rw [badLink_iff]
    rintro (h | h | h)
    · rw [hv] at h; cases h
    · exact hr h
    · omega
  have hp : ¬ (s.rb ra).count > Config.payloadMax := by rw [Config.payloadMax]; omega
  simp only [exec, execLpSend, if_neg hb, if_neg hp]
  rfl

/-- The state before the first TX call of an attempt whose frame `BUILD` has left in `u` (R126). -/
def attemptStarted (c : SendCtx) (n : Nat) (u : State) : State :=
  (u.setSendBoth .sent (c.tries + 1)).await (.sendTx { c with tries := c.tries + 1, frameLen := n } 0)

/-- An attempt whose frame fits the scratch ring ends before its first TX call, the frame in the ring (R116, R126). -/
theorem sendAttempt_fits {c : SendCtx} {s : State} {w : List Byte} (h : Good s) (hz : s.hazard = false)
    (hw : w = wireFrame Config.codeData c.ackW c.hash c.payload) (hf : w.length ≤ (s.rb s.scrIx).cap) :
    ∃ u, u.frozen = s.frozen ∧ u.status = s.status ∧ u.content u.scrIx = w ∧
      sendAttempt c s = attemptStarted c w.length u := by
  subst hw
  obtain ⟨hok, hcont⟩ := build_content Config.codeData c.ackW c.hash c.payload h hz hf
  have hfr := build_frozen Config.codeData c.ackW c.hash c.payload s
  have hst := build_status Config.codeData c.ackW c.hash c.payload s
  unfold sendAttempt
  generalize build Config.codeData c.ackW c.hash c.payload s = b at hok hcont hfr hst
  have hix : b.1.scrIx = s.scrIx := by rw [State.scrIx, sess_of_frozen hfr]; rfl
  refine ⟨b.1, hfr, hst, by rw [hix, hcont], ?_⟩
  have hlen : (b.1.rb b.1.scrIx).count = (wireFrame Config.codeData c.ackW c.hash c.payload).length := by
    rw [← State.content_length, hix, hcont]
  simp only [hok, if_true, hlen]
  rfl

/-- The step that executes an accepted LP_SEND whose frame fits the scratch ring (R35, R126). -/
theorem step_lpSend {a : State} {ra : RingIx} {ack : Bool} {w : List Byte} (h : Good a) (hz : a.hazard = false)
    (hp : a.phase = .fetch) (hcmd : a.cmd = encode (.lpSend ra ack)) (hq : a.env.agenda = []) (hv : a.ls.sessValid = true)
    (hr : ra ∉ a.ls.sess.rings) (hc : 0 < (a.rb ra).cap) (hn : (a.rb ra).count ≤ 128)
    (hw : w = wireFrame 0#7 ack (a.ls.txHash + 1#16) (a.content ra)) (hf : w.length ≤ (a.rb a.scrIx).cap) :
    ∃ u, u.frozen = (sendReady a).frozen ∧ u.status = a.status ∧ u.content u.scrIx = w ∧
      step a = .next (attemptStarted (sendStart a ra ack) w.length u) := by
  obtain ⟨u, hfr, hst, hcont, hatt⟩ := sendAttempt_fits (c := sendStart a ra ack) (s := sendReady a) h hz hw hf
  refine ⟨u, hfr, hst, hcont, ?_⟩
  rw [step_engine hq, engineStep_fetch hp (by rw [hcmd, decode_encode_lpSend]), exec_lpSend ack hv hr hc hn, hatt]

/-- Settles O53: acceptance, the checks and BUILD in one step each, then one TX call a step. -/
theorem unackedSendTransmitsFrame : Obligations.UnackedSendTransmitsFrame := by
  intro s ra w cmd hrings hmem hidle hcmd hagenda htx hvalid hra hcap hcount hw hfit
  have hstep0 : step s = .next (s.nextMove.accept cmd) := by
    rw [step_host hagenda, hostStep_write_cmd (s := s.nextMove) hidle]
  have hqueue : (s.nextMove.accept cmd).env.agenda = [] := by
    rw [State.accept_env, State.nextMove_env, hagenda]
    rfl
  obtain ⟨u, hfr, hst, hcont, hstep1⟩ := step_lpSend (a := s.nextMove.accept cmd) (ra := ra) (ack := false) (w := w)
    ⟨hrings, hmem, fun _ h => absurd h List.not_mem_nil⟩ rfl rfl hcmd hqueue hvalid hra hcap hcount hw hfit
  have henv : u.env = { s.env with agenda := [] } := by
    rw [show u.env = (s.nextMove.accept cmd).env from congrArg (fun x => x.env) hfr, State.accept_env, State.nextMove_env,
      hagenda]
    rfl
  have hhash : u.ls.txHash = s.ls.txHash + 1#16 := congrArg (fun x => x.ls.txHash) hfr
  have hhazard : u.hazard = false := congrArg (fun x => x.hazard) hfr
  obtain ⟨n, hn⟩ : ∃ n, w.length = n + 1 := ⟨w.length - 1, by rw [hw]; simp [wireFrame]⟩
  have hsend := sendTx_run (s := attemptStarted (sendStart (s.nextMove.accept cmd) ra false) w.length u) (w := w) rfl n (v := 0)
    rfl hcont (by rw [attemptStarted, State.await_env, State.setSendBoth_env, henv]; exact htx)
    (by rw [attemptStarted, State.await_env, State.setSendBoth_env, henv]) (by omega)
  have hrun := (run_succ _ hstep0).trans ((run_succ _ hstep1).trans hsend)
  rw [show n + 1 + 1 + 1 = 2 + w.length by omega] at hrun
  refine ⟨_, hrun, ⟨rfl, State.complete_res _ _ _ hhazard, rfl, rfl, ?_, ?_, ?_⟩, ?_, rfl, rfl, hhash⟩
  · exact congrArg (fun st : Status => st.err || decide (Ecode.ok ≠ .ok)) hst
  · exact (congrArg (fun st : Status => st.ovr) hst :)
  · exact (congrArg (fun st : Status => st.ackFail) hst :)
  · exact congrArg (fun e : Env => { e with sent := e.sent ++ w }) henv

end Sys2Proof.Machine

namespace Sys2Proof.Machine

/-! ## Copying to the data block (R44, R79, R80, R82) -/

/-- The state with another MEM and another write log. -/
def State.withMem (s : State) (m : Memory) (w : List WriteRec) : State := { s with mem := m, wlog := w }

/-- Copying to MEM writes MEM and the write log alone. -/
theorem copyOut_eq_withMem (i : RingIx) (a f k : Nat) (s : State) : ∃ m w, copyOut i a f k s = s.withMem m w :=
  forUp_keeps (fun t => ∃ m w, t = s.withMem m w) _ k 0 s
    (fun _ _ _ _ ht => by obtain ⟨m, w, rfl⟩ := ht; exact ⟨_, _, rfl⟩) ⟨s.mem, s.wlog, rfl⟩

/-- The last pass of a rising loop. -/
theorem forUp_succ_last {σ : Type} (body : Nat → σ → σ) (k lo : Nat) (s : σ) :
    forUp body (k + 1) lo s = body (lo + k) (forUp body k lo s) := by
  induction k generalizing lo s with
  | zero => rfl
  | succ k ih =>
    rw [forUp, ih, show lo + 1 + k = lo + (k + 1) by omega]
    rfl

theorem copyOut_succ (i : RingIx) (a f k : Nat) (s : State) :
    copyOut i a f (k + 1) s = (copyOut i a f k s).store (a + k) ((copyOut i a f k s).rd i (f + k)) := by
  rw [copyOut, forUp_succ_last, Nat.zero_add]
  rfl

@[simp] theorem copyOut_wrap (i : RingIx) (a f k x : Nat) (s : State) : (copyOut i a f k s).wrap x = s.wrap x := by
  obtain ⟨m, w, h⟩ := copyOut_eq_withMem i a f k s
  rw [h]; rfl

theorem copyOut_wf (i : RingIx) (a f k : Nat) {s : State} (hm : s.mem.wf = true) : (copyOut i a f k s).mem.wf = true :=
  forUp_keeps (fun t : State => t.mem.wf = true) _ k 0 s (fun _ t _ _ ht => t.store_wf _ _ ht) hm

/-- Copying `k` bytes to MEM changes bytes of the block alone. -/
theorem copyOut_outside (i : RingIx) (a f k : Nat) {s : State} (hm : s.mem.wf = true) :
    MemKeptBut (fun j => s.wrap (a + j)) k s (copyOut i a f k s) := by
  induction k with
  | zero => exact fun _ _ => rfl
  | succ k ih =>
    intro x hx
    rw [copyOut_succ, State.read_store _ _ _ _ (copyOut_wf i a f k hm), copyOut_wrap, if_neg (hx k (Nat.lt_succ_self k))]
    exact ih x (fun j hj => hx j (by omega))

theorem BlockApart.mono {s : State} {a k n : Nat} {i : RingIx} (h : BlockApart s a n i) (hk : k ≤ n) : BlockApart s a k i :=
  ⟨hk.trans h.1, fun j hj => h.2 j (by omega)⟩

/-- The block does not overlap itself: its addresses differ (R44). -/
theorem BlockApart.wrap_ne {s : State} {a n : Nat} {i : RingIx} (h : BlockApart s a n i) {j k : Nat} (hj : j < k) (hk : k < n) :
    s.wrap (a + j) ≠ s.wrap (a + k) := by
  intro he
  have hd : (k - j) % 2 ^ s.addrW = 0 := by
    have := Nat.sub_mod_eq_zero_of_mod_eq (m := a + k) (n := a + j) (k := 2 ^ s.addrW) he.symm
    rwa [show a + k - (a + j) = k - j by omega] at this
  rw [Nat.mod_eq_of_lt (by have := h.1; omega)] at hd
  omega

/-- The ring read while its elements are copied to a block apart from it is the ring as it was. -/
theorem copyOut_rd {i : RingIx} {a k : Nat} (f : Nat) {s : State} (hp : Plain s i) (hc : 0 < (s.rb i).cap)
    (ha : BlockApart s a k i) (v : Nat) : (copyOut i a f k s).rd i v = s.rd i v := by
  obtain ⟨hz, hm, hok⟩ := hp
  have hread := copyOut_outside i a f k hm ((s.rb i).addr v) (fun j hj he => by
    have hslot := ha.2 j hj
    rw [← show (s.rb i).addr v = s.wrap (a + j) from he, Desc.addr_holds _ v hc] at hslot
    cases hslot)
  have hwf := copyOut_wf i a f k hm
  obtain ⟨m, w, h⟩ := copyOut_eq_withMem i a f k s
  rw [h] at hread hwf ⊢
  rw [s.rd_plain i v hc ⟨hz, hm, hok⟩, State.rd_plain (s.withMem m w) i v hc ⟨hz, hwf, hok⟩]
  exact hread

/-- The block holds the copied elements in virtual order (R72). -/
theorem copyOut_inside {i : RingIx} {a k : Nat} (f : Nat) {s : State} (hp : Plain s i) (hc : 0 < (s.rb i).cap)
    (ha : BlockApart s a k i) {j : Nat} (hj : j < k) : (copyOut i a f k s).mem.read (s.wrap (a + j)) = s.rd i (f + j) := by
  have hz : ∀ k, (copyOut i a f k s).hazard = false := fun k => (congrArg State.hazard (copyOut_frozen i a f k s) :).trans hp.1
  induction k with
  | zero => omega
  | succ k ih =>
    have ha' := BlockApart.mono ha (Nat.le_succ k)
    rw [copyOut_succ, State.read_store _ _ _ _ (copyOut_wf i a f k hp.2.1), copyOut_wrap]
    by_cases hjk : j = k
    · rw [hjk, if_pos rfl, State.storedByte_plain _ _ _ (hz k), copyOut_rd f hp hc ha']
    · rw [if_neg (BlockApart.wrap_ne ha (show j < k by omega) (Nat.lt_succ_self k))]
      exact ih ha' (by omega)

theorem copyOut_content {i : RingIx} {a k : Nat} (f : Nat) {s : State} (hp : Plain s i) (hc : 0 < (s.rb i).cap)
    (ha : BlockApart s a k i) : (copyOut i a f k s).content i = s.content i := by
  have hcount : ((copyOut i a f k s).rb i).count = (s.rb i).count := by
    obtain ⟨m, w, h⟩ := copyOut_eq_withMem i a f k s
    rw [h]; rfl
  rw [State.content, State.content, hcount]
  exact List.map_congr_left (fun v _ => copyOut_rd f hp hc ha v)

theorem copyOut_block {i : RingIx} {a k : Nat} (f : Nat) {s : State} (hp : Plain s i) (hc : 0 < (s.rb i).cap)
    (ha : BlockApart s a k i) : (copyOut i a f k s).block a k = s.slice i f k := by
  apply List.ext_getElem
  · simp [State.block]
  · intro j hj _
    have hjk : j < k := by simpa [State.block] using hj
    simp [State.block, State.slice_getElem, copyOut_inside f hp hc ha hjk]

/-! ## RB_PULL (R79) -/

/-- Removing at the head is a drop there. -/
theorem setRb_pull_head (s : State) (i : RingIx) {k : Nat} (hk : k ≤ (s.rb i).count) :
    s.setRb i ((s.rb i).pull .head k) = s.dropHead i k := by
  rw [State.dropHead, Desc.dropHead, Nat.min_eq_left hk]
  rfl

/-- The content after `k` elements are removed at an end. -/
theorem content_setRb_pull (s : State) (i : RingIx) (e : End) {k : Nat} (hk : k ≤ (s.rb i).count) :
    (s.setRb i ((s.rb i).pull e k)).content i =
      match e with
      | .head => (s.content i).drop k
      | .tail => (s.content i).take ((s.rb i).count - k) := by
  cases e with
  | head => rw [setRb_pull_head s i hk, State.content_dropHead]
  | tail =>
    have hrd : (s.setRb i ((s.rb i).pull .tail k)).rd i = s.rd i := by
      funext v
      rw [State.rd, State.rb_setRb_same, State.setRb_load]
      rfl
    apply List.ext_getElem
    · simp [Desc.pull]
    · intro j _ _
      rw [State.content_getElem, List.getElem_take, State.content_getElem, hrd]

/-- The `k` elements that RB_PULL takes from an end, as a part of the content (R72, R73). -/
theorem slice_rangeFirst (s : State) (i : RingIx) (e : End) {k : Nat} (hk : k ≤ (s.rb i).count) :
    s.slice i (rangeFirst e (s.rb i).count 0 k) k =
      match e with
      | .head => (s.content i).take k
      | .tail => (s.content i).drop ((s.rb i).count - k) := by
  cases e with
  | head => rw [s.slice_eq_content i _ k (by simpa [rangeFirst] using hk)]; rfl
  | tail =>
    rw [s.slice_eq_content i _ k (by simp only [rangeFirst]; omega)]
    exact List.take_of_length_le (by simp [rangeFirst]; omega)

/-- Settles O26: the copy fills the block, and the pull moves the descriptor. -/
theorem rbPullRemovesEnd : Obligations.RbPullRemovesEnd := by
  intro s ra ea discard ⟨hrings, hmem, hz⟩ hc hn k hk
  have hle : k ≤ (s.rb ra).count := by omega
  have hp : Plain s ra := ⟨hz, hmem.1, hrings ra⟩
  -- with DISCARD nothing is copied out
  obtain ⟨n, hcopied⟩ : ∃ n, n = if discard then 0 else k := ⟨_, rfl⟩
  have hexec : exec (.rbPull ra ea discard) s =
      .next (((copyOut ra s.argAddr (rangeFirst ea (s.rb ra).count 0 k) n s).setRb ra ((s.rb ra).pull ea k)).finish k 0 0 0) := by
    have hb : ¬ badLen (s.rb ra) s.arg1 = true := by rw [badLen_iff]; omega
    rw [hcopied, hk]
    cases discard
    · exact if_neg hb
    · exact if_neg hb
  have hapart : discard = true ∨ BlockApart s s.argAddr k ra → BlockApart s s.argAddr n ra := by
    rw [hcopied]
    cases discard
    · exact fun h => h.resolve_left Bool.false_ne_true
    · exact fun _ => ⟨Nat.zero_le _, fun j hj => absurd hj (Nat.not_lt_zero j)⟩
  have hout := copyOut_outside ra s.argAddr (rangeFirst ea (s.rb ra).count 0 k) n hmem.1
  have hcont := fun h => copyOut_content (rangeFirst ea (s.rb ra).count 0 k) hp hc (hapart h)
  have hblock := fun h => copyOut_block (rangeFirst ea (s.rb ra).count 0 k) hp hc (hapart h)
  obtain ⟨m, w, hu⟩ := copyOut_eq_withMem ra s.argAddr (rangeFirst ea (s.rb ra).count 0 k) n s
  rw [hu] at hexec hout hcont hblock
  refine ⟨_, hexec, ⟨rfl, State.finish_res _ _ _ _ _ hz, rfl, rfl, rfl, rfl, rfl⟩,
    ⟨hostKept_of_hostPart rfl, ⟨rfl, rfl, rfl⟩, rfl, fun j hj => ?_⟩, ?_, hcopied ▸ hout, fun h => ?_, fun hd h => ?_⟩
  · exact State.rb_setRb_ne _ _ _ _ (by simpa using hj)
  · rw [State.finish_rb, State.rb_setRb_same]
    cases ea <;> rfl
  · rw [State.finish_content, ← hcont h]
    exact content_setRb_pull (s.withMem m w) ra ea hle
  · obtain rfl : n = k := by rw [hcopied, hd]; rfl
    exact (hblock (.inr h)).trans (slice_rangeFirst s ra ea hle)

end Sys2Proof.Machine

namespace Sys2Proof.Machine

/-! ## What a running command touches, and where its writes go (R44, R56, R150) -/

theorem inFootprint_eq_false {i : Instr} {s : State} {a : Nat} : inFootprint i s a = false ↔
    (∀ r ∈ ringsUsed i s, (s.rb r).holds a = false) ∧ s.inBlock s.argAddr (dataLen i s) a = false := by
  simp [inFootprint]

theorem inUse_idle {s : State} (h : s.phase = .idle) (a : Nat) : s.inUse a = false := by
  rw [State.inUse, busy_eq_false h, Bool.false_and]

theorem inUse_running {s : State} {i : Instr} (h : s.phase ≠ .idle) (hd : decode s.cmd = .ok i) (a : Nat) :
    s.inUse a = inFootprint i s a := by
  rw [State.inUse, busy_eq_true h, hd, Bool.true_and]

/-- Settles O12: the host's write notes a hazard where the byte is in use. -/
theorem hostWriteToUsedByte : Obligations.HostWriteToUsedByte := by
  refine fun s a b => ⟨fun hi => ?_, fun i hp hd => ?_⟩
  · rw [hostStep, hostMemWrite, inUse_idle hi, Bool.or_false]
    rfl
  · rw [hostStep, hostMemWrite, inUse_running hp hd]
    exact Bool.or_eq_true_iff

/-- MEM of `t` reads as that of `s` but for slots of the rings of `l` and for the first `n` bytes of the data block (R44, R56). -/
def MemStays (l : List RingIx) (n : Nat) (s t : State) : Prop :=
  ∀ a, (∀ r ∈ l, (s.rb r).holds a = false) → s.inBlock s.argAddr n a = false → t.mem.read a = s.mem.read a

theorem MemStays.of_mem_eq {l : List RingIx} {n : Nat} {s t : State} (h : t.mem = s.mem) : MemStays l n s t :=
  fun _ _ _ => by rw [h]

/-- Work on the rings of `l` changes their slots alone. -/
theorem Kept.memStays {l : List RingIx} {s t : State} (h : Kept l s t) (n : Nat) : MemStays l n s t :=
  fun a ha _ => h.outside a ha

/-- Work on the rings of `l` after writes to the data block that leave the descriptors. -/
theorem MemStays.trans_kept {l : List RingIx} {n : Nat} {s u t : State} (h : MemStays l n s u) (hr : ∀ r, u.rb r = s.rb r)
    (hk : Kept l u t) : MemStays l n s t :=
  fun a ha hb => (hk.outside a (fun r hrl => by rw [hr]; exact ha r hrl)).trans (h a ha hb)

theorem inBlock_wrap (s : State) (start : Nat) {n j : Nat} (hj : j < n) : s.inBlock start n (s.wrap (start + j)) = true := by
  have hM : 0 < 2 ^ s.addrW := Nat.two_pow_pos _
  have hlt := Nat.mod_lt start hM
  have key : ((start + j) % 2 ^ s.addrW + 2 ^ s.addrW - start % 2 ^ s.addrW) % 2 ^ s.addrW = j % 2 ^ s.addrW := by
    generalize 2 ^ s.addrW = M at *
    rw [Nat.add_sub_assoc hlt.le, Nat.mod_add_mod]
    have := Nat.div_add_mod start M
    rw [show start + j + (M - start % M) = j + M + M * (start / M) by omega, Nat.add_mul_mod_self_left, Nat.add_mod_right]
  have := Nat.mod_le j (2 ^ s.addrW)
  simp only [State.inBlock, State.wrap, key, decide_eq_true_eq]
  omega

theorem inBlock_zero (s : State) (start a : Nat) : s.inBlock start 0 a = false := by simp [State.inBlock]

/-- A copy of at most `n` bytes to ARG0 changes bytes of the data block alone. -/
theorem copyOut_memStays (l : List RingIx) (i : RingIx) (f : Nat) {k n : Nat} (hk : k ≤ n) {s : State} (hm : s.mem.wf = true) :
    MemStays l n s (copyOut i s.argAddr f k s) := by
  refine fun a _ hb => copyOut_outside i s.argAddr f k hm a (fun j hj he => ?_)
  rw [he, inBlock_wrap s s.argAddr (show j < n by omega)] at hb
  cases hb

/-- What RB_PULL and RB_CUT copy out, unless they discard it (R79, R82). -/
theorem copied_memStays (l : List RingIx) (discard : Bool) (i : RingIx) (f : Nat) {k n : Nat} (hk : k ≤ n) {s : State}
    (hm : s.mem.wf = true) : MemStays l n s (if discard then s else copyOut i s.argAddr f k s) := by
  cases discard
  · exact copyOut_memStays l i f hk hm
  · exact .of_mem_eq rfl

/-! ### The ring commands -/

/-- Writes inside a ring work on it alone (R81). -/
theorem Kept.copyIn {l : List RingIx} {i : RingIx} (hi : i ∈ l) (a f k : Nat) {s : State} (h : Good s) (hc : 0 < (s.rb i).cap) :
    Kept l s (copyIn i a f k s) :=
  Kept.forUp (fun _ _ ht hct => Kept.wr ht hi hct _ _) k 0 h hc

theorem Desc.holds_slot (d : Desc) (x : Nat) (h : 0 < d.cap) : d.holds (d.base + x % d.cap) = true := by
  have := Nat.mod_lt x h
  simp [Desc.holds, this]

/-- Stores to slots of a storage change no byte outside it (R85). -/
theorem storeSlots_outside {d : Desc} (hc : 0 < d.cap) (sh i : Nat) (l : List Byte) {s : State} (hm : s.mem.wf = true)
    (hd : d.base + d.cap ≤ 2 ^ s.addrW) {a : Nat} (ha : d.holds a = false) :
    (storeSlots d sh i l s).mem.read a = s.mem.read a := by
  induction l generalizing i s with
  | nil => rfl
  | cons b bs ih =>
    have hlt := Nat.mod_lt (i + sh) hc
    have hne : a ≠ s.wrap (d.base + (i + sh) % d.cap) := by
      rw [s.wrap_of_lt _ (by omega)]
      rintro rfl
      rw [d.holds_slot _ hc] at ha
      cases ha
    rw [storeSlots, ih (i + 1) (s.store_wf _ b hm) hd, s.read_store _ _ _ hm, if_neg hne]

theorem writeView_mem (i v : RingIx) (found : Option (Nat × Nat)) (s : State) : (writeView i v found s).mem = s.mem := by
  rw [writeView_eq_setRb]
  rfl

theorem dropUntil_mem (i : RingIx) (b : Byte) (fuel : Nat) (s : State) : (State.dropUntil i b fuel s).mem = s.mem := by
  induction fuel generalizing s with
  | zero => rfl
  | succ n ih =>
    simp only [State.dropUntil]
    split
    · exact ih _
    · rfl

theorem advance_mem (i : RingIx) (f : AdvFlags) (b : Byte) (k : Nat) (s : State) : (advance i f b k s).mem = s.mem := by
  unfold advance
  split
  · exact dropUntil_mem i b _ _
  · rfl

theorem passFinish_mem (p : PassResult) (i : RingIx) (e : Ecode) : (p.finish i e).mem = p.st.mem := by
  unfold PassResult.finish
  split <;> rfl

theorem Kept.passFinish {l : List RingIx} {s : State} {p : PassResult} (h : Kept l s p.st) (i : RingIx) (e : Ecode) (n : Nat) :
    MemStays l n s (p.finish i e) := by
  intro a ha _
  rw [passFinish_mem]
  exact h.outside a ha

/-- A command with one check writes nothing where it fails (R131). -/
theorem ends_memStays_ite {l : List RingIx} {n : Nat} {s t : State} {c : Prop} [Decidable c] (ht : ¬ c → MemStays l n s t) :
    Ends (MemStays l n s) (if c then goOn s.raiseParam else goOn t) := by
  split
  · exact (ends_goOn _ _).mpr (.of_mem_eq rfl)
  · exact (ends_goOn _ _).mpr (ht ‹_›)

/-- Every command that is no link command writes to the rings it uses and to its data block alone (R42, R56). -/
theorem exec_memStays {i : Instr} (hi : linkCommand i = false) {s : State} (h : Good s) :
    Ends (MemStays (ringsUsed i s) (dataLen i s) s) (exec i s) := by
  have self : ∀ ra : RingIx, ra ∈ [ra] := fun ra => List.mem_singleton.mpr rfl
  have hm : s.mem.wf = true := h.2.1.1
  cases i with
  | nop => exact (ends_goOn _ _).mpr (.of_mem_eq rfl)
  | rbInit ra => exact ends_memStays_ite (fun _ => .of_mem_eq rfl)
  | rbPusho ra ea =>
    exact ends_memStays_ite (fun hc => (Kept.pushOver (self ra) ea _ _ h (cap_pos_of_not_badLen hc)).memStays _)
  | rbPushb ra ea =>
    have hle := (h.1 ra).1
    have hk : (s.rb ra).count + pushBoundedLen (s.rb ra) s.arg1 ≤ (s.rb ra).cap := by
      simp only [pushBoundedLen, Desc.free]
      omega
    cases ea with
    | tail => exact ends_memStays_ite (fun _ => (Kept.pushBlockTail (self ra) _ _ h hk).memStays _)
    | head => exact ends_memStays_ite (fun _ => (Kept.pushBlockHead (self ra) _ _ h hk).memStays _)
  | rbPull ra ea discard =>
    exact ends_memStays_ite (fun _ => copied_memStays [ra] discard ra _ (Nat.min_le_left _ _) hm)
  | rbRead ra ea => exact ends_memStays_ite (fun _ => copyOut_memStays [ra] ra _ (Nat.min_le_left _ _) hm)
  | rbWrite ra ea =>
    exact ends_memStays_ite (fun hc => (Kept.copyIn (self ra) _ _ _ h (cap_pos_of_not_badRange hc)).memStays _)
  | rbCut ra ea discard =>
    refine ends_memStays_ite (fun hc => ?_)
    have ht := copied_good_rb discard ra s.argAddr
      (rangeFirst ea (s.rb ra).count s.arg2 (min s.arg1 ((s.rb ra).count - s.arg2)))
      (min s.arg1 ((s.rb ra).count - s.arg2)) h
    have hcut := Kept.cutRange (self ra) (rangeFirst ea (s.rb ra).count s.arg2 (min s.arg1 ((s.rb ra).count - s.arg2)))
      (min s.arg1 ((s.rb ra).count - s.arg2)) ht.1 (by rw [ht.2]; exact cap_pos_of_not_badRange hc) (by rw [ht.2]; omega)
    exact ((copied_memStays [ra] discard ra _ (Nat.min_le_left _ _) hm).trans_kept ht.2 hcut :)
  | rbMove ra ea rb eb destr =>
    refine ends_memStays_ite (fun hc => ?_)
    rw [not_or] at hc
    exact (Kept.moveLoop (l := [ra, rb]) (by simp) (by simp) hc.1 ea eb destr _ 0 h).memStays _
  | rbRotl ra dir =>
    simp only [exec, execRbRotl]
    split
    · exact (ends_goOn _ _).mpr (.of_mem_eq rfl)
    · split
      · exact (ends_goOn _ _).mpr (.of_mem_eq rfl)
      · have hc : 0 < (s.rb ra).cap := by omega
        split
        · exact (ends_goOn _ _).mpr ((Kept.forUp (fun _ _ => Kept.rotHeadToTail (self ra)) _ 0 h hc).memStays _)
        · exact (ends_goOn _ _).mpr ((Kept.forUp (fun _ _ => Kept.rotTailToHead (self ra)) _ 0 h hc).memStays _)
  | rbRotp ra =>
    obtain ⟨_, _, _, htop, _⟩ := h.1 ra
    exact ends_memStays_ite (fun hc a ha _ =>
      storeSlots_outside (Nat.pos_of_ne_zero (fun h0 => hc (.inl h0))) _ 0 _ hm htop (ha ra (self ra)))
  | rbFull ra => exact ends_memStays_ite (fun _ => .of_mem_eq rfl)
  | rbEmpty ra => exact ends_memStays_ite (fun _ => .of_mem_eq rfl)
  | rbFlush ra => exact ends_memStays_ite (fun _ => .of_mem_eq rfl)
  | fsMatch ra sel tie => exact ends_memStays_ite (fun _ => .of_mem_eq rfl)
  | fsSearch ra rb => exact ends_memStays_ite (fun _ => .of_mem_eq (writeView_mem ra rb _ s))
  | fsSrchadv ra rb flags =>
    exact ends_memStays_ite (fun _ => .of_mem_eq ((advance_mem ra flags _ _ _).trans (writeView_mem ra rb _ s)))
  | bsStuff ra => exact ends_memStays_ite (fun _ => (Kept.stuffRing (self ra) h).passFinish ra _ _)
  | bsUnstuff ra => exact ends_memStays_ite (fun _ => (Kept.unstuffRing (self ra) h).passFinish ra _ _)
  | crcSeed => exact (ends_goOn _ _).mpr (.of_mem_eq rfl)
  | crcByte => exact (ends_goOn _ _).mpr (.of_mem_eq rfl)
  | crcRun ra => exact ends_memStays_ite (fun _ => .of_mem_eq rfl)
  | crcAppend ra =>
    simp only [exec, execCrcAppend]
    split
    · exact (ends_goOn _ _).mpr (.of_mem_eq rfl)
    · split
      · exact (ends_goOn _ _).mpr (.of_mem_eq rfl)
      · rename_i hf
        simp only [Desc.free] at hf
        have h1 := Kept.pushTail h (self ra) (s.crcAcc.extractLsb' 8 8) (by omega)
        have h2 := Kept.pushTail h1.good (self ra) (s.crcAcc.extractLsb' 0 8) (by simp; omega)
        exact (ends_goOn _ _).mpr ((h1.trans h2).memStays _)
  | crcCheck ra => exact ends_memStays_ite (fun _ => .of_mem_eq rfl)
  | lpInit => cases hi
  | lpSend ra ack => cases hi
  | lpRecv ra want => cases hi

/-! ### The link commands

In each lemma `s` is where the engine's step began and `u` where the part named begins, after work on the rings of `l`. -/

theorem sendAttempt_memStays {l : List RingIx} {s u : State} (hk : Kept l s u) (hl : u.scrIx ∈ l) (c : SendCtx) :
    MemStays l 0 s (sendAttempt c u) := by
  obtain ⟨v, hv, hc⟩ := sendAttempt_cases c u
  have hkv : Kept l s v := by rw [hv]; exact hk.trans (Kept.build hl _ _ _ _ hk.good)
  rcases hc with ⟨n, hc⟩ | hc <;> rw [hc]
  · exact hkv.memStays 0
  · exact hkv.memStays 0

/-- SCAN works on the session's rings (R121). -/
theorem Kept.trans_scanAll {l : List RingIx} {s u : State} (hk : Kept l s u) (hl : ∀ r ∈ u.ls.sess.rings, r ∈ l)
    (hd : u.ls.sess.Distinct) (m : Mode) (off : Nat) : Kept l s (scanAll m off u).1 :=
  hk.trans ((Kept.scan m _ off hk.good hd).mono hl)

theorem waitScan_memStays {l : List RingIx} {s u : State} (hk : Kept l s u) (hl : ∀ r ∈ u.ls.sess.rings, r ∈ l)
    (hd : u.ls.sess.Distinct) (c : SendCtx) (off : Nat) : MemStays l 0 s (waitScan c off u) := by
  obtain ⟨v, hv, hc⟩ := waitScan_cases c off u
  have hkv : Kept l s v := by rw [hv]; exact hk.trans_scanAll hl hd _ _
  rcases hc with hc | ⟨off', hc⟩ | hc <;> rw [hc]
  · exact hkv.memStays 0
  · exact hkv.memStays 0
  · exact hkv.memStays 0

theorem waitPoll_memStays {l : List RingIx} {s u : State} (hk : Kept l s u) (hl : ∀ r ∈ u.ls.sess.rings, r ∈ l)
    (hd : u.ls.sess.Distinct) (c : SendCtx) : MemStays l 0 s (waitPoll c u) := by
  rcases waitPoll_cases c u with ⟨_, hc⟩ | hc <;> rw [hc]
  · exact hk.memStays 0
  · exact waitScan_memStays hk hl hd c 0

/-- A delivery of a payload that fits works on the out ring and LS_LASTRX (R127). -/
theorem Kept.delivered {l : List RingIx} {out : RingIx} (ho : out ∈ l) {s : State} (h : Good s) {d : Frame} (hf : Fits out d s) :
    Kept l s (delivered out d s) := by
  unfold Sys2Proof.Machine.delivered
  split
  · exact Kept.refl l h
  · rename_i hd
    have hp : d.plen ≤ (s.rb out).free := hf (by simpa using hd)
    have hle := (h.1 out).1
    have hk := (Kept.copyToTail (l := l) s.scrIx ho Config.hdrLen d.plen h (by simp only [Desc.free] at hp; omega)).1
    unfold deliver
    split
    · exact hk.trans (Kept.setLastRx hk.good _)
    · exact hk

theorem recvTaken_memStays {l : List RingIx} {s u : State} (hk : Kept l s u) (hl : ∀ r ∈ u.ls.sess.rings, r ∈ l)
    {out : RingIx} (ho : out ∈ l) {d : Frame} (hf : Fits out d u) : MemStays l 0 s (recvTaken out d u) := by
  have hkd : Kept l u (delivered out d u) := Kept.delivered ho hk.good hf
  have hkb : Kept l u (buildAck d.hash (delivered out d u)).1 :=
    hkd.trans (Kept.buildAck (by rw [hkd.scrIx]; exact hl _ (scr_mem_rings _)) d.hash hkd.good)
  rcases recvTaken_cases out d u with ⟨r, hc⟩ | ⟨r, hc⟩ | ⟨r, hc⟩ <;> rw [hc]
  · exact (hk.trans hkb).memStays 0
  · exact (hk.trans hkb).memStays 0
  · exact (hk.trans hkd).memStays 0

/-- DRAIN of an entry that fits the out ring works on that ring and the side rings (R124). -/
theorem Kept.drain {l : List RingIx} {s : State} (h : Good s) {out : RingIx} (ho : out ∈ l) (hd : s.sideIx ∈ l)
    (hn : s.slenIx ∈ l) (hod : out ≠ s.sideIx) (hon : out ≠ s.slenIx) {n : Nat} (hf : (s.rb out).count + n ≤ (s.rb out).cap) :
    Kept l s (drain out n s) := by
  refine (forUp_index (fun j t => Kept l s t ∧ (t.rb out).count = (s.rb out).count + j) _ n 0 (s.dropHead s.slenIx 1)
    (fun j t _ hj ⟨hk, hc⟩ => ?_) ⟨Kept.dropHead h hn 1, by rw [State.rb_dropHead_ne _ _ _ _ hon]; rfl⟩).1
  have hcap := hk.cap out
  have hpush := Kept.pushTail (l := l) hk.good ho (drainByte t j) (by omega)
  have hside : t.sideIx = s.sideIx := hk.sideIx
  refine ⟨(hk.trans hpush).trans (Kept.dropHead hpush.good (by rw [hside]; exact hd) 1), ?_⟩
  rw [State.rb_dropHead_ne _ _ _ _ (by rw [hside]; exact hod), State.rb_pushTail_same]
  exact congrArg (· + 1) hc

theorem recvScan_memStays {l : List RingIx} {s u : State} (hk : Kept l s u) (hl : ∀ r ∈ u.ls.sess.rings, r ∈ l)
    (hd : u.ls.sess.Distinct) {c : RecvCtx} (hcl : c.out ∈ l) (ho : u.ls.sess.rings.contains c.out = false) :
    MemStays l 0 s (recvScan c u) := by
  rcases recvScan_cases c u with hc | ⟨n, r, hq, hn, hc⟩ | ⟨v, hv, hc⟩
  · rw [hc]; exact hk.memStays 0
  · have hside := side_mem_rings hq
    have hslen := slen_mem_rings hq
    have hle := (hk.good.1 c.out).1
    simp only [Desc.free] at hn
    have hout : c.out ∉ u.ls.sess.rings := by simpa using ho
    have hkd := Kept.drain hk.good hcl (hl _ hside) (hl _ hslen) (fun e => hout (e ▸ hside)) (fun e => hout (e ▸ hslen))
      (n := n) (by omega)
    rw [hc]; exact (hk.trans hkd).memStays 0
  · have hkv : Kept l s v := by rw [hv]; exact hk.trans_scanAll hl hd _ _
    have hsess : v.ls.sess = u.ls.sess := hkv.sess.trans hk.sess.symm
    rcases hc with ⟨d, htaken, hc⟩ | hc | hc <;> rw [hc]
    · exact recvTaken_memStays hkv (by rw [hsess]; exact hl) hcl (scan_taken_fits _ _ (out_ne_rx ho) htaken)
    · exact hkv.memStays 0
    · exact hkv.memStays 0

theorem recvPoll_memStays {l : List RingIx} {s u : State} (hk : Kept l s u) (hl : ∀ r ∈ u.ls.sess.rings, r ∈ l)
    (hd : u.ls.sess.Distinct) {c : RecvCtx} (hcl : c.out ∈ l) (ho : u.ls.sess.rings.contains c.out = false) :
    MemStays l 0 s (recvPoll c u) := by
  rcases recvPoll_cases c u with ⟨_, hc⟩ | hc <;> rw [hc]
  · exact hk.memStays 0
  · exact recvScan_memStays hk hl hd hcl ho

theorem flushAll_mem (l : List RingIx) (s : State) : (flushAll l s).mem = s.mem := by
  induction l generalizing s with
  | nil => rfl
  | cons i l ih => exact ih (s.flushRb i)

/-- The execution of a link command writes to the rings it uses alone (R56). -/
theorem execLink_memStays {i : Instr} (hi : linkCommand i = true) {s : State} (hs : Inv s) :
    Ends (MemStays (ringsUsed i s) 0 s) (exec i s) := by
  obtain ⟨hg, hd, _⟩ := inv_iff.mp hs
  cases i with
  | lpInit =>
    simp only [exec, execLpInit]
    split
    · exact (ends_goOn _ _).mpr (.of_mem_eq rfl)
    · exact (ends_goOn _ _).mpr (.of_mem_eq (flushAll_mem _ _))
  | lpSend ra ack =>
    simp only [exec, execLpSend]
    split
    · exact (ends_goOn _ _).mpr (.of_mem_eq rfl)
    · split
      · exact (ends_goOn _ _).mpr (.of_mem_eq rfl)
      · have hscr : s.scrIx ∈ ringsUsed (.lpSend ra ack) s := by
          cases ack
          · exact List.mem_cons_of_mem _ (List.mem_singleton.mpr rfl)
          · exact List.mem_cons_of_mem _ (scr_mem_rings _)
        exact (ends_goOn _ _).mpr (sendAttempt_memStays (u := sendReady s) (Kept.refl _ hg) hscr _)
  | lpRecv ra want =>
    simp only [exec, execLpRecv]
    split
    · exact (ends_goOn _ _).mpr (.of_mem_eq rfl)
    · rename_i hb
      obtain ⟨hv, ho⟩ := badLink_eq_false hb
      exact (ends_goOn _ _).mpr (recvPoll_memStays (Kept.refl _ hg) (fun _ hr => List.mem_cons_of_mem _ hr) (hd hv)
        List.mem_cons_self ho)
  | _ => cases hi

/-- The transmit port touches the environment alone (R137). -/
theorem State.tx_eq_withEnv (s : State) (b : Byte) : ∃ e, (s.tx b).1 = { s with env := e } := by
  rcases s.tx_cases b with ⟨_, hb⟩ | ⟨_, hb⟩ <;> rw [hb]
  · exact ⟨_, rfl⟩
  · exact ⟨s.env, rfl⟩

/-- A step of a running link command writes to the session's rings and its out ring alone (R56). -/
theorem engineStep_memStays {s : State} (hs : Inv s) (hr : s.phase.linkRunning = true) :
    Ends (MemStays (s.ls.sess.rings ++ s.phase.outRing.toList) 0 s) (engineStep s) := by
  obtain ⟨hg, _, hd⟩ := hs.linked hr
  obtain ⟨_, _, _, hroom, hout⟩ := inv_iff.mp hs
  have hrings : ∀ r ∈ s.ls.sess.rings, r ∈ s.ls.sess.rings ++ s.phase.outRing.toList := fun _ h => List.mem_append_left _ h
  generalize hl : s.ls.sess.rings ++ s.phase.outRing.toList = l at hrings
  have hrx : s.rxIx ∈ l := hrings _ (rx_mem_rings _)
  have self : Kept l s s := Kept.refl l hg
  -- the byte RXP hands over goes to the tail of rx, which has room
  have received : s.phase.toppingUp = true → ∀ b rest,
      Kept l { s with env := { s.env with rxLine := rest } }
        (({ s with env := { s.env with rxLine := rest } } : State).pushTail s.rxIx b) := fun ht b rest => by
    have hf := hroom ht
    simp only [Desc.free] at hf
    exact Kept.pushTail (s := { s with env := { s.env with rxLine := rest } }) hg hrx b (Nat.lt_of_sub_pos hf)
  unfold engineStep
  split
  case h_1 hp => rw [hp] at hr; cases hr
  case h_2 hp => rw [hp] at hr; cases hr
  case h_3 c v hp =>
    obtain ⟨u, hu, hc⟩ := sendTxStep_cases c v s
    obtain ⟨e, he⟩ := s.tx_eq_withEnv (s.rd s.scrIx v)
    rw [he] at hu
    subst hu
    rw [ends_goOn]
    rcases hc with hc | hc | ⟨_, hc⟩ | hc <;> rw [hc] <;> exact .of_mem_eq rfl
  case h_4 c hp => exact (ends_goOn _ _).mpr (waitPoll_memStays self hrings hd _)
  case h_5 c hp =>
    rw [ends_goOn, sendRxStep]
    rcases s.rxp_cases with ⟨_, h⟩ | ⟨b, rest, _, h⟩ <;> rw [h]
    · exact waitScan_memStays self hrings hd c 0
    · exact waitPoll_memStays (received (by rw [hp]; rfl) b rest) hrings hd c
  case h_6 c off v hp =>
    obtain ⟨u, hu, hc⟩ := sendAckTxStep_cases c off v s
    obtain ⟨e, he⟩ := s.tx_eq_withEnv (s.rd s.scrIx v)
    rw [he] at hu
    subst hu
    have hk : Kept l { s with env := e } { s with env := e } := Kept.refl l hg
    rw [ends_goOn]
    rcases hc with hc | hc | hc <;> rw [hc]
    · exact waitScan_memStays (hk.trans (Kept.setAckFail hg)) hrings hd c off
    · exact .of_mem_eq rfl
    · exact waitScan_memStays hk hrings hd c off
  case h_7 c hp =>
    rw [ends_goOn, sendTStep]
    split
    · split
      · exact .of_mem_eq rfl
      · exact sendAttempt_memStays (u := s.setSend .retry) (Kept.refl l hg) (hrings _ (scr_mem_rings _)) c
    · exact waitPoll_memStays self hrings hd c
  case h_8 c hp =>
    have ho : s.ls.sess.rings.contains c.out = false := hout c.out (by rw [hp]; rfl)
    have hcl : c.out ∈ l := by rw [← hl, hp]; exact List.mem_append_right _ (List.mem_singleton.mpr rfl)
    rw [ends_goOn, recvRxStep]
    rcases s.rxp_cases with ⟨_, h⟩ | ⟨b, rest, _, h⟩ <;> rw [h]
    · exact recvScan_memStays self hrings hd hcl ho
    · exact recvPoll_memStays (received (by rw [hp]; rfl) b rest) hrings hd hcl ho
  case h_9 r v hp =>
    obtain ⟨u, hu, hc⟩ := recvAckTxStep_cases r v s
    obtain ⟨e, he⟩ := s.tx_eq_withEnv (s.rd s.scrIx v)
    rw [he] at hu
    subst hu
    rw [ends_goOn]
    rcases hc with hc | hc | hc <;> rw [hc] <;> exact .of_mem_eq rfl

/-- Settles O19: each execution and each step of a link command stays in the rings it uses and its data block. -/
theorem commandsStayInFootprint : Obligations.CommandsStayInFootprint := by
  refine ⟨fun s t i hs ht a ha => ?_, fun s t hs hr ht a ha => engineStep_memStays hs hr t ht a ha (inBlock_zero _ _ _)⟩
  obtain ⟨hrings, hblock⟩ := inFootprint_eq_false.mp ha
  cases hi : linkCommand i
  · exact exec_memStays hi (inv_iff.mp hs).1 t ht a hrings hblock
  · exact execLink_memStays hi hs t ht a hrings (inBlock_zero _ _ _)

end Sys2Proof.Machine

namespace Sys2Proof.Machine

/-! ## The bits of a command word (R62)

A field is a range of bits: `bitsAt` is its value, every field of the decoder is tied to it, and `putField`
puts it back. -/

/-- The value of the `n` bits of a word from bit `p` up. -/
def bitsAt (w : Word) (p n : Nat) : Nat := w.toNat / 2 ^ p % 2 ^ n

theorem bitsAt_lt (w : Word) (p n : Nat) : bitsAt w p n < 2 ^ n := Nat.mod_lt _ (Nat.two_pow_pos n)

theorem extractLsb'_toNat_eq_bitsAt (w : Word) (p n : Nat) : (w.extractLsb' p n).toNat = bitsAt w p n := by
  rw [BitVec.extractLsb'_toNat, Nat.shiftRight_eq_div_pow, bitsAt]

theorem getLsbD_toNat (w : Word) (p : Nat) : (w.getLsbD p).toNat = bitsAt w p 1 := Nat.toNat_testBit w.toNat p

/-- A range of bits put back where it was read is the word under the mask of the range. -/
theorem putField_bitsAt (w : Word) (p n : Nat) : putField p (bitsAt w p n) = w &&& putField p (2 ^ n - 1) := by
  refine BitVec.eq_of_getLsbD_eq fun k hk => ?_
  simp only [putField, bitsAt, BitVec.getLsbD_and, BitVec.getLsbD_shiftLeft, BitVec.getLsbD_ofNat,
    Nat.testBit_mod_two_pow, Nat.testBit_div_two_pow, Nat.testBit_two_pow_sub_one]
  by_cases hp : p ≤ k
  · rw [Nat.sub_add_cancel hp, BitVec.testBit_toNat]
    grind
  · simp [Nat.lt_of_not_le hp]

/-- A field put above the bits in use adds its value times its weight. -/
theorem or_putField_toNat {w : Word} {a v : Nat} (p n : Nat) (hw : w.toNat = a) (ha : a < 2 ^ p) (hv : v < 2 ^ n)
    (hp : p + n ≤ 32) : (w ||| putField p v).toNat = a + 2 ^ p * v := by
  have hpn : 2 ^ p * v < 2 ^ 32 := calc
    2 ^ p * v < 2 ^ p * 2 ^ n := Nat.mul_lt_mul_of_pos_left hv (Nat.two_pow_pos p)
    _ = 2 ^ (p + n) := (Nat.pow_add 2 p n).symm
    _ ≤ 2 ^ 32 := Nat.pow_le_pow_right Nat.two_pos hp
  have hf : (putField p v).toNat = 2 ^ p * v := by
    rw [putField, BitVec.toNat_shiftLeft, Nat.shiftLeft_eq, BitVec.toNat_ofNat, Nat.mod_mul_mod, Nat.mul_comm,
      Nat.mod_eq_of_lt hpn]
  rw [BitVec.toNat_or, hw, hf, Nat.or_comm, ← Nat.two_pow_add_eq_or_of_lt ha, Nat.add_comm]

/-! ### The values of ends and modifiers (R13, R64) -/

theorem end_bit_lt (e : End) : e.bit < 2 := by cases e <;> decide

theorem end_bit_injective {e f : End} (h : e.bit = f.bit) : e = f := by
  cases e <;> cases f <;> trivial

theorem bool_toNat_injective {a b : Bool} (h : a.toNat = b.toNat) : a = b := by
  cases a <;> cases b <;> trivial

theorem flags_bits_lt (f : AdvFlags) : f.bits < 32 := by
  have := f.onFull.toNat_lt
  have := f.toStart.toNat_lt
  have := f.toStart1.toNat_lt
  have := f.entire.toNat_lt
  have := f.ffwd.toNat_lt
  rw [AdvFlags.bits]
  omega

theorem flags_bits_injective {f g : AdvFlags} (h : f.bits = g.bits) : f = g := by
  obtain ⟨a, b, c, d, e⟩ := f
  obtain ⟨a', b', c', d', e'⟩ := g
  have := a.toNat_lt; have := b.toNat_lt; have := c.toNat_lt; have := d.toNat_lt
  have := a'.toNat_lt; have := b'.toNat_lt; have := c'.toNat_lt; have := d'.toNat_lt
  simp only [AdvFlags.bits] at h
  rw [bool_toNat_injective (by omega : a.toNat = a'.toNat), bool_toNat_injective (by omega : b.toNat = b'.toNat),
    bool_toNat_injective (by omega : c.toNat = c'.toNat), bool_toNat_injective (by omega : d.toNat = d'.toNat),
    bool_toNat_injective (by omega : e.toNat = e'.toNat)]

/-! ### Each field of the decoder as a range of bits (R62) -/

theorem fieldOpc_eq (w : Word) : fieldOpc w = bitsAt w 0 8 := extractLsb'_toNat_eq_bitsAt w 0 8

theorem fieldRa_val (w : Word) : (fieldRa w).val = bitsAt w 8 3 := extractLsb'_toNat_eq_bitsAt w 8 3

theorem fieldRb_val (w : Word) : (fieldRb w).val = bitsAt w 12 3 := extractLsb'_toNat_eq_bitsAt w 12 3

theorem fieldEa_bit (w : Word) : (fieldEa w).bit = bitsAt w 16 1 := by
  rw [← getLsbD_toNat, fieldEa]
  cases w.getLsbD 16 <;> rfl

theorem fieldEb_bit (w : Word) : (fieldEb w).bit = bitsAt w 17 1 := by
  rw [← getLsbD_toNat, fieldEb]
  cases w.getLsbD 17 <;> rfl

theorem fieldM0_toNat (w : Word) : (fieldM0 w).toNat = bitsAt w 18 1 := getLsbD_toNat w 18

theorem fieldM1_toNat (w : Word) : (fieldM1 w).toNat = bitsAt w 19 1 := getLsbD_toNat w 19

theorem fieldX_eq (w : Word) : fieldX w = bitsAt w 20 7 := extractLsb'_toNat_eq_bitsAt w 20 7

theorem fieldDir_bit (w : Word) : (fieldDir w).bit = bitsAt w 18 1 := by
  rw [← fieldM0_toNat, fieldDir]
  cases fieldM0 w <;> rfl

theorem fieldSel_bit (w : Word) : (fieldSel w).bit = bitsAt w 18 1 := by
  rw [← fieldM0_toNat, fieldSel]
  cases fieldM0 w <;> rfl

theorem fieldTie_bit (w : Word) : (fieldTie w).bit = bitsAt w 19 1 := by
  rw [← fieldM1_toNat, fieldTie]
  cases fieldM1 w <;> rfl

theorem fieldFlags_bits (w : Word) : (fieldFlags w).bits = bitsAt w 20 5 := by
  simp only [AdvFlags.bits, fieldFlags, getLsbD_toNat, bitsAt]
  omega

/-! ### Putting a field back where the decoder read it

The mask of the field is written out, so that the masks of a format's fields join by computation. -/

theorem putField_fieldOpc (w : Word) : putField 0 (fieldOpc w) = w &&& opcMask := by
  rw [fieldOpc_eq]; exact putField_bitsAt w 0 8

theorem fieldOpc_eq_toNat (w : Word) : fieldOpc w = (w &&& opcMask).toNat := by
  rw [← putField_fieldOpc, putField, BitVec.shiftLeft_zero, BitVec.toNat_ofNat, fieldOpc_eq]
  exact (Nat.mod_eq_of_lt ((bitsAt_lt w 0 8).trans (by decide))).symm

theorem putField_fieldRa (w : Word) : putField 8 (fieldRa w).val = w &&& 0x00000700#32 := by
  rw [fieldRa_val]; exact putField_bitsAt w 8 3

theorem putField_fieldRb (w : Word) : putField 12 (fieldRb w).val = w &&& 0x00007000#32 := by
  rw [fieldRb_val]; exact putField_bitsAt w 12 3

theorem putField_fieldEa (w : Word) : putField 16 (fieldEa w).bit = w &&& 0x00010000#32 := by
  rw [fieldEa_bit]; exact putField_bitsAt w 16 1

theorem putField_fieldEb (w : Word) : putField 17 (fieldEb w).bit = w &&& 0x00020000#32 := by
  rw [fieldEb_bit]; exact putField_bitsAt w 17 1

theorem putField_fieldM0 (w : Word) : putField 18 (fieldM0 w).toNat = w &&& 0x00040000#32 := by
  rw [fieldM0_toNat]; exact putField_bitsAt w 18 1

theorem putField_fieldDir (w : Word) : putField 18 (fieldDir w).bit = w &&& 0x00040000#32 := by
  rw [fieldDir_bit]; exact putField_bitsAt w 18 1

theorem putField_fieldSel (w : Word) : putField 18 (fieldSel w).bit = w &&& 0x00040000#32 := by
  rw [fieldSel_bit]; exact putField_bitsAt w 18 1

theorem putField_fieldTie (w : Word) : putField 19 (fieldTie w).bit = w &&& 0x00080000#32 := by
  rw [fieldTie_bit]; exact putField_bitsAt w 19 1

theorem putField_fieldFlags (w : Word) : putField 20 (fieldFlags w).bits = w &&& 0x01F00000#32 := by
  rw [fieldFlags_bits]; exact putField_bitsAt w 20 5

theorem fieldX_lt (w : Word) : fieldX w < 128 := by rw [fieldX_eq]; exact bitsAt_lt w 20 7

theorem putField_fieldX (w : Word) : putField 20 (fieldX w % 128) = w &&& 0x07F00000#32 := by
  rw [Nat.mod_eq_of_lt (fieldX_lt w), fieldX_eq]; exact putField_bitsAt w 20 7

/-! ## The rows of the opcode map (R63, R66, R67) -/

/-- Accepted are the words of a row whose fixed bits outside OPC are 0 (R67). -/
theorem decode_ok_iff {w : Word} {i : Instr} :
    decode w = .ok i ↔
      ∃ f, opcodeRow (fieldOpc w) w = some (f, i) ∧ w &&& (f.fixedMask &&& ~~~ opcMask) = 0#32 := by
  unfold decode
  cases opcodeRow (fieldOpc w) w with
  | none => simp
  | some row =>
    obtain ⟨f, j⟩ := row
    dsimp only
    split <;> simp_all

theorem opcMask_or_fieldMask (f : Format) : opcMask ||| f.fieldMask = ~~~ (f.fixedMask &&& ~~~ opcMask) := by
  cases f <;> rfl

theorem fixedMask_eq (f : Format) : f.fixedMask = opcMask ||| (f.fixedMask &&& ~~~ opcMask) := by
  cases f <;> rfl

theorem and_eq_zero_iff_and_not_eq_self {w m : Word} : w &&& m = 0#32 ↔ w &&& ~~~ m = w := by
  have hsplit : (w &&& m) ||| (w &&& ~~~ m) = w := by
    rw [← BitVec.and_or_distrib_left, BitVec.or_not_self, BitVec.and_allOnes]
  constructor
  · intro h
    rwa [h, BitVec.zero_or] at hsplit
  · intro h
    rw [← h, BitVec.and_assoc, BitVec.and_comm (~~~ m), BitVec.and_not_self]
    exact BitVec.and_zero

/-- The fixed bits outside OPC are 0 exactly when the word is its OPC and the bits of its fields. -/
theorem reserved_eq_zero_iff {w : Word} (f : Format) :
    w &&& (f.fixedMask &&& ~~~ opcMask) = 0#32 ↔ putField 0 (fieldOpc w) ||| (w &&& f.fieldMask) = w := by
  rw [putField_fieldOpc, ← BitVec.and_or_distrib_left, opcMask_or_fieldMask, and_eq_zero_iff_and_not_eq_self]

/-- A word meets a row in the row's fixed bits exactly when its OPC is the row's and the other fixed bits are 0. -/
theorem and_fixedMask_eq_iff (f : Format) {w m : Word} (hm : m &&& opcMask = m) :
    w &&& f.fixedMask = m ↔ w &&& opcMask = m ∧ w &&& (f.fixedMask &&& ~~~ opcMask) = 0#32 := by
  constructor
  · intro h
    have hopc : f.fixedMask &&& opcMask = opcMask := by cases f <;> rfl
    refine ⟨?_, ?_⟩
    · rw [← hopc, ← BitVec.and_assoc, h, hm]
    · rw [← BitVec.and_assoc, h, ← hm, BitVec.and_assoc, BitVec.and_not_self]
      exact BitVec.and_zero
  · rintro ⟨hopc, hz⟩
    rw [fixedMask_eq, BitVec.and_or_distrib_left, hopc, hz, BitVec.or_zero]

/-- A row of `opcodeRow` stands in the opcode map, with its opcode and the bits its format fixes. -/
theorem opcodeRow_mem_opcodeMap {opc : Nat} {w : Word} {f : Format} {i : Instr} (h : opcodeRow opc w = some (f, i)) :
    (putField 0 opc, f.fixedMask) ∈ opcodeMap := by
  unfold opcodeRow at h
  split at h <;> cases h <;> decide

/-- Each row of the opcode map is a row of `opcodeRow`, whatever the other bits of the word. -/
theorem opcodeRow_of_mem_opcodeMap (w : Word) :
    ∀ r ∈ opcodeMap, ∃ f i, opcodeRow r.1.toNat w = some (f, i) ∧ f.fixedMask = r.2 := by
  simp only [opcodeMap, List.forall_mem_append, List.forall_mem_cons, opcodeRow]
  simp [Format.fixedMask, Format.fieldMask]

theorem opcodeMap_opc : ∀ r ∈ opcodeMap, r.1 &&& opcMask = r.1 := by simp [opcodeMap, opcMask]

/-- The encoder puts back what the row of `opcodeRow` read: the opcode and the bits of the row's format (R62, R66). -/
theorem encode_opcodeRow {opc : Nat} {w : Word} {f : Format} {i : Instr} (h : opcodeRow opc w = some (f, i)) :
    encode i = putField 0 opc ||| (w &&& f.fieldMask) := by
  unfold opcodeRow at h
  split at h <;> cases h <;>
    simp only [encode, putOpcRa, putField_fieldRa, putField_fieldRb, putField_fieldEa, putField_fieldEb, putField_fieldM0,
      putField_fieldDir, putField_fieldSel, putField_fieldTie, putField_fieldFlags, putField_fieldX, Format.fieldMask,
      BitVec.or_assoc, ← BitVec.and_or_distrib_left, BitVec.reduceOr, BitVec.and_zero, BitVec.or_zero]

theorem opcodeRow_wellFormed {opc : Nat} {w : Word} {f : Format} {i : Instr} (h : opcodeRow opc w = some (f, i)) :
    i.wellFormed = true := by
  unfold opcodeRow at h
  split at h <;> cases h
  case h_27 => -- LP_RECV, the one command with a code to fit
    exact decide_eq_true (fieldX_lt w)
  all_goals rfl

/-- Accepted are the words that the encoder gives back from what their row reads (R67). -/
theorem decode_ok_iff_encode {w : Word} {i : Instr} :
    decode w = .ok i ↔ (∃ f, opcodeRow (fieldOpc w) w = some (f, i)) ∧ encode i = w := by
  have hrow {f : Format} (h : opcodeRow (fieldOpc w) w = some (f, i)) :
      w &&& (f.fixedMask &&& ~~~ opcMask) = 0#32 ↔ encode i = w := by
    rw [reserved_eq_zero_iff, encode_opcodeRow h]
  rw [decode_ok_iff]
  constructor
  · rintro ⟨f, h, hz⟩
    exact ⟨⟨f, h⟩, (hrow h).mp hz⟩
  · rintro ⟨⟨f, h⟩, he⟩
    exact ⟨f, h, (hrow h).mpr he⟩

/-- Settles O2: a word is accepted when the encoder gives it back. -/
theorem encodeInvertsDecode : Obligations.EncodeInvertsDecode := by
  intro w i hi
  obtain ⟨⟨f, hrow⟩, he⟩ := decode_ok_iff_encode.mp hi
  exact ⟨he, opcodeRow_wellFormed hrow⟩

/-- A word is accepted exactly when it meets a row of the map in the row's fixed bits. -/
theorem exists_decode_iff (w : Word) : (∃ i, decode w = .ok i) ↔ ∃ r ∈ opcodeMap, w &&& r.2 = r.1 := by
  constructor
  · rintro ⟨i, hi⟩
    obtain ⟨f, hrow, hz⟩ := decode_ok_iff.mp hi
    refine ⟨_, opcodeRow_mem_opcodeMap hrow, ?_⟩
    dsimp only
    rw [putField_fieldOpc, and_fixedMask_eq_iff f (by rw [BitVec.and_assoc, BitVec.and_self])]
    exact ⟨rfl, hz⟩
  · rintro ⟨r, hr, hw⟩
    obtain ⟨f, i, hrow, hf⟩ := opcodeRow_of_mem_opcodeMap w r hr
    rw [← hf, and_fixedMask_eq_iff f (opcodeMap_opc r hr)] at hw
    obtain ⟨hopc, hz⟩ := hw
    refine ⟨i, decode_ok_iff.mpr ⟨f, ?_, hz⟩⟩
    rw [fieldOpc_eq_toNat, hopc, hrow]

/-- Settles O3: the rows of `opcodeRow` are the rows of the map, and R67 asks for the row's fixed bits. -/
theorem decodeAcceptsOpcodeMap : Obligations.DecodeAcceptsOpcodeMap := exists_decode_iff

/-! ## The word of given field values (R62)

The fields lie apart, so the word's number is the sum of the fields times their weights, and the decoder's ranges of bits
read each of them back. -/

/-- The values of all fields of a command word, each within its bits. -/
structure FieldValues where
  opc : Fin 256
  ra : RingIx := 0
  rb : RingIx := 0
  ea : End := .tail
  eb : End := .tail
  m0 : Bool := false
  m1 : Bool := false
  x : Fin 128 := 0

/-- The word with these fields and reserved bits 0. -/
def FieldValues.word (v : FieldValues) : Word :=
  putOpcRa v.opc v.ra ||| putField 12 v.rb.val ||| putField 16 v.ea.bit ||| putField 17 v.eb.bit |||
    putField 18 v.m0.toNat ||| putField 19 v.m1.toNat ||| putField 20 v.x.val

theorem word_toNat (v : FieldValues) :
    v.word.toNat = v.opc.val + 2 ^ 8 * v.ra.val + 2 ^ 12 * v.rb.val + 2 ^ 16 * v.ea.bit + 2 ^ 17 * v.eb.bit +
      2 ^ 18 * v.m0.toNat + 2 ^ 19 * v.m1.toNat + 2 ^ 20 * v.x.val := by
  have hea := end_bit_lt v.ea
  have heb := end_bit_lt v.eb
  have hm0 := v.m0.toNat_lt
  have hm1 := v.m1.toNat_lt
  have hopc : (putField 0 v.opc.val).toNat = v.opc.val := by
    rw [putField, BitVec.shiftLeft_zero, BitVec.toNat_ofNat]
    omega
  have h8 := or_putField_toNat 8 3 hopc v.opc.isLt v.ra.isLt (by decide)
  have h12 := or_putField_toNat 12 3 h8 (by omega) v.rb.isLt (by decide)
  have h16 := or_putField_toNat 16 1 h12 (by omega) hea (by decide)
  have h17 := or_putField_toNat 17 1 h16 (by omega) heb (by decide)
  have h18 := or_putField_toNat 18 1 h17 (by omega) hm0 (by decide)
  have h19 := or_putField_toNat 19 1 h18 (by omega) hm1 (by decide)
  exact or_putField_toNat 20 7 h19 (by omega) v.x.isLt (by decide)

/-- Each range of bits of the word holds its field. -/
theorem bitsAt_word (v : FieldValues) :
    bitsAt v.word 0 8 = v.opc.val ∧ bitsAt v.word 8 3 = v.ra.val ∧ bitsAt v.word 12 3 = v.rb.val ∧
      bitsAt v.word 16 1 = v.ea.bit ∧ bitsAt v.word 17 1 = v.eb.bit ∧ bitsAt v.word 18 1 = v.m0.toNat ∧
      bitsAt v.word 19 1 = v.m1.toNat ∧ bitsAt v.word 20 7 = v.x.val := by
  have hea := end_bit_lt v.ea
  have heb := end_bit_lt v.eb
  have hm0 := v.m0.toNat_lt
  have hm1 := v.m1.toNat_lt
  simp only [bitsAt, word_toNat]
  omega

/-! ### The decoder reads each field of the word back -/

theorem fieldOpc_word (v : FieldValues) : fieldOpc v.word = v.opc.val := by
  obtain ⟨h, -⟩ := bitsAt_word v
  rw [fieldOpc_eq, h]

theorem fieldRa_word (v : FieldValues) : fieldRa v.word = v.ra := by
  obtain ⟨-, h, -⟩ := bitsAt_word v
  exact Fin.ext (by rw [fieldRa_val, h])

theorem fieldRb_word (v : FieldValues) : fieldRb v.word = v.rb := by
  obtain ⟨-, -, h, -⟩ := bitsAt_word v
  exact Fin.ext (by rw [fieldRb_val, h])

theorem fieldEa_word (v : FieldValues) : fieldEa v.word = v.ea := by
  obtain ⟨-, -, -, h, -⟩ := bitsAt_word v
  exact end_bit_injective (by rw [fieldEa_bit, h])

theorem fieldEb_word (v : FieldValues) : fieldEb v.word = v.eb := by
  obtain ⟨-, -, -, -, h, -⟩ := bitsAt_word v
  exact end_bit_injective (by rw [fieldEb_bit, h])

theorem fieldM0_word (v : FieldValues) : fieldM0 v.word = v.m0 := by
  obtain ⟨-, -, -, -, -, h, -⟩ := bitsAt_word v
  exact bool_toNat_injective (by rw [fieldM0_toNat, h])

theorem fieldM1_word (v : FieldValues) : fieldM1 v.word = v.m1 := by
  obtain ⟨-, -, -, -, -, -, h, -⟩ := bitsAt_word v
  exact bool_toNat_injective (by rw [fieldM1_toNat, h])

theorem fieldX_word (v : FieldValues) : fieldX v.word = v.x.val := by
  obtain ⟨-, -, -, -, -, -, -, h⟩ := bitsAt_word v
  rw [fieldX_eq, h]

theorem fieldFlags_word {v : FieldValues} {g : AdvFlags} (hx : v.x.val = g.bits) : fieldFlags v.word = g := by
  have hX := fieldX_word v
  have hg := flags_bits_lt g
  refine flags_bits_injective ?_
  rw [fieldX_eq, hx, bitsAt] at hX
  rw [fieldFlags_bits, bitsAt]
  omega

/-! ## The round trip of a command (R62, R63, R66) -/

/-- The fields of a command's encoding (R63, R66); the fields its format does not have are 0. -/
def fieldsOf : Instr → FieldValues
  | .nop => { opc := 0x00 }
  | .rbInit ra => { opc := 0x10, ra }
  | .rbPusho ra ea => { opc := 0x11, ra, ea }
  | .rbPushb ra ea => { opc := 0x12, ra, ea }
  | .rbPull ra ea d => { opc := 0x13, ra, ea, m0 := d }
  | .rbRead ra ea => { opc := 0x14, ra, ea }
  | .rbWrite ra ea => { opc := 0x15, ra, ea }
  | .rbCut ra ea d => { opc := 0x16, ra, ea, m0 := d }
  | .rbMove ra ea rb eb d => { opc := 0x17, ra, rb, ea, eb, m0 := d }
  | .rbRotl ra dir => { opc := 0x18, ra, m0 := decide (dir = .right) }
  | .rbRotp ra => { opc := 0x19, ra }
  | .rbFull ra => { opc := 0x1A, ra }
  | .rbEmpty ra => { opc := 0x1B, ra }
  | .rbFlush ra => { opc := 0x1C, ra }
  | .fsMatch ra sel tie => { opc := 0x20, ra, m0 := decide (sel = .tailPat), m1 := decide (tie = .high) }
  | .fsSearch ra rb => { opc := 0x21, ra, rb }
  | .fsSrchadv ra rb g => { opc := 0x22, ra, rb, x := ⟨g.bits, (flags_bits_lt g).trans (by decide)⟩ }
  | .bsStuff ra => { opc := 0x30, ra }
  | .bsUnstuff ra => { opc := 0x31, ra }
  | .crcSeed => { opc := 0x40 }
  | .crcByte => { opc := 0x41 }
  | .crcRun ra => { opc := 0x42, ra }
  | .crcAppend ra => { opc := 0x43, ra }
  | .crcCheck ra => { opc := 0x44, ra }
  | .lpInit => { opc := 0x50 }
  | .lpSend ra ack => { opc := 0x51, ra, m0 := ack }
  | .lpRecv ra want => { opc := 0x52, ra, x := Fin.ofNat 128 want }

theorem putField_zero (p : Nat) : putField p 0 = 0#32 := by simp [putField]

theorem encode_eq_word (i : Instr) : encode i = (fieldsOf i).word := by
  cases i
  case rbRotl ra dir => cases dir <;> simp [encode, fieldsOf, FieldValues.word, putField_zero, End.bit, Dir.bit]
  case fsMatch ra sel tie =>
    cases sel <;> cases tie <;>
      simp [encode, fieldsOf, FieldValues.word, putField_zero, End.bit, Sel.bit, Tie.bit]
  all_goals simp [encode, fieldsOf, FieldValues.word, putField_zero, End.bit, putOpcRa]

/-- From the encoding of a command its row reads the command back. -/
theorem opcodeRow_encode {i : Instr} (h : i.wellFormed = true) :
    (opcodeRow (fieldOpc (encode i)) (encode i)).map Prod.snd = some i := by
  rw [encode_eq_word, fieldOpc_word]
  cases i
  case rbRotl ra dir => cases dir <;> simp [opcodeRow, fieldsOf, fieldRa_word, fieldDir, fieldM0_word]
  case fsMatch ra sel tie =>
    cases sel <;> cases tie <;>
      simp [opcodeRow, fieldsOf, fieldRa_word, fieldSel, fieldTie, fieldM0_word, fieldM1_word]
  case fsSrchadv ra rb g =>
    have hg : fieldFlags (fieldsOf (.fsSrchadv ra rb g)).word = g := fieldFlags_word rfl
    rw [fieldsOf] at hg
    simp [opcodeRow, fieldsOf, fieldRa_word, fieldRb_word, hg]
  case lpRecv ra want =>
    have hw : want < 128 := of_decide_eq_true h
    simp [opcodeRow, fieldsOf, fieldRa_word, fieldX_word, Nat.mod_eq_of_lt hw]
  all_goals
    simp [opcodeRow, fieldsOf, fieldRa_word, fieldRb_word, fieldEa_word, fieldEb_word, fieldM0_word]

/-- Settles O1: the row reads every field of the encoding back, and the encoder gives the word itself back. -/
theorem decodeInvertsEncode : Obligations.DecodeInvertsEncode := by
  intro i h
  obtain ⟨⟨f, j⟩, hrow, hj⟩ := Option.map_eq_some_iff.mp (opcodeRow_encode h)
  obtain rfl : j = i := hj
  exact decode_ok_iff_encode.mpr ⟨⟨f, hrow⟩, rfl⟩

/-- Settles O4: each word, evaluated. -/
theorem specWordsDecode : Obligations.SpecWordsDecode := ⟨rfl, rfl, rfl, rfl, rfl, rfl⟩

/-! ## A word that spells no command (R67) -/

theorem engineStep_illegal {s : State} {e : DecodeError} (hp : s.phase = .fetch) (hd : decode s.cmd = .error e) :
    engineStep s = .next s.illegal := by
  simp [engineStep, hp, executeLatched, hd, goOn]

theorem illegal_eq (s : State) : s.illegal = { s with phase := .idle, status := s.status.after .illegal true } := by
  simp [State.illegal, State.completeKeep, Status.complete, Status.after]

/-- Settles O6: the engine's step is the ILLEGAL completion. -/
theorem illegalWordChangesOnlyStatus : Obligations.IllegalWordChangesOnlyStatus := by
  intro s e hp ha hd
  rw [step_engine ha, engineStep_illegal hp hd, illegal_eq]

end Sys2Proof.Machine

namespace Sys2Proof.Machine

/-! ## NOP, RB_INIT and the queries (R75, R76, R86, R87, R88) -/

/-- A word with OPC 0x00 that is accepted is the word 0 (R67, R68). -/
theorem eq_zero_of_decode_opc_zero {w : Word} {i : Instr} (hopc : w.extractLsb' 0 8 = 0x00#8) (hd : decode w = .ok i) :
    w = 0#32 := by
  obtain ⟨⟨f, hrow⟩, henc⟩ := decode_ok_iff_encode.mp hd
  have h0 : fieldOpc w = 0 := by rw [fieldOpc, hopc]; rfl
  rw [h0] at hrow
  obtain ⟨_, rfl⟩ := Prod.mk.inj (Option.some.inj hrow)
  exact henc.symm

/-- Settles O22: NOP is a completion with OK, and 0 is the one accepted word with its OPC. -/
theorem nopChangesOnlyStatus : Obligations.NopChangesOnlyStatus := by
  refine ⟨fun s => ?_, rfl, fun w hopc hne => ?_⟩
  · simp [exec, execNop, goOn, State.completeKeep, Status.complete, Status.after]
  · cases hd : decode w with
    | error e => exact ⟨e, rfl⟩
    | ok i => exact absurd (eq_zero_of_decode_opc_zero hopc hd) hne

/-- Settles O23: the PARAM branch is that of O21, the other one binds the storage. -/
theorem rbInitBindsStorage : Obligations.RbInitBindsStorage := by
  refine fun s ra hz => ⟨fun h => param_of_check h, fun hcount htop => ?_⟩
  have hok : ¬ (s.arg2 > s.arg1 ∨ s.argAddr + s.arg1 > 2 ^ s.addrW) := by omega
  calc exec (.rbInit ra) s
      = .next ((s.setRb ra { base := s.argAddr, cap := s.arg1, count := s.arg2, start := 0 }).finish 1 0 0 0) := if_neg hok
    _ = _ := congrArg _ (finish_eq_okDone (by exact hz) _ _ _ _)

/-- A command with one check and no MEM access, for a state that no host write has raced with (R71, R131). -/
theorem checked_eq_ite {c : Prop} [Decidable c] {s t : State} (hz : t.hazard = false) (n : Nat) :
    (if c then goOn s.raiseParam else goOn (t.finish n 0 0 0)) = .next (if c then s.paramDone else t.okDone (quadOf n 0 0 0)) := by
  rw [raiseParam_eq_paramDone, finish_eq_okDone hz]
  exact (apply_ite Host.Outcome.next c _ _).symm

/-- Settles O34: each of the three is its check and its one result. -/
theorem queriesAndFlush : Obligations.QueriesAndFlush :=
  fun s ra hz => ⟨checked_eq_ite hz _, checked_eq_ite hz _, checked_eq_ite (t := s.flushRb ra) hz _⟩

end Sys2Proof.Machine

namespace Sys2Proof.Machine

/-! ## What a ring command leaves alone (R71)

`Works l s t` is `Kept l s t` without the soundness of the write log, which `Ready` does not give, and with LS_LASTRX and
ACKFAIL among what stays; where its writes go is said by `MemKeptBut`. -/

/-- `t` comes from `s` by MEM writes and by work on the descriptors of the rings of `l`. -/
structure Works (l : List RingIx) (s t : State) : Prop where
  frozen : t.frozen = s.frozen
  ls : t.ls = s.ls
  status : t.status = s.status
  memOk : MemOk t
  others : ∀ j, j ∉ l → t.rb j = s.rb j

namespace Works

variable {l : List RingIx} {s t u : State}

theorem refl (l : List RingIx) (h : MemOk s) : Works l s s := ⟨rfl, rfl, rfl, h, fun _ _ => rfl⟩

theorem trans (h : Works l s t) (h' : Works l t u) : Works l s u :=
  ⟨h'.frozen.trans h.frozen, h'.ls.trans h.ls, h'.status.trans h.status, h'.memOk,
    fun j hj => (h'.others j hj).trans (h.others j hj)⟩

theorem mono {l' : List RingIx} (h : Works l s t) (hl : ∀ r ∈ l, r ∈ l') : Works l' s t :=
  ⟨h.frozen, h.ls, h.status, h.memOk, fun j hj => h.others j (fun hjl => hj (hl j hjl))⟩

theorem store (h : Works l s t) (a : Nat) (b : Byte) : Works l s (t.store a b) :=
  ⟨h.frozen, h.ls, h.status, t.store_memOk a b h.memOk, h.others⟩

theorem wr (h : Works l s t) (i : RingIx) (v : Nat) (b : Byte) : Works l s (t.wr i v b) := h.store _ b

theorem setRb (h : Works l s t) {i : RingIx} (hi : i ∈ l) (d : Desc) : Works l s (t.setRb i d) :=
  ⟨h.frozen, h.ls, h.status, h.memOk,
    fun j hj => (t.rb_setRb_ne i j d (fun e => hj (e ▸ hi))).trans (h.others j hj)⟩

theorem dropEnd (h : Works l s t) {i : RingIx} (hi : i ∈ l) (e : End) : Works l s (t.dropEnd i e) := by
  cases e with
  | tail => exact h.setRb hi _
  | head => exact h.setRb hi _

theorem pushEnd (h : Works l s t) {i : RingIx} (hi : i ∈ l) (e : End) (b : Byte) : Works l s (t.pushEnd i e b) := by
  cases e with
  | tail => exact (h.store _ b).setRb hi _
  | head => exact ((h.setRb hi (t.rb i).stepBack).store _ b).setRb hi _

theorem copyOut (h : Works l s t) (i : RingIx) (a f k : Nat) : Works l s (copyOut i a f k t) :=
  forUp_keeps (Works l s) _ k 0 t (fun _ _ _ _ hu => hu.store _ _) h

theorem addrW (h : Works l s t) : t.addrW = s.addrW := addrW_of_frozen h.frozen
theorem hazard (h : Works l s t) : t.hazard = s.hazard := congrArg (fun x => x.hazard) h.frozen
theorem wrap (h : Works l s t) (a : Nat) : t.wrap a = s.wrap a := by rw [State.wrap, State.wrap, h.addrW]
theorem load (h : Works l s t) (hz : s.hazard = false) (a : Nat) : t.load a = t.mem.read (s.wrap a) := by
  rw [t.load_plain a (h.hazard.trans hz), h.wrap]

/-- The ring commands read plain data throughout. -/
theorem plain (h : Works l s t) (hz : s.hazard = false) {i : RingIx} (hi : (t.rb i).Ok s.addrW) : Plain t i :=
  ⟨h.hazard.trans hz, h.memOk.1, by rw [h.addrW]; exact hi⟩

/-- The completion with OK of a ring command. -/
theorem completed (h : Works l s t) (hz : s.hazard = false) (a b c d : Nat) :
    Completed s (t.finish a b c d) .ok (quadOf a b c d) := by
  refine ⟨rfl, t.finish_res a b c d (h.hazard.trans hz), rfl, rfl, ?_, ?_, ?_⟩
  · rw [State.finish_status, Status.complete_err, h.status]
  · rw [State.finish_status, Status.complete_ovr, h.status]
  · rw [State.finish_status, Status.complete_ackFail, h.status]

theorem onlyRings (h : Works l s t) (a b c d : Nat) : OnlyRings l s (t.finish a b c d) := by
  have henv : t.env = s.env := congrArg (fun x => x.env) h.frozen
  have hcrc : t.crcAcc = s.crcAcc := congrArg (fun x => x.crcAcc) h.frozen
  refine ⟨hostKept_of_hostPart ((t.finish_hostPart a b c d).trans (hostPart_of_frozen h.frozen)), ⟨h.ls, henv, ?_⟩, hcrc, fun j hj => ?_⟩
  · rw [State.finish_status, Status.complete_ackFail, h.status]
  · exact h.others j (by simpa using hj)

end Works

/-! ## RB_READ (R73, R80) -/

theorem not_badLen {d : Desc} {n : Nat} (hc : 0 < d.cap) (hn : 0 < n) : ¬ badLen d n = true := by
  rw [badLen_iff]
  omega

theorem not_badRange {d : Desc} {n o : Nat} (hc : 0 < d.cap) (hn : 0 < n) (ho : o < d.count) : ¬ badRange d n o = true := by
  rw [badRange_iff]
  omega

/-- The range of R73 lies in the content. -/
theorem range_le {e : End} {n o cnt k f : Nat} (ho : o < cnt) (hk : k = min n (cnt - o))
    (hf : f = rangeFirst e cnt o k) : f + k ≤ cnt := by
  cases e with
  | head => simp only [rangeFirst] at hf; omega
  | tail => simp only [rangeFirst] at hf; omega

/-- Settles O27: the copy fills the block, and no descriptor moves. -/
theorem rbReadCopiesRange : Obligations.RbReadCopiesRange := by
  rintro s ra ea ⟨hrings, hmem, hz⟩ hc hn ho k f hk hf
  have hfirst : f = rangeFirst ea (s.rb ra).count s.arg2 k := by cases ea <;> exact hf
  have hexec : exec (.rbRead ra ea) s = .next ((copyOut ra s.argAddr f k s).finish k 0 0 0) := by
    rw [hfirst, hk]
    exact if_neg (not_badRange hc hn ho)
  have hp : Plain s ra := ⟨hz, hmem.1, hrings ra⟩
  have hw := (Works.refl [] hmem).copyOut ra s.argAddr f k
  refine ⟨_, hexec, hw.completed hz _ _ _ _, hw.onlyRings _ _ _ _, copyOut_outside ra s.argAddr f k hmem.1, fun ha => ⟨?_, ?_⟩⟩
  · exact copyOut_content f hp hc ha
  · exact (copyOut_block f hp hc ha).trans (s.slice_eq_content ra f k (range_le ho hk hfirst))

end Sys2Proof.Machine

namespace Sys2Proof.Machine

/-! ## Overwriting elements of a ring (R81, R82) -/

/-- The byte that a command that worked on rings `l` reads in a ring whose descriptor stayed, after one more WR (R16). -/
theorem Works.rd_wr {l : List RingIx} {s t : State} (h : Works l s t) (hz : s.hazard = false) {i : RingIx}
    (hi : t.rb i = s.rb i) (hok : (s.rb i).Ok s.addrW) {u v : Nat} (hu : u < (s.rb i).cap) (hv : v < (s.rb i).cap) (b : Byte) :
    (t.wr i v b).rd i u = if u = v then b else t.rd i u :=
  t.rd_wr i u v b (by rwa [hi]) (by rwa [hi]) (h.plain hz (by rwa [hi]))

/-- One more WR to a ring whose descriptor stayed, to a slot that may change. -/
theorem MemKeptBut.wr {f : Nat → Nat} {n : Nat} {l : List RingIx} {s t : State} (h : MemKeptBut f n s t) (hw : Works l s t)
    {i : RingIx} (hi : t.rb i = s.rb i) (hok : (s.rb i).Ok s.addrW) (hc : 0 < (s.rb i).cap) {m v : Nat} (hm : m < n)
    (hv : f m = (s.rb i).addr v) (b : Byte) : MemKeptBut f n s (t.wr i v b) := by
  intro x hx
  have hne : x ≠ t.wrap ((t.rb i).addr v) := by
    rw [hw.wrap, hi, s.wrap_addr i v hc hok, ← hv]
    exact hx m hm
  rw [State.wr, t.read_store _ _ _ hw.memOk.1, if_neg hne]
  exact h x hx

/-- A data block apart from a ring holds no element of it. -/
theorem BlockApart.wrap_ne_addr {s : State} {a n : Nat} {i : RingIx} (h : BlockApart s a n i) (hc : 0 < (s.rb i).cap) {j : Nat}
    (hj : j < n) (v : Nat) : s.wrap (a + j) ≠ (s.rb i).addr v := by
  intro he
  have := h.2 j hj
  rw [he, Desc.addr_holds _ v hc] at this
  cases this

/-! ## RB_WRITE (R81) -/

/-- What is in a ring while the first `j` bytes of the block have come in from virtual index `f` up. -/
def overwritten (s : State) (i : RingIx) (a f j u : Nat) : Byte :=
  if f ≤ u ∧ u < f + j then s.mem.read (s.wrap (a + (u - f))) else s.rd i u

theorem overwritten_succ (s : State) (i : RingIx) (a f j u : Nat) :
    overwritten s i a f (j + 1) u = if u = f + j then s.mem.read (s.wrap (a + j)) else overwritten s i a f j u := by
  unfold overwritten
  by_cases hu : u = f + j
  · subst hu
    simp
  · rw [if_neg hu]
    exact if_congr (by omega) rfl rfl

/-- The bytes of the block come into the ring one by one; if the block is apart from the ring, they are its bytes (R81). -/
theorem copyIn_spec {i : RingIx} (a : Nat) {f k : Nat} {s : State} (hr : Ready s) (hc : 0 < (s.rb i).cap)
    (hfit : f + k ≤ (s.rb i).cap) :
    Works [] s (copyIn i a f k s) ∧ MemKeptBut (fun j => (s.rb i).addr (f + j)) k s (copyIn i a f k s) ∧
      (BlockApart s a k i → ∀ u, u < (s.rb i).cap → (copyIn i a f k s).rd i u = overwritten s i a f k u) := by
  obtain ⟨hrings, hmem, hz⟩ := hr
  have := forUp_index (fun j t => Works [] s t ∧ MemKeptBut (fun j => (s.rb i).addr (f + j)) k s t ∧
      (BlockApart s a k i → ∀ u, u < (s.rb i).cap → t.rd i u = overwritten s i a f j u))
    (fun j t => t.wr i (f + j) (t.load (a + j))) k 0 s
    (fun j t _ hj ht => by
      obtain ⟨hw, hslots, hrd⟩ := ht
      have hi : t.rb i = s.rb i := hw.others i (List.not_mem_nil)
      refine ⟨hw.wr _ _ _, hslots.wr hw hi (hrings i) hc (show j < k by omega) rfl _, fun ha u hu => ?_⟩
      have hbyte : t.load (a + j) = s.mem.read (s.wrap (a + j)) :=
        (hw.load hz _).trans (hslots _ (fun m _ => ha.wrap_ne_addr hc (by omega) _))
      rw [hw.rd_wr hz hi (hrings i) hu (by omega), hrd ha u hu, hbyte, overwritten_succ])
    ⟨Works.refl [] hmem, fun _ _ => rfl, fun _ u _ => by simp [overwritten]⟩
  rwa [Nat.zero_add] at this

/-- A part of a content replaced by the bytes of a block. -/
theorem content_overwritten {s t : State} {i : RingIx} {a f k : Nat} (hfit : f + k ≤ (s.rb i).count)
    (hcount : (t.rb i).count = (s.rb i).count) (hrd : ∀ u, u < (s.rb i).count → t.rd i u = overwritten s i a f k u) :
    t.content i = (s.content i).take f ++ s.block a k ++ (s.content i).drop (f + k) := by
  apply List.ext_getElem
  · simp [State.block, hcount]
    omega
  · intro u hu _
    rw [State.content_length, hcount] at hu
    rw [State.content_getElem, hrd u hu, overwritten]
    simp only [List.getElem_append, List.getElem_take, List.getElem_drop, State.content_getElem, List.length_append,
      List.length_take, State.content_length, State.block, List.length_map, List.length_range, List.getElem_map,
      List.getElem_range]
    grind

theorem exec_rbWrite {s : State} {ra : RingIx} {ea : End} (hc : 0 < (s.rb ra).cap) (hn : 0 < s.arg1)
    (ho : s.arg2 < (s.rb ra).count) {k f : Nat} (hk : k = min s.arg1 ((s.rb ra).count - s.arg2))
    (hf : f = rangeFirst ea (s.rb ra).count s.arg2 k) :
    exec (.rbWrite ra ea) s = .next ((copyIn ra s.argAddr f k s).finish k 0 0 0) := by
  rw [hf, hk]
  exact if_neg (not_badRange hc hn ho)

/-- Settles O28: the copy replaces the range, and no descriptor moves. -/
theorem rbWriteReplacesRange : Obligations.RbWriteReplacesRange := by
  rintro s ra ea hr hc hn ho k f hk hf
  have hfirst : f = rangeFirst ea (s.rb ra).count s.arg2 k := by cases ea <;> exact hf
  have hfit := range_le ho hk hfirst
  have hcount : (s.rb ra).count ≤ (s.rb ra).cap := (hr.1 ra).1
  obtain ⟨hw, hslots, hrd⟩ := copyIn_spec s.argAddr hr hc (hfit.trans hcount)
  refine ⟨_, exec_rbWrite hc hn ho hk hfirst, hw.completed hr.2.2 _ _ _ _, hw.onlyRings _ _ _ _, hslots, fun ha => ?_⟩
  exact content_overwritten hfit (congrArg Desc.count (hw.others ra List.not_mem_nil) :) (fun u hu => hrd ha u (hu.trans_le hcount))

/-! ## RB_CUT (R82) -/

/-- What is in a ring while the elements `j .. f-1` have moved `k` slots towards the tail. -/
def movedUp (s : State) (i : RingIx) (f k j u : Nat) : Byte :=
  if j + k ≤ u ∧ u < f + k then s.rd i (u - k) else s.rd i u

theorem movedUp_succ (s : State) (i : RingIx) {f k j : Nat} (hj : j < f) (u : Nat) :
    movedUp s i f k j u = if u = j + k then s.rd i j else movedUp s i f k (j + 1) u := by
  unfold movedUp
  by_cases hu : u = j + k
  · subst hu
    simp [hj]
  · rw [if_neg hu]
    exact if_congr (by omega) rfl rfl

/-- The head-side span moves towards the tail, the last element first (R82). -/
theorem moveUp_spec {i : RingIx} {f k : Nat} {s : State} (hr : Ready s) (hc : 0 < (s.rb i).cap) (hk : 0 < k)
    (hfit : f + k ≤ (s.rb i).cap) {t : State} (ht : t = forDown (fun j t => t.wr i (j + k) (t.rd i j)) f 0 s) :
    Works [] s t ∧ MemKeptBut (fun j => (s.rb i).addr (k + j)) f s t ∧
      ∀ u, u < (s.rb i).cap → t.rd i u = movedUp s i f k 0 u := by
  obtain ⟨hrings, hmem, hz⟩ := hr
  rw [ht]
  refine forDown_index (fun j t => Works [] s t ∧ MemKeptBut (fun j => (s.rb i).addr (k + j)) f s t ∧
      ∀ u, u < (s.rb i).cap → t.rd i u = movedUp s i f k j u) _ f 0 s (fun j t _ hj ht => ?_)
    ⟨Works.refl [] hmem, fun _ _ => rfl, fun u _ => ?_⟩
  · obtain ⟨hw, hslots, hrd⟩ := ht
    have hi : t.rb i = s.rb i := hw.others i List.not_mem_nil
    refine ⟨hw.wr _ _ _, hslots.wr hw hi (hrings i) hc (show j < f by omega) (by rw [Nat.add_comm]) _, fun u hu => ?_⟩
    have hbyte : t.rd i j = s.rd i j := (hrd j (by omega)).trans (if_neg (by omega))
    rw [hw.rd_wr hz hi (hrings i) hu (by omega), hrd u hu, hbyte]
    exact (movedUp_succ s i (by omega) u).symm
  · exact (if_neg (by omega)).symm

/-- What is in a ring while the elements from `f + k` up to `j` have moved `k` slots towards the head. -/
def movedDown (s : State) (i : RingIx) (f k j u : Nat) : Byte :=
  if f ≤ u ∧ u + k < j then s.rd i (u + k) else s.rd i u

theorem movedDown_succ (s : State) (i : RingIx) {f k j : Nat} (hj : f + k ≤ j) (u : Nat) :
    movedDown s i f k (j + 1) u = if u = j - k then s.rd i j else movedDown s i f k j u := by
  unfold movedDown
  by_cases hu : u = j - k
  · rw [if_pos hu, if_pos (by omega), hu, Nat.sub_add_cancel (by omega)]
  · rw [if_neg hu]
    exact if_congr (by omega) rfl rfl

/-- The tail-side span moves towards the head, the first element first (R82). -/
theorem moveDown_spec {i : RingIx} {f k n : Nat} {s : State} (hr : Ready s) (hc : 0 < (s.rb i).cap) (hk : 0 < k)
    (hfit : f + k + n ≤ (s.rb i).cap) {t : State} (ht : t = forUp (fun j t => t.wr i (j - k) (t.rd i j)) n (f + k) s) :
    Works [] s t ∧ MemKeptBut (fun j => (s.rb i).addr (f + j)) n s t ∧
      ∀ u, u < (s.rb i).cap → t.rd i u = movedDown s i f k (f + k + n) u := by
  obtain ⟨hrings, hmem, hz⟩ := hr
  rw [ht]
  refine forUp_index (fun j t => Works [] s t ∧ MemKeptBut (fun j => (s.rb i).addr (f + j)) n s t ∧
      ∀ u, u < (s.rb i).cap → t.rd i u = movedDown s i f k j u) _ n (f + k) s (fun j t hlo hj ht => ?_)
    ⟨Works.refl [] hmem, fun _ _ => rfl, fun u _ => ?_⟩
  · obtain ⟨hw, hslots, hrd⟩ := ht
    have hi : t.rb i = s.rb i := hw.others i List.not_mem_nil
    refine ⟨hw.wr _ _ _, hslots.wr hw hi (hrings i) hc (show j - k - f < n by omega) ?_ _, fun u hu => ?_⟩
    · rw [show f + (j - k - f) = j - k by omega]
    have hbyte : t.rd i j = s.rd i j := (hrd j (by omega)).trans (if_neg (by omega))
    rw [hw.rd_wr hz hi (hrings i) hu (by omega), hrd u hu, hbyte]
    exact (movedDown_succ s i hlo u).symm
  · exact (if_neg (by omega)).symm

/-- A ring without its elements `f .. f+k-1`: the head-side span has moved up and the head follows it (R82). -/
theorem drop_content_movedUp {s t : State} {i : RingIx} {f k : Nat} (hfit : f + k ≤ (s.rb i).count)
    (hcount : (t.rb i).count = (s.rb i).count) (hrd : ∀ u, u < (s.rb i).count → t.rd i u = movedUp s i f k 0 u) :
    (t.content i).drop k = (s.content i).take f ++ (s.content i).drop (f + k) := by
  apply List.ext_getElem
  · simp [hcount]
    omega
  · intro u hu _
    rw [List.length_drop, State.content_length, hcount] at hu
    rw [List.getElem_drop, State.content_getElem, hrd _ (by omega), movedUp]
    simp only [List.getElem_append, List.getElem_take, List.getElem_drop, State.content_getElem, List.length_take,
      State.content_length]
    grind

/-- A ring without its elements `f .. f+k-1`: the tail-side span has moved down and the tail follows it (R82). -/
theorem take_content_movedDown {s t : State} {i : RingIx} {f k : Nat} (hfit : f + k ≤ (s.rb i).count)
    (hcount : (t.rb i).count = (s.rb i).count)
    (hrd : ∀ u, u < (s.rb i).count → t.rd i u = movedDown s i f k (s.rb i).count u) :
    (t.content i).take ((s.rb i).count - k) = (s.content i).take f ++ (s.content i).drop (f + k) := by
  apply List.ext_getElem
  · simp [hcount]
    omega
  · intro u hu _
    rw [List.length_take, State.content_length, hcount] at hu
    rw [List.getElem_take, State.content_getElem, hrd _ (by omega), movedDown]
    simp only [List.getElem_append, List.getElem_take, List.getElem_drop, State.content_getElem, List.length_take,
      State.content_length]
    grind

end Sys2Proof.Machine

namespace Sys2Proof.Machine

/-- What a ring command makes of a state it can run on is one again, if R15 holds of the rings it works on. -/
theorem Works.ready {l : List RingIx} {s t : State} (h : Works l s t) (hr : Ready s) (hl : ∀ i ∈ l, (t.rb i).Ok s.addrW) :
    Ready t := by
  refine ⟨fun i => ?_, h.memOk, h.hazard.trans hr.2.2⟩
  rw [h.addrW]
  by_cases hi : i ∈ l
  · exact hl i hi
  · rw [h.others i hi]
    exact hr.1 i

/-- A block that no write goes to reads as before. -/
theorem Works.block_eq {l : List RingIx} {s t : State} (h : Works l s t) {a n : Nat}
    (hm : ∀ j, j < n → t.mem.read (s.wrap (a + j)) = s.mem.read (s.wrap (a + j))) : t.block a n = s.block a n :=
  List.map_congr_left (fun j hj => by rw [h.wrap]; exact hm j (List.mem_range.mp hj))

/-- Which slot the `j`-th element of the moved span lands on (R82). -/
def cutSlot (d : Desc) (f k j : Nat) : Nat := d.addr (if f ≤ d.count - f - k then k + j else f + j)

/-- The shorter span moves, and the descriptor follows from its side (R82). -/
theorem cutRange_spec {i : RingIx} {f k : Nat} {s : State} (hr : Ready s) (hc : 0 < (s.rb i).cap) (hk : 0 < k)
    (hfit : f + k ≤ (s.rb i).count) :
    Works [i] s (cutRange i f k s) ∧
      (cutRange i f k s).rb i = (s.rb i).pull (if f ≤ (s.rb i).count - f - k then .head else .tail) k ∧
      MemKeptBut (cutSlot (s.rb i) f k) (min f ((s.rb i).count - f - k)) s (cutRange i f k s) ∧
      (cutRange i f k s).content i = (s.content i).take f ++ (s.content i).drop (f + k) := by
  have hcount : (s.rb i).count ≤ (s.rb i).cap := (hr.1 i).1
  by_cases hside : f ≤ (s.rb i).count - f - k
  · -- the head-side span
    obtain ⟨t, ht⟩ : ∃ t, t = forDown (fun j t => t.wr i (j + k) (t.rd i j)) f 0 s := ⟨_, rfl⟩
    have hcut : cutRange i f k s = t.setRb i ((s.rb i).pull .head k) := by rw [ht]; exact if_pos hside
    obtain ⟨hw, hslots, hrd⟩ := moveUp_spec hr hc hk (hfit.trans hcount) ht
    have hi : t.rb i = s.rb i := hw.others i List.not_mem_nil
    rw [hcut, if_pos hside, Nat.min_eq_left hside]
    refine ⟨(hw.mono (by simp)).setRb (List.mem_singleton.mpr rfl) _, t.rb_setRb_same i _, fun x hx => ?_, ?_⟩
    · exact hslots x (fun j hj => by simpa only [cutSlot, if_pos hside] using hx j hj)
    · rw [← hi, content_setRb_pull t i .head (by rw [hi]; omega)]
      exact drop_content_movedUp hfit (by rw [hi]) (fun u hu => hrd u (hu.trans_le hcount))
  · -- the tail-side span
    obtain ⟨t, ht⟩ : ∃ t, t = forUp (fun j t => t.wr i (j - k) (t.rd i j)) ((s.rb i).count - f - k) (f + k) s := ⟨_, rfl⟩
    have hcut : cutRange i f k s = t.setRb i ((s.rb i).pull .tail k) := by rw [ht]; exact if_neg hside
    obtain ⟨hw, hslots, hrd⟩ := moveDown_spec hr hc hk (by omega) ht
    have hi : t.rb i = s.rb i := hw.others i List.not_mem_nil
    rw [show f + k + ((s.rb i).count - f - k) = (s.rb i).count by omega] at hrd
    rw [hcut, if_neg hside, Nat.min_eq_right (by omega)]
    refine ⟨(hw.mono (by simp)).setRb (List.mem_singleton.mpr rfl) _, t.rb_setRb_same i _, fun x hx => ?_, ?_⟩
    · exact hslots x (fun j hj => by simpa only [cutSlot, if_neg hside] using hx j hj)
    · rw [← hi, content_setRb_pull t i .tail (by rw [hi]; omega), hi]
      exact take_content_movedDown hfit (by rw [hi]) (fun u hu => hrd u (hu.trans_le hcount))

/-- RB_CUT whose checks pass; with DISCARD nothing is copied out (R82). -/
theorem exec_rbCut {s : State} {ra : RingIx} {ea : End} {discard : Bool} (hc : 0 < (s.rb ra).cap) (hn : 0 < s.arg1)
    (ho : s.arg2 < (s.rb ra).count) {k f : Nat} (hk : k = min s.arg1 ((s.rb ra).count - s.arg2))
    (hf : f = rangeFirst ea (s.rb ra).count s.arg2 k) :
    exec (.rbCut ra ea discard) s = .next ((cutRange ra f k (copyOut ra s.argAddr f (if discard then 0 else k) s)).finish
      k (min f ((s.rb ra).count - f - k)) 0 0) := by
  have hb := not_badRange hc hn ho
  rw [hf, hk]
  cases discard
  · exact if_neg hb
  · exact if_neg hb

/-- A discarded block is no block, and so apart from everything. -/
theorem BlockApart.of_discard {discard : Bool} {s : State} {a k : Nat} {i : RingIx} (h : discard = true ∨ BlockApart s a k i) :
    BlockApart s a (if discard then 0 else k) i := by
  cases discard with
  | false => exact h.resolve_left Bool.false_ne_true
  | true => exact ⟨Nat.zero_le _, fun j hj => absurd hj (Nat.not_lt_zero j)⟩

/-- Settles O29: the copy fills the block, and the cut closes the gap. -/
theorem rbCutRemovesRange : Obligations.RbCutRemovesRange := by
  rintro s ra ea discard hr hc hn ho k f hk hf
  have hfirst : f = rangeFirst ea (s.rb ra).count s.arg2 k := by cases ea <;> exact hf
  have hfit := range_le ho hk hfirst
  have hp : Plain s ra := ⟨hr.2.2, hr.2.1.1, hr.1 ra⟩
  have hexec := exec_rbCut (discard := discard) hc hn ho hk hfirst
  obtain ⟨n, hcopied⟩ : ∃ n, n = if discard then 0 else k := ⟨_, rfl⟩
  have hapart : discard = true ∨ BlockApart s s.argAddr k ra → BlockApart s s.argAddr n ra := fun h =>
    hcopied ▸ BlockApart.of_discard h
  -- the copy
  have hout := copyOut_outside ra s.argAddr f n hr.2.1.1
  have hcont := fun h => copyOut_content f hp hc (hapart h)
  have hblock := fun h => copyOut_block f hp hc (hapart h)
  have hcopy := (Works.refl [] hr.2.1).copyOut ra s.argAddr f n
  rw [← hcopied] at hexec
  generalize copyOut ra s.argAddr f n s = u at hexec hout hcont hblock hcopy
  have hi : u.rb ra = s.rb ra := hcopy.others ra List.not_mem_nil
  -- the cut
  obtain ⟨hcut, hrb, hslots, hgap⟩ := cutRange_spec (hcopy.ready hr (by simp)) (by rwa [hi]) (show 0 < k by omega)
    (by rwa [hi])
  have hw : Works [ra] s (cutRange ra f k u) := (hcopy.mono (by simp)).trans hcut
  rw [hi] at hrb hslots
  refine ⟨_, hexec, hw.completed hr.2.2 _ _ _ _, hw.onlyRings _ _ _ _, ?_, fun x hx hx' => ?_, fun h => ?_, fun hd h => ?_⟩
  · rw [State.finish_rb, hrb]
    split <;> rfl
  · refine (hslots x hx').trans (hout x (fun j hj => ?_))
    rw [hcopied] at hj
    rcases hx with rfl | hx
    · exact absurd hj (Nat.not_lt_zero j)
    · exact hx j (by split at hj <;> omega)
  · rw [State.finish_content, hgap, hcont h]
  · obtain rfl : n = k := by rw [hcopied, hd]; rfl
    have hkeep : (cutRange ra f n u).block s.argAddr n = u.block s.argAddr n :=
      hcut.block_eq (fun j hj => hslots _ (fun m _ => by rw [hcopy.wrap]; exact h.wrap_ne_addr hc hj _))
    exact hkeep.trans ((hblock (.inr h)).trans (s.slice_eq_content ra f n hfit))

end Sys2Proof.Machine

namespace Sys2Proof.Machine

/-! ## RB_ROTP (R85) -/

theorem Works.storeSlots {l : List RingIx} {s t : State} (h : Works l s t) (d : Desc) (sh i : Nat) (bytes : List Byte) :
    Works l s (storeSlots d sh i bytes t) := by
  induction bytes generalizing i t with
  | nil => exact h
  | cons b bs ih => exact ih (h.store _ b) (i + 1)

/-- Slots that are apart stay apart when they move on together, modulo CAP. -/
theorem Desc.shifted_inj (d : Desc) (sh : Nat) {i j : Nat} (hi : i < d.cap) (hj : j < d.cap) :
    (i + sh) % d.cap = (j + sh) % d.cap ↔ i = j := by
  rw [Nat.add_comm i, Nat.add_comm j]
  exact Desc.phys_inj { d with start := sh } i j hi hj

/-- Bytes stored for the slots from `i` up, `sh` slots on: each lands where its slot goes, and no other slot changes. -/
theorem storeSlots_read {d : Desc} (sh : Nat) (g : Nat → Byte) {i n : Nat} (hn : i + n ≤ d.cap) {s : State}
    (hz : s.hazard = false) (hm : s.mem.wf = true) (htop : d.base + d.cap ≤ 2 ^ s.addrW) {j : Nat} (hj : j < d.cap) :
    (storeSlots d sh i ((List.range' i n).map g) s).mem.read (d.base + (j + sh) % d.cap) =
      if i ≤ j ∧ j < i + n then g j else s.mem.read (d.base + (j + sh) % d.cap) := by
  induction n generalizing i s with
  | zero => exact (if_neg (by omega)).symm
  | succ n ih =>
    have hlt := Nat.mod_lt (i + sh) (show 0 < d.cap by omega)
    rw [List.range'_succ, List.map_cons, storeSlots, ih (s := s.store _ _) (by omega) hz (s.store_wf _ _ hm) htop,
      s.read_store _ _ _ hm, s.wrap_of_lt (d.base + (i + sh) % d.cap) (by omega), s.storedByte_plain _ _ hz]
    have hslot : d.base + (j + sh) % d.cap = d.base + (i + sh) % d.cap ↔ j = i := by
      rw [Nat.add_left_cancel_iff, d.shifted_inj sh hj (by omega)]
    by_cases hji : j = i
    · rw [if_neg (by omega), if_pos (hslot.mpr hji), if_pos (by omega), hji]
    · rw [if_neg (fun h => hji (hslot.mp h))]
      exact if_congr (by omega) rfl rfl

/-- Every slot has moved `sh` slots on (R85). -/
theorem rotateStorage_read {i : RingIx} (sh : Nat) {s : State} (hr : Ready s) {j : Nat} (hj : j < (s.rb i).cap) :
    (rotateStorage (s.rb i) sh s).mem.read ((s.rb i).base + (j + sh) % (s.rb i).cap) = s.mem.read ((s.rb i).base + j) := by
  obtain ⟨hrings, hmem, hz⟩ := hr
  obtain ⟨_, _, _, htop, _⟩ := hrings i
  rw [rotateStorage, List.range_eq_range', storeSlots_read sh _ (by omega) hz hmem.1 htop hj, if_pos (by omega),
    s.load_plain _ hz, s.wrap_of_lt _ (by omega)]

/-- Element `v` moves with its slot: from where it stood behind START to where it stands behind the new START (R85). -/
theorem rotpShift_phys (d : Desc) {ns : Nat} (hst : d.start < d.cap) (v : Nat) :
    (d.phys v + rotpShift d ns) % d.cap = (ns + v) % d.cap := by
  rw [Desc.phys, rotpShift, Nat.mod_add_mod, Nat.add_mod_mod,
    show d.start + v + (ns + d.cap - d.start) = ns + v + d.cap by omega, Nat.add_mod_right]

/-- `t` is `s` with the storage of RBi rotated so that virtual 0 stands at slot `ns` (R85). -/
structure Rotated (i : RingIx) (ns : Nat) (s t : State) : Prop where
  works : Works [i] s t
  desc : t.rb i = { s.rb i with start := ns }
  outside : MemKeptOutsideRing i s t
  slots : ∀ j, j < (s.rb i).cap →
    t.mem.read ((s.rb i).base + (j + rotpShift (s.rb i) ns) % (s.rb i).cap) = s.mem.read ((s.rb i).base + j)

/-- RB_ROTP whose checks pass is a rotation and a completion. -/
theorem exec_rbRotp {s : State} {ra : RingIx} (hr : Ready s) (hc : 0 < (s.rb ra).cap) (hns : s.arg1 < (s.rb ra).cap) :
    ∃ t, exec (.rbRotp ra) s = .next (t.finish 1 (rotpShift (s.rb ra) s.arg1) 0 0) ∧ Rotated ra s.arg1 s t := by
  obtain ⟨_, _, _, htop, _⟩ := hr.1 ra
  exact ⟨(rotateStorage (s.rb ra) (rotpShift (s.rb ra) s.arg1) s).setRb ra { s.rb ra with start := s.arg1 },
    if_neg (by omega), ((Works.refl [ra] hr.2.1).storeSlots _ _ _ _).setRb (List.mem_singleton.mpr rfl) _,
    State.rb_setRb_same _ _ _, fun a ha => storeSlots_outside hc _ _ _ hr.2.1.1 htop ha,
    fun j hj => rotateStorage_read _ hr hj⟩

theorem Rotated.ok {i : RingIx} {ns : Nat} {s t : State} (h : Rotated i ns s t) (hr : Ready s) (hns : ns < (s.rb i).cap) :
    (t.rb i).Ok s.addrW := by
  obtain ⟨hcount, _, _, hrest⟩ := hr.1 i
  rw [h.desc]
  exact ⟨hcount, fun _ => hns, fun h0 => by dsimp only at h0; omega, hrest⟩

/-- The elements move with their slots: the content stays (R85). -/
theorem Rotated.content {i : RingIx} {ns : Nat} {s t : State} (h : Rotated i ns s t) (hr : Ready s) (hns : ns < (s.rb i).cap) :
    t.content i = s.content i := by
  have hc : 0 < (s.rb i).cap := by omega
  obtain ⟨_, hstart, _⟩ := hr.1 i
  have hcount : (t.rb i).count = (s.rb i).count := by rw [h.desc]
  rw [State.content, State.content, hcount]
  refine List.map_congr_left (fun v _ => ?_)
  rw [t.rd_plain i v (by rw [h.desc]; exact hc) (h.works.plain hr.2.2 (h.ok hr hns)),
    s.rd_plain i v hc ⟨hr.2.2, hr.2.1.1, hr.1 i⟩]
  calc t.mem.read ((t.rb i).addr v)
      = t.mem.read ((s.rb i).base + (ns + v) % (s.rb i).cap) := by rw [h.desc]; rfl
    _ = t.mem.read ((s.rb i).base + ((s.rb i).phys v + rotpShift (s.rb i) ns) % (s.rb i).cap) := by
        rw [rotpShift_phys _ (hstart hc)]
    _ = s.mem.read ((s.rb i).addr v) := h.slots _ ((s.rb i).phys_lt v hc)

/-- Settles O32: the slots move, and with them the elements and virtual 0. -/
theorem rbRotpMovesWholeStorage : Obligations.RbRotpMovesWholeStorage := by
  rintro s ra hr hc hns sh rfl
  obtain ⟨t, hexec, ht⟩ := exec_rbRotp hr hc hns
  exact ⟨_, hexec, ht.works.completed hr.2.2 _ _ _ _, ht.works.onlyRings _ _ _ _, ht.desc, ht.content hr hns, ht.outside,
    ht.slots⟩

/-! ## Round trips (R89) -/

theorem rbs_ext {s t : State} (h : ∀ j, t.rb j = s.rb j) : t.rbs = s.rbs := Vector.ext (fun i hi => h ⟨i, hi⟩)

/-- A number of 16 bits in ARG1 is read back (R65). -/
theorem low16_ofNat {n : Nat} (h : n < 2 ^ 16) : ((BitVec.ofNat 32 n).extractLsb' 0 16).toNat = n := by
  simp
  omega

/-- A shift and the shift back add up to whole rounds (R89 d). -/
theorem rotpShift_back (d : Desc) {ns j : Nat} (hst : d.start < d.cap) (hns : ns < d.cap) (hj : j < d.cap) :
    ((j + rotpShift d ns) % d.cap + rotpShift { d with start := ns } d.start) % d.cap = j := by
  simp only [rotpShift, Nat.mod_add_mod, Nat.add_mod_mod]
  rw [show j + (ns + d.cap - d.start) + (d.start + d.cap - ns) = j + d.cap + d.cap by omega, Nat.add_mod_right,
    Nat.add_mod_right, Nat.mod_eq_of_lt hj]

/-- A rotation and the rotation back to the first START restore every slot and the descriptors (R89 d). -/
theorem Rotated.back {i : RingIx} {ns : Nat} {s t p u : State} (h : Rotated i ns s t) (hrb : ∀ j, p.rb j = t.rb j)
    (hmem : p.mem = t.mem) (h' : Rotated i (s.rb i).start p u) (hst : (s.rb i).start < (s.rb i).cap) (hns : ns < (s.rb i).cap) :
    u.rbs = s.rbs ∧ MemKept s u := by
  have hdesc : p.rb i = { s.rb i with start := ns } := (hrb i).trans h.desc
  refine ⟨rbs_ext (fun j => ?_), fun a => ?_⟩
  · by_cases hj : j = i
    · rw [hj, h'.desc, hdesc]
    · have hne : j ∉ [i] := by simpa using hj
      rw [h'.works.others j hne, hrb, h.works.others j hne]
  · cases ha : (s.rb i).holds a with
    | false =>
      rw [h'.outside a (by rw [hdesc]; exact ha), hmem, h.outside a ha]
    | true =>
      simp only [Desc.holds, Bool.and_eq_true, decide_eq_true_eq] at ha
      have hj : a - (s.rb i).base < (s.rb i).cap := by omega
      have hlt := Nat.mod_lt (a - (s.rb i).base + rotpShift (s.rb i) ns) (show 0 < (s.rb i).cap by omega)
      have hback := h'.slots _ (by rw [hdesc]; exact hlt)
      rw [hdesc, hmem] at hback
      dsimp only at hback
      rwa [rotpShift_back (s.rb i) hst hns hj, h.slots _ hj, show (s.rb i).base + (a - (s.rb i).base) = a by omega] at hback

/-- The state with other ARG registers. -/
def State.withArg (s : State) (q : Quad) : State := { s with arg := q }

theorem BlockApart.congr {s t : State} {a n : Nat} {i : RingIx} (h : BlockApart s a n i) (hw : t.addrW = s.addrW)
    (hi : t.rb i = s.rb i) : BlockApart t a n i := by
  refine ⟨by rw [hw]; exact h.1, fun j hj => ?_⟩
  rw [hi, State.wrap, hw]
  exact h.2 j hj

/-- R89 (d): RB_ROTP to a slot, and RB_ROTP back with the first START in ARG1. -/
theorem rbRotp_and_back {s t : State} {ra : RingIx} (hr : Ready s) (hc : 0 < (s.rb ra).cap) (hns : s.arg1 < (s.rb ra).cap)
    (ht : exec (.rbRotp ra) s = .next t) :
    ∃ u, exec (.rbRotp ra) (t.withArg { t.arg with r1 := BitVec.ofNat 32 (s.rb ra).start }) = .next u ∧
      u.rbs = s.rbs ∧ MemKept s u ∧ u.status.ecode = .ok := by
  obtain ⟨m, hexec, hm⟩ := exec_rbRotp hr hc hns
  obtain rfl := Host.Outcome.next.inj (hexec.symm.trans ht)
  obtain ⟨_, hstart, _, _, hmax⟩ := hr.1 ra
  have hst := hstart hc
  obtain ⟨p, hp⟩ : ∃ p, p = (m.finish 1 (rotpShift (s.rb ra) s.arg1) 0 0).withArg
    { m.arg with r1 := BitVec.ofNat 32 (s.rb ra).start } := ⟨_, rfl⟩
  have hrb : ∀ j, p.rb j = m.rb j := fun j => by rw [hp]; rfl
  have hmem : p.mem = m.mem := by rw [hp]; rfl
  have hcap : (p.rb ra).cap = (s.rb ra).cap := by rw [hrb, hm.desc]
  have harg : p.arg1 = (s.rb ra).start := by
    rw [hp]
    exact low16_ofNat (by simp only [Config.capMax] at hmax; omega)
  have hpr : Ready p := by
    rw [hp]
    exact hm.works.ready hr (fun i hi => by rw [List.mem_singleton.mp hi]; exact hm.ok hr hns)
  obtain ⟨u, huexec, hu⟩ := exec_rbRotp (ra := ra) hpr (by rwa [hcap]) (by rwa [harg, hcap])
  rw [harg] at hu
  obtain ⟨hrbs, hkept⟩ := hm.back hrb hmem hu hst hns
  rw [hp] at huexec
  exact ⟨_, huexec, hrbs, hkept, rfl⟩

/-- R89 (b): RB_READ gives back what RB_WRITE wrote. -/
theorem rbRead_after_rbWrite {s t : State} {ra : RingIx} {ea : End} {a : Word} (hr : Ready s) (hc : 0 < (s.rb ra).cap)
    (hn : 0 < s.arg1) (ho : s.arg2 < (s.rb ra).count) (ht : exec (.rbWrite ra ea) s = .next t) {k : Nat}
    (hk : k = min s.arg1 ((s.rb ra).count - s.arg2)) (hsrc : BlockApart s s.argAddr k ra)
    (hdst : BlockApart s (a.toNat % 2 ^ s.addrW) k ra) :
    ∃ u, exec (.rbRead ra ea) (t.withArg { t.arg with r0 := a }) = .next u ∧
      u.block (a.toNat % 2 ^ s.addrW) k = s.block s.argAddr k := by
  obtain ⟨f, hf⟩ : ∃ f, f = rangeFirst ea (s.rb ra).count s.arg2 k := ⟨_, rfl⟩
  have hfit := range_le ho hk hf
  have hcount : (s.rb ra).count ≤ (s.rb ra).cap := (hr.1 ra).1
  obtain ⟨hw, _, hrd⟩ := copyIn_spec s.argAddr hr hc (hfit.trans hcount)
  have hexec := exec_rbWrite hc hn ho hk hf
  generalize copyIn ra s.argAddr f k s = m at hw hrd hexec
  obtain rfl := Host.Outcome.next.inj (hexec.symm.trans ht)
  have hi : m.rb ra = s.rb ra := hw.others ra List.not_mem_nil
  have hm := content_overwritten hfit (by rw [hi]) (fun u hu => hrd hsrc u (hu.trans_le hcount))
  -- the second command has the operands of the first but ARG0
  obtain ⟨p, hp⟩ : ∃ p, p = (m.finish k 0 0 0).withArg { m.arg with r0 := a } := ⟨_, rfl⟩
  have hpi : p.rb ra = s.rb ra := by rw [hp]; exact hi
  have hcont : p.content ra = m.content ra := by rw [hp]; rfl
  have harg : m.arg = s.arg := congrArg (fun x => x.arg) hw.frozen
  have harg1 : p.arg1 = s.arg1 := by rw [hp, State.arg1, State.arg1, ← harg]; rfl
  have harg2 : p.arg2 = s.arg2 := by rw [hp, State.arg2, State.arg2, ← harg]; rfl
  have haddrW : p.addrW = s.addrW := by rw [hp]; exact hw.addrW
  have haddr : p.argAddr = a.toNat % 2 ^ s.addrW := by rw [← haddrW, hp]; rfl
  have hpr : Ready p := by rw [hp]; exact hw.ready hr (by simp)
  obtain ⟨u, huexec, _, _, _, hread⟩ := rbReadCopiesRange p ra ea hpr (by rwa [hpi]) (by rwa [harg1]) (by rwa [harg2, hpi])
    k f (by rwa [harg1, harg2, hpi]) (by rw [hpi, harg2]; cases ea <;> exact hf)
  rw [haddr] at hread
  rw [hp] at huexec
  refine ⟨u, huexec, (hread (hdst.congr haddrW hpi)).2.trans ?_⟩
  have htake : ((s.content ra).take f).length = f := by simp; omega
  have hblock : (s.block s.argAddr k).length = k := by simp [State.block]
  rw [hcont, hm, List.append_assoc, List.drop_left' htake, List.take_left' hblock]

/-- Settles O33: the two round trips. -/
theorem ringRoundTrips : Obligations.RingRoundTrips :=
  ⟨fun _ _ _ hr hc hns ht => rbRotp_and_back hr hc hns ht,
    fun _ _ _ _ _ hr hc hn ho ht _ hk hsrc hdst => rbRead_after_rbWrite hr hc hn ho ht hk hsrc hdst⟩

end Sys2Proof.Machine

namespace Sys2Proof.Machine

/-! ## Inserting at an end of a ring (R77, R78, R83, R84)

The inserting commands are one operation in a ring held to `lim` elements: where there are `lim` of them, one at the opposite
end goes first. For RB_PUSHO `lim` is CAP; RB_PUSHB and RB_MOVE stop before CAP is reached; RB_ROTL inserts the elements of the
ring itself, with `lim = COUNT`. -/

/-- The opposite end. -/
def otherEnd : End → End
  | .tail => .head
  | .head => .tail

/-- Room for one element more in a ring held to `lim` (R77). -/
def State.roomFor (s : State) (i : RingIx) (e : End) (lim : Nat) : State :=
  if (s.rb i).count = lim then s.dropEnd i (otherEnd e) else s

/-- One element comes in at end `e` of a ring held to `lim`. -/
def State.insert (s : State) (i : RingIx) (e : End) (lim : Nat) (b : Byte) : State := (s.roomFor i e lim).pushEnd i e b

/-- The descriptor of a ring held to `lim` after `n` inserts. -/
def Desc.inserted (d : Desc) (e : End) (lim n : Nat) : Desc :=
  match e with
  | .tail => { d with count := min (d.count + n) lim, start := (d.start + (d.count + n - lim)) % d.cap }
  | .head => { d.back n with count := min (d.count + n) lim }

/-- The descriptor of a ring held to `lim` after `n` inserts and the room for one more. -/
def Desc.roomed (d : Desc) (e : End) (lim n : Nat) : Desc :=
  match e with
  | .tail => { d with count := min (d.count + n) (lim - 1), start := (d.start + (d.count + n + 1 - lim)) % d.cap }
  | .head => { d.back n with count := min (d.count + n) (lim - 1) }

/-- What a ring held to `lim` keeps of its `old` elements and the `new` ones at end `e` (R77). -/
def keepNewest (e : End) (lim : Nat) (old new : List Byte) : List Byte :=
  match e with
  | .tail => (old ++ new).drop (old.length + new.length - lim)
  | .head => (new ++ old).take lim

/-- The new elements with one more at end `e`. -/
def addAt (e : End) (b : Byte) (new : List Byte) : List Byte :=
  match e with
  | .tail => new ++ [b]
  | .head => b :: new

/-- A content without the element at end `e`. -/
def removeAt (e : End) (xs : List Byte) : List Byte :=
  match e with
  | .head => xs.drop 1
  | .tail => xs.dropLast

@[simp] theorem keepNewest_length (e : End) (lim : Nat) (old new : List Byte) :
    (keepNewest e lim old new).length = min (old.length + new.length) lim := by
  cases e with
  | tail => simp only [keepNewest, List.length_drop, List.length_append]; omega
  | head => simp only [keepNewest, List.length_take, List.length_append]; omega

theorem keepNewest_nil (e : End) {lim : Nat} {old : List Byte} (h : old.length ≤ lim) : keepNewest e lim old [] = old := by
  cases e with
  | tail => simp [keepNewest, Nat.sub_eq_zero_of_le h]
  | head => simpa [keepNewest] using h

/-- Below the limit nothing goes. -/
theorem keepNewest_eq_append {e : End} {lim : Nat} {old new : List Byte} (h : old.length + new.length ≤ lim) :
    keepNewest e lim old new = match e with | .tail => old ++ new | .head => new ++ old := by
  cases e with
  | tail => simp [keepNewest, Nat.sub_eq_zero_of_le h]
  | head => exact List.take_of_length_le (by simp; omega)

/-- One more new element: if the limit is reached, the element at the opposite end goes. -/
theorem keepNewest_addAt (e : End) {lim : Nat} (hl : 0 < lim) (old new : List Byte) (b : Byte) :
    keepNewest e lim old (addAt e b new) =
      addAt e b (if old.length + new.length < lim then keepNewest e lim old new
        else removeAt (otherEnd e) (keepNewest e lim old new)) := by
  cases e with
  | tail =>
    simp only [keepNewest, addAt, removeAt, otherEnd, ← List.append_assoc, List.length_append, List.length_singleton,
      List.drop_drop]
    rw [List.drop_append_of_le_length (by simp; omega)]
    split
    · rw [show old.length + (new.length + 1) - lim = old.length + new.length - lim by omega]
    · rw [show old.length + (new.length + 1) - lim = old.length + new.length - lim + 1 by omega]
  | head =>
    obtain ⟨m, rfl⟩ := Nat.exists_eq_succ_of_ne_zero hl.ne'
    simp only [keepNewest, addAt, removeAt, otherEnd, List.cons_append, Nat.succ_eq_add_one, List.take_succ_cons]
    split
    · have hle : (new ++ old).length ≤ m := by rw [List.length_append]; omega
      rw [List.take_of_length_le hle, List.take_of_length_le (by omega)]
    · have hlen : ((new ++ old).take (m + 1)).length - 1 = m := by rw [List.length_take, List.length_append]; omega
      rw [List.dropLast_eq_take, hlen, List.take_take, Nat.min_eq_left (Nat.le_succ m)]

/-! ### Descriptors and slots -/

theorem Desc.stepBack_back (d : Desc) (hc : 0 < d.cap) (n : Nat) : (d.back n).stepBack = d.back (n + 1) := by
  simp only [Desc.back, Desc.stepBack, Desc.mk.injEq, true_and]
  rw [Nat.add_sub_assoc hc, Nat.mod_add_mod, Nat.add_assoc, Nat.succ_mul]

/-- One slot further back, one index further on. -/
theorem Desc.back_succ_addr (d : Desc) (hc : 0 < d.cap) (n v : Nat) : (d.back (n + 1)).addr (v + 1) = (d.back n).addr v := by
  simp only [Desc.back, Desc.addr, Desc.phys, Nat.mod_add_mod, Nat.succ_mul]
  rw [show d.start + (n * (d.cap - 1) + (d.cap - 1)) + (v + 1) = d.start + n * (d.cap - 1) + v + d.cap by omega,
    Nat.add_mod_right]

theorem Desc.inserted_zero {d : Desc} (e : End) {lim : Nat} (hst : d.start < d.cap) (hl : d.count ≤ lim) :
    d.inserted e lim 0 = d := by
  cases e with
  | tail => simp [Desc.inserted, Nat.min_eq_left hl, Nat.sub_eq_zero_of_le hl, Nat.mod_eq_of_lt hst]
  | head => simp [Desc.inserted, Nat.min_eq_left hl, Desc.back, Nat.mod_eq_of_lt hst]

/-- Below the limit nothing is discarded (R78, R83). -/
theorem Desc.inserted_eq_grown {d : Desc} (e : End) {lim n : Nat} (hst : d.start < d.cap) (h : d.count + n ≤ lim) :
    d.inserted e lim n = d.grown e n := by
  cases e with
  | tail => simp [Desc.inserted, Desc.grown, Nat.min_eq_left h, Nat.sub_eq_zero_of_le h, Nat.mod_eq_of_lt hst]
  | head => simp [Desc.inserted, Desc.grown, Nat.min_eq_left h]

theorem Desc.inserted_count (d : Desc) (e : End) (lim n : Nat) : (d.inserted e lim n).count = min (d.count + n) lim := by
  cases e <;> rfl

theorem Desc.inserted_cap (d : Desc) (e : End) (lim n : Nat) : (d.inserted e lim n).cap = d.cap := by cases e <;> rfl

theorem Desc.roomed_count (d : Desc) (e : End) (lim n : Nat) : (d.roomed e lim n).count = min (d.count + n) (lim - 1) := by
  cases e <;> rfl

theorem Desc.roomed_cap (d : Desc) (e : End) (lim n : Nat) : (d.roomed e lim n).cap = d.cap := by cases e <;> rfl

theorem Desc.Ok.inserted {w : Nat} {d : Desc} (h : d.Ok w) (hc : 0 < d.cap) (e : End) {lim : Nat} (hl : lim ≤ d.cap) (n : Nat) :
    (d.inserted e lim n).Ok w := by
  obtain ⟨_, _, _, hrest⟩ := h
  refine ⟨by rw [d.inserted_count, d.inserted_cap]; omega, fun _ => ?_, fun h0 => ?_, by cases e <;> exact hrest⟩
  · cases e <;> exact Nat.mod_lt _ hc
  · rw [d.inserted_cap] at h0
    omega

theorem Desc.Ok.roomed {w : Nat} {d : Desc} (h : d.Ok w) (hc : 0 < d.cap) (e : End) {lim : Nat} (hl : lim ≤ d.cap) (n : Nat) :
    (d.roomed e lim n).Ok w := by
  obtain ⟨_, _, _, hrest⟩ := h
  refine ⟨by rw [d.roomed_count, d.roomed_cap]; omega, fun _ => ?_, fun h0 => ?_, by cases e <;> exact hrest⟩
  · cases e <;> exact Nat.mod_lt _ hc
  · rw [d.roomed_cap] at h0
    omega

theorem State.rb_dropEnd (s : State) (i : RingIx) (e : End) : (s.dropEnd i e).rb i =
    match e with
    | .head => (s.rb i).dropHead 1
    | .tail => { s.rb i with count := (s.rb i).count - 1 } := by
  cases e with
  | head => exact s.rb_dropHead_same i 1
  | tail => exact s.rb_dropTail_same i

theorem State.content_dropEnd (s : State) (i : RingIx) (e : End) : (s.dropEnd i e).content i = removeAt e (s.content i) := by
  cases e with
  | head => exact s.content_dropHead i 1
  | tail => exact s.content_dropTail i

theorem State.dropEnd_mem (s : State) (i : RingIx) (e : End) : (s.dropEnd i e).mem = s.mem := by cases e <;> rfl

theorem State.roomFor_mem (s : State) (i : RingIx) (e : End) (lim : Nat) : (s.roomFor i e lim).mem = s.mem := by
  unfold State.roomFor
  split
  · exact s.dropEnd_mem i _
  · rfl

/-- The room for one element more, in the descriptor. -/
theorem State.rb_roomFor {s : State} {i : RingIx} {e : End} {d : Desc} {lim n : Nat} (hl : 0 < lim)
    (h : s.rb i = d.inserted e lim n) : (s.roomFor i e lim).rb i = d.roomed e lim n := by
  have hcount : (s.rb i).count = min (d.count + n) lim := by rw [h, d.inserted_count]
  unfold State.roomFor
  cases e with
  | tail =>
    split
    · rw [State.rb_dropEnd]
      simp only [otherEnd, Desc.dropHead, h, Desc.inserted, Desc.roomed, Desc.mk.injEq, true_and, Nat.mod_add_mod]
      exact ⟨by omega, congrArg (· % d.cap) (by omega)⟩
    · simp only [h, Desc.inserted, Desc.roomed, Desc.mk.injEq, true_and]
      exact ⟨by omega, congrArg (fun x => (d.start + x) % d.cap) (by omega)⟩
  | head =>
    split
    · rw [State.rb_dropEnd]
      simp only [otherEnd, h, Desc.inserted, Desc.roomed, Desc.mk.injEq, true_and, and_true]
      omega
    · simp only [h, Desc.inserted, Desc.roomed, Desc.mk.injEq, true_and, and_true]
      omega

/-- The `n + 1`-th insert, in the descriptor. -/
theorem State.rb_pushEnd {s : State} {i : RingIx} {e : End} {d : Desc} {lim n : Nat} (hl : 0 < lim) (hc : 0 < d.cap)
    (h : s.rb i = d.roomed e lim n) (b : Byte) : (s.pushEnd i e b).rb i = d.inserted e lim (n + 1) := by
  cases e with
  | tail =>
    rw [State.pushEnd, State.rb_pushTail_same, h]
    simp only [Desc.inserted, Desc.roomed, Desc.mk.injEq, true_and]
    exact ⟨by omega, by rw [Nat.add_assoc]⟩
  | head =>
    rw [State.pushEnd, State.rb_pushHead_same, h]
    simp only [Desc.inserted, Desc.roomed, Desc.stepBack, ← d.stepBack_back hc n, Desc.mk.injEq, true_and, and_true]
    omega

/-- The slot the `n + 1`-th insert fills. -/
def Desc.nextSlot (d : Desc) (e : End) (n : Nat) : Nat :=
  match e with
  | .tail => d.addr (d.count + n)
  | .head => (d.back (n + 1)).addr 0

/-- A push writes one slot. -/
theorem State.read_pushEnd {s : State} {i : RingIx} {e : End} {d : Desc} {lim n : Nat} (hl : 0 < lim)
    (hc : 0 < d.cap) (h : s.rb i = d.roomed e lim n) (hok : (s.rb i).Ok s.addrW) (hm : s.mem.wf = true) (b : Byte) {x : Nat}
    (hx : x ≠ d.nextSlot e n) : (s.pushEnd i e b).mem.read x = s.mem.read x := by
  have hcap : 0 < (s.rb i).cap := by rw [h, d.roomed_cap]; exact hc
  cases e with
  | tail =>
    have hslot : (s.rb i).addr (s.rb i).count = d.nextSlot .tail n := by
      simp only [h, Desc.roomed, Desc.nextSlot, Desc.addr, Desc.phys, Nat.mod_add_mod]
      exact congrArg (fun x => d.base + x % d.cap) (by omega)
    have hne : x ≠ s.wrap ((s.rb i).addr (s.rb i).count) := by rwa [s.wrap_addr i _ hcap hok, hslot]
    exact (s.read_store _ b x hm).trans (if_neg hne)
  | head =>
    obtain ⟨t, ht⟩ : ∃ t, t = s.setRb i (s.rb i).stepBack := ⟨_, rfl⟩
    have hrb : t.rb i = (s.rb i).stepBack := by rw [ht, State.rb_setRb_same]
    have hslot : (t.rb i).addr 0 = d.nextSlot .head n := by rw [hrb, h, Desc.nextSlot, ← d.stepBack_back hc n]; rfl
    have hokt : (t.rb i).Ok t.addrW := by rw [hrb, ht]; exact hok.stepBack hcap
    have hne : x ≠ t.wrap ((t.rb i).addr 0) := by
      rwa [t.wrap_addr i 0 (by rw [hrb]; exact hcap) hokt, hslot]
    have hread := (t.read_store ((t.rb i).addr 0) b x (by rw [ht]; exact hm)).trans (if_neg hne)
    rw [ht] at hread
    exact hread

/-- The slots that `n + 1` inserts fill: those of `n` inserts and the next. -/
theorem MemKeptBut.insert {d : Desc} (hc : 0 < d.cap) {e : End} {n : Nat} {s t u : State}
    (h : MemKeptBut (d.newSlot e n) n s t) (hu : ∀ x, x ≠ d.nextSlot e n → u.mem.read x = t.mem.read x) :
    MemKeptBut (d.newSlot e (n + 1)) (n + 1) s u := by
  intro x hx
  cases e with
  | tail => exact (hu x (hx n (Nat.lt_succ_self n))).trans (h x (fun j hj => hx j (by omega)))
  | head =>
    refine (hu x (hx 0 (Nat.succ_pos n))).trans (h x (fun j hj => ?_))
    rw [Desc.newSlot, ← d.back_succ_addr hc]
    exact hx (j + 1) (by omega)

/-! ### Inserts in a row -/

/-- The `n` elements of `xs` that come in first at end `e`, in virtual order. -/
def firstIn (e : End) (xs : List Byte) (n : Nat) : List Byte :=
  match e with
  | .tail => xs.take n
  | .head => xs.drop (xs.length - n)

/-- The element of `xs` that comes in next at end `e`, after `n`. -/
def nextIn (e : End) (xs : List Byte) (n : Nat) : Option Byte :=
  match e with
  | .tail => xs[n]?
  | .head => xs.reverse[n]?

theorem nextIn_lt {e : End} {xs : List Byte} {n : Nat} {b : Byte} (h : nextIn e xs n = some b) : n < xs.length := by
  cases e with
  | tail => exact (List.getElem?_eq_some_iff.mp h).1
  | head => exact (List.getElem?_eq_some_iff.mp h).1.trans_eq xs.length_reverse

theorem firstIn_length (e : End) {xs : List Byte} {n : Nat} (h : n ≤ xs.length) : (firstIn e xs n).length = n := by
  cases e with
  | tail => exact List.length_take_of_le h
  | head => simp only [firstIn, List.length_drop]; omega

theorem firstIn_zero (e : End) (xs : List Byte) : firstIn e xs 0 = [] := by cases e <;> simp [firstIn]

theorem firstIn_length_self (e : End) (xs : List Byte) : firstIn e xs xs.length = xs := by cases e <;> simp [firstIn]

theorem firstIn_succ {e : End} {xs : List Byte} {n : Nat} {b : Byte} (h : nextIn e xs n = some b) :
    firstIn e xs (n + 1) = addAt e b (firstIn e xs n) := by
  have hlt := nextIn_lt h
  cases e with
  | tail => exact List.take_add_one.trans (congrArg _ (congrArg _ h))
  | head =>
    rw [nextIn, List.getElem?_reverse hlt] at h
    obtain ⟨hlt', hb⟩ := List.getElem?_eq_some_iff.mp h
    have hdrop := List.drop_eq_getElem_cons hlt'
    rw [hb, show xs.length - 1 - n + 1 = xs.length - n by omega] at hdrop
    rw [firstIn, show xs.length - (n + 1) = xs.length - 1 - n by omega, hdrop]
    rfl

/-- The limits a ring can be held to. -/
abbrev Limit (s : State) (i : RingIx) (lim : Nat) : Prop := 0 < lim ∧ (s.rb i).count ≤ lim ∧ lim ≤ (s.rb i).cap

/-- `t` comes from `s` by work on the rings of `l` in which `n` elements came in at end `e` of RBi, held to `lim`; if `G`
holds, they are elements of `xs` in their order. -/
structure Inserted (l : List RingIx) (i : RingIx) (e : End) (lim : Nat) (G : Prop) (xs : List Byte) (n : Nat) (s t : State) :
    Prop where
  works : Works l s t
  desc : t.rb i = (s.rb i).inserted e lim n
  slots : MemKeptBut ((s.rb i).newSlot e n) n s t
  content : G → t.content i = keepNewest e lim (s.content i) (firstIn e xs n)

theorem Works.roomFor {l : List RingIx} {s t : State} (h : Works l s t) {i : RingIx} (hi : i ∈ l) (e : End) (lim : Nat) :
    Works l s (t.roomFor i e lim) := by
  unfold State.roomFor
  split
  · exact h.dropEnd hi _
  · exact h

/-- The content after a push at an end of a ring with room. -/
theorem State.content_pushEnd (s : State) (i : RingIx) (e : End) (b : Byte) (hf : (s.rb i).count < (s.rb i).cap)
    (hp : Plain s i) : (s.pushEnd i e b).content i = addAt e b (s.content i) := by
  cases e with
  | tail => exact s.content_pushTail i b hf hp
  | head => exact s.content_pushHead i b hf hp

namespace Inserted

variable {l : List RingIx} {i : RingIx} {e : End} {lim : Nat} {G : Prop} {xs : List Byte} {n : Nat} {s t : State}

theorem refl (l : List RingIx) (e : End) (G : Prop) (xs : List Byte) (hr : Ready s) (hl : Limit s i lim) :
    Inserted l i e lim G xs 0 s s := by
  obtain ⟨hpos, hcount, hcap⟩ := hl
  refine ⟨Works.refl l hr.2.1, (Desc.inserted_zero e ((hr.1 i).2.1 (by omega)) hcount).symm, fun _ _ => rfl, fun _ => ?_⟩
  rw [firstIn_zero, keepNewest_nil e (by rwa [State.content_length])]

theorem count (h : Inserted l i e lim G xs n s t) : (t.rb i).count = min ((s.rb i).count + n) lim := by
  rw [h.desc, Desc.inserted_count]

theorem cap (h : Inserted l i e lim G xs n s t) : (t.rb i).cap = (s.rb i).cap := by rw [h.desc, Desc.inserted_cap]

/-- One more insert. -/
theorem insert (h : Inserted l i e lim G xs n s t) (hr : Ready s) (hl : Limit s i lim) (hi : i ∈ l) {b : Byte}
    (hb : G → nextIn e xs n = some b) : Inserted l i e lim G xs (n + 1) s (t.insert i e lim b) := by
  obtain ⟨hpos, hcount, hcap⟩ := hl
  have hc : 0 < (s.rb i).cap := by omega
  have hw : Works l s (t.roomFor i e lim) := h.works.roomFor hi e lim
  have hroom := State.rb_roomFor hpos h.desc
  have hok : ((t.roomFor i e lim).rb i).Ok s.addrW := by rw [hroom]; exact (hr.1 i).roomed hc e hcap _
  have hp := hw.plain hr.2.2 hok
  refine ⟨hw.pushEnd hi e b, State.rb_pushEnd hpos hc hroom b, MemKeptBut.insert hc h.slots (fun x hx => ?_), fun hg => ?_⟩
  · rw [State.insert, State.read_pushEnd hpos hc hroom hp.2.2 hp.2.1 b hx, State.roomFor_mem]
  · have hfull : (t.rb i).count = lim ↔ ¬ (s.content i).length + (firstIn e xs n).length < lim := by
      rw [h.count, State.content_length, firstIn_length e (nextIn_lt (hb hg)).le]
      omega
    rw [State.insert, State.content_pushEnd _ i e b (by rw [hroom, Desc.roomed_count, Desc.roomed_cap]; omega) hp,
      firstIn_succ (hb hg), keepNewest_addAt e hpos, ← h.content hg]
    unfold State.roomFor
    simp only [hfull, ite_not]
    split
    · rfl
    · rw [State.content_dropEnd]

/-- An insert below the limit is a push. -/
theorem pushEnd (h : Inserted l i e lim G xs n s t) (hr : Ready s) (hl : Limit s i lim) (hi : i ∈ l) {b : Byte}
    (hb : G → nextIn e xs n = some b) (hn : (s.rb i).count + n < lim) :
    Inserted l i e lim G xs (n + 1) s (t.pushEnd i e b) := by
  have hins := h.insert hr hl hi hb
  rwa [State.insert, State.roomFor, if_neg (by rw [h.count]; omega)] at hins

end Inserted

end Sys2Proof.Machine

namespace Sys2Proof.Machine

/-! ## RB_PUSHO and RB_PUSHB (R77, R78) -/

theorem Desc.newSlot_holds (d : Desc) (hc : 0 < d.cap) (e : End) (n j : Nat) : d.holds (d.newSlot e n j) = true := by
  cases e with
  | tail => exact d.addr_holds _ hc
  | head => exact (d.back n).addr_holds j hc

theorem State.roomFor_load (s : State) (i : RingIx) (e : End) (lim a : Nat) : (s.roomFor i e lim).load a = s.load a := by
  unfold State.roomFor
  split
  · cases e <;> rfl
  · rfl

@[simp] theorem State.block_length (s : State) (a n : Nat) : (s.block a n).length = n := by simp [State.block]

theorem State.block_getElem? (s : State) (a : Nat) {n j : Nat} (hj : j < n) :
    (s.block a n)[j]? = some (s.mem.read (s.wrap (a + j))) := by
  simp [State.block, hj]

theorem firstIn_block (e : End) (s : State) (a n : Nat) : firstIn e (s.block a n) n = s.block a n := by
  have := firstIn_length_self e (s.block a n)
  rwa [State.block_length] at this

/-- From the last byte of a block down: with `n - (j + 1)` of its bytes in, byte `j` is the next. -/
theorem nextIn_head_block (s : State) (a : Nat) {n j : Nat} (hj : j < n) :
    nextIn .head (s.block a n) (n - (j + 1)) = some (s.mem.read (s.wrap (a + j))) := by
  rw [nextIn, List.getElem?_reverse (by rw [State.block_length]; omega), State.block_length,
    show n - 1 - (n - (j + 1)) = j by omega, s.block_getElem? a hj]

/-- A block apart from a ring is read as it was, while elements come in there. -/
theorem Inserted.load_block {l : List RingIx} {i : RingIx} {e : End} {lim n a k : Nat} {G : Prop} {xs : List Byte} {s t : State}
    (h : Inserted l i e lim G xs n s t) (hz : s.hazard = false) (hc : 0 < (s.rb i).cap) (ha : BlockApart s a k i) {j : Nat}
    (hj : j < k) : t.load (a + j) = s.mem.read (s.wrap (a + j)) := by
  rw [h.works.load hz]
  refine h.slots _ (fun m _ he => ?_)
  have := ha.2 j hj
  rw [he, Desc.newSlot_holds _ hc] at this
  cases this

/-- The room that the overwriting insert makes, and its count of the elements discarded (R77). -/
def makeRoom (i : RingIx) (e : End) (p : State × Nat) : State × Nat :=
  match e with
  | .tail => makeRoomHead i p
  | .head => makeRoomTail i p

theorem makeRoom_fst (i : RingIx) (e : End) (p : State × Nat) : (makeRoom i e p).1 = p.1.roomFor i e (p.1.rb i).cap := by
  cases e with
  | tail => simp only [makeRoom, makeRoomHead, State.roomFor]; split <;> rfl
  | head => simp only [makeRoom, makeRoomTail, State.roomFor]; split <;> rfl

/-- What is discarded is counted (R77). -/
theorem makeRoom_snd {i : RingIx} (e : End) {p : State × Nat} (hc : 0 < (p.1.rb i).cap) :
    (makeRoom i e p).2 + ((makeRoom i e p).1.rb i).count = p.2 + (p.1.rb i).count := by
  cases e with
  | tail =>
    simp only [makeRoom, makeRoomHead]
    split
    · simp only [State.rb_dropHead_same, Desc.dropHead_count]; omega
    · rfl
  | head =>
    simp only [makeRoom, makeRoomTail]
    split
    · simp only [State.rb_dropTail_same]; omega
    · rfl

/-- One pass of the overwriting insert: byte `j` of the block at `a` comes in (R77). -/
def pushOverPass (i : RingIx) (e : End) (a j : Nat) (p : State × Nat) : State × Nat :=
  ((makeRoom i e p).1.pushEnd i e ((makeRoom i e p).1.load (a + j)), (makeRoom i e p).2)

theorem pushOverPass_fst (i : RingIx) (e : End) (a j : Nat) (p : State × Nat) :
    (pushOverPass i e a j p).1 = p.1.insert i e (p.1.rb i).cap (p.1.load (a + j)) := by
  rw [pushOverPass, makeRoom_fst, State.roomFor_load, State.insert]

theorem State.pushEnd_count (s : State) (i : RingIx) (e : End) (b : Byte) :
    ((s.pushEnd i e b).rb i).count = (s.rb i).count + 1 := by
  cases e with
  | tail => simp [State.pushEnd]
  | head => simp [State.pushEnd]

/-- The bytes of a block that came in at end `e` of a ring, and how many elements they pushed out. -/
structure Overfilled (i : RingIx) (e : End) (a k n : Nat) (s : State) (p : State × Nat) : Prop where
  ins : Inserted [i] i e (s.rb i).cap (BlockApart s a k i) (s.block a k) n s p.1
  lost : p.2 = (s.rb i).count + n - (s.rb i).cap

theorem Overfilled.pass {i : RingIx} {e : End} {a k n j : Nat} {s : State} {p : State × Nat} (h : Overfilled i e a k n s p)
    (hr : Ready s) (hc : 0 < (s.rb i).cap) (hj : j < k)
    (hb : nextIn e (s.block a k) n = some (s.mem.read (s.wrap (a + j)))) :
    Overfilled i e a k (n + 1) s (pushOverPass i e a j p) := by
  obtain ⟨hins, hlost⟩ := h
  have hcount : (s.rb i).count ≤ (s.rb i).cap := (hr.1 i).1
  have hnext : Inserted [i] i e (s.rb i).cap (BlockApart s a k i) (s.block a k) (n + 1) s (pushOverPass i e a j p).1 := by
    rw [pushOverPass_fst, hins.cap]
    exact hins.insert hr ⟨hc, hcount, le_rfl⟩ (List.mem_singleton.mpr rfl)
      (fun ha => by rw [hins.load_block hr.2.2 hc ha hj, hb])
  refine ⟨hnext, ?_⟩
  have hsum := makeRoom_snd e (p := p) (i := i) (by rw [hins.cap]; exact hc)
  have hpush := State.pushEnd_count (makeRoom i e p).1 i e ((makeRoom i e p).1.load (a + j))
  have h0 := hins.count
  have h1 := hnext.count
  simp only [pushOverPass] at h1 ⊢
  omega

/-- The overwriting insert of a block (R77). -/
theorem pushOver_overfilled {i : RingIx} (e : End) (a n : Nat) {s : State} (hr : Ready s) (hc : 0 < (s.rb i).cap) :
    Overfilled i e a n n s (pushOver i e a n s) := by
  have hcount : (s.rb i).count ≤ (s.rb i).cap := (hr.1 i).1
  have hstart : Overfilled i e a n 0 s (s, 0) :=
    ⟨Inserted.refl [i] e _ _ hr ⟨hc, hcount, le_rfl⟩, by simp only; omega⟩
  cases e with
  | tail =>
    have := forUp_index (fun j p => Overfilled i .tail a n j s p) (pushOverPass i .tail a) n 0 (s, 0)
      (fun j p _ hj hp => hp.pass hr hc (show j < n by omega) (s.block_getElem? a (by omega))) hstart
    rwa [Nat.zero_add] at this
  | head =>
    refine forDown_index (fun j p => Overfilled i .head a n (n - j) s p) (pushOverPass i .head a) n 0 (s, 0)
      (fun j p _ hj hp => ?_) (by rwa [Nat.zero_add, Nat.sub_self])
    rw [show n - j = n - (j + 1) + 1 by omega]
    exact hp.pass hr hc (show j < n by omega) (nextIn_head_block s a (by omega))

/-- Settles O24: the ring held to CAP keeps the newest. -/
theorem rbPushoKeepsNewest : Obligations.RbPushoKeepsNewest := by
  rintro s ra ea hr hc hn
  have hexec : exec (.rbPusho ra ea) s =
      .next ((pushOver ra ea s.argAddr s.arg1 s).1.finish s.arg1 (pushOver ra ea s.argAddr s.arg1 s).2 0 0) :=
    if_neg (not_badLen hc hn)
  obtain ⟨hins, hlost⟩ := pushOver_overfilled ea s.argAddr s.arg1 hr hc
  rw [hlost] at hexec
  refine ⟨_, hexec, hins.works.completed hr.2.2 _ _ _ _, hins.works.onlyRings _ _ _ _, hins.slots, ?_⟩
  cases ea with
  | tail =>
    refine ⟨hins.desc, fun ha => ?_⟩
    rw [State.finish_content, hins.content ha, firstIn_block, keepNewest, State.content_length, State.block_length]
  | head =>
    refine ⟨hins.desc, fun ha => ?_⟩
    rw [State.finish_content, hins.content ha, firstIn_block, keepNewest]

/-- The pushes of a block (R78). -/
def pushBlock (i : RingIx) (e : End) (a k : Nat) (s : State) : State :=
  match e with
  | .tail => pushBlockTail i a k s
  | .head => pushBlockHead i a k s

/-- The bounded insert of a block for which there is room (R78). -/
theorem pushBlock_inserted {i : RingIx} (e : End) (a : Nat) {k : Nat} {s : State} (hr : Ready s) (hc : 0 < (s.rb i).cap)
    (hk : (s.rb i).count + k ≤ (s.rb i).cap) :
    Inserted [i] i e (s.rb i).cap (BlockApart s a k i) (s.block a k) k s (pushBlock i e a k s) := by
  have hl : Limit s i (s.rb i).cap := ⟨hc, (hr.1 i).1, le_rfl⟩
  have hi : i ∈ [i] := List.mem_singleton.mpr rfl
  cases e with
  | tail =>
    have := forUp_index (fun j t => Inserted [i] i .tail (s.rb i).cap (BlockApart s a k i) (s.block a k) j s t)
      (fun j t => t.pushTail i (t.load (a + j))) k 0 s
      (fun j t _ hj ht => ht.pushEnd hr hl hi
        (fun ha => by rw [ht.load_block hr.2.2 hc ha (by omega)]; exact s.block_getElem? a (by omega)) (by omega))
      (.refl [i] .tail _ _ hr hl)
    rwa [Nat.zero_add] at this
  | head =>
    refine forDown_index (fun j t => Inserted [i] i .head (s.rb i).cap (BlockApart s a k i) (s.block a k) (k - j) s t)
      (fun j t => t.pushHead i (t.load (a + j))) k 0 s (fun j t _ hj ht => ?_)
      (by rw [Nat.zero_add, Nat.sub_self]; exact .refl [i] .head _ _ hr hl)
    rw [show k - j = k - (j + 1) + 1 by omega]
    refine ht.pushEnd hr hl hi (fun ha => ?_) (by omega)
    rw [ht.load_block hr.2.2 hc ha (by omega), nextIn_head_block s a (by omega)]

/-- Settles O25: the pushes stay below CAP, so that nothing goes. -/
theorem rbPushbInsertsPrefix : Obligations.RbPushbInsertsPrefix := by
  rintro s ra ea hr hc hn k hk
  obtain ⟨hcount, hstart, _⟩ := hr.1 ra
  have hfit : (s.rb ra).count + k ≤ (s.rb ra).cap := by omega
  have hexec : exec (.rbPushb ra ea) s = .next ((pushBlock ra ea s.argAddr k s).finish k 0 0 0) := by
    have hb := not_badLen hc hn
    rw [hk]
    cases ea
    · exact if_neg hb
    · exact if_neg hb
  have hins := pushBlock_inserted ea s.argAddr hr hc hfit
  refine ⟨_, hexec, hins.works.completed hr.2.2 _ _ _ _, hins.works.onlyRings _ _ _ _, ?_, hins.slots, fun ha => ?_⟩
  · exact hins.desc.trans (Desc.inserted_eq_grown ea (hstart hc) hfit)
  · rw [State.finish_content, hins.content ha, firstIn_block]
    refine (keepNewest_eq_append (by simpa using hfit)).trans ?_
    cases ea <;> rfl

end Sys2Proof.Machine

namespace Sys2Proof.Machine

/-! ## RB_ROTL (R84) -/

theorem State.setRb_wr (s : State) (i : RingIx) (d : Desc) (v : Nat) (b : Byte) :
    (s.setRb i d).wr i v b = (s.store (d.addr v) b).setRb i d := by
  rw [State.wr, State.rb_setRb_same]
  rfl

theorem State.setRb_pushTail (s : State) (i : RingIx) (d : Desc) (b : Byte) :
    (s.setRb i d).pushTail i b = (s.store (d.addr d.count) b).setRb i { d with count := d.count + 1 } := by
  rw [State.pushTail, State.rb_setRb_same, State.setRb_wr, State.setRb_setRb]

theorem State.setRb_pushHead (s : State) (i : RingIx) (d : Desc) (b : Byte) :
    (s.setRb i d).pushHead i b = (s.store (d.stepBack.addr 0) b).setRb i { d.stepBack with count := d.count + 1 } := by
  rw [State.pushHead, State.rb_setRb_same, State.setRb_setRb, State.setRb_wr, State.setRb_setRb]

/-- The head element goes to the tail: it comes in there, in a ring held to its COUNT. -/
theorem rotHeadToTail_eq_insert {i : RingIx} {s : State} (h0 : 0 < (s.rb i).count) :
    rotHeadToTail i s = s.insert i .tail (s.rb i).count (s.rd i 0) := by
  have hdrop : s.roomFor i .tail (s.rb i).count = s.setRb i { (s.rb i).stepOn with count := (s.rb i).count - 1 } := by
    rw [State.roomFor, if_pos rfl]
    exact congrArg (s.setRb i) (by rw [Desc.dropHead, Nat.min_eq_left h0]; rfl)
  rw [State.insert, hdrop, State.pushEnd, State.setRb_pushTail, Nat.sub_add_cancel h0, rotHeadToTail, State.setRb_wr]
  rfl

/-- The tail element goes to the head: it comes in there, in a ring held to its COUNT. -/
theorem rotTailToHead_eq_insert {i : RingIx} {s : State} (h0 : 0 < (s.rb i).count) :
    rotTailToHead i s = s.insert i .head (s.rb i).count (s.rd i ((s.rb i).count - 1)) := by
  have hdrop : s.roomFor i .head (s.rb i).count = s.setRb i { s.rb i with count := (s.rb i).count - 1 } := by
    rw [State.roomFor, if_pos rfl]
    rfl
  rw [State.insert, hdrop, State.pushEnd, State.setRb_pushHead, Nat.sub_add_cancel h0, rotTailToHead, State.setRb_wr]
  rfl

/-- One step of the rotation that brings elements in at end `e`: the element at the other end comes in (R84). -/
def rotStep (i : RingIx) (e : End) (s : State) : State :=
  match e with
  | .tail => rotHeadToTail i s
  | .head => rotTailToHead i s

/-- The element of a content that a rotation step brings in at end `e`. -/
def lastAt (e : End) (xs : List Byte) : Option Byte :=
  match e with
  | .tail => xs[0]?
  | .head => xs[xs.length - 1]?

theorem rotStep_eq_insert {i : RingIx} (e : End) {s : State} (h0 : 0 < (s.rb i).count) :
    ∃ b, lastAt e (s.content i) = some b ∧ rotStep i e s = s.insert i e (s.rb i).count b := by
  have hget : ∀ j, j < (s.rb i).count → (s.content i)[j]? = some (s.rd i j) := fun j hj => by
    rw [List.getElem?_eq_getElem (by rwa [State.content_length]), State.content_getElem]
  cases e with
  | tail => exact ⟨_, hget 0 h0, rotHeadToTail_eq_insert h0⟩
  | head =>
    refine ⟨_, ?_, rotTailToHead_eq_insert h0⟩
    rw [lastAt, State.content_length]
    exact hget _ (by omega)

/-- After `n` elements of its own have come in at end `e`, the content is rotated. -/
theorem keepNewest_self {e : End} {xs : List Byte} {n : Nat} (h : n ≤ xs.length) :
    keepNewest e xs.length xs (firstIn e xs n) =
      match e with | .tail => xs.rotate n | .head => xs.rotate (xs.length - n) := by
  cases e with
  | tail =>
    simp only [keepNewest, firstIn, List.length_take_of_le h, Nat.add_sub_cancel_left]
    rw [List.rotate_eq_drop_append_take h, List.drop_append_of_le_length h]
  | head =>
    have hlen : (xs.drop (xs.length - n)).length = n := by rw [List.length_drop]; omega
    simp only [keepNewest, firstIn]
    rw [List.rotate_eq_drop_append_take (Nat.sub_le _ _), List.take_append, hlen, List.take_of_length_le (by omega)]

/-- What comes in next is what stands at the other end. -/
theorem lastAt_rotated {e : End} {xs : List Byte} {n : Nat} (h : n < xs.length) :
    lastAt e (keepNewest e xs.length xs (firstIn e xs n)) = nextIn e xs n := by
  cases e with
  | tail =>
    simp only [keepNewest, firstIn, lastAt, nextIn, List.length_take_of_le h.le, Nat.add_sub_cancel_left]
    rw [List.getElem?_drop, Nat.add_zero, List.getElem?_append_left h]
  | head =>
    have hlen : (xs.drop (xs.length - n)).length = n := by rw [List.length_drop]; omega
    have hnew : (keepNewest .head xs.length xs (firstIn .head xs n)).length = xs.length := by
      rw [keepNewest_length]; omega
    rw [lastAt, hnew, nextIn, List.getElem?_reverse h]
    simp only [keepNewest, firstIn]
    rw [List.getElem?_take_of_lt (by omega), List.getElem?_append_right (by omega), hlen]

/-- `k` steps bring in `k` elements (R84). -/
theorem rotSteps_inserted {i : RingIx} (e : End) {k : Nat} {s : State} (hr : Ready s) (h0 : 0 < (s.rb i).count)
    (hk : k ≤ (s.rb i).count) :
    Inserted [i] i e (s.rb i).count True (s.content i) k s (forUp (fun _ t => rotStep i e t) k 0 s) := by
  have hl : Limit s i (s.rb i).count := ⟨h0, le_rfl, (hr.1 i).1⟩
  have := forUp_index (fun j t => Inserted [i] i e (s.rb i).count True (s.content i) j s t) (fun _ t => rotStep i e t) k 0 s
    (fun j t _ hj ht => by
      have hcount : (t.rb i).count = (s.rb i).count := by rw [ht.count]; omega
      obtain ⟨b, hb, hstep⟩ := rotStep_eq_insert e (s := t) (i := i) (by omega)
      rw [hstep, hcount]
      refine ht.insert hr hl (List.mem_singleton.mpr rfl) (fun _ => ?_)
      rw [← hb, ht.content trivial, ← s.content_length i]
      exact (lastAt_rotated (by rw [State.content_length]; omega)).symm)
    (.refl [i] e _ _ hr hl)
  rwa [Nat.zero_add] at this

/-- RB_ROTL on a ring that is not empty (R84). -/
theorem exec_rbRotl {s : State} {ra : RingIx} (dir : Dir) (hc : 0 < (s.rb ra).cap) (h0 : 0 < (s.rb ra).count) {k : Nat}
    (hk : k = rotAmount dir s.arg1 (s.rb ra).count) {e : End}
    (he : e = if k ≤ (s.rb ra).count - k then .tail else .head) :
    exec (.rbRotl ra dir) s = .next ((forUp (fun _ t => rotStep ra e t) (min k ((s.rb ra).count - k)) 0 s).finish
      (min k ((s.rb ra).count - k)) 0 0 0) := by
  simp only [exec, execRbRotl, if_neg hc.ne', if_neg h0.ne', ← hk, goOn]
  split
  · rename_i hside
    rw [he, if_pos hside, Nat.min_eq_left hside]
    rfl
  · rename_i hside
    rw [he, if_neg hside, Nat.min_eq_right (by omega)]
    rfl

/-- The rotation to the left that RB_ROTL makes, in the terms of its operand (R84). -/
theorem rotate_rotAmount {dir : Dir} {p k : Nat} {xs ys : List Byte} (hx : 0 < xs.length) (hk : k = rotAmount dir p xs.length)
    (hy : ys = xs.rotate k) : (dir = .left → ys = xs.rotate p) ∧ (dir = .right → ys.rotate p = xs) := by
  subst hy hk
  refine ⟨fun hd => ?_, fun hd => ?_⟩
  · rw [hd, rotAmount, List.rotate_mod]
  · have hlt := Nat.mod_lt p hx
    have hsum : xs.length - p % xs.length + p = xs.length * (p / xs.length + 1) := by
      have := Nat.div_add_mod p xs.length
      rw [Nat.mul_succ]
      omega
    rw [hd, rotAmount, List.rotate_mod, List.rotate_rotate, hsum, List.rotate_length_mul]

/-- Settles O31: the ring's own elements come in at the end of the shorter span. -/
theorem rbRotlRotatesContent : Obligations.RbRotlRotatesContent := by
  rintro s ra dir hr hc
  refine ⟨fun h0 => ?_, fun h0 k hk => ?_⟩
  · simp only [exec, execRbRotl, if_neg hc.ne', if_pos h0, goOn, finish_eq_okDone hr.2.2]
  · have hk' : k = rotAmount dir s.arg1 (s.rb ra).count := by cases dir <;> exact hk
    obtain ⟨e, he⟩ : ∃ e, e = if k ≤ (s.rb ra).count - k then End.tail else .head := ⟨_, rfl⟩
    have hexec := exec_rbRotl dir hc h0 hk' he
    have hklt : k < (s.rb ra).count := by
      rw [hk']
      cases dir <;> exact Nat.mod_lt _ h0
    have hins := rotSteps_inserted e hr h0 (show min k ((s.rb ra).count - k) ≤ _ by omega)
    generalize forUp (fun _ t => rotStep ra e t) (min k ((s.rb ra).count - k)) 0 s = t at hexec hins
    have hrot : t.content ra = (s.content ra).rotate k := by
      have hself := keepNewest_self (e := e) (xs := s.content ra) (n := min k ((s.rb ra).count - k))
        (by rw [State.content_length]; omega)
      rw [State.content_length] at hself
      refine (hins.content trivial).trans (hself.trans ?_)
      by_cases hside : k ≤ (s.rb ra).count - k
      · rw [he, if_pos hside, Nat.min_eq_left hside]
      · rw [he, if_neg hside, Nat.min_eq_right (by omega)]
        exact congrArg (s.content ra).rotate (Nat.sub_sub_self hklt.le)
    obtain ⟨hleft, hright⟩ := rotate_rotAmount (by rwa [State.content_length]) (by rwa [State.content_length]) hrot
    refine ⟨_, hexec, hins.works.completed hr.2.2 _ _ _ _, hins.works.onlyRings _ _ _ _, hleft, hright, ?_⟩
    have hdesc := hins.desc
    have hslots := hins.slots
    split
    · rename_i hside
      rw [he, if_pos hside, Nat.min_eq_left hside] at hdesc hslots
      refine ⟨hdesc.trans ?_, hslots⟩
      simp only [Desc.inserted, Desc.mk.injEq, true_and]
      exact ⟨by omega, by rw [Nat.add_sub_cancel_left]⟩
    · rename_i hside
      rw [he, if_neg hside, Nat.min_eq_right (by omega)] at hdesc hslots
      refine ⟨hdesc.trans ?_, hslots⟩
      simp only [Desc.inserted, Desc.back, Desc.mk.injEq, true_and, and_true]
      omega

end Sys2Proof.Machine

namespace Sys2Proof.Machine

/-! ## RB_MOVE (R83) -/

/-- The elements of a content in the order in which they leave at an end. -/
def leaving (e : End) (xs : List Byte) : List Byte :=
  match e with
  | .head => xs
  | .tail => xs.reverse

/-- Elements that come in one after the other at an end, in the virtual order they have when all are there. -/
def arriving (e : End) (ys : List Byte) : List Byte :=
  match e with
  | .tail => ys
  | .head => ys.reverse

theorem nextIn_arriving (e : End) (ys : List Byte) (n : Nat) : nextIn e (arriving e ys) n = ys[n]? := by
  cases e with
  | tail => rfl
  | head => rw [nextIn, arriving, List.reverse_reverse]

theorem firstIn_arriving (e : End) (ys : List Byte) (n : Nat) : firstIn e (arriving e ys) n = arriving e (ys.take n) := by
  cases e with
  | tail => rfl
  | head => simp only [firstIn, arriving, List.length_reverse, List.reverse_take]

/-- The descriptor of the source after `n` bytes have left it (R83). -/
def Desc.moved (d : Desc) (e : End) (destr : Bool) (n : Nat) : Desc := if destr then d.pull e n else d

theorem Desc.pull_zero {d : Desc} (e : End) (hst : d.start < d.cap) : d.pull e 0 = d := by
  cases e with
  | head => simp [Desc.pull, Nat.mod_eq_of_lt hst]
  | tail => rfl

theorem Desc.moved_cap (d : Desc) (e : End) (destr : Bool) (n : Nat) : (d.moved e destr n).cap = d.cap := by
  cases destr
  · rfl
  · cases e <;> rfl

theorem Desc.moved_holds (d : Desc) (e : End) (destr : Bool) (n a : Nat) : (d.moved e destr n).holds a = d.holds a := by
  cases destr
  · rfl
  · cases e <;> rfl

/-- The next byte to move is the next one to leave at the source's end (R83). -/
theorem Desc.moved_addr (d : Desc) (e : End) (destr : Bool) (n : Nat) :
    (d.moved e destr n).addr (moveIndex e destr (d.moved e destr n).count n) =
      d.addr (match e with | .head => n | .tail => d.count - 1 - n) := by
  cases destr with
  | false => cases e <;> rfl
  | true =>
    cases e with
    | head => simp [Desc.moved, Desc.pull, moveIndex, Desc.addr, Desc.phys]
    | tail =>
      simp only [Desc.moved, Desc.pull, moveIndex, Desc.addr, Desc.phys, if_true, Nat.sub_right_comm]

/-- One more element has left the source. -/
theorem State.rb_dropEnd_moved {s : State} {i : RingIx} {d : Desc} {e : End} {n : Nat} (h : s.rb i = d.pull e n)
    (hn : n < d.count) : (s.dropEnd i e).rb i = d.pull e (n + 1) := by
  rw [State.rb_dropEnd, h]
  cases e with
  | head =>
    simp only [Desc.pull, Desc.dropHead, Desc.mk.injEq, true_and, Nat.mod_add_mod, Nat.sub_sub]
    rw [Nat.min_eq_left (by omega)]
    exact ⟨rfl, by rw [Nat.add_assoc]⟩
  | tail => rfl

theorem State.rb_dropEnd_ne (s : State) {i j : RingIx} (e : End) (h : j ≠ i) : (s.dropEnd i e).rb j = s.rb j := by
  cases e with
  | head => exact s.rb_dropHead_ne i j 1 h
  | tail => exact s.rb_dropTail_ne i j h

theorem State.rb_pushEnd_ne (s : State) {i j : RingIx} (e : End) (b : Byte) (h : j ≠ i) : (s.pushEnd i e b).rb j = s.rb j := by
  cases e with
  | head => exact s.rb_pushHead_ne i j b h
  | tail => exact s.rb_pushTail_ne i j b h

theorem State.dropEnd_load (s : State) (i : RingIx) (e : End) (a : Nat) : (s.dropEnd i e).load a = s.load a := by
  cases e <;> rfl

/-- A drop in another ring is no matter to a ring that elements come into. -/
theorem Inserted.dropEnd {l : List RingIx} {i j : RingIx} {e : End} {lim n : Nat} {G : Prop} {xs : List Byte} {s t : State}
    (h : Inserted l i e lim G xs n s t) (hj : j ∈ l) (hne : i ≠ j) (f : End) : Inserted l i e lim G xs n s (t.dropEnd j f) := by
  have hi := t.rb_dropEnd_ne f hne
  refine ⟨h.works.dropEnd hj f, hi.trans h.desc, fun x hx => ?_, fun hg => (?_ : _ = t.content i).trans (h.content hg)⟩
  · rw [State.dropEnd_mem]
    exact h.slots x hx
  · rw [State.content, State.content, hi]
    exact List.map_congr_left (fun v _ => by rw [State.rd, hi, State.dropEnd_load, State.rd])

/-- A storage apart from a ring is read as it was, while elements come in there. -/
theorem Inserted.load_storage {l : List RingIx} {i j : RingIx} {e : End} {lim n : Nat} {G : Prop} {xs : List Byte} {s t : State}
    (h : Inserted l i e lim G xs n s t) (hr : Ready s) (hc : 0 < (s.rb i).cap) (ha : StorageApart s i j) {x : Nat}
    (hx : (s.rb j).holds x = true) : t.load x = s.load x := by
  obtain ⟨_, _, _, htop, _⟩ := hr.1 j
  simp only [Desc.holds, Bool.and_eq_true, decide_eq_true_eq] at hx
  rw [h.works.load hr.2.2, s.load_plain _ hr.2.2, s.wrap_of_lt x (by omega)]
  refine h.slots x (fun m _ he => ?_)
  have hslot := (s.rb i).newSlot_holds hc e n m
  simp only [← he, Desc.holds, Bool.and_eq_true, decide_eq_true_eq] at hslot
  rcases ha with ha | ha
  · omega
  · omega

/-- `n` bytes have moved (R83). -/
structure Moved (di : RingIx) (ed : End) (si : RingIx) (es : End) (destr : Bool) (n : Nat) (s t : State) : Prop where
  ins : Inserted [di, si] di ed (s.rb di).cap (StorageApart s di si) (arriving ed (leaving es (s.content si))) n s t
  src : t.rb si = (s.rb si).moved es destr n

namespace Moved

variable {di si : RingIx} {ed es : End} {destr : Bool} {n : Nat} {s t : State}

theorem refl (di : RingIx) (ed : End) (si : RingIx) (es : End) (destr : Bool) (hr : Ready s) (hd : 0 < (s.rb di).cap)
    (hs : 0 < (s.rb si).cap) : Moved di ed si es destr 0 s s := by
  refine ⟨.refl _ _ _ _ hr ⟨hd, (hr.1 di).1, le_rfl⟩, ?_⟩
  cases destr
  · rfl
  · exact (Desc.pull_zero es ((hr.1 si).2.1 hs)).symm

/-- The byte that moves next. -/
theorem next (h : Moved di ed si es destr n s t) (hr : Ready s) (hd : 0 < (s.rb di).cap) (hs : 0 < (s.rb si).cap)
    (hn : n < (s.rb si).count) (ha : StorageApart s di si) :
    (leaving es (s.content si))[n]? = some (t.rd si (moveIndex es destr (t.rb si).count n)) := by
  rw [State.rd, h.src, Desc.moved_addr, h.ins.load_storage hr hd ha (Desc.addr_holds _ _ hs)]
  cases es with
  | head => rw [leaving, List.getElem?_eq_getElem (by rwa [State.content_length]), State.content_getElem]; rfl
  | tail =>
    have hlen : n < (s.content si).length := by rwa [State.content_length]
    rw [leaving, List.getElem?_reverse hlen, State.content_length,
      List.getElem?_eq_getElem (by rw [State.content_length]; omega), State.content_getElem]
    rfl

/-- One more byte moves. -/
theorem move (h : Moved di ed si es destr n s t) (hr : Ready s) (hne : di ≠ si) (hs : 0 < (s.rb si).cap)
    (hn : n < (s.rb si).count) (hf : (s.rb di).count + n < (s.rb di).cap) :
    Moved di ed si es destr (n + 1) s ((if destr then t.dropEnd si es else t).pushEnd di ed
      (t.rd si (moveIndex es destr (t.rb si).count n))) := by
  have hl : Limit s di (s.rb di).cap := ⟨by omega, (hr.1 di).1, le_rfl⟩
  have hb := fun ha => (nextIn_arriving ed _ n).trans (h.next hr hl.1 hs hn ha)
  obtain ⟨u, hu⟩ : ∃ u, u = if destr then t.dropEnd si es else t := ⟨_, rfl⟩
  have hins : Inserted [di, si] di ed (s.rb di).cap (StorageApart s di si) (arriving ed (leaving es (s.content si))) n s u := by
    rw [hu]
    split
    · exact h.ins.dropEnd (by simp) hne es
    · exact h.ins
  have hsrc : u.rb si = (s.rb si).moved es destr (n + 1) := by
    have hsrc := h.src
    rw [hu]
    cases destr with
    | false => exact hsrc
    | true => exact State.rb_dropEnd_moved hsrc hn
  rw [← hu]
  exact ⟨hins.pushEnd hr hl (by simp) hb hf, (u.rb_pushEnd_ne ed _ hne.symm).trans hsrc⟩

/-- When the transfer stops: nothing is left to move, or the destination is full (R83). -/
theorem stops_iff (h : Moved di ed si es destr n s t) (hf : (s.rb di).count + n ≤ (s.rb di).cap) (hn : n ≤ (s.rb si).count) :
    moveStops (t.rb di) (t.rb si) destr n = true ↔ (s.rb si).count = n ∨ (s.rb di).count + n = (s.rb di).cap := by
  have hcount : (t.rb di).count = (s.rb di).count + n := by rw [h.ins.count]; omega
  have hsrc : (destr = true ∧ (t.rb si).count = 0 ∨ destr = false ∧ (t.rb si).count ≤ n) ↔ (s.rb si).count = n := by
    rw [h.src]
    cases destr with
    | false => simp [Desc.moved]; omega
    | true => cases es <;> simp [Desc.moved, Desc.pull] <;> omega
  simp only [moveStops, Bool.or_eq_true, Bool.and_eq_true, decide_eq_true_eq, Bool.not_eq_true', hcount, h.ins.cap, hsrc]

/-- The transfer goes on to the least of the bytes asked for, those there and the room for them (R83). -/
theorem moveLoop (h : Moved di ed si es destr n s t) (hr : Ready s) (hne : di ≠ si) (hs : 0 < (s.rb si).cap) (fuel : Nat)
    (hn : n ≤ (s.rb si).count) (hf : (s.rb di).count + n ≤ (s.rb di).cap) {m : Nat}
    (hm : m = min (n + fuel) (min (s.rb si).count ((s.rb di).cap - (s.rb di).count))) :
    (moveLoop di ed si es destr fuel n t).2 = m ∧ Moved di ed si es destr m s (moveLoop di ed si es destr fuel n t).1 := by
  induction fuel generalizing n t with
  | zero =>
    obtain rfl : m = n := by omega
    exact ⟨rfl, h⟩
  | succ fuel ih =>
    have hstops := h.stops_iff hf hn
    rw [Sys2Proof.Machine.moveLoop]
    split
    · rename_i hstop
      obtain rfl : m = n := by
        rcases hstops.mp hstop with h1 | h1
        · omega
        · omega
      exact ⟨rfl, h⟩
    · rename_i hgo
      rw [hstops, not_or] at hgo
      exact ih (h.move hr hne hs (by omega) (by omega)) (by omega) (by omega) (by omega)

/-- What the source holds in the end. -/
theorem content_source (h : Moved di ed si es destr n s t) (hr : Ready s) (hd : 0 < (s.rb di).cap) (hs : 0 < (s.rb si).cap)
    (ha : StorageApart s di si) : t.content si = (s.setRb si ((s.rb si).moved es destr n)).content si := by
  rw [State.content, State.content, h.src, State.rb_setRb_same]
  refine List.map_congr_left (fun v _ => ?_)
  rw [State.rd, State.rd, h.src, State.rb_setRb_same, State.setRb_load]
  exact h.ins.load_storage hr hd ha
    (by rw [← Desc.moved_holds _ es destr n]; exact Desc.addr_holds _ _ (by rwa [Desc.moved_cap]))

end Moved

/-- Settles O30: the bytes leave one after the other and arrive so. -/
theorem rbMoveTransfers : Obligations.RbMoveTransfers := by
  rintro s ra rb ea eb destr hr hne hd hs hn m hm
  obtain ⟨hcount, hstart, _⟩ := hr.1 ra
  have hexec : exec (.rbMove ra ea rb eb destr) s =
      .next ((moveLoop ra ea rb eb destr s.arg1 0 s).1.finish (moveLoop ra ea rb eb destr s.arg1 0 s).2 0 0 0) := by
    refine if_neg ?_
    simp only [hne, false_or]
    omega
  obtain ⟨hmoved, h⟩ := (Moved.refl ra ea rb eb destr hr hd hs).moveLoop (m := m) hr hne hs s.arg1
    (Nat.zero_le _) hcount (by rwa [Nat.zero_add])
  rw [hmoved] at hexec
  have hle : m ≤ (s.rb rb).count := by omega
  refine ⟨_, hexec, h.ins.works.completed hr.2.2 _ _ _ _, h.ins.works.onlyRings _ _ _ _, ?_, ?_, h.ins.slots,
    fun ha moved hmv => ⟨?_, ?_⟩⟩
  · exact h.ins.desc.trans (Desc.inserted_eq_grown ea (hstart hd) (by omega))
  · refine h.src.trans ?_
    cases destr
    · rfl
    · cases eb <;> rfl
  · have hleft : (leaving eb (s.content rb)).take m = moved := by
      rw [hmv]
      cases eb <;> rfl
    have hlen : moved.length = m := by rw [← hleft]; cases eb <;> simp [leaving, hle]
    rw [State.finish_content, h.ins.content ha, firstIn_arriving, hleft]
    refine (keepNewest_eq_append ?_).trans ?_
    · rw [State.content_length]
      cases ea <;> simp only [arriving, List.length_reverse] <;> omega
    · cases ea <;> rfl
  · refine (h.content_source hr hd hs ha).trans ?_
    cases destr with
    | false => exact congrArg (State.content · rb) (s.setRb_self rb)
    | true =>
      refine (content_setRb_pull s rb eb hle).trans ?_
      cases eb <;> rfl

end Sys2Proof.Machine

namespace Sys2Proof.Machine

/-! ## What the tests of a search decide (R92, R94, R95) -/

theorem occursAt_iff {p xs : List Byte} {i : Nat} (hp : p ≠ []) : occursAt p xs i = true ↔ Occurs p xs i := by
  have hprefix : Occurs p xs i ↔ p <+: xs.drop i := by
    rw [List.prefix_iff_getElem?]
    refine forall_congr' fun j => forall_congr' fun hj => ?_
    rw [List.getElem?_drop, List.getElem?_eq_getElem hj]
  rw [hprefix, occursAt, Bool.and_eq_true, decide_eq_true_eq, beq_iff_eq, List.prefix_iff_eq_take, eq_comm (a := p)]
  refine and_iff_right_of_imp fun htake => ?_
  have hlen := congrArg List.length htake
  rw [List.length_take, List.length_drop] at hlen
  have := List.length_pos_iff.mpr hp
  omega

theorem Occurs.le_length {p xs : List Byte} {i : Nat} (h : Occurs p xs i) (hp : p ≠ []) : i + p.length ≤ xs.length :=
  occursAt_bound ((occursAt_iff hp).mpr h)

theorem memberAt_ne_none_iff {p xs : List Byte} {ws pos : Nat} (h : ws ≤ pos) :
    memberAt p xs ws pos ≠ .none ↔ ∃ a, Qualifies p xs ws pos a := by
  simp only [← mem_alignments h, memberAt, memberOf]
  cases alignments p xs ws pos with
  | nil => simp
  | cons a q =>
    refine iff_of_true ?_ ⟨a, List.mem_cons_self⟩
    split <;> simp

theorem memberAt_eq_complete_iff {p xs : List Byte} {ws pos : Nat} (h : ws ≤ pos) :
    memberAt p xs ws pos = .complete ↔ Qualifies p xs ws pos (p.length - 1) := by
  rw [← mem_alignments h, ← List.contains_iff_mem, memberAt, memberOf]
  split
  · next hc => exact iff_of_true rfl hc
  · next hc => split <;> exact iff_of_false nofun hc

/-- The empty pattern has no alignments. -/
theorem Qualifies.ne_nil {p xs : List Byte} {ws pos a : Nat} (h : Qualifies p xs ws pos a) : p ≠ [] :=
  List.ne_nil_of_length_pos (Nat.zero_lt_of_lt h.1)

theorem violates_iff {r : Rule} {xs : List Byte} {start i : Nat} (h : start ≤ i) :
    violates r xs start i = true ↔ Breaks r xs start i := by
  unfold violates Breaks
  cases r.policy with
  | hard =>
    have htail : (∃ a, Qualifies r.tail xs start i a) → r.tail ≠ [] := fun ⟨_, ha⟩ => ha.ne_nil
    simpa [memberAt_ne_none_iff h] using or_congr_right (and_iff_right_of_imp htail)
  | medium =>
    have hne : ∀ p, Qualifies p xs start i (p.length - 1) → p ≠ [] := fun p hq => hq.ne_nil
    simpa [memberAt_eq_complete_iff h] using or_congr_left (and_iff_right_of_imp (hne r.head)).symm
  | soft => simp

/-! ## A candidate ends where a frame ends (R95) -/

/-- The current length of a candidate with its head at `h` and its next byte at `e` is not over the bound (R95). -/
def WithinMax (r : Rule) (h e : Nat) : Prop := r.maxLen = 0 ∨ e - h ≤ r.maxLen

/-- A candidate with its head at `h`, still open at `i`, ends before position `e`, and nothing closes it on the way (R95). -/
def EndsFrom (r : Rule) (xs : List Byte) (h i e : Nat) : Prop :=
  i ≤ e ∧ MayEnd r xs h e ∧ WithinMax r h e ∧
    ∀ j, i ≤ j → j < e → j < xs.length ∧ ¬ MayEnd r xs h j ∧ ¬ Breaks r xs (h + r.head.length) j

theorem frameAt_iff_endsFrom {r : Rule} {xs : List Byte} {h len : Nat} :
    FrameAt r xs h len ↔
      Occurs r.head xs h ∧ ∃ e, EndsFrom r xs h (h + r.head.length) e ∧ len = e - h + r.tail.length :=
  and_congr_right fun _ => exists_congr fun _ =>
    ⟨fun ⟨hle, hlen, hend⟩ => ⟨⟨hle, hend⟩, hlen⟩, fun ⟨⟨hle, hend⟩, hlen⟩ => ⟨hle, hlen, hend⟩⟩

section
variable {r : Rule} {xs : List Byte} {h i e : Nat}

theorem EndsFrom.withinMax (hend : EndsFrom r xs h i e) : WithinMax r h i := by
  obtain ⟨hle, _, hmax | hmax, _⟩ := hend
  · exact .inl hmax
  · exact .inr (by omega)

theorem endsFrom_of_mayEnd (hmax : WithinMax r h i) (hm : MayEnd r xs h i) : EndsFrom r xs h i e ↔ e = i := by
  constructor
  · rintro ⟨hle, _, _, hopen⟩
    by_contra hne
    exact (hopen i (Nat.le_refl _) (by omega)).2.1 hm
  · rintro rfl
    exact ⟨Nat.le_refl _, hm, hmax, fun j _ _ => by omega⟩

theorem endsFrom_of_not_mayEnd (hm : ¬ MayEnd r xs h i) :
    EndsFrom r xs h i e ↔ i < xs.length ∧ ¬ Breaks r xs (h + r.head.length) i ∧ EndsFrom r xs h (i + 1) e := by
  constructor
  · rintro ⟨hle, hme, hmax, hopen⟩
    have hlt : i < e := Nat.lt_of_le_of_ne hle (by rintro rfl; exact hm hme)
    obtain ⟨hx, _, hb⟩ := hopen i (Nat.le_refl _) hlt
    exact ⟨hx, hb, hlt, hme, hmax, fun j hj => hopen j (by omega)⟩
  · rintro ⟨hx, hb, hle, hme, hmax, hopen⟩
    refine ⟨by omega, hme, hmax, fun j hj hje => ?_⟩
    rcases Nat.eq_or_lt_of_le hj with rfl | hj
    · exact ⟨hx, hm, hb⟩
    · exact hopen j hj hje

/-- State insideCandidate follows the declarative end of a candidate byte by byte (R95). -/
theorem insideCandidate_eq_some_iff {fuel len : Nat} (hi : h + r.head.length ≤ i) (hf : xs.length < i + fuel)
    (hx : i ≤ xs.length) :
    insideCandidate r xs h fuel i = some len ↔ ∃ e, EndsFrom r xs h i e ∧ len = e - h + r.tail.length := by
  induction fuel generalizing i with
  | zero => omega
  | succ fuel ih =>
    rw [insideCandidate]
    split
    · next hover =>
      refine iff_of_false nofun fun ⟨e, hend, _⟩ => ?_
      rcases hend.withinMax with h0 | hle <;> omega
    next hwithin =>
    have hmax : WithinMax r h i := by unfold WithinMax; omega
    split
    · next hmin =>
      obtain ⟨hmin, htail⟩ := hmin
      simp only [endsFrom_of_mayEnd hmax ⟨hmin, .inl htail⟩, exists_eq_left, htail, List.length_nil, Nat.add_zero,
        Option.some.injEq, eq_comm (a := len)]
    next hnotail =>
    split
    · next hmin =>
      obtain ⟨hmin, htail⟩ := hmin
      have hocc := (occursAt_iff fun h0 => hnotail ⟨hmin, h0⟩).mp htail
      simp only [endsFrom_of_mayEnd hmax ⟨hmin, .inr hocc⟩, exists_eq_left, Option.some.injEq, eq_comm (a := len)]
    next hnoend =>
    have hm : ¬ MayEnd r xs h i := by
      rintro ⟨hmin, hnil | hocc⟩
      · exact hnotail ⟨hmin, hnil⟩
      · exact hnoend ⟨hmin, (occursAt_iff fun h0 => hnotail ⟨hmin, h0⟩).mpr hocc⟩
    simp only [endsFrom_of_not_mayEnd hm, ← violates_iff hi]
    split
    · next hpast => exact iff_of_false nofun fun ⟨_, ⟨hlt, _⟩, _⟩ => Nat.not_lt.mpr hpast hlt
    next hlt =>
    split
    · next hv => exact iff_of_false nofun fun ⟨_, ⟨_, hb, _⟩, _⟩ => hb hv
    next hv =>
    rw [ih (by omega) (by omega) (by omega)]
    simp only [Nat.lt_of_not_le hlt, hv, Bool.false_eq_true, not_false_eq_true, true_and]

/-- A candidate yields a frame exactly where one stands (R95). -/
theorem candidate_eq_some_iff {len : Nat} (hr : r.head ≠ []) : candidate r xs h = some len ↔ FrameAt r xs h len := by
  rw [frameAt_iff_endsFrom, candidate, ← occursAt_iff hr]
  split
  · next hocc =>
    rw [insideCandidate_eq_some_iff (Nat.le_refl _) (by omega) (occursAt_bound hocc)]
    exact (and_iff_right hocc).symm
  · next hocc => exact iff_of_false nofun fun hframe => hocc hframe.1

theorem FrameAt.unique {len len' : Nat} (hr : r.head ≠ []) (hf : FrameAt r xs h len) (hf' : FrameAt r xs h len') :
    len = len' :=
  Option.some.inj (((candidate_eq_some_iff hr).mpr hf).symm.trans ((candidate_eq_some_iff hr).mpr hf'))

/-! ## The lowest frame of a stream (R95, R96 (b)) -/

/-- The lowest position from `start` on at which a frame stands is `h`, and `len` is that frame's length (R96 (b)). -/
def LowestFrame (r : Rule) (xs : List Byte) (start h len : Nat) : Prop :=
  start ≤ h ∧ FrameAt r xs h len ∧ ∀ h', start ≤ h' → h' < h → ∀ len', ¬ FrameAt r xs h' len'

variable {start len : Nat}

theorem lowestFrame_of_frameAt {found : Nat} (hr : r.head ≠ []) (hf : FrameAt r xs start found) :
    LowestFrame r xs start h len ↔ h = start ∧ len = found := by
  constructor
  · rintro ⟨hle, hframe, hlow⟩
    obtain rfl : h = start := by
      by_contra hne
      exact hlow start (Nat.le_refl _) (by omega) found hf
    exact ⟨rfl, hframe.unique hr hf⟩
  · rintro ⟨rfl, rfl⟩
    exact ⟨Nat.le_refl _, hf, fun _ _ _ => by omega⟩

theorem lowestFrame_succ (hno : ∀ len', ¬ FrameAt r xs start len') :
    LowestFrame r xs start h len ↔ LowestFrame r xs (start + 1) h len := by
  constructor
  · rintro ⟨hle, hf, hlow⟩
    have hne : start ≠ h := by rintro rfl; exact hno _ hf
    exact ⟨by omega, hf, fun h' hs => hlow h' (by omega)⟩
  · rintro ⟨hle, hf, hlow⟩
    refine ⟨by omega, hf, fun h' hs hlt => ?_⟩
    rcases Nat.eq_or_lt_of_le hs with rfl | hs
    · exact hno
    · exact hlow h' hs hlt

theorem exists_lowestFrame (hs : start ≤ h) (hf : FrameAt r xs h len) : ∃ h' len', LowestFrame r xs start h' len' := by
  classical
  have hex : ∃ h, start ≤ h ∧ ∃ len, FrameAt r xs h len := ⟨h, hs, len, hf⟩
  obtain ⟨hle, len', hframe⟩ := Nat.find_spec hex
  exact ⟨_, len', hle, hframe, fun h' hs' hlt len'' hf' => Nat.find_min hex hlt ⟨hs', len'', hf'⟩⟩

theorem LowestFrame.head_le (hlow : LowestFrame r xs start h len) (hr : r.head ≠ []) :
    start + r.head.length ≤ xs.length := by
  obtain ⟨hle, ⟨hocc, _⟩, _⟩ := hlow
  have := hocc.le_length hr
  omega

theorem searchFrom_eq_some_iff {fuel : Nat} (hr : r.head ≠ []) (hf : xs.length < start + fuel) :
    searchFrom r xs fuel start = some (h, len) ↔ LowestFrame r xs start h len := by
  induction fuel generalizing start with
  | zero =>
    refine iff_of_false nofun fun hlow => ?_
    have := hlow.head_le hr
    omega
  | succ fuel ih =>
    rw [searchFrom]
    split
    · split
      · next found hc =>
        rw [lowestFrame_of_frameAt hr ((candidate_eq_some_iff hr).mp hc), Option.some.injEq, Prod.mk.injEq,
          eq_comm, eq_comm (a := found)]
      · next hc =>
        have hno : ∀ len', ¬ FrameAt r xs start len' := fun len' hfr => by
          rw [(candidate_eq_some_iff hr).mpr hfr] at hc
          cases hc
        rw [lowestFrame_succ hno]
        exact ih (by omega)
    · next hlt => exact iff_of_false nofun fun hlow => hlt (hlow.head_le hr)

theorem search_eq_some_iff (hr : r.head ≠ []) : search r xs start = some (h, len) ↔ LowestFrame r xs start h len :=
  searchFrom_eq_some_iff hr (by omega)

theorem search_eq_none_iff (hr : r.head ≠ []) :
    search r xs start = none ↔ ∀ h, start ≤ h → ∀ len, ¬ FrameAt r xs h len := by
  rw [Option.eq_none_iff_forall_ne_some]
  constructor
  · intro hnone h hs len hf
    obtain ⟨h', len', hlow⟩ := exists_lowestFrame hs hf
    exact hnone (h', len') ((search_eq_some_iff hr).mpr hlow)
  · rintro hno ⟨h, len⟩ hsome
    obtain ⟨hs, hf, _⟩ := (search_eq_some_iff hr).mp hsome
    exact hno h hs len hf

end

/-- Settles O36: the search steps past exactly the positions at which no frame stands. -/
theorem searchFindsLowestFrame : Obligations.SearchFindsLowestFrame := fun _ _ _ hr =>
  ⟨fun _ _ => search_eq_some_iff hr, search_eq_none_iff hr⟩

/-! ## Hard search between FLAGs (R100) -/

/-- A rule that searches, under hard policy, for what stands between two FLAGs (R100). -/
structure HardFlagRule (r : Rule) : Prop where
  head : r.head = [0x7E#8]
  tail : r.tail = [0x7E#8]
  policy : r.policy = .hard

section
variable {r : Rule} {xs : List Byte} {h e i len : Nat}

theorem occurs_singleton {b : Byte} : Occurs [b] xs i ↔ xs[i]? = some b := by simp [Occurs]

theorem exists_qualifies_singleton {b : Byte} {ws : Nat} : (∃ a, Qualifies [b] xs ws i a) ↔ xs[i]? = some b := by
  simp [Qualifies]

theorem HardFlagRule.mayEnd_iff (hr : HardFlagRule r) : MayEnd r xs h e ↔ r.minLen ≤ e - h ∧ xs[e]? = some 0x7E#8 := by
  simp [MayEnd, hr.tail, occurs_singleton]

theorem HardFlagRule.breaks_iff (hr : HardFlagRule r) {start : Nat} : Breaks r xs start i ↔ xs[i]? = some 0x7E#8 := by
  simp [Breaks, hr.policy, hr.head, hr.tail, exists_qualifies_singleton]

/-- For such a rule a frame is a FLAG and the next FLAG after it, at a distance within the bounds. -/
theorem HardFlagRule.frameAt_iff (hr : HardFlagRule r) :
    FrameAt r xs h len ↔ xs[h]? = some 0x7E#8 ∧ ∃ e, h < e ∧ len = e - h + 1 ∧ r.minLen ≤ e - h ∧
      xs[e]? = some 0x7E#8 ∧ WithinMax r h e ∧ ∀ i, h < i → i < e → xs[i]? ≠ some 0x7E#8 := by
  rw [frameAt_iff_endsFrom, hr.head, hr.tail, occurs_singleton]
  simp only [EndsFrom, hr.mayEnd_iff, hr.breaks_iff, hr.head, List.length_singleton]
  refine and_congr_right fun _ => exists_congr fun e => ⟨?_, ?_⟩
  · rintro ⟨⟨hlt, ⟨hmin, hflag⟩, hmax, hopen⟩, hlen⟩
    exact ⟨hlt, hlen, hmin, hflag, hmax, fun i hi hie => (hopen i hi hie).2.2⟩
  · rintro ⟨hlt, hlen, hmin, hflag, hmax, hopen⟩
    obtain ⟨hx, _⟩ := List.getElem?_eq_some_iff.mp hflag
    exact ⟨⟨hlt, ⟨hmin, hflag⟩, hmax, fun i hi hie =>
      ⟨by omega, fun hend => hopen i hi hie hend.2, hopen i hi hie⟩⟩, hlen⟩

/-- The FLAG pair around `x` is a frame, if `x` holds no FLAG and its length is within the bounds. -/
theorem HardFlagRule.frameAt_bracketed (hr : HardFlagRule r) (pre post : List Byte) {x : List Byte} (hx : (0x7E#8 : Byte) ∉ x)
    (hmin : r.minLen ≤ 1 + x.length) (hmax : r.maxLen = 0 ∨ 1 + x.length ≤ r.maxLen) :
    FrameAt r (pre ++ 0x7E#8 :: (x ++ 0x7E#8 :: post)) pre.length (x.length + 2) := by
  refine hr.frameAt_iff.mpr ⟨by simp, pre.length + (1 + x.length), by omega, by omega, by omega, ?_, ?_, fun i hi hie => ?_⟩
  · simp [Nat.add_comm 1]
  · unfold WithinMax; omega
  · obtain ⟨k, rfl⟩ := Nat.exists_eq_add_of_lt hi
    have hk : k < x.length := by omega
    rw [Nat.add_assoc, List.getElem?_append_right (by omega), Nat.add_sub_cancel_left, List.getElem?_cons_succ,
      List.getElem?_append_left hk, List.getElem?_eq_getElem hk, ne_eq, Option.some.injEq]
    exact ne_of_mem_of_not_mem (List.getElem_mem hk) hx

/-- No frame stands just before a FLAG: with a minLen of 2 that FLAG would be an interior byte, and it breaks the policy. -/
theorem HardFlagRule.not_frameAt_before_flag (hr : HardFlagRule r) (hmin : 2 ≤ r.minLen) (hflag : xs[h + 1]? = some 0x7E#8) :
    ¬ FrameAt r xs h len := by
  rw [hr.frameAt_iff]
  rintro ⟨_, e, _, _, hlen, _, _, hopen⟩
  exact hopen (h + 1) (by omega) (by omega) hflag

end

/-- Settles O37: a frame stands at the opening flag, and none stands at the closing flag before it. -/
theorem hardSearchFindsIntendedFrame : Obligations.HardSearchFindsIntendedFrame := by
  rintro before after x r hhead htail hpol hmin hall _ _ rfl rfl
  have hr : HardFlagRule r := ⟨hhead, htail, hpol⟩
  have hne : r.head ≠ [] := by rw [hhead]; exact List.cons_ne_nil _ _
  obtain ⟨hx, hlo, hhi⟩ := hall x (by simp)
  rw [List.flatMap_append, List.flatMap_cons, List.cons_append, List.append_assoc, List.singleton_append]
  generalize hpre : before.flatMap (fun y => 0x7E#8 :: (y ++ [0x7E#8])) = pre
  generalize after.flatMap (fun y => 0x7E#8 :: (y ++ [0x7E#8])) = post
  have hlow := (lowestFrame_of_frameAt hne (hr.frameAt_bracketed pre post hx hlo hhi)).mpr ⟨rfl, rfl⟩
  refine ⟨(search_eq_some_iff hne).mpr hlow, fun hb => (search_eq_some_iff hne).mpr ?_⟩
  have hpos : pre.length - 1 + 1 = pre.length := by
    obtain ⟨y, ys, rfl⟩ := List.exists_cons_of_ne_nil hb
    rw [← hpre, List.flatMap_cons, List.cons_append, List.length_cons, Nat.add_sub_cancel]
  rw [lowestFrame_succ fun _ => hr.not_frameAt_before_flag hmin (by simp [hpos]), hpos]
  exact hlow

end Sys2Proof.Machine

namespace Sys2Proof.Machine

/-! ## The stuffing of a list of bytes (R101, R104) -/

theorem needsEscape_iff {b : Byte} : needsEscape b = true ↔ b = Config.flag ∨ b = Config.esc := by simp [needsEscape]

theorem escapedForm_iff {b : Byte} : escapedForm b = true ↔ b = 0x5E#8 ∨ b = 0x5D#8 := by
  simp [escapedForm, Config.flag, Config.esc, Config.escXor]

/-- The second byte of an escape is one of the two valid forms. -/
theorem escapedForm_xor {b : Byte} (h : needsEscape b = true) : escapedForm (b ^^^ Config.escXor) = true := by
  rcases needsEscape_iff.mp h with rfl | rfl <;> rfl

theorem xor_escXor_xor (b : Byte) : b ^^^ Config.escXor ^^^ Config.escXor = b := by
  rw [BitVec.xor_assoc, BitVec.xor_self, BitVec.xor_zero]

/-- One of the two valid forms behind an ESC is the stuffing of a byte. -/
theorem exists_stuff1_of_escapedForm {b : Byte} (h : escapedForm b = true) : ∃ x, stuff1 x = [Config.esc, b] := by
  rcases escapedForm_iff.mp h with rfl | rfl
  · exact ⟨Config.flag, rfl⟩
  · exact ⟨Config.esc, rfl⟩

/-- Each escaped byte takes one slot more. -/
theorem length_stuff (c : List Byte) : (stuff c).length = c.length + c.countP needsEscape := by
  induction c with
  | nil => rfl
  | cons b c ih =>
    rw [stuff_cons, List.length_append, ih, List.length_cons, List.countP_cons, stuff1]
    split <;> simp only [List.length_cons, List.length_nil] <;> omega

/-- No byte is stuffed to a FLAG. -/
theorem flag_not_mem_stuff1 (b : Byte) : Config.flag ∉ stuff1 b := by
  by_cases hb : needsEscape b = true
  · rcases needsEscape_iff.mp hb with rfl | rfl <;> decide
  · rw [show stuff1 b = [b] from if_neg hb, List.mem_singleton]
    rintro rfl
    exact hb rfl

theorem flag_not_mem_stuff (c : List Byte) : Config.flag ∉ stuff c := by
  rw [stuff, List.mem_flatMap]
  rintro ⟨b, -, hb⟩
  exact flag_not_mem_stuff1 b hb

/-- The element of a list that satisfies `p` after exactly `n` others do. -/
theorem exists_append_of_lt_countP {α : Type} {p : α → Bool} {n : Nat} {c : List α} (h : n < c.countP p) :
    ∃ xs b post, c = xs ++ b :: post ∧ p b = true ∧ xs.countP p = n := by
  induction c generalizing n with
  | nil => simp at h
  | cons a c ih =>
    rw [List.countP_cons] at h
    by_cases ha : p a = true
    · cases n with
      | zero => exact ⟨[], a, c, rfl, ha, rfl⟩
      | succ n =>
        rw [if_pos ha] at h
        obtain ⟨xs, b, post, rfl, hb, hn⟩ := ih (Nat.lt_of_succ_lt_succ h)
        exact ⟨a :: xs, b, post, rfl, hb, by rw [List.countP_cons_of_pos ha, hn]⟩
    · rw [if_neg ha] at h
      obtain ⟨xs, b, post, rfl, hb, hn⟩ := ih h
      exact ⟨a :: xs, b, post, rfl, hb, by rw [List.countP_cons_of_neg ha, hn]⟩

/-- Every content is a stuffing as far as its first corruption, if it has one. -/
abbrev Unstuffable (c : List Byte) : Prop :=
  (∃ xs, c = stuff xs) ∨ ∃ xs bad rest, CorruptAt bad rest ∧ c = stuff xs ++ bad ++ rest

/-- One more byte stuffed in front. -/
theorem Unstuffable.stuff1_append {c : List Byte} (h : Unstuffable c) (b : Byte) : Unstuffable (stuff1 b ++ c) := by
  rcases h with ⟨xs, rfl⟩ | ⟨xs, bad, rest, hbad, rfl⟩
  · exact .inl ⟨b :: xs, rfl⟩
  · exact .inr ⟨b :: xs, bad, rest, hbad, by rw [stuff_cons, List.append_assoc, List.append_assoc, List.append_assoc]⟩

/-- A content that begins with its corruption. -/
theorem Unstuffable.of_corruptAt {bad rest : List Byte} (h : CorruptAt bad rest) : Unstuffable (bad ++ rest) :=
  .inr ⟨[], bad, rest, h, rfl⟩

/-- A byte other than ESC in front: it is its own stuffing, or a FLAG and so a corruption. -/
theorem Unstuffable.cons {c : List Byte} (h : Unstuffable c) {b : Byte} (hb : b ≠ Config.esc) : Unstuffable (b :: c) := by
  by_cases hflag : b = Config.flag
  · exact .of_corruptAt (bad := [b]) (.inl (by rw [hflag]; rfl))
  · have hplain : ¬ needsEscape b = true := by rw [needsEscape_iff]; tauto
    have hmap : stuff1 b = [b] := if_neg hplain
    have := h.stuff1_append b
    rwa [hmap] at this

theorem stuff_or_corrupt (c : List Byte) : Unstuffable c := by
  induction c using List.twoStepInduction with
  | nil => exact .inl ⟨[], rfl⟩
  | singleton b =>
    by_cases hb : b = Config.esc
    · exact .of_corruptAt (bad := [b]) (.inr (.inl ⟨by rw [hb]; rfl, rfl⟩))
    · exact Unstuffable.cons (.inl ⟨[], rfl⟩) hb
  | cons_cons b b2 c ih ih2 =>
    by_cases hb : b = Config.esc
    · subst hb
      by_cases hform : escapedForm b2 = true
      · obtain ⟨x, hx⟩ := exists_stuff1_of_escapedForm hform
        have := ih.stuff1_append x
        rwa [hx] at this
      · rw [escapedForm_iff, not_or] at hform
        exact .of_corruptAt (bad := [Config.esc, b2]) (.inr (.inr ⟨b2, rfl, hform⟩))
    · exact (ih2 b2).cons hb

end Sys2Proof.Machine

namespace Sys2Proof.Machine

/-! ## The loop of BS_UNSTUFF, by what stands at the head (R103) -/

section

variable {i : RingIx} {left k : Nat} {s : State}

theorem unstuffLoop_flag (h : s.rd i 0 = Config.flag) :
    unstuffLoop i (left + 1) k s = { st := s.dropHead i 1, ok := false, used := k + 1 } := by
  rw [unstuffLoop.eq_def]
  exact if_pos h

theorem unstuffLoop_plain (h : ¬ needsEscape (s.rd i 0) = true) :
    unstuffLoop i (left + 1) k s = unstuffLoop i left (k + 1) ((s.dropHead i 1).pushTail i (s.rd i 0)) := by
  rw [needsEscape_iff, not_or] at h
  obtain ⟨hflag, hesc⟩ := h
  rw [unstuffLoop.eq_def]
  exact (if_neg hflag).trans (if_neg hesc)

theorem unstuffLoop_last_esc (h : s.rd i 0 = Config.esc) :
    unstuffLoop i 1 k s = { st := s.dropHead i 1, ok := false, used := k + 1 } := by
  have hne : s.rd i 0 ≠ Config.flag := by rw [h]; decide
  rw [unstuffLoop.eq_def]
  exact (if_neg hne).trans (if_pos h)

theorem unstuffLoop_escape (h : s.rd i 0 = Config.esc) (hform : escapedForm ((s.dropHead i 1).rd i 0) = true) :
    unstuffLoop i (left + 2) k s = unstuffLoop i left (k + 2)
      (((s.dropHead i 1).dropHead i 1).pushTail i ((s.dropHead i 1).rd i 0 ^^^ Config.escXor)) := by
  have hne : s.rd i 0 ≠ Config.flag := by rw [h]; decide
  rw [unstuffLoop.eq_def]
  exact (if_neg hne).trans ((if_pos h).trans (if_pos hform))

theorem unstuffLoop_bad_escape (h : s.rd i 0 = Config.esc) (hform : ¬ escapedForm ((s.dropHead i 1).rd i 0) = true) :
    unstuffLoop i (left + 2) k s = { st := (s.dropHead i 1).dropHead i 1, ok := false, used := k + 2 } := by
  have hne : s.rd i 0 ≠ Config.flag := by rw [h]; decide
  rw [unstuffLoop.eq_def]
  exact (if_neg hne).trans ((if_pos h).trans (if_neg hform))

end

/-! ## In-place passes over a ring (R102, R103)

BS_STUFF and BS_UNSTUFF take input bytes off the head of a ring and push output bytes at its tail. `Passed` is the state of
such a pass; it has one rule for a drop and one for a push, and each loop is followed along the list of its input bytes. -/

/-- The completion of a ring command with any outcome code. -/
theorem Works.completed_complete {l : List RingIx} {s t : State} (h : Works l s t) (hz : s.hazard = false) (e : Ecode)
    (q : Quad) : Completed s (t.complete e q) e q := by
  refine ⟨rfl, t.complete_res e q (h.hazard.trans hz), rfl, rfl, ?_, ?_, ?_⟩
  · rw [State.complete_status, Status.complete_err, h.status]
  · rw [State.complete_status, Status.complete_ovr, h.status]
  · rw [State.complete_status, Status.complete_ackFail, h.status]

/-- What stays is what stays of a completion with OK, which differs in STATUS and the results alone. -/
theorem Works.onlyRings_complete {l : List RingIx} {s t : State} (h : Works l s t) (e : Ecode) (q : Quad) :
    OnlyRings l s (t.complete e q) := h.onlyRings 0 0 0 0

/-- `t` comes from `s` by a pass over RBi that has consumed `k` bytes, has `rest` to go, and has put out `out`. -/
structure Passed (i : RingIx) (k : Nat) (rest out : List Byte) (s t : State) : Prop where
  works : Works [i] s t
  ready : Ready t
  consumed : k + rest.length = (s.rb i).count
  desc : t.rb i = { s.rb i with
    count := rest.length + out.length, start := ((s.rb i).start + k) % (s.rb i).cap }
  slots : MemKeptBut (fun j => (s.rb i).addr ((s.rb i).count + j)) out.length s t
  content : t.content i = rest ++ out

namespace Passed

variable {i : RingIx} {k : Nat} {b : Byte} {rest out : List Byte} {s t : State}

/-- A pass begins with the content as its input. -/
theorem start (hr : Ready s) (hc : 0 < (s.rb i).cap) : Passed i 0 (s.content i) [] s s := by
  refine ⟨Works.refl _ hr.2.1, hr, by simp, ?_, fun _ _ => rfl, by simp⟩
  simp [Nat.mod_eq_of_lt ((hr.1 i).2.1 hc)]

theorem count (h : Passed i k rest out s t) : (t.rb i).count = rest.length + out.length := by rw [h.desc]

theorem cap (h : Passed i k rest out s t) : (t.rb i).cap = (s.rb i).cap := by rw [h.desc]

theorem length_le (h : Passed i k rest out s t) : rest.length + out.length ≤ (s.rb i).cap := by
  rw [← h.count, ← h.cap]
  exact (h.ready.1 i).1

/-- The byte at the head is the next input byte. -/
theorem rd_head (h : Passed i k (b :: rest) out s t) : t.rd i 0 = b := by
  have hlt : 0 < (t.content i).length := by simp [h.content]
  rw [← t.content_getElem i 0 hlt]
  simp [h.content]

/-- The next input byte is consumed. -/
theorem dropHead (h : Passed i k (b :: rest) out s t) : Passed i (k + 1) rest out s (t.dropHead i 1) := by
  obtain ⟨hrings, hmem, hz⟩ := h.ready
  refine ⟨h.works.dropEnd (List.mem_singleton.mpr rfl) .head, ⟨hrings.dropHead i 1, hmem, hz⟩, ?_, ?_, h.slots, ?_⟩
  · have := h.consumed
    rw [List.length_cons] at this
    omega
  · have hone : min 1 (t.rb i).count = 1 := by rw [h.count, List.length_cons]; omega
    rw [State.rb_dropHead_same, Desc.dropHead, hone, h.desc]
    simp only [List.length_cons, Desc.mk.injEq, true_and, Nat.mod_add_mod, Nat.add_assoc, and_true]
    omega
  · rw [State.content_dropHead, h.content, List.cons_append, List.drop_one, List.tail_cons]

/-- An output byte goes to the tail: behind the old content and the output before it, wherever the head has got to. -/
theorem pushTail (h : Passed i k rest out s t) (hroom : rest.length + out.length < (s.rb i).cap) (b : Byte) :
    Passed i k rest (out ++ [b]) s (t.pushTail i b) := by
  obtain ⟨hrings, hmem, hz⟩ := h.ready
  have hlt : (t.rb i).count < (t.rb i).cap := by rwa [h.count, h.cap]
  have hslot : t.wrap ((t.rb i).addr (t.rb i).count) = (s.rb i).addr ((s.rb i).count + out.length) := by
    rw [t.wrap_addr i _ (by omega) (hrings i), h.count, h.desc, ← h.consumed]
    simp only [Desc.addr, Desc.phys, Nat.mod_add_mod, Nat.add_assoc]
  refine ⟨h.works.pushEnd (List.mem_singleton.mpr rfl) .tail b, ⟨hrings.pushTail i b hlt, t.pushTail_memOk i b hmem, hz⟩,
    h.consumed, ?_, fun x hx => ?_, ?_⟩
  · rw [State.rb_pushTail_same, h.desc, List.length_append, List.length_singleton, Nat.add_assoc]
  · rw [List.length_append, List.length_singleton] at hx
    refine (t.read_store _ b x hmem.1).trans ((if_neg ?_).trans (h.slots x fun j hj => hx j (by omega)))
    rw [hslot]
    exact hx _ (Nat.lt_succ_self _)
  · rw [t.content_pushTail i b hlt ⟨hz, hmem.1, hrings i⟩, h.content, List.append_assoc]

/-! ### How a pass ends -/

theorem finish_ok (h : Passed i k rest out s t) (e : Ecode) :
    (PassResult.mk t true k).finish i e = t.complete .ok (quadOf 1 (rest.length + out.length) k 0) := by
  rw [← h.count]
  rfl

theorem finish_error (h : Passed i k rest out s t) (e : Ecode) :
    (PassResult.mk t false k).finish i e = t.complete e (quadOf 0 (rest.length + out.length) k 0) := by
  rw [← h.count]
  rfl

/-! ### BS_STUFF (R102) -/

/-- One byte stuffed, with room for what it becomes. -/
theorem stuffLoop_cons (h : Passed i k (b :: rest) out s t)
    (hroom : rest.length + out.length + (stuff1 b).length ≤ (s.rb i).cap) :
    ∃ u, stuffLoop i (b :: rest).length k t = stuffLoop i rest.length (k + 1) u ∧
      Passed i (k + 1) rest (out ++ stuff1 b) s u := by
  rw [List.length_cons, stuffLoop, h.rd_head]
  have hdrop := h.dropHead
  by_cases hb : needsEscape b = true
  · have hmap : stuff1 b = [Config.esc] ++ [b ^^^ Config.escXor] := if_pos hb
    rw [hmap, List.length_append, List.length_singleton, List.length_singleton] at hroom
    have hesc := hdrop.pushTail (by omega) Config.esc
    have hfree : rest.length + (out ++ [Config.esc]).length < (s.rb i).cap := by
      rw [List.length_append, List.length_singleton]
      omega
    have hne : ¬ (((t.dropHead i 1).pushTail i Config.esc).rb i).count =
        (((t.dropHead i 1).pushTail i Config.esc).rb i).cap := by
      rw [hesc.count, hesc.cap]
      exact hfree.ne
    simp only [if_pos hb, if_neg hne]
    refine ⟨_, rfl, ?_⟩
    rw [hmap, ← List.append_assoc]
    exact hesc.pushTail hfree _
  · have hmap : stuff1 b = [b] := if_neg hb
    rw [hmap, List.length_singleton] at hroom
    simp only [if_neg hb]
    refine ⟨_, rfl, ?_⟩
    rw [hmap]
    exact hdrop.pushTail (by omega) b

/-- The bytes `xs` stuffed, with room for their stuffing. -/
theorem stuffLoop_append {xs : List Byte} (h : Passed i k (xs ++ rest) out s t)
    (hroom : rest.length + out.length + (stuff xs).length ≤ (s.rb i).cap) :
    ∃ u, stuffLoop i (xs ++ rest).length k t = stuffLoop i rest.length (k + xs.length) u ∧
      Passed i (k + xs.length) rest (out ++ stuff xs) s u := by
  induction xs generalizing k out t with
  | nil => exact ⟨t, rfl, by simpa using h⟩
  | cons b xs ih =>
    have hlen := length_le_length_stuff xs
    rw [stuff_cons, List.length_append] at hroom
    rw [List.cons_append] at h ⊢
    obtain ⟨u, hloop, hu⟩ := h.stuffLoop_cons (by rw [List.length_append]; omega)
    obtain ⟨v, hloop', hv⟩ := ih hu (by rw [List.length_append]; omega)
    rw [List.append_assoc, Nat.add_assoc, Nat.add_comm 1] at hv
    rw [Nat.add_assoc, Nat.add_comm 1] at hloop'
    exact ⟨v, hloop.trans hloop', hv⟩

/-- The second byte of an escaped byte finds no slot. -/
theorem stuffLoop_full (h : Passed i k (b :: rest) out s t) (hb : needsEscape b = true)
    (hfull : rest.length + out.length + 1 = (s.rb i).cap) :
    ∃ u, stuffLoop i (b :: rest).length k t = { st := u, ok := false, used := k + 1 } ∧
      Passed i (k + 1) rest (out ++ [Config.esc]) s u := by
  have hesc := h.dropHead.pushTail (by omega) Config.esc
  have heq : (((t.dropHead i 1).pushTail i Config.esc).rb i).count =
      (((t.dropHead i 1).pushTail i Config.esc).rb i).cap := by
    rw [hesc.count, hesc.cap, ← hfull, List.length_append, List.length_singleton, Nat.add_assoc]
  rw [List.length_cons, stuffLoop, h.rd_head]
  simp only [if_pos hb, if_pos heq]
  exact ⟨_, rfl, hesc⟩

/-! ### BS_UNSTUFF (R103) -/

/-- The stuffing of one byte unstuffed. -/
theorem unstuffLoop_stuff1 (h : Passed i k (stuff1 b ++ rest) out s t) :
    ∃ u, unstuffLoop i (stuff1 b ++ rest).length k t = unstuffLoop i rest.length (k + (stuff1 b).length) u ∧
      Passed i (k + (stuff1 b).length) rest (out ++ [b]) s u := by
  have hle := h.length_le
  by_cases hb : needsEscape b = true
  · have hmap : stuff1 b = [Config.esc, b ^^^ Config.escXor] := if_pos hb
    rw [hmap] at h hle ⊢
    rw [List.cons_append, List.singleton_append] at h hle
    have hsecond := h.dropHead.rd_head
    have hloop := unstuffLoop_escape (left := rest.length) (k := k) h.rd_head (by rw [hsecond]; exact escapedForm_xor hb)
    rw [hsecond, xor_escXor_xor] at hloop
    rw [List.length_cons, List.length_cons] at hle
    exact ⟨_, hloop, h.dropHead.dropHead.pushTail (by omega) b⟩
  · have hmap : stuff1 b = [b] := if_neg hb
    rw [hmap] at h hle ⊢
    rw [List.singleton_append] at h hle
    have hloop := unstuffLoop_plain (left := rest.length) (k := k) (by rwa [h.rd_head])
    rw [h.rd_head] at hloop
    rw [List.length_cons] at hle
    exact ⟨_, hloop, h.dropHead.pushTail (by omega) b⟩

/-- The stuffing of `xs` unstuffed. -/
theorem unstuffLoop_append {xs : List Byte} (h : Passed i k (stuff xs ++ rest) out s t) :
    ∃ u, unstuffLoop i (stuff xs ++ rest).length k t = unstuffLoop i rest.length (k + (stuff xs).length) u ∧
      Passed i (k + (stuff xs).length) rest (out ++ xs) s u := by
  induction xs generalizing k out t with
  | nil => exact ⟨t, rfl, by simpa using h⟩
  | cons b xs ih =>
    rw [stuff_cons, List.append_assoc] at h ⊢
    obtain ⟨u, hloop, hu⟩ := h.unstuffLoop_stuff1
    obtain ⟨v, hloop', hv⟩ := ih hu
    rw [List.append_assoc, Nat.add_assoc, ← List.length_append] at hv
    rw [Nat.add_assoc, ← List.length_append] at hloop'
    exact ⟨v, hloop.trans hloop', hv⟩

/-- Corruption ends the pass once it is consumed. -/
theorem unstuffLoop_corrupt {bad : List Byte} (hbad : CorruptAt bad rest) (h : Passed i k (bad ++ rest) out s t) :
    ∃ u, unstuffLoop i (bad ++ rest).length k t = { st := u, ok := false, used := k + bad.length } ∧
      Passed i (k + bad.length) rest out s u := by
  rcases hbad with rfl | ⟨rfl, rfl⟩ | ⟨b, rfl, hflag, hesc⟩
  · exact ⟨_, unstuffLoop_flag h.rd_head, h.dropHead⟩
  · exact ⟨_, unstuffLoop_last_esc h.rd_head, h.dropHead⟩
  · have hform : ¬ escapedForm ((t.dropHead i 1).rd i 0) = true := by
      rw [h.dropHead.rd_head, escapedForm_iff, not_or]
      exact ⟨hflag, hesc⟩
    exact ⟨_, unstuffLoop_bad_escape h.rd_head hform, h.dropHead.dropHead⟩

end Passed

/-! ## The commands (R102, R103, R104) -/

theorem not_badPass {d : Desc} (hc : 0 < d.cap) (h0 : 0 < d.count) : ¬ badPass d = true := by
  rw [badPass_iff]
  omega

/-- What holds of a state that a pass has led to, once the command completes. -/
theorem Passed.complete {i : RingIx} {k : Nat} {rest out : List Byte} {s t : State} (h : Passed i k rest out s t)
    (hz : s.hazard = false) (e : Ecode) (q : Quad) :
    Completed s (t.complete e q) e q ∧ OnlyRings [i] s (t.complete e q) ∧ (t.complete e q).content i = rest ++ out ∧
      (t.complete e q).rb i = { s.rb i with
        count := rest.length + out.length, start := ((s.rb i).start + k) % (s.rb i).cap } ∧
      MemKeptBut (fun j => (s.rb i).addr ((s.rb i).count + j)) out.length s (t.complete e q) :=
  ⟨h.works.completed_complete hz e q, h.works.onlyRings_complete e q, h.content, h.desc, h.slots⟩

/-- BS_STUFF with room for the stuffing (R102). -/
theorem exec_bsStuff_of_room {s : State} {ra : RingIx} (hr : Ready s) (h0 : 0 < (s.rb ra).count)
    (hroom : (stuff (s.content ra)).length ≤ (s.rb ra).cap) :
    ∃ u, exec (.bsStuff ra) s =
        .next (u.complete .ok (quadOf 1 (stuff (s.content ra)).length (s.rb ra).count 0)) ∧
      Passed ra (s.rb ra).count [] (stuff (s.content ra)) s u := by
  have hc : 0 < (s.rb ra).cap := h0.trans_le (hr.1 ra).1
  have hstart := Passed.start hr hc
  rw [← List.append_nil (s.content ra)] at hstart
  obtain ⟨u, hloop, hu⟩ := hstart.stuffLoop_append (by simpa using hroom)
  rw [List.append_nil, State.content_length, Nat.zero_add] at hloop
  rw [State.content_length, Nat.zero_add, List.nil_append] at hu
  refine ⟨u, (if_neg (not_badPass hc h0)).trans ?_, hu⟩
  rw [stuffRing, hloop, List.length_nil, stuffLoop, hu.finish_ok, List.length_nil, Nat.zero_add]
  rfl

/-- BS_UNSTUFF on a stuffing (R103). -/
theorem exec_bsUnstuff_of_stuff {s : State} {ra : RingIx} {xs : List Byte} (hr : Ready s) (h0 : 0 < (s.rb ra).count)
    (hxs : s.content ra = stuff xs) :
    ∃ u, exec (.bsUnstuff ra) s = .next (u.complete .ok (quadOf 1 xs.length (s.rb ra).count 0)) ∧
      Passed ra (s.rb ra).count [] xs s u := by
  have hc : 0 < (s.rb ra).cap := h0.trans_le (hr.1 ra).1
  have hlen : (stuff xs).length = (s.rb ra).count := by rw [← hxs, State.content_length]
  have hstart := Passed.start hr hc
  rw [hxs, ← List.append_nil (stuff xs)] at hstart
  obtain ⟨u, hloop, hu⟩ := hstart.unstuffLoop_append
  rw [List.append_nil, hlen, Nat.zero_add] at hloop
  rw [hlen, Nat.zero_add, List.nil_append] at hu
  refine ⟨u, (if_neg (not_badPass hc h0)).trans ?_, hu⟩
  rw [unstuffRing, hloop, List.length_nil, unstuffLoop, hu.finish_ok, List.length_nil, Nat.zero_add]
  rfl

/-- Settles O40: the pass over the whole content ends with its stuffing. -/
theorem bsStuffReplacesContent : Obligations.BsStuffReplacesContent := by
  rintro s ra _ _ hr rfl h0 rfl hroom
  obtain ⟨u, hexec, hu⟩ := exec_bsStuff_of_room hr h0 hroom
  obtain ⟨hdone, honly, hcont, hdesc, hslots⟩ := hu.complete hr.2.2 .ok _
  rw [List.length_nil, Nat.zero_add] at hdesc
  exact ⟨_, hexec, hdone, honly, hcont, hdesc, hslots⟩

/-- Settles O41: the bytes before the first escaped one for which no slot is left are stuffed, and that byte is cut short. -/
theorem bsStuffWithoutRoom : Obligations.BsStuffWithoutRoom := by
  rintro s ra _ hr rfl h0 hfull
  have hle : (s.rb ra).count ≤ (s.rb ra).cap := (hr.1 ra).1
  have hc : 0 < (s.rb ra).cap := h0.trans_le hle
  rw [length_stuff, State.content_length] at hfull
  obtain ⟨xs, b, post, hsplit, hb, hescapes⟩ :=
    exists_append_of_lt_countP (show (s.rb ra).cap - (s.rb ra).count < (s.content ra).countP needsEscape by omega)
  have hcount : xs.length + (post.length + 1) = (s.rb ra).count := by
    rw [← s.content_length ra, hsplit, List.length_append, List.length_cons]
  have hstuff : (stuff xs).length = xs.length + ((s.rb ra).cap - (s.rb ra).count) := by rw [length_stuff, hescapes]
  have hstart := Passed.start hr hc
  rw [hsplit] at hstart
  obtain ⟨u, hloop, hu⟩ := hstart.stuffLoop_append (by rw [List.length_cons, List.length_nil]; omega)
  rw [Nat.zero_add] at hloop hu
  rw [List.nil_append] at hu
  obtain ⟨v, hlast, hv⟩ := hu.stuffLoop_full hb (by omega)
  have hlen : post.length + (stuff xs ++ [Config.esc]).length = (s.rb ra).cap := by
    rw [List.length_append, List.length_singleton]
    omega
  obtain ⟨hdone, honly, hcont, hdesc, hslots⟩ := hv.complete hr.2.2 .capacity (quadOf 0 (s.rb ra).cap (xs.length + 1) 0)
  rw [List.length_append, List.length_singleton] at hslots
  have hpos : (xs ++ b :: post)[xs.length]? = some b := by simp
  have htake : (xs ++ b :: post).take xs.length = xs := by simp
  have hdrop : (xs ++ b :: post).drop (xs.length + 1) = post := by simp
  refine ⟨_, xs.length + 1, (if_neg (not_badPass hc h0)).trans ?_, by omega, by omega, hdone, honly, ?_⟩
  · rw [stuffRing, ← s.content_length ra, hsplit, hloop, hlast, hv.finish_error, hlen]
    rfl
  · rw [Nat.add_sub_cancel, hsplit, hpos, htake, hdrop, List.append_assoc]
    rw [hlen] at hdesc
    exact ⟨hb, hescapes, hcont, hdesc, hslots⟩

/-- Settles O42: the pass undoes the stuffing, and what corrupts it, if anything, stops the pass. -/
theorem bsUnstuffInvertsOrStops : Obligations.BsUnstuffInvertsOrStops := by
  refine ⟨stuff_or_corrupt, ?_⟩
  rintro s ra _ xs hr rfl h0
  have hc : 0 < (s.rb ra).cap := h0.trans_le (hr.1 ra).1
  refine ⟨fun hxs => ?_, fun bad rest hbad hcontent => ?_⟩
  · obtain ⟨u, hexec, hu⟩ := exec_bsUnstuff_of_stuff hr h0 hxs
    obtain ⟨hdone, honly, hcont, hdesc, hslots⟩ := hu.complete hr.2.2 .ok _
    rw [List.length_nil, Nat.zero_add] at hdesc
    exact ⟨_, hexec, hdone, honly, hcont, hdesc, hslots⟩
  · have hstart := Passed.start hr hc
    rw [hcontent, List.append_assoc] at hstart
    obtain ⟨u, hloop, hu⟩ := hstart.unstuffLoop_append
    rw [Nat.zero_add] at hloop hu
    rw [List.nil_append] at hu
    obtain ⟨v, hlast, hv⟩ := hu.unstuffLoop_corrupt hbad
    obtain ⟨hdone, honly, hcont, hdesc, hslots⟩ := hv.complete hr.2.2 .corrupt
      (quadOf 0 (rest.length + xs.length) ((stuff xs).length + bad.length) 0)
    refine ⟨_, (if_neg (not_badPass hc h0)).trans ?_, hdone, honly, hcont, hdesc, hslots⟩
    rw [unstuffRing, ← s.content_length ra, hcontent, List.append_assoc, hloop, hlast, hv.finish_error]
    rfl

/-- Settles O43: what BS_STUFF leaves is a stuffing, which BS_UNSTUFF undoes. -/
theorem stuffThenUnstuff : Obligations.StuffThenUnstuff := by
  refine ⟨flag_not_mem_stuff, fun s ra hr h0 hroom => ?_⟩
  obtain ⟨u, hstuff, hu⟩ := exec_bsStuff_of_room hr h0 hroom
  have hready : Ready (u.complete .ok (quadOf 1 (stuff (s.content ra)).length (s.rb ra).count 0)) := hu.ready
  have hcount : 0 < (u.rb ra).count := by
    have := length_le_length_stuff (s.content ra)
    rw [State.content_length] at this
    rw [hu.count]
    omega
  obtain ⟨v, hunstuff, hv⟩ := exec_bsUnstuff_of_stuff hready hcount hu.content
  exact ⟨_, _, hstuff, rfl, hunstuff, rfl, hv.content⟩

end Sys2Proof.Machine

namespace Sys2Proof.Machine

/-! ## The CRC register (R105, R106)

One shift is linear over GF(2), and it is injective because bit 0 of the polynomial is 1. The table form is the linearity;
that the CRC tells any change of one byte is the injectivity. -/

theorem crcBit_eq (c : Half) : crcBit c = c <<< 1 ^^^ if c.getLsbD 15 then Config.crcPoly else 0#16 := by
  unfold crcBit
  split
  · rfl
  · rw [BitVec.xor_zero]

theorem crcBit_xor (a b : Half) : crcBit (a ^^^ b) = crcBit a ^^^ crcBit b := by
  have hpoly : ∀ x y : Bool, (if x ^^ y then Config.crcPoly else 0#16) =
      (if x then Config.crcPoly else 0#16) ^^^ (if y then Config.crcPoly else 0#16) := by decide
  rw [crcBit_eq, crcBit_eq, crcBit_eq, BitVec.shiftLeft_xor_distrib, BitVec.getLsbD_xor, hpoly]
  ac_rfl

theorem crcShift8_xor (a b : Half) : crcShift8 (a ^^^ b) = crcShift8 a ^^^ crcShift8 b := by
  simp only [crcShift8, crcBit_xor]

/-- Bit 0 of the polynomial is 1. -/
theorem crcBit_getLsbD_zero (c : Half) : (crcBit c).getLsbD 0 = c.getLsbD 15 := by
  rw [crcBit_eq]
  cases c.getLsbD 15 <;> simp [Config.crcPoly]

theorem crcBit_injective : Function.Injective crcBit := by
  intro a b h
  have htop : a.getLsbD 15 = b.getLsbD 15 := by rw [← crcBit_getLsbD_zero, h, crcBit_getLsbD_zero]
  rw [crcBit_eq, crcBit_eq, htop, BitVec.xor_left_inj] at h
  refine BitVec.eq_of_getLsbD_eq fun i hi => ?_
  obtain rfl | hlt : i = 15 ∨ i < 15 := by omega
  · exact htop
  · have hbit := congrArg (fun x => x.getLsbD (i + 1)) h
    have hlt' : i + 1 < 16 := by omega
    simpa [hi, hlt'] using hbit

theorem crcShift8_injective : Function.Injective crcShift8 := fun _ _ h => by
  simpa only [crcShift8, crcBit_injective.eq_iff] using h

/-- A byte that stands in the low half leaves no bit to fold back in eight shifts. -/
theorem crcShift8_setWidth (b : Byte) : crcShift8 (b.setWidth 16) = b.setWidth 16 <<< 8 := by
  simp [crcShift8, crcBit, ← BitVec.shiftLeft_add]

/-- Shifted up by eight, only the low byte is left. -/
theorem setWidth_shiftLeft_eight (c : Half) : (c.setWidth 8).setWidth 16 <<< 8 = c <<< 8 := by
  refine BitVec.eq_of_getLsbD_eq fun i hi => ?_
  have hlow : i - 8 < 8 := by omega
  have hlow' : i - 8 < 16 := by omega
  simp [hlow, hlow']

/-- The register with a byte on its high half, as its low half and what then stands in the high one. -/
theorem xor_high_eq_halves (c : Half) (b : Byte) : c ^^^ (b.setWidth 16 <<< 8) =
    (c.setWidth 8).setWidth 16 ^^^ (((c >>> 8).setWidth 8 ^^^ b).setWidth 16 <<< 8) := by
  refine BitVec.eq_of_getLsbD_eq fun i hi => ?_
  by_cases h8 : i < 8
  · simp [hi, h8]
  · have hback : 8 + (i - 8) = i := by omega
    have hlow : i - 8 < 8 := by omega
    have hlow' : i - 8 < 16 := by omega
    simp [hi, h8, hlow, hlow', hback]

/-- The byte step on the two halves of the register: the low one moves up, the high one goes through the table. -/
theorem crcByte_eq_table (c : Half) (b : Byte) :
    crcByte c b = (c <<< 8) ^^^ crcTable ((c >>> 8).setWidth 8 ^^^ b) := by
  rw [crcTable, crcByte, crcByte, BitVec.zero_xor, xor_high_eq_halves, crcShift8_xor, crcShift8_setWidth,
    setWidth_shiftLeft_eight]

/-- Settles O44: the byte step on the two halves of the register, and five entries of the table. -/
theorem crcByteByTable : Obligations.CrcByteByTable := ⟨crcByte_eq_table, rfl, rfl, rfl, rfl, rfl⟩

/-! ## The residue law (R107) -/

@[simp] theorem crcTable_zero : crcTable 0#8 = 0#16 := rfl

/-- The high byte of the register folded into it clears that byte, and the low byte comes up. -/
theorem crcByte_high (c : Half) : crcByte c (c.extractLsb' 8 8) = c <<< 8 := by
  have hhigh : (c >>> 8).setWidth 8 = c.extractLsb' 8 8 := by
    refine BitVec.eq_of_getLsbD_eq fun i hi => ?_
    simp [hi]
  rw [crcByte_eq_table, hhigh, BitVec.xor_self, crcTable_zero, BitVec.xor_zero]

/-- Folding the register into itself, high byte first, clears it. -/
theorem crcFold_self (c : Half) : crcFold c [c.extractLsb' 8 8, c.extractLsb' 0 8] = 0#16 := by
  have hlow : c.extractLsb' 0 8 = (c <<< 8).extractLsb' 8 8 := by
    refine BitVec.eq_of_getLsbD_eq fun i hi => ?_
    have hlow : i < 16 := by omega
    have hhigh : 8 + i < 16 := by omega
    simp [hi, hlow, hhigh]
  calc crcFold c [c.extractLsb' 8 8, c.extractLsb' 0 8]
      = crcByte (c <<< 8) ((c <<< 8).extractLsb' 8 8) := by rw [← hlow, ← crcByte_high c]; rfl
    _ = c <<< 8 <<< 8 := crcByte_high _
    _ = 0#16 := by rw [← BitVec.shiftLeft_add]; exact BitVec.shiftLeft_eq_zero le_rfl

theorem crc16_append_self (xs : List Byte) :
    crc16 (xs ++ [(crc16 xs).extractLsb' 8 8, (crc16 xs).extractLsb' 0 8]) = 0#16 := by
  rw [crc16, crcFold, List.foldl_append]
  exact crcFold_self (crc16 xs)

theorem crcByte_left_injective (b : Byte) : Function.Injective (crcByte · b) := fun _ _ h =>
  (BitVec.xor_left_inj _).mp (crcShift8_injective h)

theorem crcByte_right_injective (c : Half) : Function.Injective (crcByte c) := by
  intro a b h
  have hshift := (BitVec.xor_right_inj _).mp (crcShift8_injective h)
  refine BitVec.eq_of_getLsbD_eq fun i hi => ?_
  have hbit := congrArg (fun x => x.getLsbD (i + 8)) hshift
  have hi8 : i + 8 < 16 := by omega
  simpa [hi, hi8] using hbit

theorem crcFold_injective (xs : List Byte) : Function.Injective (crcFold · xs) := by
  induction xs with
  | nil => exact fun _ _ h => h
  | cons x xs ih => exact ih.comp (crcByte_left_injective x)

/-- A change of one byte changes the CRC. -/
theorem crcFold_set_ne {b : Byte} {xs : List Byte} {i : Nat} (h : i < xs.length) (hb : b ≠ xs[i]) (c : Half) :
    crcFold c (xs.set i b) ≠ crcFold c xs := by
  induction xs generalizing i c with
  | nil => cases h
  | cons x xs ih =>
    cases i with
    | zero => exact fun he => hb (crcByte_right_injective c (crcFold_injective xs he))
    | succ i => exact ih (Nat.lt_of_succ_lt_succ h) hb (crcByte c x)

theorem xor_one_shiftLeft_ne (b : Byte) {k : Nat} (hk : k < 8) : b ^^^ (1#8 <<< k) ≠ b := by
  intro h
  have hbit := congrArg (fun x => x.getLsbD k) h
  simp [hk] at hbit

/-- Settles O45: the register folded into itself is 0, and a change of one byte does not leave it so. -/
theorem crcResidueLaw : Obligations.CrcResidueLaw := by
  refine ⟨crc16_append_self, ?_⟩
  rintro xs ys i k h rfl hk
  rw [← crc16_append_self xs]
  exact crcFold_set_ne h (xor_one_shiftLeft_ne _ hk) Config.crcInit

end Sys2Proof.Machine

namespace Sys2Proof.Machine

/-! ## The CRC commands (R108 to R112) -/

/-- A command that sets the accumulator and completes with OK. -/
theorem setCrc_finish {s : State} (hz : s.hazard = false) (x : Half) (a b c d : Nat) :
    goOn ((s.setCrc x).finish a b c d) = .next (({ s with crcAcc := x } : State).okDone (quadOf a b c d)) :=
  congrArg _ (finish_eq_okDone (t := s.setCrc x) hz a b c d)

/-- Settles O46: each of the two sets the accumulator and completes. -/
theorem crcSeedAndByte : Obligations.CrcSeedAndByte := by
  refine fun s hz => ⟨setCrc_finish hz _ _ _ _ _, ?_⟩
  rintro _ rfl
  exact setCrc_finish hz _ _ _ _ _

theorem exec_crcRun {s : State} {ra : RingIx} (hz : s.hazard = false) (hc : 0 < (s.rb ra).cap) (hn : 0 < s.arg1)
    (ho : s.arg2 < (s.rb ra).count) {k : Nat} (hk : k = min s.arg1 ((s.rb ra).count - s.arg2)) {c : Half}
    (hfold : c = crcFold s.crcAcc (((s.content ra).drop s.arg2).take k)) :
    exec (.crcRun ra) s = .next (({ s with crcAcc := c } : State).okDone (quadOf c.toNat k 0 0)) := by
  rw [← s.slice_eq_content ra s.arg2 k (by omega)] at hfold
  subst hk hfold
  exact (if_neg (not_badRange hc hn ho)).trans (setCrc_finish hz _ _ _ _ _)

theorem exec_crcCheck {s : State} {ra : RingIx} (hz : s.hazard = false) (hc : 0 < (s.rb ra).cap) (h0 : 0 < (s.rb ra).count) :
    exec (.crcCheck ra) s = .next (({ s with crcAcc := crc16 (s.content ra) } : State).okDone
      (quadOf (if crc16 (s.content ra) = 0#16 then 1 else 0) (crc16 (s.content ra)).toNat 0 0)) :=
  (if_neg (by omega)).trans (setCrc_finish hz _ _ _ _ _)

/-- Too little room: the CAPACITY completion comes before any push (R111). -/
theorem exec_crcAppend_full {s : State} {ra : RingIx} (hz : s.hazard = false) (hc : 0 < (s.rb ra).cap)
    (hf : (s.rb ra).cap - (s.rb ra).count < 2) :
    exec (.crcAppend ra) s = .next { s with phase := .idle, status := s.status.after .capacity true, res := Quad.zero } := by
  refine (if_neg hc.ne').trans ((if_pos hf).trans ?_)
  simp [goOn, State.raise, State.complete, Status.complete, Status.after, hz]

/-- The two pushes of CRC_APPEND, as two inserts below CAP. -/
theorem wirePushes_inserted {s : State} {ra : RingIx} (hr : Ready s) (hf : 2 ≤ (s.rb ra).cap - (s.rb ra).count) (c : Half) :
    Inserted [ra] ra .tail (s.rb ra).cap True [c.extractLsb' 8 8, c.extractLsb' 0 8] 2 s
      ((s.pushTail ra (c.extractLsb' 8 8)).pushTail ra (c.extractLsb' 0 8)) := by
  have hl : Limit s ra (s.rb ra).cap := ⟨by omega, (hr.1 ra).1, le_rfl⟩
  have hi : ra ∈ [ra] := List.mem_singleton.mpr rfl
  have hstart := Inserted.refl [ra] .tail True [c.extractLsb' 8 8, c.extractLsb' 0 8] hr hl
  exact (hstart.pushEnd hr hl hi (fun _ => rfl) (by omega)).pushEnd hr hl hi (fun _ => rfl) (by omega)

/-- Settles O47: CRC_RUN and CRC_CHECK fold content into the accumulator; CRC_APPEND is its two pushes. -/
theorem crcRingCommands : Obligations.CrcRingCommands := by
  rintro s ra _ hr rfl
  obtain ⟨hcount, hstart, _⟩ := hr.1 ra
  have hz : s.hazard = false := hr.2.2
  refine ⟨⟨fun h => param_of_check (badRange_iff.mpr h), fun hc hn ho k c hk hfold => exec_crcRun hz hc hn ho hk hfold⟩,
    ⟨fun h => param_of_check h, ?_⟩, fun h => param_of_check h, exec_crcAppend_full hz, fun hf => ?_⟩
  · rintro hc h0 _ rfl
    exact exec_crcCheck hz hc h0
  · have hc : 0 < (s.rb ra).cap := by omega
    have hfit : (s.rb ra).count + 2 ≤ (s.rb ra).cap := by omega
    have hroom : ¬ (s.rb ra).free < 2 := by rw [Desc.free]; omega
    have hins := wirePushes_inserted hr hf s.crcAcc
    refine ⟨_, (if_neg hc.ne').trans (if_neg hroom), hins.works.completed hz _ _ _ _, hins.works.onlyRings _ _ _ _, ?_, ?_,
      hins.slots⟩
    · exact (hins.content trivial).trans (keepNewest_eq_append (by simpa [firstIn] using hfit))
    · exact hins.desc.trans (Desc.inserted_eq_grown .tail (hstart hc) hfit)

end Sys2Proof.Machine

namespace Sys2Proof.Machine

/-! ## Work confined to some rings (R54, R154)

The link commands work on descriptors of some rings and write bytes of some rings, and the two differ: SCAN moves the head of
the receive ring and writes the scratch ring alone. `Confined l m s t` says so of states that no host write has raced with;
unlike `Kept`, it asks nothing of the write log, which `Ready` does not speak of. -/

/-- `t` comes from `s` by work on the descriptors of `l`, whose storage stays bound, and on the bytes of the rings of `m`. -/
structure Confined (l m : List RingIx) (s t : State) : Prop where
  works : Works l s t
  ready : Ready t
  shape : ∀ j, (t.rb j).base = (s.rb j).base ∧ (t.rb j).cap = (s.rb j).cap
  outside : ∀ a, (∀ r ∈ m, (s.rb r).holds a = false) → t.mem.read a = s.mem.read a

/-- A state that ring commands can run on reads plain data. -/
theorem Ready.plain {s : State} (h : Ready s) (i : RingIx) : Plain s i := ⟨h.2.2, h.2.1.1, h.1 i⟩

theorem Desc.holds_eq_false_iff {d : Desc} {a : Nat} : d.holds a = false ↔ a < d.base ∨ d.base + d.cap ≤ a := by
  rw [Desc.holds, Bool.and_eq_false_iff, decide_eq_false_iff_not, decide_eq_false_iff_not, Nat.not_le, Nat.not_lt]

namespace Confined

variable {l m : List RingIx} {s t u : State} {i : RingIx}

theorem refl (l m : List RingIx) (h : Ready s) : Confined l m s s :=
  ⟨.refl l h.2.1, h, fun _ => ⟨rfl, rfl⟩, fun _ _ => rfl⟩

theorem holds_eq (h : Confined l m s t) (r : RingIx) (a : Nat) : (t.rb r).holds a = (s.rb r).holds a := by
  rw [Desc.holds, Desc.holds, (h.shape r).1, (h.shape r).2]

theorem trans (h : Confined l m s t) (h' : Confined l m t u) : Confined l m s u where
  works := h.works.trans h'.works
  ready := h'.ready
  shape := fun j => ⟨(h'.shape j).1.trans (h.shape j).1, (h'.shape j).2.trans (h.shape j).2⟩
  outside := fun a ha => (h'.outside a (fun r hr => by rw [h.holds_eq]; exact ha r hr)).trans (h.outside a ha)

theorem mono {l' m' : List RingIx} (h : Confined l m s t) (hl : ∀ r ∈ l, r ∈ l') (hm : ∀ r ∈ m, r ∈ m') :
    Confined l' m' s t :=
  ⟨h.works.mono hl, h.ready, h.shape, fun a ha => h.outside a (fun r hr => ha r (hm r hr))⟩

theorem rb (h : Confined l m s t) (hi : i ∉ l) : t.rb i = s.rb i := h.works.others i hi
theorem cap (h : Confined l m s t) (i : RingIx) : (t.rb i).cap = (s.rb i).cap := (h.shape i).2
theorem sess (h : Confined l m s t) : t.ls.sess = s.ls.sess := by rw [h.works.ls]
theorem rxIx (h : Confined l m s t) : t.rxIx = s.rxIx := by rw [State.rxIx, h.sess, State.rxIx]
theorem scrIx (h : Confined l m s t) : t.scrIx = s.scrIx := by rw [State.scrIx, h.sess, State.scrIx]
theorem sideIx (h : Confined l m s t) : t.sideIx = s.sideIx := by rw [State.sideIx, h.sess, State.sideIx]
theorem slenIx (h : Confined l m s t) : t.slenIx = s.slenIx := by rw [State.slenIx, h.sess, State.slenIx]
theorem env (h : Confined l m s t) : t.env = s.env := (congrArg State.env h.works.frozen :)
theorem crcAcc (h : Confined l m s t) : t.crcAcc = s.crcAcc := (congrArg State.crcAcc h.works.frozen :)
theorem res (h : Confined l m s t) : t.res = s.res := (congrArg State.res h.works.frozen :)
theorem hostKept (h : Confined l m s t) : HostKept s t := hostKept_of_hostPart (hostPart_of_frozen h.works.frozen)

/-- Storages that were apart still are. -/
theorem storageApart (h : Confined l m s t) {j : RingIx} (ha : StorageApart s i j) : StorageApart t i j := by
  unfold StorageApart at ha ⊢
  rwa [(h.shape i).1, (h.shape i).2, (h.shape j).1, (h.shape j).2]

/-- A ring with its descriptor as it was and storage apart from the rings written reads as before. -/
theorem rd_eq (h : Confined l m s t) (hr : Ready s) (hi : t.rb i = s.rb i) (ha : ∀ r ∈ m, StorageApart s i r)
    (hc : 0 < (s.rb i).cap) (v : Nat) : t.rd i v = s.rd i v := by
  rw [t.rd_plain i v (by rwa [hi]) (h.ready.plain i), s.rd_plain i v hc (hr.plain i), hi]
  refine h.outside _ fun r hrm => ?_
  have hslot := (s.rb i).phys_lt v hc
  have hapart := ha r hrm
  unfold StorageApart at hapart
  rw [Desc.holds_eq_false_iff, Desc.addr]
  omega

theorem content_eq (h : Confined l m s t) (hr : Ready s) (hi : t.rb i = s.rb i) (ha : ∀ r ∈ m, StorageApart s i r) :
    t.content i = s.content i := by
  rw [State.content, State.content, hi, State.slice, State.slice]
  rcases Nat.eq_zero_or_pos (s.rb i).count with h0 | hpos
  · rw [h0]; rfl
  · exact List.map_congr_left fun v _ => h.rd_eq hr hi ha (hpos.trans_le (hr.1 i).1) v

/-! ### The primitive operations -/

theorem setRb (hr : Ready s) (hi : i ∈ l) {d : Desc} (hd : d.Ok s.addrW) (hb : d.base = (s.rb i).base)
    (hc : d.cap = (s.rb i).cap) : Confined l m s (s.setRb i d) where
  works := (Works.refl l hr.2.1).setRb hi d
  ready := ⟨hr.1.setRb i d hd, hr.2⟩
  shape := fun j => by rw [State.rb_setRb]; split <;> simp_all
  outside := fun _ _ => rfl

theorem dropHead (hr : Ready s) (hi : i ∈ l) (k : Nat) : Confined l m s (s.dropHead i k) :=
  setRb hr hi ((hr.1 i).dropHead k) rfl rfl

theorem flushRb (hr : Ready s) (hi : i ∈ l) : Confined l m s (s.flushRb i) := setRb hr hi (hr.1 i).flush rfl rfl

theorem pushTail (hr : Ready s) (hl : i ∈ l) (hm : i ∈ m) (hf : (s.rb i).count < (s.rb i).cap) (b : Byte) :
    Confined l m s (s.pushTail i b) where
  works := (Works.refl l hr.2.1).pushEnd hl .tail b
  ready := ⟨hr.1.pushTail i b hf, s.pushTail_memOk i b hr.2.1, hr.2.2⟩
  shape := fun j => by
    by_cases hj : j = i
    · subst hj; simp
    · rw [State.rb_pushTail_ne _ _ _ _ hj]; exact ⟨rfl, rfl⟩
  outside := fun a ha => s.read_pushTail_outside i b a (by omega) hr.2.1.1 (hr.1 i) (ha i hm)

theorem pushHead (hr : Ready s) (hl : i ∈ l) (hm : i ∈ m) (hf : (s.rb i).count < (s.rb i).cap) (b : Byte) :
    Confined l m s (s.pushHead i b) where
  works := (Works.refl l hr.2.1).pushEnd hl .head b
  ready := ⟨hr.1.pushHead i b hf, s.pushHead_memOk i b hr.2.1, hr.2.2⟩
  shape := fun j => by
    by_cases hj : j = i
    · subst hj; simp
    · rw [State.rb_pushHead_ne _ _ _ _ hj]; exact ⟨rfl, rfl⟩
  outside := fun a ha => s.read_pushHead_outside i b a (by omega) hr.2.1.1 (hr.1 i) (ha i hm)

/-- A pass over a ring is work on that ring (R102, R103). -/
theorem of_passed {k : Nat} {rest out : List Byte} (h : Passed i k rest out s t) (hc : 0 < (s.rb i).cap) :
    Confined [i] [i] s t where
  works := h.works
  ready := h.ready
  shape := fun j => by
    by_cases hj : j = i
    · subst hj; rw [h.desc]; exact ⟨rfl, rfl⟩
    · rw [h.works.others j (by simpa using hj)]; exact ⟨rfl, rfl⟩
  outside := fun a ha => h.slots a fun j _ he => by
    have := ha i (List.mem_singleton.mpr rfl)
    rw [he, Desc.addr_holds _ _ hc] at this
    cases this

/-- What a hash remembered (R123) and ACKFAIL set (R133) before the work are, they are after it. -/
theorem setLastRx (h : Confined l m s t) (x : Half) : Confined l m (s.setLastRx x) (t.setLastRx x) where
  works := ⟨h.works.frozen, by rw [State.setLastRx_ls, h.works.ls]; rfl, h.works.status, h.works.memOk, h.works.others⟩
  ready := h.ready
  shape := h.shape
  outside := h.outside

theorem setAckFail (h : Confined l m s t) : Confined l m s.setAckFail t.setAckFail where
  works := ⟨h.works.frozen, h.works.ls, by rw [State.setAckFail_status, h.works.status]; rfl, h.works.memOk, h.works.others⟩
  ready := h.ready
  shape := h.shape
  outside := h.outside

/-- The completion after such work. -/
theorem completed (h : Confined l m s t) (hz : s.hazard = false) (e : Ecode) (q : Quad) : Completed s (t.complete e q) e q :=
  h.works.completed_complete hz e q

end Confined

end Sys2Proof.Machine

namespace Sys2Proof.Machine

/-! ## BUILD: whether it succeeds, and what it leaves (R102, R116) -/

/-- Pushing a list of bytes at the tail succeeds iff there is room, and then they stand behind the content (R116). -/
theorem pushAll_spec (i : RingIx) (bytes : List Byte) {s : State} (hr : Ready s) :
    Confined [i] [i] s (pushAll i bytes s).1 ∧
      ((pushAll i bytes s).2 = true ↔ (s.rb i).count + bytes.length ≤ (s.rb i).cap) ∧
      ((pushAll i bytes s).2 = true → (pushAll i bytes s).1.content i = s.content i ++ bytes) := by
  have hi : i ∈ [i] := List.mem_singleton.mpr rfl
  induction bytes generalizing s with
  | nil => exact ⟨.refl _ _ hr, by simpa [pushAll] using (hr.1 i).1, fun _ => (List.append_nil _).symm⟩
  | cons b bs ih =>
    have hle := (hr.1 i).1
    rw [pushAll, List.length_cons]
    split
    · next hfull =>
      rw [Desc.free] at hfull
      exact ⟨.refl _ _ hr, ⟨fun h => absurd h Bool.false_ne_true, fun h => by omega⟩, fun h => absurd h Bool.false_ne_true⟩
    · next hroom =>
      rw [Desc.free] at hroom
      have hlt : (s.rb i).count < (s.rb i).cap := by omega
      have hpush := Confined.pushTail (l := [i]) hr hi hi hlt b
      obtain ⟨hrest, hok, hcont⟩ := ih hpush.ready
      rw [State.content_pushTail s i b hlt (hr.plain i)] at hcont
      simp only [State.rb_pushTail_same] at hok
      refine ⟨hpush.trans hrest, hok.trans (by omega), fun h => ?_⟩
      rw [hcont h, List.append_assoc, List.singleton_append]

/-- However the stuffing loop ends, it is a pass; if it ends well, all its input is stuffed (R102). -/
theorem Passed.stuffLoop_end {i : RingIx} {k : Nat} {rest out : List Byte} {s t : State} (h : Passed i k rest out s t) :
    ∃ k' rest' out', Passed i k' rest' out' s (stuffLoop i rest.length k t).st ∧
      ((stuffLoop i rest.length k t).ok = true → rest' = [] ∧ out' = out ++ stuff rest) := by
  induction rest generalizing k out t with
  | nil => exact ⟨k, [], out, h, fun _ => ⟨rfl, (List.append_nil out).symm⟩⟩
  | cons b rest ih =>
    have hle := h.length_le
    rw [List.length_cons] at hle
    by_cases hroom : rest.length + out.length + (stuff1 b).length ≤ (s.rb i).cap
    · obtain ⟨u, hloop, hu⟩ := h.stuffLoop_cons hroom
      obtain ⟨k', rest', out', hend, hok⟩ := ih hu
      rw [hloop]
      exact ⟨k', rest', out', hend, fun h => by rw [stuff_cons, ← List.append_assoc]; exact hok h⟩
    · have hesc : needsEscape b = true := by
        by_contra hb
        rw [stuff1, if_neg hb, List.length_singleton] at hroom
        omega
      rw [stuff1, if_pos hesc, List.length_cons, List.length_singleton] at hroom
      obtain ⟨u, hloop, hu⟩ := h.stuffLoop_full hesc (by omega)
      rw [hloop]
      exact ⟨_, _, _, hu, fun h => absurd h Bool.false_ne_true⟩

/-- Stuffing a ring in place succeeds iff the result fits it, and then the result stands there (R102). -/
theorem stuffRing_spec (i : RingIx) {s : State} (hr : Ready s) (hc : 0 < (s.rb i).cap) :
    Confined [i] [i] s (stuffRing i s).st ∧
      ((stuffRing i s).ok = true ↔ (stuff (s.content i)).length ≤ (s.rb i).cap) ∧
      ((stuffRing i s).ok = true → (stuffRing i s).st.content i = stuff (s.content i)) := by
  have hstart := Passed.start hr hc
  obtain ⟨k, rest, out, hend, hall⟩ := hstart.stuffLoop_end
  rw [State.content_length, ← stuffRing] at hend hall
  refine ⟨.of_passed hend hc, ⟨fun hok => ?_, fun hfit => ?_⟩, fun hok => ?_⟩
  · obtain ⟨rfl, rfl⟩ := hall hok
    simpa using hend.length_le
  · rw [← List.append_nil (s.content i)] at hstart
    obtain ⟨u, hloop, _⟩ := hstart.stuffLoop_append (by simpa using hfit)
    rw [List.append_nil, State.content_length, ← stuffRing] at hloop
    rw [hloop]
    rfl
  · obtain ⟨rfl, rfl⟩ := hall hok
    simpa using hend.content

/-- The two FLAGs find room or not (R116). -/
theorem flagWrap_spec (i : RingIx) {s : State} (hr : Ready s) :
    Confined [i] [i] s (flagWrap i s).1 ∧ ((flagWrap i s).2 = true ↔ (s.rb i).count + 2 ≤ (s.rb i).cap) ∧
      ((flagWrap i s).2 = true → (flagWrap i s).1.content i = Config.flag :: (s.content i ++ [Config.flag])) := by
  have hi : i ∈ [i] := List.mem_singleton.mpr rfl
  have hle := (hr.1 i).1
  rw [flagWrap]
  split
  · next hfull =>
    rw [Desc.free] at hfull
    exact ⟨.refl _ _ hr, ⟨fun h => absurd h Bool.false_ne_true, fun h => by omega⟩, fun h => absurd h Bool.false_ne_true⟩
  · next hroom =>
    rw [Desc.free] at hroom
    have hlt : (s.rb i).count < (s.rb i).cap := by omega
    have hhead := Confined.pushHead (l := [i]) hr hi hi hlt Config.flag
    have hcount : ((s.pushHead i Config.flag).rb i).count = (s.rb i).count + 1 := by rw [State.rb_pushHead_same]
    have hcap := hhead.cap i
    dsimp only
    split
    · next hfull =>
      rw [Desc.free] at hfull
      exact ⟨hhead, ⟨fun h => absurd h Bool.false_ne_true, fun h => by omega⟩, fun h => absurd h Bool.false_ne_true⟩
    · next hroom' =>
      rw [Desc.free] at hroom'
      refine ⟨hhead.trans (.pushTail hhead.ready hi hi (by omega) _), iff_of_true rfl (by omega), fun _ => ?_⟩
      rw [State.content_pushTail _ i _ (by omega) (hhead.ready.plain i), s.content_pushHead i _ hlt (hr.plain i),
        List.cons_append]

theorem wireFrame_length (code : BitVec 7) (a : Bool) (hash : Half) (p : List Byte) :
    (wireFrame code a hash p).length = (stuff (frameContent code a hash p)).length + 2 := by simp [wireFrame]

theorem frameContent_length (code : BitVec 7) (a : Bool) (hash : Half) (p : List Byte) :
    (frameContent code a hash p).length = p.length + 5 := by
  simp [frameContent, header, wireBytes]

/-- BUILD succeeds iff the frame fits the scratch ring, and then the frame stands there (R113, R116). -/
theorem build_spec (code : BitVec 7) (a : Bool) (hash : Half) (p : List Byte) {s : State} (hr : Ready s) {w : List Byte}
    (hw : w = wireFrame code a hash p) :
    Confined [s.scrIx] [s.scrIx] s (build code a hash p s).1 ∧
      ((build code a hash p s).2 = true ↔ w.length ≤ (s.rb s.scrIx).cap) ∧
      ((build code a hash p s).2 = true → (build code a hash p s).1.content s.scrIx = w) := by
  have hflush := Confined.flushRb (l := [s.scrIx]) (m := [s.scrIx]) hr (List.mem_singleton.mpr rfl)
  have hempty : (s.flushRb s.scrIx).content s.scrIx = [] := List.eq_nil_of_length_eq_zero (by simp)
  have hwlen : w.length = (stuff (frameContent code a hash p)).length + 2 := by rw [hw, wireFrame_length]
  have hstuff := length_le_length_stuff (frameContent code a hash p)
  obtain ⟨hpush, hpushed, hcont⟩ := pushAll_spec s.scrIx (frameContent code a hash p) hflush.ready
  rw [State.rb_flushRb_same, Desc.flush_count, Desc.flush_cap, Nat.zero_add] at hpushed
  rw [hempty, List.nil_append] at hcont
  have hkept := hflush.trans hpush
  unfold build
  dsimp only
  generalize pushAll s.scrIx (frameContent code a hash p) (s.flushRb s.scrIx) = b at hpushed hcont hkept
  split
  · next hok =>
    have hlen := frameContent_length code a hash p
    have hfit := hpushed.mp hok
    obtain ⟨hpass, hstuffed, hcont'⟩ := stuffRing_spec s.scrIx hkept.ready (by rw [hkept.cap]; omega)
    rw [hcont hok] at hstuffed hcont'
    rw [hkept.cap] at hstuffed
    have hkept' := hkept.trans hpass
    generalize stuffRing s.scrIx b.1 = q at hstuffed hcont' hkept'
    split
    · next hqok =>
      obtain ⟨hwrap, hwrapped, hcont''⟩ := flagWrap_spec s.scrIx hkept'.ready
      rw [← State.content_length, hcont' hqok, hkept'.cap, ← hwlen] at hwrapped
      exact ⟨hkept'.trans hwrap, hwrapped, fun h => by rw [hcont'' h, hcont' hqok, hw, wireFrame]⟩
    · next hqok =>
      refine ⟨hkept', ⟨fun h => absurd h Bool.false_ne_true, fun h => ?_⟩, fun h => absurd h Bool.false_ne_true⟩
      exact absurd (hstuffed.mpr (by omega)) hqok
  · next hok =>
    exact ⟨hkept, ⟨fun h => absurd h hok, fun h => absurd (hpushed.mpr (by omega)) hok⟩, fun h => absurd h hok⟩

/-! ## DEFRAME: what it accepts, and what it leaves (R103, R120) -/

/-- A copy of a range to the tail of another ring with room for it, their storages apart (R120, R124, R127). -/
theorem copyToTail_spec {i o : RingIx} (lo n : Nat) {s : State} (hr : Ready s) (hne : i ≠ o) (ha : StorageApart s i o)
    (hc : 0 < (s.rb i).cap) (hf : (s.rb o).count + n ≤ (s.rb o).cap) :
    Confined [o] [o] s (copyToTail i o lo n s) ∧ (copyToTail i o lo n s).content o = s.content o ++ s.slice i lo n := by
  have ho : o ∈ [o] := List.mem_singleton.mpr rfl
  have hi : i ∉ [o] := by simpa using hne
  have hloop := forUp_index (fun j t => Confined [o] [o] s t ∧ t.content o = s.content o ++ s.slice i lo (j - lo))
    (fun v t => t.pushTail o (t.rd i v)) n lo s (fun j t hlo hj ⟨hk, hcont⟩ => ?_)
    ⟨.refl _ _ hr, by simp [State.slice]⟩
  · rwa [Nat.add_sub_cancel_left] at hloop
  · have hcount : (t.rb o).count = (s.rb o).count + (j - lo) := by rw [← State.content_length, hcont]; simp
    have hlt : (t.rb o).count < (t.rb o).cap := by rw [hk.cap]; omega
    have hrd : t.rd i j = s.rd i j := hk.rd_eq hr (hk.rb hi) (by simpa using ha) hc j
    refine ⟨hk.trans (.pushTail hk.ready ho ho hlt _), ?_⟩
    rw [State.content_pushTail t o _ hlt (hk.ready.plain o), hcont, hrd, List.append_assoc, Nat.sub_add_comm hlo]
    simp [State.slice, List.range'_concat, Nat.add_sub_cancel' hlo]

/-- Unstuffing a ring in place succeeds exactly on a stuffing, and undoes it (R103). -/
theorem unstuffRing_spec (i : RingIx) {s : State} (hr : Ready s) (hc : 0 < (s.rb i).cap) :
    Confined [i] [i] s (unstuffRing i s).st ∧
      ((unstuffRing i s).ok = true → ∃ xs, s.content i = stuff xs) ∧
      ∀ xs, s.content i = stuff xs → (unstuffRing i s).ok = true ∧ (unstuffRing i s).st.content i = xs := by
  have hstart := Passed.start hr hc
  have hplain : ∀ xs, s.content i = stuff xs → ∃ u k, unstuffRing i s = ⟨u, true, k⟩ ∧
      Passed i k [] xs s u := by
    intro xs hxs
    rw [hxs, ← List.append_nil (stuff xs)] at hstart
    obtain ⟨u, hloop, hu⟩ := hstart.unstuffLoop_append
    rw [List.append_nil, ← hxs, State.content_length, ← unstuffRing, ← State.content_length, hxs] at hloop
    exact ⟨u, _, hloop, hu⟩
  have hundo : ∀ xs, s.content i = stuff xs → (unstuffRing i s).ok = true ∧ (unstuffRing i s).st.content i = xs := by
    intro xs hxs
    obtain ⟨u, k, hloop, hu⟩ := hplain xs hxs
    rw [hloop]
    exact ⟨rfl, hu.content⟩
  rcases stuff_or_corrupt (s.content i) with ⟨xs, hxs⟩ | ⟨xs, bad, rest, hbad, hxs⟩
  · obtain ⟨u, k, hloop, hu⟩ := hplain xs hxs
    refine ⟨?_, fun _ => ⟨xs, hxs⟩, hundo⟩
    rw [hloop]
    exact .of_passed hu hc
  · rw [hxs, List.append_assoc] at hstart
    obtain ⟨u, hloop, hu⟩ := hstart.unstuffLoop_append
    obtain ⟨v, hlast, hv⟩ := hu.unstuffLoop_corrupt hbad
    rw [hlast, ← List.append_assoc, ← hxs, State.content_length, ← unstuffRing] at hloop
    refine ⟨?_, fun hok => ?_, hundo⟩
    · rw [hloop]
      exact .of_passed hv hc
    · rw [hloop] at hok
      exact absurd hok Bool.false_ne_true

/-! ### The header fields (R114) -/

theorem extract_code_headerByte0 (code : BitVec 7) (a : Bool) : (headerByte0 code a).extractLsb' 0 7 = code := by
  refine BitVec.eq_of_getLsbD_eq fun i hi => ?_
  rw [BitVec.getLsbD_extractLsb', headerByte0, Nat.zero_add, BitVec.getLsbD_append]
  simp [hi]

theorem ackWanted_headerByte0 (code : BitVec 7) (a : Bool) : (headerByte0 code a).getLsbD 7 = a := by
  rw [headerByte0, BitVec.getLsbD_append]
  simp

theorem halves_append (x : Half) : (x.extractLsb' 8 8 ++ x.extractLsb' 0 8 : Half) = x := by
  refine BitVec.eq_of_getLsbD_eq fun i hi => ?_
  rw [BitVec.getLsbD_append]
  by_cases h8 : i < 8
  · simp [h8, hi]
  · have hlow : i - 8 < 8 := by omega
    have hback : 8 + (i - 8) = i := by omega
    simp [h8, hlow, hback]

/-- The frame that DEFRAME reads from the content of a frame standing in the scratch ring (R114, R120). -/
theorem frameOf_frameContent {s : State} {code : BitVec 7} {a : Bool} {hash : Half} {p : List Byte}
    (h : s.content s.scrIx = frameContent code a hash p) :
    frameOf s (s.rb s.scrIx).count = { code := code, ackW := a, hash := hash, plen := p.length } := by
  have hlen : (s.rb s.scrIx).count = p.length + 5 := by rw [← State.content_length, h, frameContent_length]
  have hbyte : ∀ v b, v < 3 → (header code a hash)[v]? = some b → s.rd s.scrIx v = b := by
    intro v b hv hb
    have hget := s.content_getElem s.scrIx v (by rw [State.content_length]; omega)
    rw [← hget, ← Option.some_inj, ← List.getElem?_eq_getElem, h, frameContent, List.append_assoc,
      List.getElem?_append_left (by simpa [header, wireBytes] using hv), hb]
  rw [frameOf, hbyte 0 _ (by omega) rfl, hbyte 1 _ (by omega) rfl, hbyte 2 _ (by omega) rfl, hlen,
    extract_code_headerByte0, ackWanted_headerByte0, halves_append]
  rfl

theorem crc16_frameContent (code : BitVec 7) (a : Bool) (hash : Half) (p : List Byte) :
    crc16 (frameContent code a hash p) = 0#16 := crc16_append_self _

theorem contentOk_iff {s : State} {y : List Byte} (h : s.content s.scrIx = y) :
    contentOk s = true ↔ 5 ≤ y.length ∧ y.length ≤ 133 ∧ crc16 y = 0#16 := by
  have hlen : (s.rb s.scrIx).count = y.length := by rw [← h, State.content_length]
  simp only [contentOk, h, hlen, Bool.and_eq_true, decide_eq_true_eq, Config.hdrLen, Config.crcLen, Config.payloadMax]
  grind

/-- The bytes between the flags of a candidate of length `len` at `at_` (R120). -/
def bodyAt (xs : List Byte) (at_ len : Nat) : List Byte := (xs.drop (at_ + 1)).take (len - 2)

/-- The end of DEFRAME: the unstuffed content of the scratch ring is checked and read (R120). -/
def readFrame (c : RingIx) (q : PassResult) : State × Option Frame :=
  if q.ok && contentOk q.st then (q.st, some (frameOf q.st (q.st.rb c).count)) else (q.st, none)

/-- DEFRAME of a candidate that fits the scratch ring: the bytes between its flags are copied there first (R120). -/
theorem deframe_copies {s : State} {at_ len : Nat} (hr : Ready s) (hne : s.rxIx ≠ s.scrIx)
    (ha : StorageApart s s.rxIx s.scrIx) (hlen : 2 < len) (hfit : at_ + len ≤ (s.rb s.rxIx).count)
    (hroom : len - 2 ≤ (s.rb s.scrIx).cap) :
    ∃ t, Confined [s.scrIx] [s.scrIx] s t ∧ t.content s.scrIx = bodyAt (s.content s.rxIx) at_ len ∧
      deframe at_ len s = readFrame s.scrIx (unstuffRing s.scrIx t) := by
  have hflush := Confined.flushRb (l := [s.scrIx]) (m := [s.scrIx]) hr (List.mem_singleton.mpr rfl)
  have hrx : (s.flushRb s.scrIx).rb s.rxIx = s.rb s.rxIx := s.rb_flushRb_ne _ _ hne
  have hempty : (s.flushRb s.scrIx).content s.scrIx = [] := List.eq_nil_of_length_eq_zero (by simp)
  have hcount := (hr.1 s.rxIx).1
  have hroom' : ¬ len - 2 > ((s.flushRb s.scrIx).rb s.scrIx).cap := by rwa [State.rb_flushRb_same, Desc.flush_cap, Nat.not_lt]
  obtain ⟨hcopy, hcont⟩ := copyToTail_spec (at_ + 1) (len - 2) hflush.ready hne (hflush.storageApart ha)
    (by rw [hrx]; omega) (by simpa using hroom)
  refine ⟨_, hflush.trans hcopy, ?_, if_neg hroom'⟩
  rw [hcont, hempty, List.nil_append, State.slice_eq_content _ _ _ _ (by rw [hrx]; omega),
    hflush.content_eq hr hrx (by simpa using ha), bodyAt]

/-- What DEFRAME makes of the bytes `x` between the flags: it accepts nothing that is no frame, and the content of a frame it
leaves in the scratch ring (R120). -/
theorem readFrame_spec {s : State} {x : List Byte} (hr : Ready s) (hc : 0 < (s.rb s.scrIx).cap) (hx : s.content s.scrIx = x) :
    Confined [s.scrIx] [s.scrIx] s (readFrame s.scrIx (unstuffRing s.scrIx s)).1 ∧
      (¬ Deframes x → (readFrame s.scrIx (unstuffRing s.scrIx s)).2 = none) ∧
      ∀ code a hash p, x = stuff (frameContent code a hash p) → p.length ≤ 128 →
        (readFrame s.scrIx (unstuffRing s.scrIx s)).2 = some { code := code, ackW := a, hash := hash, plen := p.length } ∧
        (readFrame s.scrIx (unstuffRing s.scrIx s)).1.content s.scrIx = frameContent code a hash p := by
  obtain ⟨hk, hstuff, hundo⟩ := unstuffRing_spec s.scrIx hr hc
  rw [hx] at hstuff hundo
  generalize unstuffRing s.scrIx s = q at hstuff hundo hk
  have hix := hk.scrIx
  rw [readFrame]
  split
  · next hok =>
    rw [Bool.and_eq_true] at hok
    obtain ⟨hqok, hcok⟩ := hok
    obtain ⟨y, hy⟩ := hstuff hqok
    obtain ⟨_, hqy⟩ := hundo y hy
    refine ⟨hk, fun hno => absurd ⟨y, hy, (contentOk_iff (by rw [hix, hqy])).mp hcok⟩ hno, fun code a hash p hxp _ => ?_⟩
    obtain ⟨_, hqp⟩ := hundo _ hxp
    have hframe := frameOf_frameContent (s := q.st) (by rw [hix]; exact hqp)
    rw [hix] at hframe
    exact ⟨congrArg some hframe, hqp⟩
  · next hbad =>
    refine ⟨hk, fun _ => rfl, fun code a hash p hxp hp => absurd ?_ hbad⟩
    obtain ⟨hqok, hqp⟩ := hundo _ hxp
    have hflen := frameContent_length code a hash p
    rw [Bool.and_eq_true]
    exact ⟨hqok, (contentOk_iff (by rw [hix, hqp])).mpr ⟨by omega, by omega, crc16_frameContent code a hash p⟩⟩

/-- DEFRAME of a candidate of rx works on the scratch ring; it accepts nothing that is no frame, and the content of a frame
that fits the scratch ring it leaves there (R120). -/
theorem deframe_spec {s : State} {at_ len : Nat} {x : List Byte} (hr : Ready s) (hne : s.rxIx ≠ s.scrIx)
    (ha : StorageApart s s.rxIx s.scrIx) (hlen : 2 < len) (hfit : at_ + len ≤ (s.rb s.rxIx).count)
    (hx : bodyAt (s.content s.rxIx) at_ len = x) :
    Confined [s.scrIx] [s.scrIx] s (deframe at_ len s).1 ∧
      (¬ Deframes x → (deframe at_ len s).2 = none) ∧
      ∀ code a hash p, x = stuff (frameContent code a hash p) → p.length ≤ 128 → len - 2 ≤ (s.rb s.scrIx).cap →
        (deframe at_ len s).2 = some { code := code, ackW := a, hash := hash, plen := p.length } ∧
        (deframe at_ len s).1.content s.scrIx = frameContent code a hash p := by
  by_cases hroom : len - 2 ≤ (s.rb s.scrIx).cap
  · obtain ⟨t, hk, hcont, hread⟩ := deframe_copies hr hne ha hlen hfit hroom
    have hspec := readFrame_spec hk.ready (by rw [hk.scrIx, hk.cap]; omega) (x := x) (by rw [hk.scrIx, hcont, hx])
    rw [hk.scrIx, ← hread] at hspec
    obtain ⟨hrest, hnone, hsome⟩ := hspec
    exact ⟨hk.trans hrest, hnone, fun code a hash p hxp hp _ => hsome code a hash p hxp hp⟩
  · have hroom' : len - 2 > ((s.flushRb s.scrIx).rb s.scrIx).cap := by
      rwa [State.rb_flushRb_same, Desc.flush_cap, gt_iff_lt, ← Nat.not_le]
    have hfull : deframe at_ len s = (s.flushRb s.scrIx, none) := if_pos hroom'
    rw [hfull]
    exact ⟨.flushRb hr (List.mem_singleton.mpr rfl), fun _ => rfl, fun _ _ _ _ _ _ h => absurd h hroom⟩

end Sys2Proof.Machine

namespace Sys2Proof.Machine

/-! ## Candidates of the link rule (R115, R121) -/

theorem linkRule_hard : HardFlagRule linkRule := ⟨rfl, rfl, rfl⟩

theorem linkRule_head : linkRule.head ≠ [] := List.cons_ne_nil _ _

/-- The bytes between two flags within the bounds of the link rule (R115). -/
def InBounds (x : List Byte) : Prop := 5 ≤ x.length ∧ x.length ≤ 266

/-- No frame begins before position `k`. -/
def NoFrameBelow (xs : List Byte) (k : Nat) : Prop := ∀ h, h < k → ∀ len, ¬ FrameAt linkRule xs h len

/-- No frame begins in bytes without FLAG. -/
theorem NoFrameBelow.extend {xs pre x rest : List Byte} (h : NoFrameBelow xs pre.length) (hxs : xs = pre ++ x ++ rest)
    (hx : (0x7E#8 : Byte) ∉ x) : NoFrameBelow xs (pre.length + x.length) := by
  intro k hk len hf
  by_cases hlow : k < pre.length
  · exact h k hlow len hf
  · obtain ⟨hflag, _⟩ := linkRule_hard.frameAt_iff.mp hf
    rw [hxs, List.append_assoc, List.getElem?_append_right (by omega), List.getElem?_append_left (by omega)] at hflag
    exact hx (List.mem_of_getElem? hflag)

/-- The next FLAG behind the FLAG at `pre`. -/
theorem getElem?_next_flag (pre x rest : List Byte) :
    (pre ++ 0x7E#8 :: (x ++ 0x7E#8 :: rest))[pre.length + 1 + x.length]? = some 0x7E#8 := by
  rw [List.getElem?_append_right (by omega), show pre.length + 1 + x.length - pre.length = x.length + 1 by omega]
  simp

/-- Two FLAGs with bytes between them that are not within the bounds: no frame begins at the first. -/
theorem NoFrameBelow.skip_body {xs pre x rest : List Byte} (h : NoFrameBelow xs pre.length)
    (hxs : xs = pre ++ 0x7E#8 :: (x ++ 0x7E#8 :: rest)) (hx : (0x7E#8 : Byte) ∉ x) (hno : ¬ InBounds x) :
    NoFrameBelow xs (pre.length + 1 + x.length) := by
  have hsucc : NoFrameBelow xs (pre ++ [0x7E#8]).length := by
    intro k hk len hf
    rw [List.length_append, List.length_singleton] at hk
    by_cases hlow : k < pre.length
    · exact h k hlow len hf
    obtain rfl : k = pre.length := by omega
    obtain ⟨_, e, hlt, _, hmin, hflag, hmax, hopen⟩ := linkRule_hard.frameAt_iff.mp hf
    have hmin' : 6 ≤ e - pre.length := hmin
    have hmax' : e - pre.length ≤ 267 := hmax.resolve_left (by decide)
    rcases Nat.lt_trichotomy e (pre.length + 1 + x.length) with hbelow | rfl | habove
    · rw [hxs, List.getElem?_append_right hlt.le, show e - pre.length = e - pre.length - 1 + 1 by omega,
        List.getElem?_cons_succ, List.getElem?_append_left (by omega)] at hflag
      exact hx (List.mem_of_getElem? hflag)
    · exact hno ⟨by omega, by omega⟩
    · exact hopen _ (by omega) habove (by rw [hxs, getElem?_next_flag])
  have hall := hsucc.extend (x := x) (rest := 0x7E#8 :: rest) (by simp [hxs]) hx
  rwa [List.length_append, List.length_singleton] at hall

/-- With no frame below, the search finds the candidate within the bounds at `pre` (R95). -/
theorem search_inBounds {xs pre x rest : List Byte} (h : NoFrameBelow xs pre.length)
    (hxs : xs = pre ++ 0x7E#8 :: (x ++ 0x7E#8 :: rest)) (hx : (0x7E#8 : Byte) ∉ x) (hin : InBounds x) :
    search linkRule xs 0 = some (pre.length, x.length + 2) := by
  obtain ⟨hlo, hhi⟩ := hin
  have hframe := linkRule_hard.frameAt_bracketed pre rest hx
    (show 6 ≤ 1 + x.length by omega) (.inr (show 1 + x.length ≤ 267 by omega))
  rw [← hxs] at hframe
  exact (search_eq_some_iff linkRule_head).mpr ⟨Nat.zero_le _, hframe, fun k _ hk => h k hk⟩

/-- Behind the last FLAG that stands at or after `start`, there is no frame. -/
theorem search_last_flag {pre post : List Byte} {start : Nat} (hpre : ∀ k, start ≤ k → pre[k]? ≠ some 0x7E#8)
    (hpost : (0x7E#8 : Byte) ∉ post) : search linkRule (pre ++ 0x7E#8 :: post) start = none := by
  have hlast : ∀ k, start ≤ k → (pre ++ 0x7E#8 :: post)[k]? = some 0x7E#8 → k = pre.length := by
    intro k hk hflag
    rcases Nat.lt_trichotomy k pre.length with hlt | heq | hgt
    · rw [List.getElem?_append_left hlt] at hflag
      exact absurd hflag (hpre k hk)
    · exact heq
    · rw [List.getElem?_append_right hgt.le, show k - pre.length = k - pre.length - 1 + 1 by omega,
        List.getElem?_cons_succ] at hflag
      exact absurd (List.mem_of_getElem? hflag) hpost
  refine (search_eq_none_iff linkRule_head).mpr fun h hs len hf => ?_
  obtain ⟨hflag, e, hlt, _, _, hflag', _⟩ := linkRule_hard.frameAt_iff.mp hf
  have h1 := hlast h hs hflag
  have h2 := hlast e (by omega) hflag'
  omega

/-- Bytes without FLAG hold no frame. -/
theorem search_no_flag {xs : List Byte} (h : (0x7E#8 : Byte) ∉ xs) (start : Nat) : search linkRule xs start = none := by
  refine (search_eq_none_iff linkRule_head).mpr fun k _ len hf => ?_
  obtain ⟨hflag, _⟩ := linkRule_hard.frameAt_iff.mp hf
  exact h (List.mem_of_getElem? hflag)

/-! ## SCAN, pass by pass (R121) -/

theorem scan_of_none {m : Mode} {n off : Nat} {s : State} (h : search linkRule (s.content s.rxIx) off = none) :
    scan m (n + 1) off s = (scanRest off s, .nothing) := by
  simp only [scan, h]

/-- A candidate at the head of the scan that DEFRAME does not accept is discarded, and the noise before it (R121). -/
theorem scan_of_rejected {m : Mode} {n at_ len : Nat} {s : State}
    (h : search linkRule (s.content s.rxIx) 0 = some (at_, len)) (hd : (deframe at_ len s).2 = none) :
    scan m (n + 1) 0 s = scan m n 0 ((deframe at_ len s).1.dropHead (deframe at_ len s).1.rxIx (at_ + 1)) := by
  obtain ⟨t, ht⟩ : ∃ t, deframe at_ len s = (t, none) := ⟨_, Prod.ext rfl hd⟩
  simp only [scan, h, ht, if_true]

/-- The acknowledgement SCAN builds: the scan pauses for it, or goes on without it (R118, R122). -/
def scanAck (m : Mode) (n off : Nat) (hash : Half) (s : State) : State × ScanEnd :=
  if (buildAck hash s).2 then ((buildAck hash s).1, .ack off) else scan m n off (buildAck hash s).1.setAckFail

/-- What SCAN makes, by its verdict, of a frame of length `len` that stands at the head of rx (R121, R122). -/
def scanAct (m : Mode) (n len : Nat) (d : Frame) (s : State) : Verdict → State × ScanEnd
  | .take => (cutRange s.rxIx 0 len s, .taken d)
  | .drop => scan m n 0 (cutRange s.rxIx 0 len s)
  | .dropAck => scanAck m n 0 d.hash (cutRange s.rxIx 0 len s)
  | .capture true => scanAck m n 0 d.hash (cutRange s.rxIx 0 len (captureFrame d s))
  | .capture false => scan m n 0 (cutRange s.rxIx 0 len (captureFrame d s))
  | .keep => scan m n 1 s
  | .stop => (s, .stopped)

/-- A candidate that DEFRAME accepts: the noise before it is dropped, and its verdict acts (R121, R122). -/
theorem scan_of_frame {m : Mode} {n at_ len : Nat} {d : Frame} {s t : State}
    (h : search linkRule (s.content s.rxIx) 0 = some (at_, len)) (hd : (deframe at_ len s).2 = some d)
    (ht : t = (deframe at_ len s).1.dropHead (deframe at_ len s).1.rxIx at_) :
    scan m (n + 1) 0 s = scanAct m n len d t (classify m d t) := by
  obtain ⟨u, hu⟩ : ∃ u, deframe at_ len s = (u, some d) := ⟨_, Prod.ext rfl hd⟩
  rw [hu] at ht
  subst ht
  simp only [scan, h, hu, if_true]
  cases classify m d (u.dropHead u.rxIx at_) with
  | capture ack => cases ack <;> rfl
  | _ => rfl

/-- Cutting at the head is a drop there (R79, R82). -/
theorem cutRange_head {i : RingIx} {k : Nat} {s : State} (h : k ≤ (s.rb i).count) : cutRange i 0 k s = s.dropHead i k := by
  simp only [cutRange, Nat.zero_le, if_true, forDown, State.dropHead, Desc.dropHead, Nat.min_eq_left h]

/-- The end of a scan that found nothing, with no FLAG left: rx is emptied (R121). -/
theorem scanRest_no_flag {s : State} (hr : Ready s) (h : (0x7E#8 : Byte) ∉ s.content s.rxIx) :
    Confined [s.rxIx] [] s (scanRest 0 s) ∧ (scanRest 0 s).content s.rxIx = [] := by
  have hi : s.rxIx ∈ [s.rxIx] := List.mem_singleton.mpr rfl
  obtain ⟨t, ht⟩ : ∃ t, t = if (s.rb s.rxIx).free = 0 then s.dropHead s.rxIx 1 else s := ⟨_, rfl⟩
  have hk : Confined [s.rxIx] [] s t ∧ (0x7E#8 : Byte) ∉ t.content s.rxIx := by
    rw [ht]
    split
    · exact ⟨.dropHead hr hi 1, by rw [State.content_dropHead]; exact fun hm => h (List.mem_of_mem_drop hm)⟩
    · exact ⟨.refl _ _ hr, h⟩
  obtain ⟨hk, hno⟩ := hk
  have hrest : scanRest 0 s = State.dropUntil s.rxIx Config.flag (t.rb s.rxIx).count t := by rw [ht]; rfl
  obtain ⟨j, _, hj⟩ := dropUntil_eq_dropHead s.rxIx Config.flag (t.rb s.rxIx).count (hk.ready.1 s.rxIx)
  refine ⟨?_, ?_⟩
  · rw [hrest, hj]
    exact hk.trans (.dropHead hk.ready hi j)
  · rw [hrest, dropUntil_content s.rxIx Config.flag _ le_rfl, List.dropWhile_eq_nil_iff]
    intro b hb
    rw [bne_iff_ne]
    rintro rfl
    exact hno hb

/-! ## The first frame behind junk (R120, R121) -/

/-- Behind the bodies of junk stands a FLAG. -/
theorem exists_cons_flag (bodies : List (List Byte)) (rest : List Byte) :
    ∃ ys, bodies.flatMap (fun x => 0x7E#8 :: x) ++ 0x7E#8 :: rest = 0x7E#8 :: ys := by
  cases bodies with
  | nil => exact ⟨_, rfl⟩
  | cons x bodies => exact ⟨_, rfl⟩

theorem bodyAt_bracketed (pre x rest : List Byte) :
    bodyAt (pre ++ 0x7E#8 :: (x ++ 0x7E#8 :: rest)) pre.length (x.length + 2) = x := by
  simp [bodyAt, List.drop_append, List.drop_eq_nil_of_le]

/-- A state in which SCAN can read rx: nothing it writes on the way is a byte of rx (R121, R154). -/
structure Scannable (s : State) : Prop where
  ready : Ready s
  ne : s.rxIx ≠ s.scrIx
  apart : StorageApart s s.rxIx s.scrIx

theorem Scannable.of_confined {l m : List RingIx} {s t : State} (h : Scannable s) (hk : Confined l m s t) : Scannable t where
  ready := hk.ready
  ne := by rw [hk.rxIx, hk.scrIx]; exact h.ne
  apart := by rw [hk.rxIx, hk.scrIx]; exact hk.storageApart h.apart

/-- DEFRAME of the first candidate in rx, and the drop of `k` bytes after it (R120, R121). -/
theorem Scannable.deframe_drop {s : State} {at_ len : Nat} (h : Scannable s) (hlen : 2 < len)
    (hfit : at_ + len ≤ (s.rb s.rxIx).count) (k : Nat) {t : State}
    (ht : t = (deframe at_ len s).1.dropHead (deframe at_ len s).1.rxIx k) :
    Confined [s.rxIx, s.scrIx] [s.scrIx] s t ∧ t.content s.rxIx = (s.content s.rxIx).drop k ∧
      t.content s.scrIx = (deframe at_ len s).1.content s.scrIx := by
  obtain ⟨hk, _⟩ := deframe_spec h.ready h.ne h.apart hlen hfit rfl
  have hrx : s.rxIx ∉ [s.scrIx] := by simpa using h.ne
  rw [hk.rxIx] at ht
  have hdrop := Confined.dropHead (m := []) hk.ready (List.mem_singleton.mpr rfl) (i := s.rxIx) k
  rw [← ht] at hdrop
  refine ⟨(hk.mono (by simp) (by simp)).trans (hdrop.mono (by simp) (by simp)), ?_, ?_⟩
  · rw [ht, State.content_dropHead, hk.content_eq h.ready (hk.rb hrx) (by simpa using h.apart)]
  · exact hdrop.content_eq hk.ready (hdrop.rb (by simpa using h.ne.symm)) (by simp)

/-- Junk before a candidate is discarded or passed over (R120, R121). -/
theorem scan_junk (m : Mode) {bodies : List (List Byte)} {y rest : List Byte}
    (hbodies : ∀ x ∈ bodies, (0x7E#8 : Byte) ∉ x ∧ ¬ Deframes x) {n : Nat} {s : State} {pre : List Byte} (h : Scannable s)
    (hc : s.content s.rxIx = pre ++ (bodies.flatMap (fun x => 0x7E#8 :: x) ++ 0x7E#8 :: (y ++ 0x7E#8 :: rest)))
    (hpre : NoFrameBelow (s.content s.rxIx) pre.length) (hn : (s.rb s.rxIx).count < n) :
    ∃ k t pre', scan m n 0 s = scan m (k + 1) 0 t ∧ Confined [s.rxIx, s.scrIx] [s.scrIx] s t ∧
      t.content s.rxIx = pre' ++ 0x7E#8 :: (y ++ 0x7E#8 :: rest) ∧ NoFrameBelow (t.content s.rxIx) pre'.length ∧
      (t.rb s.rxIx).count ≤ k := by
  induction bodies generalizing n s pre with
  | nil =>
    obtain ⟨k, rfl⟩ := Nat.exists_eq_succ_of_ne_zero (show n ≠ 0 by omega)
    exact ⟨k, s, pre, rfl, .refl _ _ h.ready, hc, hpre, by omega⟩
  | cons x bodies ih =>
    obtain ⟨⟨hx, hbad⟩, hbodies⟩ := List.forall_mem_cons.mp hbodies
    obtain ⟨ys, hys⟩ := exists_cons_flag bodies (y ++ 0x7E#8 :: rest)
    have hc' := hc
    rw [List.flatMap_cons, List.cons_append, List.cons_append, List.append_assoc, hys] at hc'
    by_cases hin : InBounds x
    · -- the search finds it, and DEFRAME does not accept it
      have hfound := search_inBounds hpre hc' hx hin
      have hfit := search_bound _ _ _ _ _ hfound
      rw [State.content_length] at hfit
      obtain ⟨hlo, _⟩ := hin
      obtain ⟨_, hnone, _⟩ := deframe_spec (x := x) h.ready h.ne h.apart (show 2 < x.length + 2 by omega) hfit
        (by rw [hc']; exact bodyAt_bracketed pre x ys)
      obtain ⟨t, ht⟩ : ∃ t, t = (deframe pre.length (x.length + 2) s).1.dropHead
        (deframe pre.length (x.length + 2) s).1.rxIx (pre.length + 1) := ⟨_, rfl⟩
      obtain ⟨hk, hcont, _⟩ := h.deframe_drop (by omega) hfit (pre.length + 1) ht
      have hrest : t.content s.rxIx = x ++ (bodies.flatMap (fun x => 0x7E#8 :: x) ++ 0x7E#8 :: (y ++ 0x7E#8 :: rest)) := by
        rw [hcont, hc', hys]
        simp [List.drop_append]
      have hcount : (t.rb s.rxIx).count + (pre.length + 1) = (s.rb s.rxIx).count := by
        rw [← State.content_length, hcont, List.length_drop, State.content_length]
        omega
      obtain ⟨k, hn'⟩ := Nat.exists_eq_succ_of_ne_zero (show n ≠ 0 by omega)
      have hnoframe : NoFrameBelow (t.content s.rxIx) ([] ++ x).length := by
        have hnil : NoFrameBelow (t.content s.rxIx) ([] : List Byte).length := fun _ hk => absurd hk (Nat.not_lt_zero _)
        rw [List.length_append]
        exact hnil.extend (x := x) (rest := _) hrest hx
      have hscan := ih hbodies (n := k) (h.of_confined hk) (by rw [hk.rxIx]; exact hrest) (by rw [hk.rxIx]; exact hnoframe)
        (by rw [hk.rxIx]; omega)
      rw [hk.rxIx, hk.scrIx] at hscan
      obtain ⟨k', u, pre', hscan, hk', hrest⟩ := hscan
      refine ⟨k', u, pre', ?_, hk.trans hk', hrest⟩
      rw [hn', scan_of_rejected hfound (hnone hbad), ← ht, hscan]
    · -- the search passes over it
      have hskip := hpre.skip_body hc' hx hin
      exact ih hbodies (pre := pre ++ 0x7E#8 :: x) h (by rw [hc]; simp) (by simpa [Nat.add_assoc, Nat.add_comm 1] using hskip) hn

end Sys2Proof.Machine

namespace Sys2Proof.Machine

/-! ## SCAN at the first frame (R120, R121, R122) -/

/-- A frame on the wire is bytes between two flags within the bounds of the link rule (R113, R115). -/
theorem wireFrame_eq (code : BitVec 7) (a : Bool) (hash : Half) (p : List Byte) :
    wireFrame code a hash p = 0x7E#8 :: (stuff (frameContent code a hash p) ++ [0x7E#8]) := rfl

theorem stuff_length_le (y : List Byte) : (stuff y).length ≤ 2 * y.length := by
  have := List.countP_le_length (p := needsEscape) (l := y)
  rw [length_stuff]
  omega

theorem inBounds_frame (code : BitVec 7) (a : Bool) (hash : Half) {p : List Byte} (hp : p.length ≤ 128) :
    InBounds (stuff (frameContent code a hash p)) := by
  have hlow := length_le_length_stuff (frameContent code a hash p)
  have hhigh := stuff_length_le (frameContent code a hash p)
  rw [frameContent_length] at hlow hhigh
  exact ⟨by omega, by omega⟩

/-- SCAN discards the junk before a frame, and then the frame's verdict acts: with the frame at the head of rx and its content
in the scratch ring (R120, R121). -/
theorem scanAll_first_frame (m : Mode) {s : State} {code : BitVec 7} {aw : Bool} {hash : Half} {pre post p w : List Byte}
    {d : Frame} (h : Scannable s) (hp : p.length ≤ 128) (hw : w = wireFrame code aw hash p) (hpre : Junk pre)
    (hc : s.content s.rxIx = pre ++ w ++ post) (hfit : w.length ≤ (s.rb s.scrIx).cap + 2)
    (hd : d = { code := code, ackW := aw, hash := hash, plen := p.length }) :
    ∃ k u, scanAll m 0 s = scanAct m (k + 1) w.length d u (classify m d u) ∧ Confined [s.rxIx, s.scrIx] [s.scrIx] s u ∧
      u.content s.rxIx = w ++ post ∧ u.content s.scrIx = frameContent code aw hash p := by
  obtain ⟨y, hy⟩ : ∃ y, y = stuff (frameContent code aw hash p) := ⟨_, rfl⟩
  have hwy : w = 0x7E#8 :: (y ++ [0x7E#8]) := by rw [hw, hy, wireFrame_eq]
  have hwlen : w.length = y.length + 2 := by rw [hwy]; simp
  have hyflag : (0x7E#8 : Byte) ∉ y := hy ▸ flag_not_mem_stuff _
  have hin : InBounds y := hy ▸ inBounds_frame code aw hash hp
  obtain ⟨noise, bodies, hnoise, hbodies, rfl⟩ := hpre
  have hcont : s.content s.rxIx = noise ++ (bodies.flatMap (fun x => 0x7E#8 :: x) ++ 0x7E#8 :: (y ++ 0x7E#8 :: post)) := by
    rw [hc, hwy]
    simp
  have hquiet : NoFrameBelow (s.content s.rxIx) ([] ++ noise).length := by
    rw [List.length_append]
    exact NoFrameBelow.extend (pre := []) (fun _ hk => absurd hk (Nat.not_lt_zero _)) hcont hnoise
  obtain ⟨k, t, pre', hscan, hk, hrest, hbelow, hcount⟩ := scan_junk m hbodies h hcont hquiet (Nat.lt_succ_self _)
  have ht := h.of_confined hk
  rw [← hk.rxIx] at hrest hbelow hcount
  have hfound := search_inBounds hbelow hrest hyflag hin
  have hbound := search_bound _ _ _ _ _ hfound
  rw [State.content_length] at hbound
  obtain ⟨hlo, _⟩ := hin
  obtain ⟨_, _, haccept⟩ := deframe_spec (x := y) ht.ready ht.ne ht.apart (show 2 < y.length + 2 by omega) hbound
    (by rw [hrest]; exact bodyAt_bracketed pre' y post)
  obtain ⟨hsome, hleft⟩ := haccept code aw hash p hy hp (by rw [hk.scrIx, hk.cap]; omega)
  rw [← hd] at hsome
  obtain ⟨u, hu⟩ : ∃ u, u = (deframe pre'.length (y.length + 2) t).1.dropHead
    (deframe pre'.length (y.length + 2) t).1.rxIx pre'.length := ⟨_, rfl⟩
  obtain ⟨hku, hurx, huscr⟩ := ht.deframe_drop (by omega) hbound pre'.length hu
  obtain ⟨k', rfl⟩ := Nat.exists_eq_succ_of_ne_zero (show k ≠ 0 by omega)
  rw [hk.rxIx, hk.scrIx] at hku
  rw [hk.rxIx] at hurx hrest
  rw [hk.scrIx] at huscr hleft
  refine ⟨k', u, ?_, hk.trans hku, ?_, huscr.trans hleft⟩
  · rw [scanAll, hscan, scan_of_frame hfound hsome hu, hwlen]
  · rw [hurx, hrest, hwy]
    simp

/-- The frame at the head of rx is cut out (R121). -/
theorem cut_frame {i : RingIx} {w post : List Byte} {s : State} (hr : Ready s) (hc : s.content i = w ++ post) :
    Confined [i] [] s (cutRange i 0 w.length s) ∧ (cutRange i 0 w.length s).content i = post := by
  have hle : w.length ≤ (s.rb i).count := by rw [← State.content_length, hc, List.length_append]; omega
  rw [cutRange_head hle]
  refine ⟨.dropHead hr (List.mem_singleton.mpr rfl) _, ?_⟩
  rw [State.content_dropHead, hc, List.drop_append_of_le_length le_rfl, List.drop_length, List.nil_append]

/-- A scan of bytes without FLAG finds nothing and empties rx (R121). -/
theorem scan_no_flag (m : Mode) (k : Nat) {s : State} (hr : Ready s) (hc : (0x7E#8 : Byte) ∉ s.content s.rxIx) :
    ∃ v, scan m (k + 1) 0 s = (v, .nothing) ∧ Confined [s.rxIx] [] s v ∧ v.content s.rxIx = [] :=
  ⟨_, scan_of_none (search_no_flag hc 0), scanRest_no_flag hr hc⟩

/-- A scan behind the head of a frame, with no FLAG after it, finds nothing and leaves rx as it is (R121). -/
theorem scan_behind_frame (m : Mode) (k : Nat) {s : State} {code : BitVec 7} {aw : Bool} {hash : Half} {post p w : List Byte}
    (hw : w = wireFrame code aw hash p) (hc : s.content s.rxIx = w ++ post) (hpost : (0x7E#8 : Byte) ∉ post) :
    scan m (k + 1) 1 s = (s, .nothing) := by
  refine scan_of_none ?_
  rw [hc, hw, wireFrame_eq, ← List.cons_append, List.append_assoc, List.singleton_append]
  refine search_last_flag (fun j hj hflag => ?_) hpost
  obtain ⟨j, rfl⟩ := Nat.exists_eq_succ_of_ne_zero (show j ≠ 0 by omega)
  rw [List.getElem?_cons_succ] at hflag
  exact flag_not_mem_stuff _ (List.mem_of_getElem? hflag)

/-- A scratch ring that holds the content of a frame is bound. -/
theorem scr_bound {s : State} {code : BitVec 7} {aw : Bool} {hash : Half} {p : List Byte} (hr : Ready s)
    (h : s.content s.scrIx = frameContent code aw hash p) : 0 < (s.rb s.scrIx).cap := by
  have hle := (hr.1 s.scrIx).1
  rw [← State.content_length, h, frameContent_length] at hle
  omega

/-- The payload, as it stands in the content of a frame in the scratch ring (R113). -/
theorem slice_payload {s : State} {code : BitVec 7} {aw : Bool} {hash : Half} {p : List Byte}
    (h : s.content s.scrIx = frameContent code aw hash p) : s.slice s.scrIx Config.hdrLen p.length = p := by
  have hlen : (s.rb s.scrIx).count = p.length + 5 := by rw [← State.content_length, h, frameContent_length]
  rw [State.slice_eq_content _ _ _ _ (by rw [hlen, Config.hdrLen]; omega), h]
  simp [frameContent, header, wireBytes, Config.hdrLen]

end Sys2Proof.Machine

namespace Sys2Proof.Machine

/-! ## LP_INIT (R125) -/

theorem badSession_iff {s : State} {g : Session} : badSession s g = true ↔
    g.rx = g.scr ∨ (s.rb g.rx).cap = 0 ∨ (s.rb g.scr).cap = 0 ∨
      (g.sqe = true ∧ (g.side = g.rx ∨ g.side = g.scr ∨ g.slen = g.rx ∨ g.slen = g.scr ∨ g.slen = g.side ∨
        (s.rb g.side).cap = 0 ∨ (s.rb g.slen).cap = 0)) := by
  simp [badSession, or_assoc]

/-- Flushing rings writes descriptors alone: those of the list are flushed (R88, R125). -/
theorem flushAll_eq (l : List RingIx) (s : State) : ∃ rbs, flushAll l s = { s with rbs := rbs } ∧
    ∀ i : RingIx, (flushAll l s).rb i = if i ∈ l then (s.rb i).flush else s.rb i := by
  induction l generalizing s with
  | nil => exact ⟨s.rbs, rfl, fun _ => rfl⟩
  | cons j l ih =>
    obtain ⟨rbs, heq, hrb⟩ := ih (s.flushRb j)
    refine ⟨rbs, heq, fun i => (hrb i).trans ?_⟩
    by_cases hij : i = j
    · subst hij
      simp [Desc.flush]
    · simp [State.rb_flushRb_ne _ _ _ hij, hij]

theorem Session.mem_rings {g : Session} {i : RingIx} :
    i ∈ g.rings ↔ i = g.rx ∨ i = g.scr ∨ (g.sqe = true ∧ (i = g.side ∨ i = g.slen)) := by
  unfold Session.rings
  split
  · next h => simp [h]
  · next h => simp [h]

/-- Settles O48: the checks are those listed, and the flush of the session's rings leaves everything else. -/
theorem lpInitStartsSession : Obligations.LpInitStartsSession := by
  rintro s g hz rfl bad hbad
  rw [← badSession_iff] at hbad
  refine ⟨fun hb => ?_, fun hb => ?_⟩
  · refine (if_pos (hbad.mp hb)).trans ?_
    rw [raiseParam_eq_paramDone]
    rfl
  · obtain ⟨rbs, heq, hrb⟩ := flushAll_eq s.ls.cfg.rings { s with ls := s.ls.start }
    refine ⟨_, if_neg (fun h => hb (hbad.mpr h)), ?_, ?_, ?_, ?_, ?_, ?_, fun i => (hrb i).trans ?_⟩
    · rw [heq]
      exact ⟨rfl, State.finish_res _ _ _ _ _ hz, rfl, rfl, rfl, rfl, rfl⟩
    · rw [heq]
      exact hostKept_of_hostPart rfl
    · rw [heq]; rfl
    · rw [heq]; rfl
    · rw [heq]; rfl
    · rw [heq]; rfl
    · simp only [Session.mem_rings]
      rfl

/-! ## The frame on the wire (R113, R114) -/

/-- Settles O49: the stuffing of at least 5 and at most 133 bytes, between two flags. -/
theorem wireFrameShape : Obligations.WireFrameShape := by
  rintro code aw hash p hp _ _ rfl rfl
  have hlow := length_le_length_stuff (frameContent code aw hash p)
  have hhigh := stuff_length_le (frameContent code aw hash p)
  rw [frameContent_length] at hlow hhigh
  refine ⟨rfl, ?_, ?_, flag_not_mem_stuff _, crc16_frameContent code aw hash p⟩
  · rw [wireFrame_length]; omega
  · rw [wireFrame_length]; omega

/-! ## An attempt of LP_SEND (R116, R126, R132) -/

/-- An error of a command that no host write has raced with (R24, R131). -/
theorem State.complete_error {s : State} (hz : s.hazard = false) {e : Ecode} (he : e ≠ .ok) (q : Quad) :
    s.complete e q = { s with phase := .idle, status := s.status.after e true, res := q } := by
  simp [State.complete, Status.complete, Status.after, hz, he]

/-- A completion with OK of a command that no host write has raced with (R24, R35). -/
theorem State.complete_ok {s : State} (hz : s.hazard = false) (q : Quad) : s.complete .ok q = s.okDone q := by
  simp [State.complete, State.okDone, Status.complete, Status.after, hz]

/-- Work on one ring, its descriptor and its bytes, as a frame. -/
theorem Confined.rb_ne {i j : RingIx} {s t : State} (h : Confined [i] [i] s t) (hj : j ≠ i) : t.rb j = s.rb j :=
  h.rb (by simpa using hj)

theorem Confined.memKeptOutside {i : RingIx} {l : List RingIx} {s t : State} (h : Confined l [i] s t) :
    MemKeptOutsideRing i s t := fun a ha => h.outside a (by simpa using ha)

/-- An attempt whose frame fits the scratch ring ends before its first TX call, the frame in the ring; any other ends with
CAPACITY (R116, R126). -/
theorem sendAttempt_spec {c : SendCtx} {s : State} {w : List Byte} (hr : Ready s)
    (hw : w = wireFrame 0#7 c.ackW c.hash c.payload) :
    ∃ u, Confined [s.scrIx] [s.scrIx] s u ∧
      (w.length ≤ (s.rb s.scrIx).cap → u.content s.scrIx = w ∧ sendAttempt c s = attemptStarted c w.length u) ∧
      ((s.rb s.scrIx).cap < w.length →
        sendAttempt c s = (u.setSend .aborted).complete .capacity (quadOf 0 c.tries c.hash.toNat 0)) := by
  obtain ⟨hk, hfit, hcont⟩ := build_spec Config.codeData c.ackW c.hash c.payload hr hw
  refine ⟨_, hk, fun hle => ?_, fun hlt => ?_⟩
  · have hok := hfit.mpr hle
    have hcount : ((build Config.codeData c.ackW c.hash c.payload s).1.rb
        (build Config.codeData c.ackW c.hash c.payload s).1.scrIx).count = w.length := by
      rw [hk.scrIx, ← State.content_length, hcont hok]
    refine ⟨hcont hok, (if_pos hok).trans ?_⟩
    rw [hcount]
    rfl
  · exact if_neg (fun hok => Nat.not_le.mpr hlt (hfit.mp hok))

/-- Settles O50: the first attempt, from a state that differs from the given one in LS_TXHASH and LS_STATE alone. -/
theorem lpSendBuildsFrame : Obligations.LpSendBuildsFrame := by
  intro s ra ack w hr hv hra hc hn hw hfit
  obtain ⟨u, hk, hstarted, _⟩ := sendAttempt_spec (c := sendStart s ra ack) (s := sendReady s) (w := w) hr hw
  obtain ⟨hcont, hatt⟩ := hstarted hfit
  have hhost : u.hostPart = (sendReady s).hostPart := hostPart_of_frozen hk.works.frozen
  refine ⟨_, (exec_lpSend ack hv hra hc hn).trans (congrArg _ hatt), rfl, hcont, ?_, hostKept_of_hostPart hhost,
    hk.works.status, hk.res, hk.env, hk.crcAcc, fun j hj => hk.rb_ne hj, hk.memKeptOutside⟩
  · rw [attemptStarted, State.await_ls, State.setSendBoth_ls, hk.works.ls]
    rfl

/-- LP_SEND with a payload longer than PAYLOAD_MAX (R126). -/
theorem exec_lpSend_too_long {s : State} {ra : RingIx} (ack : Bool) (hv : s.ls.sessValid = true)
    (hra : ra ∉ s.ls.sess.rings) (hc : 0 < (s.rb ra).cap) (hn : 128 < (s.rb ra).count) :
    exec (.lpSend ra ack) s = .next ((s.setSendBoth .aborted 0).complete .capacity Quad.zero) := by
  have hb : ¬ badLink s ra = true := by
    rw [badLink_iff]
    rintro (h | h | h)
    · rw [hv] at h; cases h
    · exact hra h
    · omega
  exact (if_neg hb).trans (if_pos hn)

/-- Settles O51: the check of the length, and the first attempt, whose BUILD fails. -/
theorem lpSendCapacity : Obligations.LpSendCapacity := by
  intro s ra ack hr hv hra hc
  refine ⟨fun hn => ?_, fun hn hfull => ?_⟩
  · rw [exec_lpSend_too_long ack hv hra hc hn]
    exact congrArg _ (State.complete_error (s := s.setSendBoth .aborted 0) hr.2.2 (by decide) _)
  · obtain ⟨u, hk, _, haborted⟩ := sendAttempt_spec (c := sendStart s ra ack) (s := sendReady s) hr rfl
    have hhost : u.hostPart = (sendReady s).hostPart := hostPart_of_frozen hk.works.frozen
    refine ⟨_, (exec_lpSend ack hv hra hc hn).trans (congrArg _ (haborted hfull)), ?_, ?_, hostKept_of_hostPart hhost, hk.env,
      hk.crcAcc, fun j hj => hk.rb_ne hj, hk.memKeptOutside⟩
    · exact hk.completed hr.2.2 .capacity _
    · rw [State.complete_ls, State.setSend_ls, hk.works.ls]
      rfl

/-! ## The wait (R119, R126, R128) -/

theorem waitPoll_room {c : SendCtx} {s : State} (h : 0 < (s.rb s.rxIx).cap - (s.rb s.rxIx).count) :
    waitPoll c s = s.await (.sendRx c) := if_pos h

theorem waitPoll_full {c : SendCtx} {s : State} (h : (s.rb s.rxIx).cap ≤ (s.rb s.rxIx).count) :
    waitPoll c s = waitScan c 0 s := if_neg (by rw [Desc.free]; omega)

theorem recvPoll_room {c : RecvCtx} {s : State} (h : 0 < (s.rb s.rxIx).cap - (s.rb s.rxIx).count) :
    recvPoll c s = s.await (.recvRx c) := if_pos h

theorem recvPoll_full {c : RecvCtx} {s : State} (h : (s.rb s.rxIx).cap ≤ (s.rb s.rxIx).count) :
    recvPoll c s = recvScan c s := if_neg (by rw [Desc.free]; omega)

theorem engineStep_sendT0 {s : State} {c : SendCtx} (h : s.phase = .sendT0 c) :
    engineStep s = .next (waitPoll { c with t0 := s.env.tick } s) := by
  rw [engineStep, h]
  rfl

theorem engineStep_sendT_early {s : State} {c : SendCtx} (h : s.phase = .sendT c)
    (ht : (s.env.tick - c.t0).toNat < c.timeout.toNat) : engineStep s = .next (waitPoll c s) := by
  have hno : ¬ c.timedOut s.now = true := by simpa [SendCtx.timedOut, State.now] using ht
  rw [engineStep, h]
  exact congrArg _ (if_neg hno)

theorem engineStep_sendT_late {s : State} {c : SendCtx} (h : s.phase = .sendT c)
    (ht : c.timeout.toNat ≤ (s.env.tick - c.t0).toNat) :
    engineStep s = .next (if c.tries = 1 + c.retries then (s.setSend .exhausted).complete .exhausted (c.results 0)
      else sendAttempt c (s.setSend .retry)) := by
  have hyes : c.timedOut s.now = true := by simpa [SendCtx.timedOut, State.now] using ht
  rw [engineStep, h]
  exact congrArg _ (if_pos hyes)

/-- Settles O54: the two reads of the tick input, the polls, and the next attempt. -/
theorem ackWaitTimeout : Obligations.AckWaitTimeout := by
  intro s c hr
  refine ⟨fun hp => ⟨fun hroom => ?_, fun hfull => ?_⟩, fun hp => ⟨fun hearly => ⟨fun hroom => ?_, fun hfull => ?_⟩,
    fun hlate hout => ?_, fun hlate hmore w hw => ?_⟩⟩
  · rw [engineStep_sendT0 hp, waitPoll_room hroom]
    rfl
  · rw [engineStep_sendT0 hp, waitPoll_full hfull.ge]
  · rw [engineStep_sendT_early hp hearly, waitPoll_room hroom]
    rfl
  · rw [engineStep_sendT_early hp hearly, waitPoll_full hfull.ge]
  · rw [engineStep_sendT_late hp hlate, if_pos hout]
    exact congrArg _ (State.complete_error (s := s.setSend .exhausted) hr.2.2 (by decide) _)
  · obtain ⟨u, hk, hstarted, haborted⟩ := sendAttempt_spec (c := c) (s := s.setSend .retry) hr hw
    have hstep := (engineStep_sendT_late hp hlate).trans (congrArg _ (if_neg hmore))
    have hrb : ∀ j : RingIx, j ≠ s.scrIx → u.rb j = s.rb j := fun j hj => hk.rb_ne hj
    have hmem : MemKeptOutsideRing s.scrIx s u := hk.memKeptOutside
    by_cases hfit : w.length ≤ (s.rb s.scrIx).cap
    · obtain ⟨hcont, hatt⟩ := hstarted hfit
      refine ⟨_, hstep.trans (congrArg _ hatt), hk.env, hrb, hmem, fun _ => ⟨rfl, hcont, ?_, hk.works.status⟩,
        fun hlt => absurd hfit (Nat.not_le.mpr hlt)⟩
      rw [attemptStarted, State.await_ls, State.setSendBoth_ls, hk.works.ls]
      rfl
    · refine ⟨_, hstep.trans (congrArg _ (haborted (Nat.lt_of_not_le hfit))), hk.env, hrb, hmem, fun h => absurd h hfit,
        fun _ => ⟨hk.completed hr.2.2 .capacity _, ?_⟩⟩
      rw [State.complete_ls, State.setSend_ls, hk.works.ls]
      rfl

end Sys2Proof.Machine

namespace Sys2Proof.Machine

/-! ## TX calls (R117, R118, R126, R127, R137) -/

theorem State.tx_accepted {s : State} (h : s.env.txOk = true) (b : Byte) : s.tx b = (s.sentOn [b], true) := by
  rw [State.tx, if_pos h]
  rfl

theorem State.tx_rejected {s : State} (h : s.env.txOk = false) (b : Byte) : s.tx b = (s, false) := by
  rw [State.tx, h]
  rfl

section
variable {s : State} {c : SendCtx} {r : Quad} {off v : Nat}

theorem engineStep_sendTx_rejected (hp : s.phase = .sendTx c v) (ho : s.env.txOk = false) :
    engineStep s = .next ((s.setSend .aborted).complete .transport (c.results 0)) := by
  simp only [engineStep, hp, sendTxStep, s.tx_rejected ho]
  rfl

theorem engineStep_sendTx_accepted (hp : s.phase = .sendTx c v) (ho : s.env.txOk = true) :
    engineStep s = .next (if v + 1 < (s.rb s.scrIx).count then (s.sentOn [s.rd s.scrIx v]).await (.sendTx c (v + 1))
      else if c.ackW then ((s.sentOn [s.rd s.scrIx v]).setSend .ackWait).await (.sendT0 c)
      else (s.sentOn [s.rd s.scrIx v]).complete .ok (c.results 1)) := by
  simp only [engineStep, hp, sendTxStep, s.tx_accepted ho]
  rfl

theorem engineStep_recvAckTx_rejected (hp : s.phase = .recvAckTx r v) (ho : s.env.txOk = false) :
    engineStep s = .next (s.setAckFail.complete .ok r) := by
  simp only [engineStep, hp, recvAckTxStep, s.tx_rejected ho]
  rfl

theorem engineStep_recvAckTx_accepted (hp : s.phase = .recvAckTx r v) (ho : s.env.txOk = true) :
    engineStep s = .next (if v + 1 < (s.rb s.scrIx).count then (s.sentOn [s.rd s.scrIx v]).await (.recvAckTx r (v + 1))
      else (s.sentOn [s.rd s.scrIx v]).complete .ok r) := by
  simp only [engineStep, hp, recvAckTxStep, s.tx_accepted ho]
  rfl

theorem engineStep_sendAckTx_rejected (hp : s.phase = .sendAckTx c off v) (ho : s.env.txOk = false) :
    engineStep s = .next (waitScan c off s.setAckFail) := by
  simp only [engineStep, hp, sendAckTxStep, s.tx_rejected ho]
  rfl

theorem engineStep_sendAckTx_accepted (hp : s.phase = .sendAckTx c off v) (ho : s.env.txOk = true) :
    engineStep s = .next (if v + 1 < (s.rb s.scrIx).count then (s.sentOn [s.rd s.scrIx v]).await (.sendAckTx c off (v + 1))
      else waitScan c off (s.sentOn [s.rd s.scrIx v])) := by
  simp only [engineStep, hp, sendAckTxStep, s.tx_accepted ho]
  rfl

end

/-! ### SCAN does not clear ACKFAIL (R133) -/

theorem forUp_status {body : Nat → State → State} (h : ∀ j t, (body j t).status = t.status) (k lo : Nat) (s : State) :
    (forUp body k lo s).status = s.status :=
  forUp_keeps (fun t => t.status = s.status) body k lo s (fun j t _ _ ht => (h j t).trans ht) rfl

theorem forDown_status {body : Nat → State → State} (h : ∀ j t, (body j t).status = t.status) (k lo : Nat) (s : State) :
    (forDown body k lo s).status = s.status :=
  forDown_keeps (fun t => t.status = s.status) body k lo s (fun j t _ _ ht => (h j t).trans ht) rfl

theorem copyToTail_status (i o : RingIx) (lo n : Nat) (s : State) : (copyToTail i o lo n s).status = s.status :=
  forUp_status (body := fun v t => t.pushTail o (t.rd i v)) (fun _ _ => rfl) n lo s

theorem captureFrame_status (d : Frame) (s : State) : (captureFrame d s).status = s.status :=
  copyToTail_status s.scrIx s.sideIx Config.hdrLen d.plen s

theorem cutRange_status (i : RingIx) (f k : Nat) (s : State) : (cutRange i f k s).status = s.status := by
  unfold cutRange
  dsimp only
  split
  · exact forDown_status (body := fun j t => t.wr i (j + k) (t.rd i j)) (fun _ _ => rfl) f 0 s
  · exact forUp_status (body := fun j t => t.wr i (j - k) (t.rd i j)) (fun _ _ => rfl) _ (f + k) s

theorem dropUntil_status (i : RingIx) (b : Byte) (fuel : Nat) (s : State) :
    (State.dropUntil i b fuel s).status = s.status := by
  induction fuel generalizing s with
  | zero => rfl
  | succ n ih =>
    rw [State.dropUntil]
    split
    · exact ih _
    · rfl

theorem scanRest_status (off : Nat) (s : State) : (scanRest off s).status = s.status := by
  unfold scanRest
  split
  · rw [dropUntil_status]
    split <;> rfl
  · rfl

theorem unstuffLoop_status (i : RingIx) (left k : Nat) (s : State) : (unstuffLoop i left k s).st.status = s.status := by
  induction left using Nat.strongRecOn generalizing k s with
  | _ left ih =>
    match left with
    | 0 => rfl
    | n + 1 =>
      unfold unstuffLoop
      dsimp only
      split
      · rfl
      · split
        · match n with
          | 0 => rfl
          | m + 1 =>
            dsimp only
            split
            · exact ih m (by omega) _ _
            · rfl
        · exact ih n (by omega) _ _

theorem deframe_status (at_ len : Nat) (s : State) : (deframe at_ len s).1.status = s.status := by
  have hpass := (unstuffLoop_status s.scrIx ((copyToTail s.rxIx s.scrIx (at_ + 1) (len - 2) (s.flushRb s.scrIx)).rb s.scrIx).count
    0 _).trans (copyToTail_status s.rxIx s.scrIx (at_ + 1) (len - 2) (s.flushRb s.scrIx))
  unfold deframe
  dsimp only
  split
  · rfl
  · split
    · exact hpass
    · exact hpass

/-- SCAN can set ACKFAIL, and nothing in it clears it (R118, R133). -/
theorem scan_ackFail (m : Mode) (fuel off : Nat) {s : State} (h : s.status.ackFail = true) :
    (scan m fuel off s).1.status.ackFail = true := by
  induction fuel generalizing off s with
  | zero => exact h
  | succ n ih =>
    have hack : ∀ hash off' {u : State}, u.status.ackFail = true →
        (if (buildAck hash u).2 then ((buildAck hash u).1, ScanEnd.ack off')
          else scan m n off' (buildAck hash u).1.setAckFail).1.status.ackFail = true := by
      intro hash off' u hu
      split
      · rw [buildAck, build_status]
        exact hu
      · exact ih off' rfl
    rw [scan]
    split
    · rw [scanRest_status]
      exact h
    · rename_i at0 len _
      have hd := deframe_status at0 len s
      split
      · rename_i t ht
        rw [ht] at hd
        have ht' : t.status.ackFail = true := by rw [hd]; exact h
        split
        · exact ih 0 ht'
        · exact ih _ ht'
      · rename_i t d ht
        rw [ht] at hd
        have hu : (if off = 0 then t.dropHead t.rxIx at0 else t).status.ackFail = true := by
          split
          · rw [State.dropHead_status, hd]; exact h
          · rw [hd]; exact h
        generalize (if off = 0 then t.dropHead t.rxIx at0 else t) = u at hu
        generalize (if off = 0 then 0 else at0) = at1
        have hcut : (cutRange u.rxIx at1 len u).status.ackFail = true := by rw [cutRange_status]; exact hu
        have hcap : (cutRange u.rxIx at1 len (captureFrame d u)).status.ackFail = true := by
          rw [cutRange_status, captureFrame_status]; exact hu
        dsimp only
        split
        · exact hcut
        · exact ih off hcut
        · exact hack d.hash off hcut
        · split
          · exact hack d.hash off hcap
          · exact ih off hcap
        · exact ih _ hu
        · exact hu

/-- What the scan of a wait leaves alone, whatever it meets (R22, R133, R137). -/
theorem waitScan_keeps (c : SendCtx) (off : Nat) (s : State) :
    (waitScan c off s).env = s.env ∧ (waitScan c off s).status.err = s.status.err ∧
      (s.status.ackFail = true → (waitScan c off s).status.ackFail = true) := by
  obtain ⟨u, hu, hc⟩ := waitScan_cases c off s
  have hfrozen : u.frozen = s.frozen := by rw [hu, scanAll_frozen]
  have henv : u.env = s.env := (congrArg State.env hfrozen :)
  have herr : u.status.err = s.status.err := congrArg (fun x => x.status.err) hfrozen
  have hack : s.status.ackFail = true → u.status.ackFail = true := fun h => by rw [hu]; exact scan_ackFail _ _ _ h
  rcases hc with hc | ⟨off', hc⟩ | hc <;> rw [hc]
  · exact ⟨henv, (Bool.or_false _).trans herr, hack⟩
  · exact ⟨henv, herr, hack⟩
  · exact ⟨henv, herr, hack⟩

/-- Settles O52: the equations of the TX calls, and what the scan after an acknowledgement leaves alone. -/
theorem transmitSteps : Obligations.TransmitSteps := by
  refine ⟨fun s c v hz hp => ⟨fun ho => ?_, ?_⟩, fun s r v hz hp => ⟨fun ho => ?_, ?_⟩, fun s c off v hp => ⟨fun ho => ?_, ?_⟩⟩
  · rw [engineStep_sendTx_rejected hp ho]
    exact congrArg _ (State.complete_error (s := s.setSend .aborted) hz (by decide) _)
  · rintro ho _ rfl
    have hstep := engineStep_sendTx_accepted hp ho
    refine ⟨fun hmore => ?_, fun hlast ha => ?_, fun hlast ha => ?_⟩
    · rw [hstep, if_pos hmore]
      rfl
    · rw [hstep, if_neg (Nat.not_lt.mpr hlast), ha]
      exact congrArg _ (State.complete_ok (s := s.sentOn _) hz _)
    · rw [hstep, if_neg (Nat.not_lt.mpr hlast), ha]
      rfl
  · rw [engineStep_recvAckTx_rejected hp ho, State.complete_ok (s := s.setAckFail) hz]
    rfl
  · rintro ho _ rfl
    have hstep := engineStep_recvAckTx_accepted hp ho
    refine ⟨fun hmore => ?_, fun hlast => ?_⟩
    · rw [hstep, if_pos hmore]
      rfl
    · rw [hstep, if_neg (Nat.not_lt.mpr hlast)]
      exact congrArg _ (State.complete_ok (s := s.sentOn _) hz _)
  · obtain ⟨henv, herr, hack⟩ := waitScan_keeps c off s.setAckFail
    exact ⟨_, engineStep_sendAckTx_rejected hp ho, rfl, hack rfl, herr, henv⟩
  · rintro ho _ rfl
    have hstep := engineStep_sendAckTx_accepted hp ho
    refine ⟨fun hmore => ?_, fun hlast => ?_⟩
    · rw [hstep, if_pos hmore]
      rfl
    · obtain ⟨henv, herr, _⟩ := waitScan_keeps c off (s.sentOn [s.rd s.scrIx v])
      exact ⟨_, hstep.trans (congrArg _ (if_neg (Nat.not_lt.mpr hlast))), rfl, herr, henv⟩

/-! ## TOPUP (R119, R126, R127, R137) -/

/-- The execution of LP_RECV whose checks pass is its first poll (R127). -/
theorem exec_lpRecv {s : State} {ra : RingIx} (want : Nat) (hv : s.ls.sessValid = true) (hr : ra ∉ s.ls.sess.rings)
    (hc : 0 < (s.rb ra).cap) : exec (.lpRecv ra want) s = .next (recvPoll { out := ra, want := want } s) := by
  refine if_neg ?_
  rw [badLink_iff]
  rintro (h | h | h)
  · rw [hv] at h; cases h
  · exact hr h
  · omega

theorem State.rxp_nil {s : State} (h : s.env.rxLine = []) : s.rxp = (s, none) := by
  rcases s.rxp_cases with ⟨_, hrxp⟩ | ⟨b, rest, hline, _⟩
  · exact hrxp
  · rw [h] at hline
    cases hline

/-- The state after the receive port has handed over the first byte of its line (R137). -/
def State.lineAt (s : State) (line : List Byte) : State := { s with env := { s.env with rxLine := line } }

theorem State.rxp_cons {s : State} {b : Byte} {line : List Byte} (h : s.env.rxLine = b :: line) :
    s.rxp = (s.lineAt line, some b) := by
  rcases s.rxp_cases with ⟨hline, _⟩ | ⟨b', rest, hline, hrxp⟩
  · rw [h] at hline
    cases hline
  · rw [h] at hline
    cases hline
    exact hrxp

theorem engineStep_recvRx_nil {s : State} {c : RecvCtx} (hp : s.phase = .recvRx c) (hl : s.env.rxLine = []) :
    engineStep s = .next (recvScan c s) := by
  simp only [engineStep, hp, recvRxStep, s.rxp_nil hl]
  rfl

theorem engineStep_sendRx_nil {s : State} {c : SendCtx} (hp : s.phase = .sendRx c) (hl : s.env.rxLine = []) :
    engineStep s = .next (waitScan c 0 s) := by
  simp only [engineStep, hp, sendRxStep, s.rxp_nil hl]
  rfl

theorem engineStep_recvRx_cons {s : State} {c : RecvCtx} {b : Byte} {line : List Byte} (hp : s.phase = .recvRx c)
    (hl : s.env.rxLine = b :: line) : engineStep s = .next (recvPoll c ((s.lineAt line).pushTail s.rxIx b)) := by
  simp only [engineStep, hp, recvRxStep, s.rxp_cons hl]
  rfl

theorem engineStep_sendRx_cons {s : State} {c : SendCtx} {b : Byte} {line : List Byte} (hp : s.phase = .sendRx c)
    (hl : s.env.rxLine = b :: line) : engineStep s = .next (waitPoll c ((s.lineAt line).pushTail s.rxIx b)) := by
  simp only [engineStep, hp, sendRxStep, s.rxp_cons hl]
  rfl

/-- A push at the tail writes the slot behind the last element alone (R77). -/
theorem State.read_pushTail_ne {s : State} {i : RingIx} {x : Nat} (hr : Ready s) (b : Byte) (hf : (s.rb i).count < (s.rb i).cap)
    (hx : x ≠ (s.rb i).addr (s.rb i).count) : (s.pushTail i b).mem.read x = s.mem.read x := by
  have hslot : x ≠ s.wrap ((s.rb i).addr (s.rb i).count) := by rwa [s.wrap_addr _ _ (by omega) (hr.1 i)]
  exact (State.read_store s _ b x hr.2.1.1).trans (if_neg hslot)

/-- Settles O56: LP_RECV's first poll, an idle port, and a byte handed over and pushed. -/
theorem topUpTakesBytes : Obligations.TopUpTakesBytes := by
  refine ⟨fun s ra want hv hra hc => ⟨fun hroom => ?_, fun hfull => ?_⟩,
    fun s hl => ⟨fun c hp => engineStep_recvRx_nil hp hl, fun c hp => engineStep_sendRx_nil hp hl⟩, ?_⟩
  · rw [exec_lpRecv want hv hra hc, recvPoll_room hroom]
    rfl
  · rw [exec_lpRecv want hv hra hc, recvPoll_full (by omega)]
  · rintro s b line _ hr hp hl rfl hlt
    obtain ⟨u, hu⟩ : ∃ u, u = (s.lineAt line).pushTail s.rxIx b := ⟨_, rfl⟩
    have hrb : u.rb s.rxIx = { s.rb s.rxIx with count := (s.rb s.rxIx).count + 1 } := by
      rw [hu, State.rb_pushTail_same]
      rfl
    have hrx : u.rxIx = s.rxIx := by rw [hu]; rfl
    have hroom : (s.rb s.rxIx).count + 1 < (s.rb s.rxIx).cap → 0 < (u.rb u.rxIx).cap - (u.rb u.rxIx).count := by
      rw [hrx, hrb]
      exact Nat.sub_pos_of_lt
    have hfull : (s.rb s.rxIx).count + 1 = (s.rb s.rxIx).cap → (u.rb u.rxIx).cap ≤ (u.rb u.rxIx).count := by
      rw [hrx, hrb]
      exact fun h => h.ge
    have hrecv : ∀ c, s.phase = .recvRx c → engineStep s = .next (recvPoll c u) := fun c hp => by
      rw [engineStep_recvRx_cons hp hl, hu]
    have hsend : ∀ c, s.phase = .sendRx c → engineStep s = .next (waitPoll c u) := fun c hp => by
      rw [engineStep_sendRx_cons hp hl, hu]
    have hawait : ∀ p, s.phase = p → u.await p = u := by
      rintro _ rfl
      rw [hu]
      rfl
    refine ⟨u, by rw [hu]; rfl, by rw [hu]; rfl, ?_, hrb, fun j hj => ?_, by rw [hu]; rfl, by rw [hu]; rfl, by rw [hu]; rfl,
      by rw [hu]; rfl, ?_, fun x hx => ?_, fun hmore => ?_, fun hlast => ⟨fun c hc => ?_, fun c hc => ?_⟩⟩
    · rw [hu, State.content_pushTail (s.lineAt line) _ b hlt (Ready.plain hr s.rxIx)]
      rfl
    · rw [hu, State.rb_pushTail_ne _ _ _ _ hj]
      rfl
    · rw [hu]
      exact hostKept_of_hostPart rfl
    · rw [hu]
      exact State.read_pushTail_ne (s := s.lineAt line) hr b hlt (hx 0 Nat.one_pos)
    · rcases hp with ⟨c, hc⟩ | ⟨c, hc⟩
      · rw [hrecv c hc, recvPoll_room (hroom hmore), hawait _ hc]
      · rw [hsend c hc, waitPoll_room (hroom hmore), hawait _ hc]
    · rw [hrecv c hc, recvPoll_full (hfull hlast)]
    · rw [hsend c hc, waitPoll_full (hfull hlast)]

end Sys2Proof.Machine

namespace Sys2Proof.Machine

/-- Storages that were apart, two by two, still are. -/
theorem Confined.allApart {l m js : List RingIx} {s t : State} (h : Confined l m s t) (ha : AllApart s js) : AllApart t js :=
  fun i hi j hj hij => h.storageApart (ha i hi j hj hij)

/-! ## The transmission of an acknowledgement (R117, R118) -/

theorem State.await_self {s : State} {p : Phase} (h : s.phase = p) : s.await p = s := by
  subst h
  rfl

/-- A frame in the scratch ring goes out byte by byte on a port that accepts; what follows its last byte is `fin` (R117). -/
theorem tx_run {ph : Nat → Phase} {fin : State → State} {w : List Byte}
    (hstep : ∀ (v : Nat) (s : State) (hv : v < w.length), s.phase = ph v → s.content s.scrIx = w → s.env.txOk = true →
      engineStep s = .next (if v + 1 < w.length then (s.sentOn [w[v]]).await (ph (v + 1)) else fin (s.sentOn [w[v]])))
    (n : Nat) {v : Nat} {s : State} (hp : s.phase = ph v) (hw : s.content s.scrIx = w) (ho : s.env.txOk = true)
    (hq : s.env.agenda = []) (hn : v + n + 1 = w.length) :
    Host.Core.run Sys2Proof.core (n + 1) s = .next (fin ((s.sentOn (w.drop v)).await (ph (v + n)))) := by
  induction n generalizing v s with
  | zero =>
    have hv : v < w.length := by omega
    have hone : step s = _ := (step_engine hq).trans (hstep v s hv hp hw ho)
    rw [if_neg (by omega)] at hone
    rw [run_succ 0 hone, List.drop_eq_getElem_cons hv, List.drop_eq_nil_of_le (by omega),
      State.await_self (s := s.sentOn [w[v]]) (p := ph (v + 0)) hp]
    rfl
  | succ n ih =>
    have hv : v < w.length := by omega
    have hone : step s = _ := (step_engine hq).trans (hstep v s hv hp hw ho)
    rw [if_pos (by omega)] at hone
    have hrest := ih (v := v + 1) (s := (s.sentOn [w[v]]).await (ph (v + 1))) rfl hw ho hq (by omega)
    rw [run_succ (n + 1) hone, hrest, List.drop_eq_getElem_cons hv, show v + 1 + n = v + (n + 1) by omega]
    simp only [State.sentOn, State.await, List.append_assoc, List.singleton_append]

section
variable {s : State} {w : List Byte} (hw : s.content s.scrIx = w)
include hw

theorem rd_of_content {v : Nat} (hv : v < w.length) : s.rd s.scrIx v = w[v] := by
  subst hw
  exact (s.content_getElem _ v hv).symm

theorem count_of_content : (s.rb s.scrIx).count = w.length := by rw [← hw, State.content_length]

variable (ho : s.env.txOk = true) (hq : s.env.agenda = []) (hne : 0 < w.length)
include ho hq hne

/-- LP_RECV's acknowledgement goes out, and the command completes (R118, R127). -/
theorem recvAckTx_run {r : Quad} (hp : s.phase = .recvAckTx r 0) :
    Host.Core.run Sys2Proof.core w.length s = .next ((s.sentOn w).complete .ok r) := by
  obtain ⟨n, hn⟩ := Nat.exists_eq_succ_of_ne_zero hne.ne'
  rw [hn, tx_run (ph := .recvAckTx r) (fin := fun t => t.complete .ok r) (fun v t hv hp hw ho => ?_) n hp hw ho hq (by omega)]
  · rfl
  · rw [engineStep_recvAckTx_accepted hp ho, rd_of_content hw hv, count_of_content hw]

/-- The acknowledgement of a wait goes out, and the scan goes on from where it stood (R118, R122). -/
theorem sendAckTx_run {c : SendCtx} {off : Nat} (hp : s.phase = .sendAckTx c off 0) :
    ∃ ph, Host.Core.run Sys2Proof.core w.length s = .next (waitScan c off ((s.sentOn w).await ph)) := by
  obtain ⟨n, hn⟩ := Nat.exists_eq_succ_of_ne_zero hne.ne'
  rw [hn, tx_run (ph := .sendAckTx c off) (fin := waitScan c off) (fun v t hv hp hw ho => ?_) n hp hw ho hq (by omega)]
  · exact ⟨_, rfl⟩
  · rw [engineStep_sendAckTx_accepted hp ho, rd_of_content hw hv, count_of_content hw]

end

/-! ## The scan of a wait, by how it ends (R121, R126) -/

section
variable {s t : State} {c : SendCtx} {off : Nat}

theorem waitScan_of_taken {d : Frame} (h : scanAll (.ackWait c.hash) off s = (t, .taken d)) :
    waitScan c off s = (t.setSend .acked).complete .ok (c.results 1) := by rw [waitScan, h]

theorem waitScan_of_nothing (h : scanAll (.ackWait c.hash) off s = (t, .nothing)) : waitScan c off s = t.await (.sendT c) := by
  rw [waitScan, h]

theorem waitScan_of_ack {off' : Nat} (h : scanAll (.ackWait c.hash) off s = (t, .ack off')) :
    waitScan c off s = t.await (.sendAckTx c off' 0) := by rw [waitScan, h]

end

/-- A link command in a state with the invariant can scan, if the storages of rx and of the scratch ring are apart (R125, R154). -/
theorem Inv.scannable {s : State} (h : Inv s) (hz : s.hazard = false) (hv : s.ls.sessValid = true)
    (ha : s.rxIx ≠ s.scrIx → StorageApart s s.rxIx s.scrIx) : Scannable s := by
  obtain ⟨⟨hrings, hmem, _⟩, hdistinct, _⟩ := inv_iff.mp h
  obtain ⟨hne, _⟩ := hdistinct hv
  exact ⟨⟨hrings, hmem, hz⟩, hne, ha hne⟩

/-- Settles O55: the acknowledgement's verdict is TAKE, and the frame is cut out of rx. -/
theorem matchingAckEndsSend : Obligations.MatchingAckEndsSend := by
  intro s c pre post p w aw hinv hz hp hl ha hplen hw hpre hc hfit
  have hvalid := (hinv.linked (by rw [hp]; rfl)).valid
  have hs : Scannable s := hinv.scannable hz hvalid (ha _ (by simp) _ (by simp))
  obtain ⟨k, u, hscan, hk, hrx, _⟩ := scanAll_first_frame (.ackWait c.hash) hs hplen hw (Junk.noise hpre) hc hfit rfl
  have htake : classify (.ackWait c.hash) { code := 1#7, ackW := aw, hash := c.hash, plen := p.length } u = .take := by
    simp [classify, classifyWait, Config.codeAck]
  rw [htake, scanAct, hk.rxIx] at hscan
  obtain ⟨hcut, hpost⟩ := cut_frame hk.ready hrx
  have hall : Confined [s.rxIx, s.scrIx] [s.scrIx] s _ := hk.trans (hcut.mono (by simp) (by simp))
  refine ⟨_, (engineStep_sendRx_nil hp hl).trans (congrArg _ (waitScan_of_taken hscan)), hall.completed hz .ok _, ?_, hpost,
    hall.env, hall.crcAcc, fun j hrx hscr => hall.rb (by simp [hrx, hscr]), hall.memKeptOutside⟩
  rw [State.complete_ls, State.setSend_ls, hall.works.ls]

end Sys2Proof.Machine

namespace Sys2Proof.Machine

/-! ## A whole LP_RECV with nothing on its line (R119, R127) -/

/-- LP_RECV goes from its execution to its scan, by way of an RXP call that hands over nothing unless rx is full. -/
theorem recv_run {s : State} {out : RingIx} {want : Nat} (hp : s.phase = .fetch) (hd : decode s.cmd = .ok (.lpRecv out want))
    (hq : s.env.agenda = []) (hl : s.env.rxLine = []) (hv : s.ls.sessValid = true) (hr : out ∉ s.ls.sess.rings)
    (hc : 0 < (s.rb out).cap) (hle : (s.rb s.rxIx).count ≤ (s.rb s.rxIx).cap) :
    ∃ ph, Host.Core.run Sys2Proof.core (if (s.rb s.rxIx).count = (s.rb s.rxIx).cap then 1 else 2) s =
      .next (recvScan { out := out, want := want } (s.await ph)) := by
  have hexec : step s = .next (recvPoll { out := out, want := want } s) := by
    rw [step_engine hq, engineStep_fetch hp hd, exec_lpRecv want hv hr hc]
  split
  · next hfull =>
    rw [recvPoll_full hfull.ge] at hexec
    exact ⟨_, (run_succ 0 hexec).trans (by rw [State.await_self (p := .fetch) hp]; rfl)⟩
  · next hroom =>
    rw [recvPoll_room (Nat.sub_pos_of_lt (by omega))] at hexec
    obtain ⟨t, ht⟩ : ∃ t, t = s.await (.recvRx { out := out, want := want }) := ⟨_, rfl⟩
    have hscan : step t = .next (recvScan { out := out, want := want } t) := by
      rw [step_engine (by rw [ht]; exact hq), engineStep_recvRx_nil (by rw [ht]; rfl) (by rw [ht]; exact hl)]
    rw [← ht] at hexec
    exact ⟨_, (run_succ 1 hexec).trans ((run_succ 0 hscan).trans (by rw [ht]; rfl))⟩

section
variable {s t : State} {c : RecvCtx} (hq : s.ls.sess.sqe = false ∨ c.want ≠ 0 ∨ (s.rb s.slenIx).count = 0)
include hq

/-- With nothing to drain LP_RECV scans (R127). -/
theorem not_draining : ¬ (s.ls.sess.sqe = true ∧ c.want = Config.codeData.toNat ∧ (s.rb s.slenIx).count > 0) := by
  rintro ⟨hsqe, hwant, hcount⟩
  rcases hq with h | h | h
  · rw [hsqe] at h; cases h
  · exact h hwant
  · omega

theorem recvScan_of_taken {d : Frame} (h : scanAll (.ordinary c.want c.out) 0 s = (t, .taken d)) :
    recvScan c s = recvTaken c.out d t := by rw [recvScan, if_neg (not_draining hq), h]

theorem recvScan_of_nothing (h : scanAll (.ordinary c.want c.out) 0 s = (t, .nothing)) :
    recvScan c s = t.complete .ok (quadOf 0 0 0 0) := by
  rw [recvScan, if_neg (not_draining hq), h]
  rfl

theorem recvScan_of_stopped (h : scanAll (.ordinary c.want c.out) 0 s = (t, .stopped)) :
    recvScan c s = t.complete .capacity (quadOf 0 0 0 0) := by
  rw [recvScan, if_neg (not_draining hq), h]
  rfl

end

/-! ### The verdicts of ORDINARY (R122) -/

section
variable {want : Nat} {out : RingIx} {d : Frame} {s : State}

theorem classify_take (hc : d.code.toNat = want) (hf : Fits out d s) : classify (.ordinary want out) d s = .take := by
  simp only [classify, classifyOrdinary, if_pos hc]
  refine if_neg fun h => ?_
  obtain ⟨hnew, hfull⟩ := Bool.and_eq_true_iff.mp h
  exact Nat.not_le.mpr (of_decide_eq_true hfull) (hf ((Bool.not_eq_true' _).mp hnew))

theorem classify_stop (hc : d.code.toNat = want) (hf : ¬ Fits out d s) : classify (.ordinary want out) d s = .stop := by
  obtain ⟨hnew, hfull⟩ := Classical.not_imp.mp hf
  simp only [classify, classifyOrdinary, if_pos hc, hnew, Bool.not_false, Bool.true_and, decide_eq_true_eq]
  exact if_pos (Nat.lt_of_not_le hfull)

theorem classify_drop (hc : d.code.toNat ≠ want) (hr : s.removable d.code.toNat = true) :
    classify (.ordinary want out) d s = .drop := by
  simp only [classify, classifyOrdinary, if_neg hc, if_pos hr]

theorem classify_keep (hc : d.code.toNat ≠ want) (hr : s.removable d.code.toNat = false) :
    classify (.ordinary want out) d s = .keep := by
  simp only [classify, classifyOrdinary, if_neg hc, hr, Bool.false_eq_true, if_false]

end

/-! ### The delivery (R123, R127) -/

/-- The state with LS_LASTRX as given (R123). -/
def State.withLastRx (s : State) (x : LastRx) : State := { s with ls := { s.ls with lastRx := x } }

theorem Confined.withLastRx {l m : List RingIx} {s t : State} (h : Confined l m s t) (x : LastRx) :
    Confined l m (s.withLastRx x) (t.withLastRx x) where
  works := ⟨h.works.frozen, by simp only [State.withLastRx, h.works.ls], h.works.status, h.works.memOk, h.works.others⟩
  ready := h.ready
  shape := h.shape
  outside := h.outside

/-- The LS_LASTRX that the delivery of a frame leaves (R123). -/
def Frame.lastRx (d : Frame) (dup : Bool) (x : LastRx) : LastRx :=
  if d.code = 0#7 ∧ dup = false then { hash := d.hash, valid := true } else x

/-- The delivery of a frame whose content stands in the scratch ring, and of a duplicate (R127). -/
theorem delivered_spec {out : RingIx} {d : Frame} {s : State} {dup : Bool} (hr : Ready s) (hne : s.scrIx ≠ out)
    (ha : StorageApart s s.scrIx out) (hc : 0 < (s.rb s.scrIx).cap)
    (hdup : (decide (d.code = Config.codeData) && s.dup d.hash) = dup) (hf : Fits out d s) :
    Confined [out] [out] (s.withLastRx (d.lastRx dup s.ls.lastRx)) (delivered out d s) ∧
      (delivered out d s).content out = s.content out ++ if dup then [] else s.slice s.scrIx Config.hdrLen d.plen := by
  rw [Fits, hdup, Desc.free] at hf
  rw [delivered, hdup]
  cases dup with
  | true =>
    have hold : d.lastRx true s.ls.lastRx = s.ls.lastRx := if_neg (fun h => Bool.noConfusion h.2)
    rw [hold]
    exact ⟨.refl _ _ hr, (List.append_nil _).symm⟩
  | false =>
    have hle := (hr.1 out).1
    have hroom := hf rfl
    obtain ⟨hk, hcont⟩ := copyToTail_spec Config.hdrLen d.plen hr hne ha hc (o := out) (by omega)
    simp only [Bool.false_eq_true, if_false]
    by_cases hcode : d.code = Config.codeData
    · have hnew : d.lastRx false s.ls.lastRx = { hash := d.hash, valid := true } := if_pos ⟨hcode, rfl⟩
      rw [deliver, if_pos hcode, hnew]
      exact ⟨hk.setLastRx d.hash, hcont⟩
    · have hold : d.lastRx false s.ls.lastRx = s.ls.lastRx := if_neg (fun h => hcode h.1)
      rw [deliver, if_neg hcode, hold]
      exact ⟨hk, hcont⟩

/-- What follows the frame LP_RECV takes: it completes after the delivery, or an acknowledgement stands in the scratch ring
before its first TX call, or did not fit there (R118, R127). -/
theorem recvTaken_spec {out : RingIx} {d : Frame} {s : State} {dup : Bool} {ack : List Byte} {p : List Byte} (h : Scannable s)
    (hscr : s.scrIx ≠ out) (hrx : s.rxIx ≠ out) (ha : AllApart s [s.rxIx, s.scrIx, out])
    (hd : s.content s.scrIx = frameContent d.code d.ackW d.hash p) (hp : d.plen = p.length)
    (hdup : (decide (d.code = Config.codeData) && s.dup d.hash) = dup) (hf : Fits out d s)
    (hack : ack = wireFrame 1#7 false d.hash []) :
    ∃ (y : State) (ph : Phase) (st : Status) (q : Quad), recvTaken out d s = { y with phase := ph, status := st, res := q } ∧
      Confined [s.scrIx, out] [s.scrIx, out] (s.withLastRx (d.lastRx dup s.ls.lastRx)) y ∧
      y.content s.rxIx = s.content s.rxIx ∧ y.content out = s.content out ++ (if dup then [] else p) ∧
      (¬ (d.code = 0#7 ∧ d.ackW = true) → recvTaken out d s = y.complete .ok (recvResults d dup)) ∧
      (d.code = 0#7 ∧ d.ackW = true → ack.length ≤ (s.rb s.scrIx).cap →
        recvTaken out d s = y.await (.recvAckTx (recvResults d dup) 0) ∧ y.content s.scrIx = ack) ∧
      (d.code = 0#7 ∧ d.ackW = true → (s.rb s.scrIx).cap < ack.length →
        recvTaken out d s = y.setAckFail.complete .ok (recvResults d dup)) := by
  have hrxout : StorageApart s s.rxIx out := ha _ (by simp) _ (by simp) hrx
  have hscrout : StorageApart s s.scrIx out := ha _ (by simp) _ (by simp) hscr
  have houtscr : StorageApart s out s.scrIx := ha _ (by simp) _ (by simp) hscr.symm
  have hcap : 0 < (s.rb s.scrIx).cap := scr_bound h.ready hd
  have hslice : s.slice s.scrIx Config.hdrLen d.plen = p := by rw [hp]; exact slice_payload hd
  obtain ⟨hk, hout⟩ := delivered_spec h.ready hscr hscrout hcap hdup hf
  rw [hslice] at hout
  have hwith : Ready (s.withLastRx (d.lastRx dup s.ls.lastRx)) := h.ready
  have hrxk : (delivered out d s).content s.rxIx = s.content s.rxIx :=
    hk.content_eq hwith (hk.rb (by simpa using hrx)) (fun r hr => by rw [List.mem_singleton.mp hr]; exact hrxout)
  have htaken : recvTaken out d s =
      if d.code = Config.codeData ∧ d.ackW = true then
        if (buildAck d.hash (delivered out d s)).2 then
          (buildAck d.hash (delivered out d s)).1.await (.recvAckTx (recvResults d dup) 0)
        else (buildAck d.hash (delivered out d s)).1.setAckFail.complete .ok (recvResults d dup)
      else (delivered out d s).complete .ok (recvResults d dup) := by
    rw [← hdup]
    rfl
  by_cases hwants : d.code = Config.codeData ∧ d.ackW = true
  · rw [if_pos hwants] at htaken
    obtain ⟨hb, hfits, hcont⟩ := build_spec Config.codeAck false d.hash [] hk.ready hack
    have hscrIx : (delivered out d s).scrIx = s.scrIx := hk.scrIx
    have hcapeq : ((delivered out d s).rb s.scrIx).cap = (s.rb s.scrIx).cap := hk.cap s.scrIx
    rw [hscrIx] at hb hfits hcont
    rw [hcapeq] at hfits
    have hall : Confined [s.scrIx, out] [s.scrIx, out] _ _ := (hk.mono (by simp) (by simp)).trans (hb.mono (by simp) (by simp))
    have hrxb : (buildAck d.hash (delivered out d s)).1.content s.rxIx = s.content s.rxIx :=
      (hb.content_eq hk.ready (hb.rb_ne h.ne) (by simpa using hk.storageApart h.apart)).trans hrxk
    have houtb : (buildAck d.hash (delivered out d s)).1.content out = s.content out ++ if dup then [] else p :=
      (hb.content_eq hk.ready (hb.rb_ne hscr.symm) (by simpa using hk.storageApart houtscr)).trans hout
    by_cases hok : (buildAck d.hash (delivered out d s)).2 = true
    · rw [if_pos hok] at htaken
      exact ⟨_, _, _, _, htaken, hall, hrxb, houtb, fun hno => absurd hwants hno, fun _ _ => ⟨htaken, hcont hok⟩,
        fun _ hlt => absurd (hfits.mp hok) (Nat.not_le.mpr hlt)⟩
    · rw [if_neg hok] at htaken
      exact ⟨(buildAck d.hash (delivered out d s)).1, _, _, _, htaken, hall, hrxb, houtb, fun hno => absurd hwants hno,
        fun _ hle => absurd (hfits.mpr hle) hok, fun _ _ => htaken⟩
  · rw [if_neg hwants] at htaken
    exact ⟨_, _, _, _, htaken, hk.mono (by simp) (by simp), hrxk, hout, fun _ => htaken, fun h => absurd h hwants,
      fun h => absurd h hwants⟩

end Sys2Proof.Machine

namespace Sys2Proof.Machine

/-! ## LP_RECV at a frame of the wanted code (R120, R121, R122, R127) -/

/-- The scan of LP_RECV, at a frame of the wanted code behind junk: the frame is cut out of rx, and `recvTaken_spec` says what
follows. -/
theorem recvScan_delivers {s : State} {out : RingIx} {aw dup : Bool} {pre post p w ack : List Byte} {d : Frame} (h : Scannable s)
    (hrxout : s.rxIx ≠ out) (hscrout : s.scrIx ≠ out) (ha : AllApart s [s.rxIx, s.scrIx, out])
    (hq : s.ls.sess.sqe = false ∨ d.code.toNat ≠ 0 ∨ (s.rb s.slenIx).count = 0) (hp : p.length ≤ 128)
    (hd : d = { code := d.code, ackW := aw, hash := d.hash, plen := p.length }) (hw : w = wireFrame d.code aw d.hash p)
    (hpre : Junk pre) (hc : s.content s.rxIx = pre ++ w ++ post) (hfit : w.length ≤ (s.rb s.scrIx).cap + 2)
    (hdup : (decide (d.code = Config.codeData) && s.dup d.hash) = dup) (hroom : Fits out d s)
    (hack : ack = wireFrame 1#7 false d.hash []) {c : RecvCtx} (hctx : c = { out := out, want := d.code.toNat }) :
    ∃ (y : State) (ph : Phase) (st : Status) (q : Quad), recvScan c s = { y with phase := ph, status := st, res := q } ∧
      Confined [s.rxIx, s.scrIx, out] [s.scrIx, out] (s.withLastRx (d.lastRx dup s.ls.lastRx)) y ∧
      y.content s.rxIx = post ∧ y.content out = s.content out ++ (if dup then [] else p) ∧
      (¬ (d.code = 0#7 ∧ aw = true) → recvScan c s = y.complete .ok (recvResults d dup)) ∧
      (d.code = 0#7 ∧ aw = true → ack.length ≤ (s.rb s.scrIx).cap →
        recvScan c s = y.await (.recvAckTx (recvResults d dup) 0) ∧ y.content s.scrIx = ack) ∧
      (d.code = 0#7 ∧ aw = true → (s.rb s.scrIx).cap < ack.length →
        recvScan c s = y.setAckFail.complete .ok (recvResults d dup)) := by
  subst hctx
  obtain ⟨haw, hplen⟩ : d.ackW = aw ∧ d.plen = p.length := by rw [hd]; exact ⟨rfl, rfl⟩
  obtain ⟨k, u, hscan, hk, hrx, hscr⟩ := scanAll_first_frame (.ordinary d.code.toNat out) h hp hw hpre hc hfit hd
  obtain ⟨hcut, hpost⟩ := cut_frame hk.ready hrx
  have hall : Confined [s.rxIx, s.scrIx] [s.scrIx] s _ := hk.trans (hcut.mono (by simp) (by simp))
  have hout : out ∉ [s.rxIx, s.scrIx] := by simp [hrxout.symm, hscrout.symm]
  have hfits : ∀ v, Confined [s.rxIx, s.scrIx] [s.scrIx] s v → Fits out d v := fun v hv => by
    rw [Fits, State.dup, hv.works.ls, hv.rb hout]
    exact hroom
  rw [classify_take rfl (hfits u hk), scanAct, hk.rxIx] at hscan
  generalize cutRange s.rxIx 0 w.length u = v at hscan hall hpost hcut
  have hrx' : v.rxIx = s.rxIx := hall.rxIx
  have hscr' : v.scrIx = s.scrIx := hall.scrIx
  have hscrv : v.content v.scrIx = frameContent d.code d.ackW d.hash p := by
    rw [hscr', haw, ← hscr]
    exact hcut.content_eq hk.ready (hcut.rb (by simpa using h.ne.symm)) (by simp)
  have hapart : AllApart v [v.rxIx, v.scrIx, out] := fun i hi j hj hij => by
    rw [hrx', hscr'] at hi hj
    exact hall.allApart ha i hi j hj hij
  obtain ⟨y, ph, st, q, htaken, hy, hyrx, hyout, hnoack, hacked, hunacked⟩ := recvTaken_spec (h.of_confined hall)
    (hscr'.trans_ne hscrout) (hrx'.trans_ne hrxout) hapart hscrv hplen
    (show _ = dup by rw [State.dup, hall.works.ls]; exact hdup) (hfits v hall) hack
  have houtv : v.content out = s.content out :=
    hall.content_eq h.ready (hall.rb hout) (by simpa using ha out (by simp) s.scrIx (by simp) hscrout.symm)
  have hls : v.ls.lastRx = s.ls.lastRx := by rw [hall.works.ls]
  rw [← recvScan_of_taken (c := { out := out, want := d.code.toNat }) hq hscan] at htaken hnoack hacked hunacked
  rw [hrx', hpost] at hyrx
  rw [hscr', hls] at hy
  rw [houtv] at hyout
  rw [haw] at hnoack
  rw [hscr', hall.cap, haw] at hacked hunacked
  exact ⟨y, ph, st, q, htaken, ((hall.withLastRx _).mono (by simp) (by simp)).trans (hy.mono (by simp) (by simp)), hyrx, hyout,
    hnoack, hacked, hunacked⟩

/-- Settles O57: the run to the scan, the delivery there, and the run of the acknowledgement. -/
theorem lpRecvDelivers : Obligations.LpRecvDelivers := by
  intro s out code aw dup hash pre post p w r hinv hz hp hd hq hl hv hout hcap hqueue ha hplen hw hpre hc hfit hdup hroom hr
  have hrxout : s.rxIx ≠ out := fun h => hout (h ▸ rx_mem_rings s.ls.sess)
  have hscrout : s.scrIx ≠ out := fun h => hout (h ▸ scr_mem_rings s.ls.sess)
  have hs : Scannable s := hinv.scannable hz hv (ha _ (by simp) _ (by simp))
  have hqueue' : s.ls.sess.sqe = false ∨ code.toNat ≠ 0 ∨ (s.rb s.slenIx).count = 0 :=
    hqueue.imp_right (Or.imp_left fun hne h => hne (BitVec.eq_of_toNat_eq h))
  have hdup' : (decide (code = Config.codeData) && s.dup hash) = dup := by
    rw [hdup, State.dup, Bool.and_assoc]
    rfl
  obtain ⟨ph, hrun⟩ := recv_run hp hd hq hl hv hout hcap (hs.ready.1 s.rxIx).1
  obtain ⟨y, ph', st, q, hend, hk, hrx, hyout, hnoack, hacked, hunacked⟩ := recvScan_delivers (s := s.await ph)
    (d := { code := code, ackW := aw, hash := hash, plen := p.length }) ⟨hs.ready, hs.ne, hs.apart⟩ hrxout hscrout ha hqueue'
    hplen rfl hw hpre hc hfit hdup'
    (fun hnew => hroom.resolve_left (ne_of_eq_of_ne (hdup'.symm.trans hnew) Bool.false_ne_true)) rfl rfl
  have hres : recvResults { code := code, ackW := aw, hash := hash, plen := p.length } dup = r := hr.symm
  have hzy : y.hazard = false := hk.ready.2.2
  rw [hres] at hnoack hacked hunacked
  refine ⟨_, hrun.trans (congrArg _ hend), hrx, hyout, hk.works.ls, hk.env, hk.crcAcc,
    fun j h1 h2 h3 => hk.rb (by simp [h1, h2, h3]),
    fun a h1 h2 => hk.outside a (List.forall_mem_cons.mpr ⟨h1, List.forall_mem_singleton.mpr h2⟩), fun hno => ?_,
    fun hcode haw hle => ?_, fun hcode haw hlt => ?_⟩
  · rw [← hend, hnoack (fun ⟨h1, h2⟩ => hno.elim (fun h => h h1) (fun h => by rw [h] at h2; cases h2))]
    exact hk.completed hz .ok r
  · obtain ⟨hawait, hcont⟩ := hacked ⟨hcode, haw⟩ hle
    rw [← hend, hawait]
    refine ⟨rfl, hcont, hk.works.status, fun ho => ?_⟩
    have hnonempty : 0 < (wireFrame 1#7 false hash []).length := by rw [wireFrame_length]; omega
    have hscrIx : y.scrIx = s.scrIx := hk.scrIx
    have henv : y.env = s.env := hk.env
    exact (recvAckTx_run (s := y.await (.recvAckTx r 0)) ((congrArg y.content hscrIx).trans hcont)
      ((congrArg Env.txOk henv).trans ho) ((congrArg Env.agenda henv).trans hq) hnonempty rfl).trans
      (congrArg _ (State.complete_ok (s := (y.await (.recvAckTx r 0)).sentOn _) hzy r))
  · rw [← hend, hunacked ⟨hcode, haw⟩ hlt, State.complete_ok (s := y.setAckFail) hzy]
    have hst : y.status = s.status := hk.works.status
    refine ⟨rfl, rfl, ?_⟩
    rw [← hst]
    rfl

end Sys2Proof.Machine

namespace Sys2Proof.Machine

/-! ## LP_RECV at a frame it does not deliver (R121, R122, R127) -/

theorem Confined.removable {l m : List RingIx} {s t : State} (h : Confined l m s t) (c : Nat) : t.removable c = s.removable c := by
  obtain ⟨_, _, harg, _⟩ := h.hostKept
  rw [State.removable, harg, State.removable]

/-- The scan of LP_RECV, at a frame behind junk that it drops, keeps, or has no room for, and with no FLAG behind the frame. -/
theorem recvScan_leaves {s : State} {aw : Bool} {pre post p w : List Byte} {d : Frame} {c : RecvCtx} (h : Scannable s)
    (hout : c.out ∉ [s.rxIx, s.scrIx]) (hq : s.ls.sess.sqe = false ∨ c.want ≠ 0 ∨ (s.rb s.slenIx).count = 0) (hp : p.length ≤ 128)
    (hd : d = { code := d.code, ackW := aw, hash := d.hash, plen := p.length }) (hw : w = wireFrame d.code aw d.hash p)
    (hpre : Junk pre) (hpost : (0x7E#8 : Byte) ∉ post) (hc : s.content s.rxIx = pre ++ w ++ post)
    (hfit : w.length ≤ (s.rb s.scrIx).cap + 2) (hroom : d.code.toNat = c.want → ¬ Fits c.out d s) :
    ∃ (v : State) (e : Ecode), recvScan c s = v.complete e (quadOf 0 0 0 0) ∧ Confined [s.rxIx, s.scrIx] [s.scrIx] s v ∧
      (d.code.toNat ≠ c.want → s.removable d.code.toNat = true → e = .ok ∧ v.content s.rxIx = []) ∧
      (d.code.toNat ≠ c.want → s.removable d.code.toNat = false → e = .ok ∧ v.content s.rxIx = w ++ post) ∧
      (d.code.toNat = c.want → e = .capacity ∧ v.content s.rxIx = w ++ post) := by
  obtain ⟨k, u, hscan, hk, hrx, _⟩ := scanAll_first_frame (.ordinary c.want c.out) h hp hw hpre hc hfit hd
  by_cases hcode : d.code.toNat = c.want
  · have hfull : ¬ Fits c.out d u := by
      rw [Fits, State.dup, hk.works.ls, hk.rb hout]
      exact hroom hcode
    rw [classify_stop hcode hfull, scanAct] at hscan
    exact ⟨u, .capacity, recvScan_of_stopped hq hscan, hk, fun hne => absurd hcode hne, fun hne => absurd hcode hne,
      fun _ => ⟨rfl, hrx⟩⟩
  · cases hrem : s.removable d.code.toNat with
    | true =>
      obtain ⟨hcut, hcutrx⟩ := cut_frame hk.ready hrx
      have hcutIx : (cutRange s.rxIx 0 w.length u).rxIx = s.rxIx := hcut.rxIx.trans hk.rxIx
      obtain ⟨v, hrest, hv, hempty⟩ := scan_no_flag (.ordinary c.want c.out) k hcut.ready (by rw [hcutIx, hcutrx]; exact hpost)
      rw [hcutIx] at hv hempty
      rw [classify_drop hcode ((hk.removable _).trans hrem), scanAct, hk.rxIx, hrest] at hscan
      exact ⟨v, .ok, recvScan_of_nothing hq hscan, (hk.trans (hcut.mono (by simp) (by simp))).trans (hv.mono (by simp) (by simp)),
        fun _ _ => ⟨rfl, hempty⟩, fun _ hno => absurd hno Bool.true_eq_false.mp, fun heq => absurd heq hcode⟩
    | false =>
      have hrest := scan_behind_frame (.ordinary c.want c.out) k hw (by rw [hk.rxIx]; exact hrx) hpost
      rw [classify_keep hcode ((hk.removable _).trans hrem), scanAct, hrest] at hscan
      exact ⟨u, .ok, recvScan_of_nothing hq hscan, hk, fun _ hno => absurd hno Bool.false_ne_true, fun _ _ => ⟨rfl, hrx⟩,
        fun heq => absurd heq hcode⟩

/-- Settles O58: the run to the scan, and the three verdicts. -/
theorem lpRecvLeavesOtherFrames : Obligations.LpRecvLeavesOtherFrames := by
  intro s out want code aw hash pre post p w hinv hz hp hd hq hl hv hout hcap hqueue ha hplen hw hpre hpost hc hfit hroom
  have hrxout : out ≠ s.rxIx := fun h => hout (h ▸ rx_mem_rings s.ls.sess)
  have hscrout : out ≠ s.scrIx := fun h => hout (h ▸ scr_mem_rings s.ls.sess)
  have hs : Scannable s := hinv.scannable hz hv (ha _ (by simp) _ (by simp))
  have hfull : ∀ d : Frame, d = { code := code, ackW := aw, hash := hash, plen := p.length } → d.code.toNat = want →
      ¬ Fits out d s := by
    rintro _ rfl hwant hfits
    obtain ⟨hnew, hlt⟩ := hroom hwant
    refine Nat.not_le.mpr hlt (hfits (Bool.eq_false_iff.mpr fun h => hnew ?_))
    obtain ⟨hdata, hdup⟩ := Bool.and_eq_true_iff.mp h
    obtain ⟨hvalid, hsame⟩ := Bool.and_eq_true_iff.mp hdup
    exact ⟨of_decide_eq_true hdata, hvalid, of_decide_eq_true hsame⟩
  obtain ⟨ph, hrun⟩ := recv_run hp hd hq hl hv hout hcap (hs.ready.1 s.rxIx).1
  obtain ⟨v, e, hend, hk, hdrop, hkeep, hstop⟩ := recvScan_leaves (s := s.await ph) (c := { out := out, want := want })
    (d := { code := code, ackW := aw, hash := hash, plen := p.length }) ⟨hs.ready, hs.ne, hs.apart⟩
    (show out ∉ [s.rxIx, s.scrIx] by simp [hrxout, hscrout]) hqueue hplen rfl hw hpre hpost hc hfit (hfull _ rfl)
  have hdone : Completed (s.await ph) (v.complete e (quadOf 0 0 0 0)) e (quadOf 0 0 0 0) := hk.completed hz e _
  refine ⟨_, hrun.trans (congrArg _ hend), hk.works.ls, hk.env, hk.crcAcc, fun j h1 h2 => hk.rb (by simp [h1, h2]),
    hk.memKeptOutside, fun hne hrem => ?_, fun hne hrem => ?_, fun heq => ?_⟩
  · obtain ⟨rfl, hrx⟩ := hdrop hne hrem
    exact ⟨hdone, hrx⟩
  · obtain ⟨rfl, hrx⟩ := hkeep hne hrem
    exact ⟨hdone, hrx⟩
  · obtain ⟨rfl, hrx⟩ := hstop heq
    exact ⟨hdone, hrx⟩

end Sys2Proof.Machine

namespace Sys2Proof.Machine

/-! ## DRAIN (R124, R127) -/

/-- `t` comes from `s` by a drain that has moved `k` bytes of the oldest entry from the side ring to `out` (R124). -/
structure Drained (out : RingIx) (k : Nat) (s t : State) : Prop where
  confined : Confined [out, s.sideIx, s.slenIx] [out] s t
  desc : t.rb out = { s.rb out with count := (s.rb out).count + k }
  moved : t.content out = s.content out ++ (s.content s.sideIx).take k
  left : t.content s.sideIx = (s.content s.sideIx).drop k
  lengths : t.content s.slenIx = (s.content s.slenIx).drop 1
  slots : MemKeptBut (fun j => (s.rb out).addr ((s.rb out).count + j)) k s t

namespace Drained

variable {out : RingIx} {s : State} (hlen : out ≠ s.slenIx) (hne : s.slenIx ≠ s.sideIx)
include hlen hne

theorem start (hr : Ready s) : Drained out 0 s (s.dropHead s.slenIx 1) where
  confined := .dropHead hr (by simp) 1
  desc := State.rb_setRb_ne s _ _ _ hlen
  moved := by
    have hk := Confined.dropHead (l := [s.slenIx]) (m := []) hr (List.mem_singleton.mpr rfl) 1
    rw [List.take_zero, List.append_nil]
    exact hk.content_eq hr (hk.rb (by simpa using hlen)) (by simp)
  left := by
    have hk := Confined.dropHead (l := [s.slenIx]) (m := []) hr (List.mem_singleton.mpr rfl) 1
    exact hk.content_eq hr (hk.rb (by simpa using hne.symm)) (by simp)
  lengths := State.content_dropHead ..
  slots := fun _ _ => rfl

variable (hout : out ≠ s.sideIx)
include hout

/-- One pass of DRAIN: the head element of the side ring goes to the tail of out. -/
theorem next {k : Nat} {t : State} (h : Drained out k s t) (ha : AllApart s [out, s.sideIx, s.slenIx])
    (hroom : (s.rb out).count + k < (s.rb out).cap) (hk : k < (s.rb s.sideIx).count) :
    Drained out (k + 1) s ((t.pushTail out (drainByte t k)).dropHead t.sideIx 1) := by
  have hlen' : k < (s.content s.sideIx).length := by rwa [State.content_length]
  have hlt : (t.rb out).count < (t.rb out).cap := by rw [h.desc]; exact hroom
  have hsideIx : t.sideIx = s.sideIx := h.confined.sideIx
  have hcap : (t.rb t.sideIx).cap ≠ 0 := by
    have := (h.confined.ready.1 s.sideIx).1
    have hcount : (t.rb s.sideIx).count = (s.rb s.sideIx).count - k := by
      rw [← State.content_length, h.left, List.length_drop, State.content_length]
    rw [hsideIx]
    omega
  have hbyte : drainByte t k = (s.content s.sideIx)[k] := by
    have hpos : 0 < (t.content s.sideIx).length := by rw [h.left, List.length_drop]; omega
    rw [drainByte, if_neg hcap, hsideIx, ← t.content_getElem s.sideIx 0 hpos, List.getElem_of_eq h.left, List.getElem_drop]
    simp only [Nat.add_zero]
  have hpush := Confined.pushTail (l := [out]) (m := [out]) h.confined.ready (by simp) (by simp) hlt (drainByte t k)
  have hdrop := Confined.dropHead (l := [s.sideIx]) (m := []) hpush.ready (List.mem_singleton.mpr rfl) 1
  have hside : (t.pushTail out (drainByte t k)).content s.sideIx = t.content s.sideIx :=
    hpush.content_eq h.confined.ready (hpush.rb_ne hout.symm)
      (by simpa using h.confined.storageApart (ha _ (by simp) _ (by simp) hout.symm))
  have hslen : (t.pushTail out (drainByte t k)).content s.slenIx = t.content s.slenIx :=
    hpush.content_eq h.confined.ready (hpush.rb_ne hlen.symm)
      (by simpa using h.confined.storageApart (ha _ (by simp) _ (by simp) hlen.symm))
  rw [hsideIx]
  refine ⟨h.confined.trans ((hpush.mono (by simp) (by simp)).trans (hdrop.mono (by simp) (by simp))), ?_, ?_, ?_, ?_,
    fun x hx => ?_⟩
  · rw [hdrop.rb (by simpa using hout), State.rb_pushTail_same, h.desc]
    rfl
  · rw [hdrop.content_eq hpush.ready (hdrop.rb (by simpa using hout)) (by simp),
      State.content_pushTail _ _ _ hlt (h.confined.ready.plain out), h.moved, hbyte, List.append_assoc, List.take_concat_get']
  · rw [State.content_dropHead, hside, h.left, List.drop_drop]
  · rw [hdrop.content_eq hpush.ready (hdrop.rb (by simpa using hne)) (by simp), hslen, h.lengths]
  · have hslot : x ≠ (t.rb out).addr (t.rb out).count := by rw [h.desc]; exact hx k (Nat.lt_succ_self k)
    exact (State.read_pushTail_ne h.confined.ready _ hlt hslot).trans (h.slots x fun j hj => hx j (by omega))

/-- DRAIN of an entry that stands in the side ring and fits out (R124). -/
theorem drain {n : Nat} (hr : Ready s) (ha : AllApart s [out, s.sideIx, s.slenIx])
    (hroom : (s.rb out).count + n ≤ (s.rb out).cap) (hn : n ≤ (s.rb s.sideIx).count) :
    Drained out n s (Machine.drain out n s) := by
  have hloop := forUp_index (fun j t => Drained out j s t) (fun k t => (t.pushTail out (drainByte t k)).dropHead t.sideIx 1) n 0
    (s.dropHead s.slenIx 1) (fun j t _ hj h => h.next hlen hne hout ha (by omega) (by omega)) (start hlen hne hr)
  rwa [Nat.zero_add] at hloop

end Drained

/-- LP_RECV for DATA with an entry of `n` bytes at the head of the side queue (R127). -/
theorem recvScan_draining {s : State} {c : RecvCtx} {n : Nat} (hw : c.want = 0) (hq : s.ls.sess.sqe = true)
    (hhead : (s.content s.slenIx).head? = some (BitVec.ofNat 8 n)) (hn : n < 256) :
    recvScan c s = if (s.rb c.out).cap - (s.rb c.out).count < n then s.complete .capacity Quad.zero
      else (drain c.out n s).complete .ok (quadOf n 1 512 0) := by
  obtain ⟨b, rest, hb⟩ : ∃ b rest, s.content s.slenIx = b :: rest := List.ne_nil_iff_exists_cons.mp (by rintro h; simp [h] at hhead)
  have hcount : 0 < (s.rb s.slenIx).count := by rw [← State.content_length, hb]; exact Nat.succ_pos _
  have hrd : s.rd s.slenIx 0 = BitVec.ofNat 8 n := by
    rw [← s.content_getElem s.slenIx 0 (by rwa [State.content_length]), List.getElem_of_eq hb]
    rw [hb] at hhead
    exact Option.some.inj hhead
  have hlen : (s.rd s.slenIx 0).toNat = n := by rw [hrd, BitVec.toNat_ofNat]; omega
  rw [recvScan, if_pos ⟨hq, hw, hcount⟩, hlen]
  rfl

/-- Settles O59: the entry does not fit, or DRAIN moves it. -/
theorem lpRecvDrainsSideQueue : Obligations.LpRecvDrainsSideQueue := by
  intro s c n hinv hz hp hw hl hq hhead hn
  obtain ⟨⟨hrings, hmem, _⟩, _, _, _, hnot⟩ := inv_iff.mp hinv
  obtain ⟨_, hdistinct⟩ := (hinv.linked (by rw [hp]; rfl)).distinct
  obtain ⟨_, _, _, _, hne⟩ := hdistinct hq
  have hout : c.out ∉ s.ls.sess.rings := by simpa using hnot c.out (by rw [hp]; rfl)
  have hstep := (engineStep_recvRx_nil hp hl).trans (congrArg _ (recvScan_draining hw hq hhead hn))
  refine ⟨fun hfull => ?_, fun hroom hside ha => ?_⟩
  · rw [hstep, if_pos hfull]
    exact congrArg _ (State.complete_error hz (by decide) _)
  · have hle := (hrings c.out).1
    have h := Drained.drain (out := c.out) (fun e => hout (e ▸ slen_mem_rings hq)) hne (fun e => hout (e ▸ side_mem_rings hq))
      ⟨hrings, hmem, hz⟩ ha (by omega) hside
    rw [if_neg (Nat.not_lt.mpr hroom)] at hstep
    exact ⟨_, hstep, h.confined.completed hz .ok _, h.moved, h.left, h.lengths, h.confined.works.ls, h.confined.env,
      h.confined.crcAcc, fun j h1 h2 h3 => h.confined.rb (by simp [h1, h2, h3]), h.slots⟩

end Sys2Proof.Machine

namespace Sys2Proof.Machine

/-! ## The wait at a frame that is not the acknowledgement in flight (R121, R122, R124) -/

/-! ### The verdicts of ACKWAIT (R122) -/

theorem State.dup_iff {s : State} {hash : Half} :
    s.dup hash = true ↔ s.ls.lastRx.valid = true ∧ hash = s.ls.lastRx.hash := by
  rw [State.dup, Bool.and_eq_true_iff, decide_eq_true_iff]

/-- The side queue has room for a frame (R124). -/
def QueueRoom (d : Frame) (s : State) : Prop :=
  d.plen ≤ (s.rb s.sideIx).cap - (s.rb s.sideIx).count ∧ (s.rb s.slenIx).count < (s.rb s.slenIx).cap

section
variable {hs : Half} {d : Frame} {s : State}

theorem classify_stale (hcode : d.code = 1#7) (hne : d.hash ≠ hs) : classify (.ackWait hs) d s = .drop :=
  (if_pos hcode).trans (if_neg hne)

theorem classify_duplicate (hcode : d.code = 0#7) (hq : s.ls.sess.sqe = true) (hdup : s.dup d.hash = true) :
    classify (.ackWait hs) d s = if d.ackW then .dropAck else .drop := by
  have hdata : d.code ≠ Config.codeAck := by rw [hcode]; decide
  exact (if_neg hdata).trans ((if_pos ⟨hcode, hq⟩).trans (if_pos hdup))

theorem classify_queued (hcode : d.code = 0#7) (hq : s.ls.sess.sqe = true) (hdup : ¬ s.dup d.hash = true) (hroom : QueueRoom d s) :
    classify (.ackWait hs) d s = .capture d.ackW := by
  have hdata : d.code ≠ Config.codeAck := by rw [hcode]; decide
  obtain ⟨hside, hslen⟩ := hroom
  exact (if_neg hdata).trans ((if_pos ⟨hcode, hq⟩).trans ((if_neg hdup).trans (if_pos ⟨hside, Nat.sub_pos_of_lt hslen⟩)))

theorem classify_left (hcode : d.code ≠ 1#7)
    (hno : ¬ ((d.code = 0#7 ∧ s.ls.sess.sqe = true) ∧ (s.dup d.hash = true ∨ QueueRoom d s))) :
    classify (.ackWait hs) d s = .keep := by
  refine (if_neg hcode).trans ?_
  by_cases hq : d.code = Config.codeData ∧ s.ls.sess.sqe = true
  · have hdup : ¬ s.dup d.hash = true := fun h => hno ⟨hq, .inl h⟩
    have hroom : ¬ ((s.rb s.sideIx).free ≥ d.plen ∧ (s.rb s.slenIx).free ≥ 1) := fun ⟨h1, h2⟩ =>
      hno ⟨hq, .inr ⟨h1, Nat.lt_of_sub_pos h2⟩⟩
    exact (if_pos hq).trans ((if_neg hdup).trans (if_neg hroom))
  · exact if_neg hq

end

/-! ### CAPTURE (R124) -/

/-- The session's rings are distinct, and so are those of its side queue (R125). -/
theorem Session.Distinct.queue {s : State} (hd : s.ls.sess.Distinct) (hq : s.ls.sess.sqe = true) :
    s.sideIx ≠ s.rxIx ∧ s.sideIx ≠ s.scrIx ∧ s.slenIx ≠ s.rxIx ∧ s.slenIx ≠ s.scrIx ∧ s.slenIx ≠ s.sideIx := hd.2 hq

/-- CAPTURE of a frame that fits the side queue (R124). -/
theorem captureFrame_spec {s : State} {d : Frame} {p : List Byte} (hr : Ready s) (hd : s.ls.sess.Distinct)
    (hq : s.ls.sess.sqe = true) (ha : AllApart s s.ls.sess.rings) (hroom : QueueRoom d s)
    (hscr : s.content s.scrIx = frameContent d.code d.ackW d.hash p) (hp : d.plen = p.length) :
    Confined [s.sideIx, s.slenIx] [s.sideIx, s.slenIx] (s.withLastRx { hash := d.hash, valid := true }) (captureFrame d s) ∧
      (captureFrame d s).content s.sideIx = s.content s.sideIx ++ p ∧
      (captureFrame d s).content s.slenIx = s.content s.slenIx ++ [BitVec.ofNat 8 p.length] := by
  obtain ⟨_, hsidescr, _, _, hslenside⟩ := hd.queue hq
  obtain ⟨hside, hslen⟩ := hroom
  have hside' : s.sideIx ∈ s.ls.sess.rings := side_mem_rings hq
  have hslen' : s.slenIx ∈ s.ls.sess.rings := slen_mem_rings hq
  have hcap : 0 < (s.rb s.scrIx).cap := scr_bound hr hscr
  have hle := (hr.1 s.sideIx).1
  obtain ⟨hcopy, hcopied⟩ := copyToTail_spec Config.hdrLen d.plen hr hsidescr.symm
    (ha _ (scr_mem_rings _) _ hside' hsidescr.symm) hcap (show (s.rb s.sideIx).count + d.plen ≤ (s.rb s.sideIx).cap by omega)
  rw [hp, slice_payload hscr, ← hp] at hcopied
  have hlt : ((copyToTail s.scrIx s.sideIx Config.hdrLen d.plen s).rb s.slenIx).count <
      ((copyToTail s.scrIx s.sideIx Config.hdrLen d.plen s).rb s.slenIx).cap := by rwa [hcopy.rb_ne hslenside]
  have hpush := Confined.pushTail (l := [s.slenIx]) (m := [s.slenIx]) hcopy.ready (by simp) (by simp) hlt (BitVec.ofNat 8 d.plen)
  have hwork : Confined [s.sideIx, s.slenIx] [s.sideIx, s.slenIx] s _ :=
    (hcopy.mono (by simp) (by simp)).trans (hpush.mono (by simp) (by simp))
  refine ⟨hwork.setLastRx d.hash, ?_, ?_⟩
  · rw [← hcopied]
    exact hpush.content_eq hcopy.ready (hpush.rb_ne hslenside.symm)
      (by simpa using hcopy.storageApart (ha _ hside' _ hslen' hslenside.symm))
  · rw [← hp, ← hcopy.content_eq hr (hcopy.rb_ne hslenside) (by simpa using ha _ hslen' _ hside' hslenside)]
    exact State.content_pushTail _ _ _ hlt (hcopy.ready.plain _)

/-- The captured frame is cut out of rx (R121). -/
theorem captured_cut {s : State} {d : Frame} {p w post : List Byte} (hr : Ready s) (hd : s.ls.sess.Distinct)
    (hq : s.ls.sess.sqe = true) (ha : AllApart s s.ls.sess.rings) (hroom : QueueRoom d s)
    (hscr : s.content s.scrIx = frameContent d.code d.ackW d.hash p) (hp : d.plen = p.length)
    (hrx : s.content s.rxIx = w ++ post) {x : State} (hx : x = cutRange s.rxIx 0 w.length (captureFrame d s)) :
    Confined [s.rxIx, s.sideIx, s.slenIx] [s.sideIx, s.slenIx] (s.withLastRx { hash := d.hash, valid := true }) x ∧
      x.content s.rxIx = post ∧ x.content s.sideIx = s.content s.sideIx ++ p ∧
      x.content s.slenIx = s.content s.slenIx ++ [BitVec.ofNat 8 p.length] := by
  obtain ⟨hsiderx, _, hslenrx, _⟩ := hd.queue hq
  obtain ⟨hcapture, hside, hslen⟩ := captureFrame_spec hr hd hq ha hroom hscr hp
  have hapart : ∀ j ∈ [s.sideIx, s.slenIx], StorageApart (s.withLastRx { hash := d.hash, valid := true }) s.rxIx j := fun j hj => by
    rcases List.mem_pair.mp hj with rfl | rfl
    · exact ha _ (rx_mem_rings _) _ (side_mem_rings hq) hsiderx.symm
    · exact ha _ (rx_mem_rings _) _ (slen_mem_rings hq) hslenrx.symm
  have hkept : (captureFrame d s).content s.rxIx = w ++ post :=
    (hcapture.content_eq (s := s.withLastRx { hash := d.hash, valid := true }) hr
      (hcapture.rb (by simp [hsiderx.symm, hslenrx.symm])) hapart).trans hrx
  obtain ⟨hcut, hpost⟩ := cut_frame hcapture.ready hkept
  rw [← hx] at hcut hpost
  refine ⟨(hcapture.mono (by simp) (by simp)).trans (hcut.mono (by simp) (by simp)), hpost, ?_, ?_⟩
  · rw [hcut.content_eq hcapture.ready (hcut.rb (by simpa using hsiderx)) (by simp), hside]
  · rw [hcut.content_eq hcapture.ready (hcut.rb (by simpa using hslenrx)) (by simp), hslen]

/-! ### How the wait goes on (R117, R118, R122) -/

/-- The state with ACKFAIL as given (R133). -/
def State.withAckFail (s : State) (b : Bool) : State := { s with status := { s.status with ackFail := b } }

theorem Confined.withAckFail {l m : List RingIx} {s t : State} (h : Confined l m s t) (b : Bool) :
    Confined l m (s.withAckFail b) (t.withAckFail b) where
  works := ⟨h.works.frozen, h.works.ls, by simp only [State.withAckFail, h.works.status], h.works.memOk, h.works.others⟩
  ready := h.ready
  shape := h.shape
  outside := h.outside

/-- How the wait in `s` goes on in `t`, once it has taken a frame out of rx and `post` is left there: with the next read of the
tick input, or before the first TX call of `ack`, or after an acknowledgement that does not fit the scratch ring (R118, R122). -/
structure WaitGoesOn (c : SendCtx) (aw : Bool) (post ack : List Byte) (s t : State) : Prop where
  plain : aw = false → t.phase = .sendT c ∧ t.content s.rxIx = [] ∧ t.status = s.status
  acked : aw = true → ack.length ≤ (s.rb s.scrIx).cap →
    t.phase = .sendAckTx c 0 0 ∧ t.content s.rxIx = post ∧ t.content s.scrIx = ack ∧ t.status = s.status ∧
      (s.env.txOk = true → s.env.agenda = [] →
        ∃ u : State, Host.Core.run Sys2Proof.core ack.length t = .next u ∧ u.phase = .sendT c ∧
          u.env = { s.env with sent := s.env.sent ++ ack } ∧ u.content s.rxIx = [] ∧ u.status = s.status ∧
          u.ls = t.ls ∧ u.crcAcc = s.crcAcc ∧ (∀ j : RingIx, j ≠ s.rxIx → u.rb j = t.rb j) ∧ MemKept t u)
  unacked : aw = true → (s.rb s.scrIx).cap < ack.length →
    t.phase = .sendT c ∧ t.content s.rxIx = [] ∧ t.status = { s.status with ackFail := true }

/-- The acknowledgement in the scratch ring goes out, and the scan finds nothing more in bytes without FLAG (R117, R118, R121). -/
theorem sendAck_run_no_flag {s : State} {c : SendCtx} {ack : List Byte} {i j : RingIx} (hr : Ready s) (hi : s.rxIx = i)
    (hj : s.scrIx = j) (hp : s.phase = .sendAckTx c 0 0) (hscr : s.content j = ack) (hne : 0 < ack.length)
    (hrx : (0x7E#8 : Byte) ∉ s.content i) (ho : s.env.txOk = true) (hq : s.env.agenda = []) :
    ∃ u : State, Host.Core.run Sys2Proof.core ack.length s = .next u ∧ u.phase = .sendT c ∧
      u.env = { s.env with sent := s.env.sent ++ ack } ∧ u.content i = [] ∧ u.status = s.status ∧ u.ls = s.ls ∧
      u.crcAcc = s.crcAcc ∧ (∀ r : RingIx, r ≠ i → u.rb r = s.rb r) ∧ MemKept s u := by
  subst hi hj
  obtain ⟨ph, hrun⟩ := sendAckTx_run hscr ho hq hne hp
  obtain ⟨v, hscan, hv, hempty⟩ := scan_no_flag (.ackWait c.hash)
    ((((s.sentOn ack).await ph).rb ((s.sentOn ack).await ph).rxIx).count) (s := (s.sentOn ack).await ph) hr hrx
  rw [waitScan_of_nothing hscan] at hrun
  exact ⟨_, hrun, rfl, hv.env, hempty, hv.works.status, hv.works.ls, hv.crcAcc,
    fun r hr => hv.rb (fun hm => hr (List.mem_singleton.mp hm)), fun a => hv.outside a (by simp)⟩

/-- The wait after a frame has left rx, with or without an acknowledgement of it (R118, R121, R122). -/
theorem waitScan_gone {l m : List RingIx} {s x : State} {lr : LastRx} {c : SendCtx} {aw : Bool} {hash : Half} {post ack : List Byte}
    {k : Nat} (h : Scannable s) (hk : Confined l m (s.withLastRx lr) x) (hrx : x.content s.rxIx = post)
    (hpost : (0x7E#8 : Byte) ∉ post) (hack : ack = wireFrame 1#7 false hash [])
    (hscan : scanAll (.ackWait c.hash) 0 s =
      if aw then scanAck (.ackWait c.hash) (k + 1) 0 hash x else scan (.ackWait c.hash) (k + 1) 0 x) :
    ∃ (v : State) (ph : Phase) (b : Bool), waitScan c 0 s = v.await ph ∧
      Confined [s.rxIx, s.scrIx] [s.scrIx] (x.withAckFail b) v ∧ WaitGoesOn c aw post ack s (v.await ph) := by
  have hrxIx : x.rxIx = s.rxIx := hk.rxIx
  have hscrIx : x.scrIx = s.scrIx := hk.scrIx
  have hst : x.status = s.status := hk.works.status
  have henv : x.env = s.env := hk.env
  have hkcrc : x.crcAcc = s.crcAcc := hk.crcAcc
  have hapart : StorageApart x s.rxIx s.scrIx := hk.storageApart h.apart
  have hcap : (x.rb s.scrIx).cap = (s.rb s.scrIx).cap := hk.cap s.scrIx
  cases aw with
  | false =>
    obtain ⟨v, hrest, hv, hempty⟩ := scan_no_flag (.ackWait c.hash) k hk.ready (by rw [hrxIx, hrx]; exact hpost)
    rw [if_neg Bool.false_ne_true, hrest] at hscan
    rw [hrxIx] at hv hempty
    refine ⟨v, _, x.status.ackFail, waitScan_of_nothing hscan, hv.mono (by simp) (by simp), ?_, ?_, ?_⟩
    · exact fun _ => ⟨rfl, hempty, hv.works.status.trans hst⟩
    · exact fun h => absurd h Bool.false_ne_true
    · exact fun h => absurd h Bool.false_ne_true
  | true =>
    obtain ⟨hb, hfits, hcont⟩ := build_spec Config.codeAck false hash [] hk.ready hack
    rw [hscrIx] at hb hfits hcont
    rw [hcap] at hfits
    have hrxb : (buildAck hash x).1.content s.rxIx = post :=
      (hb.content_eq hk.ready (hb.rb_ne h.ne) (by simpa using hapart)).trans hrx
    have hrxIxb : (buildAck hash x).1.rxIx = s.rxIx := hb.rxIx.trans hrxIx
    rw [if_pos rfl, scanAck] at hscan
    by_cases hok : (buildAck hash x).2 = true
    · rw [if_pos hok] at hscan
      refine ⟨_, _, x.status.ackFail, waitScan_of_ack hscan, hb.mono (by simp) (by simp),
        fun h => absurd h.symm Bool.false_ne_true, fun _ _ => ⟨rfl, hrxb, hcont hok, hb.works.status.trans hst, fun ho hq => ?_⟩,
        fun _ hlt => absurd (hfits.mp hok) (Nat.not_le.mpr hlt)⟩
      have henvb : (buildAck hash x).1.env = s.env := hb.env.trans henv
      have hrun := sendAck_run_no_flag (s := (buildAck hash x).1.await (.sendAckTx c 0 0)) hb.ready hrxIxb (hb.scrIx.trans hscrIx)
        rfl (hcont hok) (by rw [hack, wireFrame_length]; omega) (by rw [← hrxb] at hpost; exact hpost)
        ((congrArg Env.txOk henvb).trans ho) ((congrArg Env.agenda henvb).trans hq)
      rw [← henv, ← hst, ← hkcrc, ← hb.env, ← hb.works.status, ← hb.crcAcc]
      exact hrun
    · rw [if_neg hok] at hscan
      have hfail := hb.setAckFail
      obtain ⟨v, hrest, hv, hempty⟩ := scan_no_flag (.ackWait c.hash) k (s := (buildAck hash x).1.setAckFail) hfail.ready
        (by rw [← hrxb, ← hrxIxb] at hpost; exact hpost)
      have hrxIxf : (buildAck hash x).1.setAckFail.rxIx = s.rxIx := hrxIxb
      rw [hrest] at hscan
      rw [hrxIxf] at hv hempty
      have hall : Confined [s.rxIx, s.scrIx] [s.scrIx] (x.withAckFail true) v :=
        (hfail.mono (by simp) (by simp)).trans (hv.mono (by simp) (by simp))
      refine ⟨v, _, true, waitScan_of_nothing hscan, hall, fun h => absurd h.symm Bool.false_ne_true,
        fun _ hle => absurd (hfits.mpr hle) hok, fun _ _ => ⟨rfl, hempty, ?_⟩⟩
      rw [← hst]
      exact hall.works.status

end Sys2Proof.Machine

namespace Sys2Proof.Machine

/-! ### The frames a wait drops and captures (R121, R122, R124) -/

section
variable {s u : State} {c : SendCtx} {d : Frame} {w post ack : List Byte} {k : Nat} (h : Scannable s)
  (hk : Confined [s.rxIx, s.scrIx] [s.scrIx] s u) (hrx : u.content s.rxIx = w ++ post) (hpost : (0x7E#8 : Byte) ∉ post)
  (hack : ack = wireFrame 1#7 false d.hash [])
  (hscan : scanAll (.ackWait c.hash) 0 s = scanAct (.ackWait c.hash) (k + 1) w.length d u (classify (.ackWait c.hash) d u))
include h hk hrx hpost hack hscan

/-- The wait after a frame that it drops, acknowledging it or not. -/
theorem waitScan_dropped {a : Bool} (hv : classify (.ackWait c.hash) d u = if a then .dropAck else .drop) :
    ∃ (v : State) (ph : Phase) (b : Bool), waitScan c 0 s = v.await ph ∧
      Confined [s.rxIx, s.scrIx] [s.scrIx] (s.withAckFail b) v ∧ WaitGoesOn c a post ack s (v.await ph) := by
  obtain ⟨hcut, hcutrx⟩ := cut_frame hk.ready hrx
  have hall : Confined [s.rxIx, s.scrIx] [s.scrIx] (s.withLastRx s.ls.lastRx) (cutRange s.rxIx 0 w.length u) :=
    hk.trans (hcut.mono (by simp) (by simp))
  have hgone : scanAll (.ackWait c.hash) 0 s =
      if a then scanAck (.ackWait c.hash) (k + 1) 0 d.hash (cutRange s.rxIx 0 w.length u)
      else scan (.ackWait c.hash) (k + 1) 0 (cutRange s.rxIx 0 w.length u) := by
    rw [hscan, hv, ← hk.rxIx]
    cases a <;> rfl
  obtain ⟨v, ph, b, hwait, hvk, hgoes⟩ := waitScan_gone h hall hcutrx hpost hack hgone
  exact ⟨v, ph, b, hwait, (hall.withAckFail b).trans hvk, hgoes⟩

/-- The wait after a frame that it captures (log 12: acknowledged if the frame asks for it). -/
theorem waitScan_captured {p : List Byte} (hd : s.ls.sess.Distinct) (hq : s.ls.sess.sqe = true) (ha : AllApart s s.ls.sess.rings)
    (hroom : QueueRoom d u) (hscr : u.content s.scrIx = frameContent d.code d.ackW d.hash p) (hp : d.plen = p.length)
    (hv : classify (.ackWait c.hash) d u = .capture d.ackW) :
    ∃ (v : State) (ph : Phase) (b : Bool), waitScan c 0 s = v.await ph ∧
      Confined [s.rxIx, s.scrIx, s.sideIx, s.slenIx] [s.scrIx, s.sideIx, s.slenIx]
        ((s.withLastRx { hash := d.hash, valid := true }).withAckFail b) v ∧
      v.content s.sideIx = s.content s.sideIx ++ p ∧ v.content s.slenIx = s.content s.slenIx ++ [BitVec.ofNat 8 p.length] ∧
      WaitGoesOn c d.ackW post ack s (v.await ph) := by
  obtain ⟨hsiderx, hsidescr, hslenrx, hslenscr, _⟩ := hd.queue hq
  have hside : StorageApart s s.sideIx s.scrIx := ha _ (side_mem_rings hq) _ (scr_mem_rings _) hsidescr
  have hslen : StorageApart s s.slenIx s.scrIx := ha _ (slen_mem_rings hq) _ (scr_mem_rings _) hslenscr
  have hsess := hk.sess
  have hkside : u.content s.sideIx = s.content s.sideIx :=
    hk.content_eq h.ready (hk.rb (by simp [hsiderx, hsidescr])) (by simpa using hside)
  have hkslen : u.content s.slenIx = s.content s.slenIx :=
    hk.content_eq h.ready (hk.rb (by simp [hslenrx, hslenscr])) (by simpa using hslen)
  obtain ⟨x, hx⟩ : ∃ x, x = cutRange u.rxIx 0 w.length (captureFrame d u) := ⟨_, rfl⟩
  obtain ⟨hcapture, hcutrx, hxside, hxslen⟩ := captured_cut hk.ready (by rw [hsess]; exact hd) (by rw [hsess]; exact hq)
    (by rw [hsess]; exact hk.allApart ha) hroom (by rw [hk.scrIx]; exact hscr) hp (by rw [hk.rxIx]; exact hrx) hx
  have hgone : scanAll (.ackWait c.hash) 0 s =
      if d.ackW then scanAck (.ackWait c.hash) (k + 1) 0 d.hash x else scan (.ackWait c.hash) (k + 1) 0 x := by
    rw [hscan, hv, hx]
    cases d.ackW <;> rfl
  rw [hk.rxIx, hk.sideIx, hk.slenIx] at hcapture
  rw [hk.rxIx] at hcutrx
  rw [hk.sideIx, hkside] at hxside
  rw [hk.slenIx, hkslen] at hxslen
  have hall : Confined [s.rxIx, s.scrIx, s.sideIx, s.slenIx] [s.scrIx, s.sideIx, s.slenIx] _ x :=
    ((hk.withLastRx _).mono (by simp) (by simp)).trans (hcapture.mono (by simp) (by simp))
  obtain ⟨v, ph, b, hwait, hvk, hgoes⟩ := waitScan_gone h hall hcutrx hpost hack hgone
  refine ⟨v, ph, b, hwait, (hall.withAckFail b).trans (hvk.mono (by simp) (by simp)), ?_, ?_, hgoes⟩
  · rw [← hxside]
    exact hvk.content_eq hall.ready (hvk.rb (by simp [hsiderx, hsidescr])) (fun r hr => by rw [List.mem_singleton.mp hr]; exact hall.storageApart hside)
  · rw [← hxslen]
    exact hvk.content_eq hall.ready (hvk.rb (by simp [hslenrx, hslenscr])) (fun r hr => by rw [List.mem_singleton.mp hr]; exact hall.storageApart hslen)

end

/-- Settles O60: the verdict is a drop, a capture or KEEP, and the wait goes on after each. -/
theorem waitCapturesData : Obligations.WaitCapturesData := by
  intro s c code hash aw pre post p w ack hinv hz hp hl ha hplen hw hack hpre hpost hc hfit hnot queued dup room hqueued hdup hroom
  have hlinked := hinv.linked (by rw [hp]; rfl)
  have hdist := hlinked.distinct
  have hs : Scannable s := hinv.scannable hz hlinked.valid (ha _ (rx_mem_rings _) _ (scr_mem_rings _))
  obtain ⟨d, hd⟩ : ∃ d : Frame, d = { code := code, ackW := aw, hash := hash, plen := p.length } := ⟨_, rfl⟩
  obtain ⟨hdcode, hdack, hdhash, hdplen⟩ : d.code = code ∧ d.ackW = aw ∧ d.hash = hash ∧ d.plen = p.length := by simp [hd]
  obtain ⟨k, u, hscan, hk, hrx, hscr⟩ := scanAll_first_frame (.ackWait c.hash) hs hplen hw (Junk.noise hpre) hc hfit hd
  have hstep := engineStep_sendRx_nil hp hl
  rw [← hdhash] at hack
  have hqueued' : queued ↔ d.code = 0#7 ∧ u.ls.sess.sqe = true := by rw [hqueued, hdcode, hk.sess]
  have hdup' : dup ↔ u.dup d.hash = true := by rw [State.dup_iff, hdup, hdhash, hk.works.ls]
  have hroom' : queued → (room ↔ QueueRoom d u) := fun hq => by
    obtain ⟨hsiderx, hsidescr, hslenrx, hslenscr, _⟩ := hdist.queue (hqueued.mp hq).2
    rw [hroom, QueueRoom, hk.sideIx, hk.slenIx, hk.rb (by simp [hsiderx, hsidescr]), hk.rb (by simp [hslenrx, hslenscr]), hdplen]
  by_cases hstale : code = 1#7
  · have hnq : ¬ queued := fun hq => absurd ((hqueued.mp hq).1.symm.trans hstale) (by decide)
    obtain ⟨v, ph, b, hwait, hv, hgoes⟩ := waitScan_dropped hs hk hrx hpost hack hscan (a := false)
      (classify_stale (hdcode.trans hstale) (fun h => hnot ⟨hstale, hdhash.symm.trans h⟩))
    exact ⟨_, hstep.trans (congrArg _ hwait), hv.env, hv.crcAcc, hv.res, fun h => absurd h.1 hnq,
      fun _ => ⟨hv.works.ls, fun j h1 h2 => hv.rb (by simp [h1, h2]), hv.memKeptOutside⟩, fun _ => hgoes.plain rfl,
      fun hne => absurd hstale hne, fun h => absurd h.1 hnq, fun h => absurd h.1 hnq⟩
  by_cases hq : queued ∧ (dup ∨ room)
  · obtain ⟨hq, hor⟩ := hq
    obtain ⟨hcode, hsqe⟩ := hqueued'.mp hq
    by_cases hdp : dup
    · obtain ⟨v, ph, b, hwait, hv, hgoes⟩ := waitScan_dropped hs hk hrx hpost hack hscan (a := aw)
        (by rw [classify_duplicate hcode hsqe (hdup'.mp hdp), hdack])
      exact ⟨_, hstep.trans (congrArg _ hwait), hv.env, hv.crcAcc, hv.res, fun h => absurd hdp h.2.1,
        fun _ => ⟨hv.works.ls, fun j h1 h2 => hv.rb (by simp [h1, h2]), hv.memKeptOutside⟩,
        fun h => hgoes.plain (h.resolve_left hstale).2.2, fun _ hno => absurd ⟨hq, hor⟩ hno,
        fun h => hgoes.acked h.2.2, fun h => hgoes.unacked h.2.2⟩
    · have hr : room := hor.resolve_left hdp
      have hroomy : QueueRoom d u := (hroom' hq).mp hr
      obtain ⟨v, ph, b, hwait, hv, hside, hslen, hgoes⟩ := waitScan_captured hs hk hrx hpost hack hscan hdist (hqueued.mp hq).2 ha
        hroomy (by rw [hscr, hdcode, hdack, hdhash]) hdplen (classify_queued hcode hsqe (fun h => hdp (hdup'.mpr h)) hroomy)
      rw [hdack] at hgoes
      rw [hdhash] at hv
      exact ⟨_, hstep.trans (congrArg _ hwait), hv.env, hv.crcAcc, hv.res,
        fun _ => ⟨hside, hslen, hv.works.ls, fun j h1 h2 h3 h4 => hv.rb (by simp [h1, h2, h3, h4]), hv.outside⟩,
        fun h => absurd ⟨hq, hdp, hr⟩ h, fun h => hgoes.plain (h.resolve_left hstale).2.2, fun _ hno => absurd ⟨hq, hor⟩ hno,
        fun h => hgoes.acked h.2.2, fun h => hgoes.unacked h.2.2⟩
  · have hno : ¬ ((d.code = 0#7 ∧ u.ls.sess.sqe = true) ∧ (u.dup d.hash = true ∨ QueueRoom d u)) := fun ⟨h1, h2⟩ =>
      hq ⟨hqueued'.mpr h1, h2.imp hdup'.mpr (hroom' (hqueued'.mpr h1)).mpr⟩
    rw [classify_left (by rwa [hdcode]) hno, scanAct, scan_behind_frame _ k hw (by rw [hk.rxIx]; exact hrx) hpost] at hscan
    exact ⟨_, hstep.trans (congrArg _ (waitScan_of_nothing hscan)), hk.env, hk.crcAcc, hk.res,
      fun h => absurd ⟨h.1, .inr h.2.2⟩ hq,
      fun _ => ⟨hk.works.ls, fun j h1 h2 => hk.rb (by simp [h1, h2]), hk.memKeptOutside⟩,
      fun h => absurd (h.resolve_left hstale) (fun h => hq ⟨h.1, h.2.1⟩), fun _ _ => ⟨rfl, hrx, hk.works.status⟩,
      fun h => absurd ⟨h.1, h.2.1⟩ hq, fun h => absurd ⟨h.1, h.2.1⟩ hq⟩

end Sys2Proof.Machine

namespace Sys2Proof.Machine

/-! ## The machine goes on (R131) -/

/-- The outcome is a next state: neither a fault nor a refusal. -/
def GoesOn (o : Host.Outcome State Fault Refusal) : Prop := ∃ t, o = .next t

theorem goesOn_goOn (s : State) : GoesOn (goOn s) := ⟨s, rfl⟩

/-- A check decides how a command ends, and with either ending the machine goes on (R131). -/
theorem GoesOn.ite {c : Prop} [Decidable c] {o p : Host.Outcome State Fault Refusal} (ho : GoesOn o) (hp : GoesOn p) :
    GoesOn (if c then o else p) := by
  split
  · exact ho
  · exact hp

/-- A command with one check (R131). -/
theorem goesOn_checked {c : Prop} [Decidable c] (s t : State) : GoesOn (if c then goOn s else goOn t) :=
  (goesOn_goOn s).ite (goesOn_goOn t)

/-- No command faults, and every command has a meaning: each ending of each arm is a completion, or for LP_SEND and LP_RECV
the wait for a port (R36, R66, R131). -/
theorem exec_goesOn (i : Instr) (s : State) : GoesOn (exec i s) := by
  cases i with
  | nop => exact goesOn_goOn _
  | rbInit ra => exact goesOn_checked _ _
  | rbPusho ra ea => exact goesOn_checked _ _
  | rbPushb ra ea =>
    cases ea with
    | tail => exact goesOn_checked _ _
    | head => exact goesOn_checked _ _
  | rbPull ra ea discard => exact goesOn_checked _ _
  | rbRead ra ea => exact goesOn_checked _ _
  | rbWrite ra ea => exact goesOn_checked _ _
  | rbCut ra ea discard => exact goesOn_checked _ _
  | rbMove ra ea rb eb destr => exact goesOn_checked _ _
  | rbRotl ra dir => exact (goesOn_goOn _).ite ((goesOn_goOn _).ite (goesOn_checked _ _))
  | rbRotp ra => exact goesOn_checked _ _
  | rbFull ra => exact goesOn_checked _ _
  | rbEmpty ra => exact goesOn_checked _ _
  | rbFlush ra => exact goesOn_checked _ _
  | fsMatch ra sel tie => exact goesOn_checked _ _
  | fsSearch ra rb => exact goesOn_checked _ _
  | fsSrchadv ra rb flags => exact goesOn_checked _ _
  | bsStuff ra => exact goesOn_checked _ _
  | bsUnstuff ra => exact goesOn_checked _ _
  | crcSeed => exact goesOn_goOn _
  | crcByte => exact goesOn_goOn _
  | crcRun ra => exact goesOn_checked _ _
  | crcAppend ra => exact (goesOn_goOn _).ite (goesOn_checked _ _)
  | crcCheck ra => exact goesOn_checked _ _
  | lpInit => exact goesOn_checked _ _
  | lpSend ra ack => exact (goesOn_goOn _).ite (goesOn_checked _ _)
  | lpRecv ra want => exact goesOn_checked _ _

/-- A latched word is executed, or completes with ILLEGAL (R67). -/
theorem executeLatched_goesOn (s : State) : GoesOn (executeLatched s) := by
  unfold executeLatched
  split
  · exact exec_goesOn _ s
  · exact goesOn_goOn _

/-- The engine goes on in every phase: idle, at a latched word, and at each call of a running link command (R36, R144). -/
theorem engineStep_goesOn (s : State) : GoesOn (engineStep s) := by
  unfold engineStep
  cases s.phase with
  | fetch => exact executeLatched_goesOn s
  | idle | sendTx | sendT0 | sendRx | sendAckTx | sendT | recvRx | recvAckTx => exact goesOn_goOn _

/-- The engine is the only agent whose move could stop the machine, and it goes on (R7, R131). -/
theorem eventStep_goesOn (e : Event) (s : State) : GoesOn (eventStep e s) := by
  cases e with
  | engine => exact engineStep_goesOn s
  | host | tick | rxByte | txReady | reset => exact goesOn_goOn _

/-- Settles O14: with no move planned the engine moves, else the agent whose move is next, and either goes on. -/
theorem everyStepGoesOn : Obligations.EveryStepGoesOn := by
  intro s
  change GoesOn (step s)
  unfold step
  split
  · exact engineStep_goesOn s
  · exact eventStep_goesOn _ _

end Sys2Proof.Machine

namespace Sys2Proof.Machine

/-! ## Reset (R145, R146) -/

theorem step_reset {s : State} {rest : List Event} (h : s.env.agenda = .reset :: rest) :
    step s = .next (hardReset s.nextMove) := by
  simp [step, h, eventStep, goOn]

/-! ### What reset leaves of the block -/

@[simp] theorem hardReset_irqEn (s : State) : (hardReset s).irqEn = false := rfl
@[simp] theorem hardReset_status (s : State) : (hardReset s).status = Status.reset := rfl
@[simp] theorem hardReset_arg (s : State) : (hardReset s).arg = Quad.zero := rfl
@[simp] theorem hardReset_res (s : State) : (hardReset s).res = Quad.zero := rfl
@[simp] theorem hardReset_sr (s : State) : (hardReset s).sr = SearchRegs.reset := rfl
@[simp] theorem hardReset_crcAcc (s : State) : (hardReset s).crcAcc = Config.crcInit := rfl
@[simp] theorem hardReset_ls (s : State) : (hardReset s).ls = LinkRegs.reset := rfl
@[simp] theorem hardReset_phase (s : State) : (hardReset s).phase = .idle := rfl
@[simp] theorem hardReset_addrW (s : State) : (hardReset s).addrW = s.addrW := rfl
@[simp] theorem hardReset_env (s : State) : (hardReset s).env = s.env := rfl

@[simp] theorem hardReset_rb (s : State) (i : RingIx) : (hardReset s).rb i = Desc.reset := by
  simp [State.rb, hardReset, State.reset]

/-- IRQ is low after reset, which clears both DONE and IRQ_EN (R134, R145). -/
@[simp] theorem hardReset_irq (s : State) : (hardReset s).irq = false := by simp [State.irq]

/-- The session registers a host reads after reset are 0 in every word that packs several fields (R18, R145). -/
theorem LinkRegs.reset_words :
    LinkRegs.reset.cfgWord = 0#32 ∧ LinkRegs.reset.sessWord = 0#32 ∧ LinkRegs.reset.lastRxWord = 0#32 ∧
      LinkRegs.reset.stateWord = 0#32 := by decide

/-! ### What reset leaves of MEM -/

/-- Free values at the addresses of a write list leave every other byte (R146; log 9). -/
theorem read_scramble_ne (n x : Nat) (l : List WriteRec) {m : Memory} (hm : m.wf = true) (hl : ∀ w ∈ l, w.addr ≠ x) :
    (scramble n l m).read x = m.read x := by
  induction l generalizing m with
  | nil => rfl
  | cons w l ih =>
    obtain ⟨hw, hl⟩ := List.forall_mem_cons.mp hl
    calc (scramble n (w :: l) m).read x
        = (m.write w.addr (Config.abandonedByte n w.addr)).read x := ih (Memory.wf_write _ _ _ hm) hl
      _ = m.read x := Memory.read_write_ne _ _ _ _ hm hw.symm

/-- A reset that abandons no command leaves MEM (R145). -/
theorem hardReset_mem_idle {s : State} (h : s.phase = .idle) : (hardReset s).mem = s.mem := by
  simp [hardReset, pendingWrites_idle h, scramble]

/-- A reset leaves every byte the command it abandons was not writing (R146). -/
theorem hardReset_mem_read {s : State} (hm : s.mem.wf = true) (x : Nat) (hx : ∀ w ∈ s.pendingWrites, w.addr ≠ x) :
    (hardReset s).mem.read x = s.mem.read x := read_scramble_ne s.draws x s.pendingWrites hm hx

/-- Settles O13: the registers are those of `State.reset`, and MEM changes by `scramble` over the pending writes alone. -/
theorem resetLeavesResetValues : Obligations.ResetLeavesResetValues := by
  intro s rest hm ha
  obtain ⟨hcfg, hsess, hlast, hstate⟩ := LinkRegs.reset_words
  exact ⟨hardReset s.nextMove, step_reset ha, hardReset_irqEn _, hardReset_status _, hardReset_arg _, hardReset_res _,
    ⟨rfl, rfl, rfl, rfl, rfl, rfl, rfl, rfl, rfl⟩, hardReset_crcAcc _, hcfg, hsess, rfl, rfl, rfl, hlast, hstate,
    hardReset_rb _, hardReset_phase _, hardReset_irq _, hardReset_addrW _, hardReset_env _,
    hardReset_mem_idle (s := s.nextMove), hardReset_mem_read (s := s.nextMove) hm⟩

end Sys2Proof.Machine
